-- ==== Sys2Proof/Word.lean ====
section
/-! DEFINITION. The byte type of the flash array, of bursts and of attach frames. -/

namespace Sys2Proof

/-- One byte (R1, R57, R196). -/
abbrev Byte := BitVec 8

/-- A 32-bit check (R213). -/
abbrev Check := BitVec 32

end Sys2Proof
end

