-- ==== Sys2Proof/Syntax.lean ====
section
/-! DEFINITION. The commands of the block: one constructor per row of spec/opcode_table.json, with the operands the
event brings with it from outside the part. -/

namespace Sys2Proof

/-- The outcome of a page program, mark program or block erase (Table 1-9). -/
inductive FlashOutcome where
  | pass
  | fail
  deriving DecidableEq, Repr

/-- One carrier period as the receiver saw it (R57, R59): its whole bytes, the bits after the last whole byte, and
whether a bit read as a code fault. -/
structure CarrierPeriod where
  bytes : List Byte
  strayBits : Nat
  codeFault : Bool
  deriving DecidableEq, Repr

/-- The commands. An attach command frame carries the whole bytes clocked after its identifier: the parameter length
and the parameters (R196, R214). -/
inductive Instr where
  /-- R40: the supply falls below the release level. -/
  | powerOnReset
  /-- R40: RST is driven low. -/
  | pinReset
  /-- R41: the reset is released; `straps` is what the five strap pins read at that instant. -/
  | resetRelease (straps : BitVec 5)
  /-- R43, R44, R46: a spare read of the store scan completes. -/
  | scanSpareReadDone
  /-- R44, R46: a page read of the store scan completes. -/
  | scanPageReadDone
  /-- R45: an erase of the store scan completes. -/
  | scanEraseDone (outcome : FlashOutcome)
  /-- R45: a mark program of the store scan completes. -/
  | scanMarkDone (outcome : FlashOutcome)
  /-- R36: the spare read of a lookup completes. -/
  | lookupSpareReadDone
  /-- R37: the page read of a lookup completes. -/
  | lookupPageReadDone
  /-- R8: the register transfer of a fresh program ends. -/
  | transferEnd
  /-- R9: a page program completes. -/
  | programDone (outcome : FlashOutcome)
  /-- R34: a mark program of SM completes. -/
  | markProgramDone (outcome : FlashOutcome)
  /-- R33: a block erase of SM completes. -/
  | eraseDone (outcome : FlashOutcome)
  /-- R63: carrier begins on the line. -/
  | carrierBegin
  /-- R59: a carrier period ends; `period` is what the receiver saw of it. -/
  | carrierEnd (period : CarrierPeriod)
  /-- R64: the next own slot under the current reference starts. -/
  | ownSlotStart
  /-- R66: a bit read back differs from the bit driven. -/
  | mismatchDetected
  /-- R73: the last bit of the burst check has been sent without mismatch. -/
  | burstSent
  /-- R67: the jam ends; `carrierRemains` says whether carrier is still present. -/
  | jamEnd (carrierRemains : Bool)
  /-- R69: the 1 ms quiet limit expires. -/
  | quietLimitExpiry
  /-- R100. -/
  | reportTimerExpiry
  /-- R102. -/
  | spacingTimerExpiry
  /-- R99: the silence timer of station `peer` expires. -/
  | silenceTimerExpiry (peer : Nat)
  /-- R131: the timer of reassembly slot `slot` expires. -/
  | slotTimerExpiry (slot : Nat)
  /-- R145. -/
  | flushTimerExpiry
  /-- R173: the timer of the ask entry in place `place` expires. -/
  | askTimerExpiry (place : Nat)
  /-- R193. -/
  | noticeDelayTimerExpiry
  /-- R55. -/
  | listenIntervalEnd
  /-- R197: a response read of which `clocks` whole bytes followed the identifier. -/
  | responseRead (clocks : Nat)
  /-- R200. -/
  | status (rest : List Byte)
  /-- R201. -/
  | configure (rest : List Byte)
  /-- R52: the start controller takes the oldest CONFIGURE handed to it; `carrier` says whether carrier is present on the
  line at that instant (R54, R69). -/
  | configureTaken (carrier : Bool)
  /-- R201. -/
  | submit (rest : List Byte)
  /-- R108: SU takes the SUBMIT handed to it. -/
  | submitTaken
  /-- R202. -/
  | fetch (rest : List Byte)
  /-- R204. -/
  | fetchResult (rest : List Byte)
  /-- R205. -/
  | holdings (rest : List Byte)
  /-- R206. -/
  | notices (rest : List Byte)
  /-- R207. -/
  | counters (rest : List Byte)
  /-- R208. -/
  | restart (rest : List Byte)
  /-- R198: a command frame whose identifier `id` names no command. -/
  | unknownCommand (id : Byte) (rest : List Byte)
  deriving DecidableEq, Repr

/-- The identifiers of Table 12-7, RESPONSE among them. -/
def knownIdentifiers : List Byte := [0x80, 0x01, 0x02, 0x03, 0x04, 0x05, 0x06, 0x07, 0x08, 0x09]

end Sys2Proof
end

