-- ==== Sys2Proof/Decode.lean ====
section
/-! DEFINITION. The command a table word spells, and the command that an attach transaction spells. No row of
spec/opcode_table.json gives bits ("fields" is empty and there is no "fixed" for all 41 rows), so no table word spells a command;
the bytes of a transaction do, by the identifiers of Table 12-7. -/

namespace Sys2Proof

/-- The command that the `nbits` bits of `w` spell by spec/opcode_table.json: none, since no row gives bits. -/
def decodeTableWord (_nbits _w : Nat) : Option Instr := none

/-! ## Attach transactions (R196, R198, R214) -/

/-- The byte of eight bits, most significant first. -/
def byteOf (bits : List Bool) : Byte := BitVec.ofNat 8 (bits.foldl (fun n b => 2 * n + b.toNat) 0)

/-- R196: the whole bytes clocked in a transaction; bits that do not complete a byte are discarded. -/
def wholeBytes : List Bool → List Byte
  | b7 :: b6 :: b5 :: b4 :: b3 :: b2 :: b1 :: b0 :: bits => byteOf [b7, b6, b5, b4, b3, b2, b1, b0] :: wholeBytes bits
  | _ => []

/-- Table 12-7: the identifier of a response read. -/
def responseIdentifier : Byte := 0x80

/-- Table 12-7: the identifier of each command frame, with the command that the bytes after it make. -/
def frameCommands : List (Byte × (List Byte → Instr)) :=
  [(0x01, .status), (0x02, .configure), (0x03, .submit), (0x04, .fetch), (0x05, .fetchResult), (0x06, .holdings),
    (0x07, .notices), (0x08, .counters), (0x09, .restart)]

/-- R196, R198 test 1, R214: the command of a transaction with identifier `id` and the whole bytes `rest` after it. What the local
controller sends after the identifier of a response read is ignored but for how many bytes it clocks. -/
def commandOf (id : Byte) (rest : List Byte) : Instr :=
  if id = responseIdentifier then .responseRead rest.length
  else
    match frameCommands.find? fun c => c.1 == id with
    | some c => c.2 rest
    | none => .unknownCommand id rest

/-- R196: the command of a transaction of these bits; none where no whole byte was clocked. -/
def transactionOf (bits : List Bool) : Option Instr :=
  match wholeBytes bits with
  | [] => none
  | id :: rest => some (commandOf id rest)

end Sys2Proof
end

