-- ==== Sys2Proof/Config.lean ====
section
/-! DEFINITION. The fixed sizes of the part, and the free values: constants without a body, so that nothing can
be proved of the value the spec leaves open. Each is applied to the number of the draw (State.fresh). -/

namespace Sys2Proof.Config

/-- R1: blocks of the array. -/
def blocks : Nat := 640
/-- R1: pages of a block. -/
def pagesPerBlock : Nat := 48
/-- R1: data bytes of a page. -/
def dataBytes : Nat := 3072
/-- R1: spare bytes of a page. -/
def spareBytes : Nat := 96
/-- R1: bytes of a page, data and spare. -/
def pageBytes : Nat := 3168
/-- R1: bytes of the whole array. -/
def arrayBytes : Nat := 640 * 48 * 3168
/-- R77, R106: the largest sequence number; a floor cannot pass it (R88). -/
def maxSeq : Nat := 4294967295
/-- R24: the largest open stamp. -/
def maxStamp : Nat := 4294967294
/-- The number of stations and origins the tables hold (R77, R92, R97). -/
def maxStations : Nat := 24
/-- R84: the span limit. -/
def spanLimit : Nat := 4096
/-- R78: ranges a gap list holds. -/
def maxGaps : Nat := 6
/-- R141: references the commit queue holds. -/
def queuePlaces : Nat := 12
/-- R188: notices the notice queue holds. -/
def noticePlaces : Nat := 32
/-- R106: bytes of the longest record. -/
def maxPayload : Nat := 1920
/-- R113: payload bytes of a full segment. -/
def segmentBytes : Nat := 240

/-- FREE VALUE. Byte `i` of draw `n`: the content of a torn page (R2, log 7), of a page left undefined by a failed
or cut-short erase (R11, R18, log 9), the bits a failed mark program may leave set (R10, log 8). -/
opaque freeByte (n i : Nat) : BitVec 8

/-- FREE VALUE. Draw `n`: whether a mark program cut short by a reset has landed (R18, log 8). -/
opaque freeMarkLanded (n : Nat) : Bool

/-- FREE VALUE. Draw `n`: whether the claims that follow from a completion have arrived when the arbiter grants at that
completion (R16, log 11). -/
opaque freeClaimFirst (n : Nat) : Bool

end Sys2Proof.Config
end

