-- ==== Sys2Proof/Machine/State.lean ====
section
/-! DEFINITION. The state of one MKL2410 station as plain data, a component for each block of Table 1-2, and its value
after reset. Sequence numbers, stamps and floors are Nats bounded by their 32-bit fields; what the spec treats as bits
(bytes, checks, straps) is a bit vector. INVENTORY.md lists every field with its rule and reset value. -/

namespace Sys2Proof.Machine

/-! ## The flash controller (chapter 1) -/

/-- The array: (address, byte) pairs, addresses strictly rising, no byte FFh listed (R2, log 6). -/
abbrev Memory := List Host.Cell

/-- A page named by block and page number (R1). -/
structure PageAddr where
  block : Nat
  page : Nat
  deriving DecidableEq, Repr

/-- One entry of a record list: origin, sequence number, data offset of the record header (R22). -/
structure ListEntry where
  origin : Nat
  seq : Nat
  offset : Nat
  deriving DecidableEq, Repr

/-- Table 1-10. -/
inductive FillState where
  | empty
  | opened
  | closed
  deriving DecidableEq, Repr

/-- R12: the fill register. `list` is both the list of placed records, in placement order, and the record list entries
for the spare area; `data` holds the spans placed so far. -/
structure FillReg where
  state : FillState
  list : List ListEntry
  data : List Byte
  deriving DecidableEq, Repr

/-- R13: one page's data part with its record list. -/
structure Image where
  data : List Byte
  list : List ListEntry
  deriving DecidableEq, Repr

/-- R13. -/
inductive ArrayRegState where
  | idle
  | programming
  deriving DecidableEq, Repr

/-- R13: the array register. -/
structure ArrayReg where
  state : ArrayRegState
  image : Option Image
  target : Option PageAddr
  deriving DecidableEq, Repr

/-- R14: the read register. -/
structure ReadReg where
  page : Option PageAddr
  spare : Option (List Byte)
  data : Option (List Byte)
  deriving DecidableEq, Repr

/-- R35: who asked for a lookup. -/
inductive Requester where
  | fetch
  | serve
  deriving DecidableEq, Repr

/-- R6, R7. -/
inductive ReadKind where
  | spare
  | page
  deriving DecidableEq, Repr

/-- R148: a page program's binding: target, open stamp and own-top mark. -/
structure ProgramClaim where
  target : PageAddr
  stamp : Nat
  ownTop : Nat
  deriving DecidableEq, Repr

/-- R15: a lookup step waiting for the array. -/
structure StepClaim where
  kind : ReadKind
  page : PageAddr
  deriving DecidableEq, Repr

/-- R15: a mark program waiting for the array: page 0 of `block`, the byte to write. -/
structure MarkClaim where
  block : Nat
  value : Byte
  deriving DecidableEq, Repr

/-- R16: the one operation the array carries. -/
inductive Op where
  /-- the scan's reads, erase and mark program (R17) -/
  | scanSpareRead (page : PageAddr)
  | scanPageRead (page : PageAddr)
  | scanErase (block : Nat)
  | scanMark (block : Nat) (value : Byte)
  /-- a lookup's read (R36, R37) -/
  | lookupRead (who : Requester) (kind : ReadKind) (page : PageAddr)
  /-- the 6 µs transfer of a fresh program (R8) -/
  | transfer (claim : ProgramClaim)
  /-- the program itself (R8) -/
  | program (claim : ProgramClaim)
  /-- SM's mark program and erase (R10, R11) -/
  | mark (block : Nat) (value : Byte)
  | erase (block : Nat)
  deriving DecidableEq, Repr

/-- The flash controller. `progFlags` and `markFlags` list the indexes block × 48 + page of the pages whose one-time flag
is set, strictly rising (R4). -/
structure Fc where
  mem : Memory
  progFlags : List Nat
  markFlags : List Nat
  op : Option Op
  fill : FillReg
  array : ArrayReg
  read : ReadReg
  programClaim : Option ProgramClaim
  fetchClaim : Option StepClaim
  serveClaim : Option StepClaim
  markClaims : List MarkClaim
  eraseClaim : Option Nat
  deriving DecidableEq, Repr

/-! ## The store manager (chapter 2) -/

/-- R24. -/
inductive RetireCause where
  | factory
  | worn
  deriving DecidableEq, Repr

/-- R24, Table 2-4. -/
inductive BlockState where
  | free
  | opened
  | sealed
  | retiring
  | erasing
  | retired (cause : RetireCause)
  deriving DecidableEq, Repr

/-- R30: one line of a block summary. -/
structure SummaryLine where
  origin : Nat
  lowest : Nat
  highest : Nat
  deriving DecidableEq, Repr

/-- R24: one entry of the block table. -/
structure BlockEntry where
  state : BlockState
  stamp : Option Nat
  pages : Nat
  summary : List SummaryLine
  deriving DecidableEq, Repr

/-- R155. -/
inductive Pressure where
  | normal
  | low
  | tight
  deriving DecidableEq, Repr

/-- R38: where a lookup's step stands: its claim waits, its read runs, or its read runs and is to be discarded. -/
inductive LookupStep where
  | waiting
  | running
  | leaving
  deriving DecidableEq, Repr

/-- R35: the state of a lookup. `bound` is none while it is above every block; `offset` is the data offset R36
remembers. -/
structure Lookup where
  origin : Nat
  seq : Nat
  block : Option Nat
  page : Nat
  offset : Nat
  bound : Option (Nat × Nat)
  damaged : Bool
  step : LookupStep
  deriving DecidableEq, Repr

/-- The store manager. `reclaimDue` is the model's own (log 13). -/
structure Sm where
  table : Vector BlockEntry 640
  stampHigh : Nat
  lastOpened : Nat
  newestPage : Option PageAddr
  pressure : Pressure
  fetchLookup : Option Lookup
  serveLookup : Option Lookup
  reclaimDue : Bool
  deriving DecidableEq, Repr

/-! ## The holdings unit (chapter 5) -/

/-- A range [lo, hi] of sequence numbers. -/
structure Range where
  lo : Nat
  hi : Nat
  deriving DecidableEq, Repr

/-- R77: a holdings entry. -/
structure Entry where
  floor : Nat
  top : Nat
  gaps : List Range
  deriving DecidableEq, Repr

/-- R92: the pair (F, C) of a known cell. -/
structure Pair where
  floor : Nat
  frontier : Nat
  deriving DecidableEq, Repr

/-- R97. -/
inductive Presence where
  | unknown
  | present
  | silent
  deriving DecidableEq, Repr

/-- The holdings unit. A known matrix row lists the pairs of columns 1, 2, …, N (R92). -/
structure Hu where
  entries : Vector Entry 24
  matrix : Vector (Option (List Pair)) 24
  presence : Vector Presence 24
  silence : Vector Bool 24
  reportTimer : Bool
  spacingTimer : Bool
  reportPending : Bool
  line2 : Bool
  line3 : Bool
  conflictNoted : List Nat
  durable : Nat
  deriving DecidableEq, Repr

/-! ## The submit unit (chapter 6) -/

/-- R106: the record a submit entry carries; its length is that of its payload. -/
structure OwnRecord where
  seq : Nat
  check : Check
  payload : List Byte
  deriving DecidableEq, Repr

/-- R106. -/
inductive SubmitEntry where
  | free
  | queued (record : OwnRecord)
  | sending (record : OwnRecord) (count : Nat) (next : Nat)
  deriving DecidableEq, Repr

/-- The submit unit. -/
structure Su where
  entries : Vector SubmitEntry 8
  deriving DecidableEq, Repr

/-! ## The reassembly unit (chapter 7) -/

/-- R122: what a slot in use holds. `parts` lists the received indexes in ascending order, each with its payload bytes:
the received set and the defined bytes of the payload buffer. -/
structure SlotData where
  origin : Nat
  seq : Nat
  count : Nat
  length : Nat
  check : Check
  parts : List (Nat × List Byte)
  deriving DecidableEq, Repr

/-- R122. The slot timer runs exactly in FILLING. -/
inductive Slot where
  | free
  | filling (data : SlotData)
  | complete (data : SlotData)
  deriving DecidableEq, Repr

/-- The reassembly unit; `waitList` names slots (R133). -/
structure Ra where
  slots : Vector Slot 8
  waitList : List Nat
  deriving DecidableEq, Repr

/-! ## The commit engine (chapter 8) -/

/-- R141: a reference to a COMPLETE slot or a QUEUED entry. -/
inductive Ref where
  | slot (i : Nat)
  | entry (i : Nat)
  deriving DecidableEq, Repr

/-- R146. -/
inductive CommitState where
  | idle
  | filling
  | programming
  | stalled
  deriving DecidableEq, Repr

/-- The commit engine. -/
structure Ce where
  queue : List Ref
  flushTimer : Bool
  state : CommitState
  deriving DecidableEq, Repr

/-! ## The line controller (chapter 4) -/

/-- R65. -/
inductive LcState where
  | dormant
  | seeking
  | deferring
  | hearing
  | sending
  | jamming
  | trailing
  deriving DecidableEq, Repr

/-- R69: the carrier period SEEKING tracks. -/
inductive Tracked where
  | quiet
  | fromStart
  | inProgress
  deriving DecidableEq, Repr

/-- R73: what a chosen burst is for, as its owner is told when it has been sent. -/
inductive BurstItem where
  | refuse
  | report
  | hail
  | resend
  | ownSeg (seq : Nat) (last : Bool)
  | ask (origin : Nat) (target : Nat)
  deriving DecidableEq, Repr

/-- R73: the chosen burst with its whole content as it goes onto the line, preamble to burst check; `contested` says
whether an own SEG offer stood when it was chosen (R72). -/
structure ChosenBurst where
  item : BurstItem
  bytes : List Byte
  contested : Bool
  deriving DecidableEq, Repr

/-- The line controller. `slotCount` is the number of the last own slot begun under the reference (R62, log 27). -/
structure Lc where
  state : LcState
  hasReference : Bool
  lastSender : Nat
  slotCount : Option Nat
  tracked : Tracked
  quietLimit : Bool
  rx : CarrierPeriod
  chosen : Option ChosenBurst
  fairness : Nat
  deriving DecidableEq, Repr

/-! ## The repair unit (chapter 9) -/

/-- R166: WAITING, or ASKED with its responder, ASK due flag and ask timer. -/
inductive AskState where
  | waiting
  | asked (responder : Nat) (due : Bool) (timer : Bool)
  deriving DecidableEq, Repr

/-- R166. -/
structure AskEntry where
  origin : Nat
  first : Nat
  count : Nat
  tries : Nat
  skip : List Nat
  state : AskState
  deriving DecidableEq, Repr

/-- R177. -/
structure ServeJob where
  asker : Nat
  origin : Nat
  first : Nat
  count : Nat
  next : Nat
  deriving DecidableEq, Repr

/-- R178: a due REFUSE BUSY. -/
structure BusyRefusal where
  asker : Nat
  origin : Nat
  number : Nat
  deriving DecidableEq, Repr

/-- R178: the head job's due NOT-HELD; `older` counts the BUSY refusals in the list that were made before it. -/
structure NotHeldRefusal where
  number : Nat
  older : Nat
  deriving DecidableEq, Repr

/-- R180: the serve record buffer's record. -/
structure ServeRecord where
  origin : Nat
  seq : Nat
  check : Check
  payload : List Byte
  next : Nat
  deriving DecidableEq, Repr

/-- The repair unit. `rerunDue` is the model's own (log 14). -/
structure Rp where
  asks : Vector (Option AskEntry) 4
  rotation : Nat
  jobs : List ServeJob
  notHeld : Option NotHeldRefusal
  busy : List BusyRefusal
  buffer : Option ServeRecord
  rerunDue : Bool
  deriving DecidableEq, Repr

/-! ## The notice unit (chapter 10) -/

/-- R189: the cause of BLOCK-RETIRED. -/
inductive NoticeCause where
  | program
  | erase
  deriving DecidableEq, Repr

/-- Table 10-2. -/
inductive Notice where
  | durable (seq : Nat)
  | arrived (origin : Nat) (seq : Nat)
  | lost (origin : Nat) (first : Nat) (last : Nat)
  | peerPresent (station : Nat)
  | peerSilent (station : Nat)
  | storeFull
  | storeOk
  | blockRetired (block : Nat) (cause : NoticeCause)
  | ownConflict (station : Nat) (value : Nat)
  deriving DecidableEq, Repr

/-- R193. -/
inductive DelayTimer where
  | stopped
  | running
  | expired
  deriving DecidableEq, Repr

/-- The notice unit; `attn` is true while ATTN is asserted. -/
structure Nu where
  queue : List Notice
  overflow : Bool
  delayTimer : DelayTimer
  attn : Bool
  deriving DecidableEq, Repr

/-! ## The attach port (chapter 11) -/

/-- Table 11-5. -/
inductive Status where
  | ok
  | accepted
  | wait
  | pending
  | notReady
  | busy
  | full
  | badLength
  | badConfig
  | badOrigin
  | badFrame
  | notHeld
  | lost
  | damaged
  | exhausted
  | refusedState
  | unknownCommand
  deriving DecidableEq, Repr

/-- A held response; `armsReset` marks the OK of a RESTART (R208). -/
structure Response where
  status : Status
  data : List Byte
  armsReset : Bool
  deriving DecidableEq, Repr

/-- R197. -/
inductive ResponseSlot where
  | empty
  | awaiting
  | ready (response : Response)
  deriving DecidableEq, Repr

/-- R201: a SUBMIT handed to SU; `owed` says whether the response slot still awaits its answer (R197). -/
structure HandedSubmit where
  length : Nat
  payload : List Byte
  owed : Bool
  deriving DecidableEq, Repr

/-- R201: a CONFIGURE handed to the start controller. -/
structure HandedConfigure where
  params : List Byte
  owed : Bool
  deriving DecidableEq, Repr

/-- R203. -/
inductive FetchOutcome where
  | ok (payload : List Byte)
  | lost
  | damaged
  | notHeld
  deriving DecidableEq, Repr

/-- Section 11.5. -/
inductive FetchJob where
  | idle
  | looking (origin : Nat) (seq : Nat)
  | done (origin : Nat) (seq : Nat) (result : FetchOutcome)
  deriving DecidableEq, Repr

/-- Table 11-11, in table order. -/
inductive Counter where
  | burstsSent
  | goodBursts
  | badBursts
  | foreignBursts
  | collisions
  | noSlot
  | mismatch
  | expired
  | checkFailures
  | refused
  | orphaned
  | programFailures
  | eraseFailures
  | markFailures
  | asksSent
  | askTimeouts
  | refusalsReceived
  | jobsCompleted
  | damagedReads
  deriving DecidableEq, Repr

/-- The attach port. `dataOut` is the model's record of the last transaction's output (log 20). -/
structure Ap where
  slot : ResponseSlot
  submitBuffer : Option HandedSubmit
  configures : List HandedConfigure
  fetch : FetchJob
  counters : Vector Nat 19
  dataOut : List Byte
  deriving DecidableEq, Repr

/-! ## The start controller (chapter 3) -/

/-- R40. -/
inductive ResetKind where
  | power
  | pin
  | command
  deriving DecidableEq, Repr

/-- Table 1-3. -/
inductive StationState where
  | scanning
  | awaitConfig
  | joining
  | active
  | halted
  deriving DecidableEq, Repr

/-- R200. -/
inductive HaltCause where
  | none
  | badStraps
  | storeUnusable
  deriving DecidableEq, Repr

/-- R40: while the part is held in reset the station state and the halt cause have no value. -/
inductive Phase where
  | held (kind : ResetKind)
  | running (station : StationState) (halt : HaltCause)
  deriving DecidableEq, Repr

/-- Table 3-5. -/
structure Settings where
  groupSize : Nat
  target : Nat
  reportInterval : Nat
  askTimeout : Nat
  reassemblyTimeout : Nat
  flushDelay : Nat
  noticeThreshold : Nat
  noticeDelay : Nat
  arrivalNotices : Bool
  deriving DecidableEq, Repr

/-- R44, R46: why a page is being read: the first page of a block, a page above an erased page 0, a page of a written
block. -/
inductive ScanMode where
  | first
  | freeTest
  | walk
  deriving DecidableEq, Repr

/-- The operation the scan waits for; after a spare read the scan keeps the 96 bytes it returned (R14). -/
inductive ScanStep where
  | spare (mode : ScanMode)
  | page (mode : ScanMode) (spare : List Byte)
  | erase
  | mark
  deriving DecidableEq, Repr

/-- The class of a block the scan has finished (R43 to R46); a written block with its open stamp, good pages, whether a
torn page stands above them, and its summary. -/
inductive ScanClass where
  | free
  | retired (cause : RetireCause)
  | written (stamp : Nat) (pages : Nat) (torn : Bool) (summary : List SummaryLine)
  deriving DecidableEq, Repr

/-- The working state of the store scan. `classes` lists the finished blocks, the latest first; `found` holds the found
set of each origin, strictly rising (R48). -/
structure Scan where
  block : Nat
  page : Nat
  step : ScanStep
  stamp : Nat
  summary : List SummaryLine
  classes : List ScanClass
  found : Vector (List Nat) 24
  ownTop : Nat
  deriving DecidableEq, Repr

/-- The start controller. -/
structure Sc where
  phase : Phase
  supplyFell : Bool
  resetCause : ResetKind
  number : Nat
  settings : Option Settings
  listening : Bool
  scan : Option Scan
  deriving DecidableEq, Repr

/-! ## The station -/

/-- The state of the station, and the queue of the commands waiting for it, first in, first out. `fresh` numbers the draws
of free values (log 10). -/
structure State where
  sc : Sc
  fc : Fc
  sm : Sm
  hu : Hu
  su : Su
  ra : Ra
  ce : Ce
  lc : Lc
  rp : Rp
  nu : Nu
  ap : Ap
  fresh : Nat
  pending : List Instr
  deriving DecidableEq, Repr

/-- Why the machine stops. -/
inductive Fault where
  /-- Raised by the completion of a flash operation whose target is no page of the array (R1 gives 640 blocks of 48
  pages). Safe: no operation that the blocks claim has such a target. -/
  | noSuchPage (page : PageAddr)
  deriving DecidableEq, Repr

/-- What the model gives no meaning. -/
inductive Refusal where
  /-- Raised by exec for a command that has no meaning yet. Safe: nothing can be proved of its effect. -/
  | notModelled (mnemonic : String)
  deriving DecidableEq, Repr

/-! ## Reset values -/

/-- R12, R19. -/
def FillReg.reset : FillReg := { state := .empty, list := [], data := [] }

/-- R13, R19. -/
def ArrayReg.reset : ArrayReg := { state := .idle, image := none, target := none }

/-- R14, R19. -/
def ReadReg.reset : ReadReg := { page := none, spare := none, data := none }

/-- R24: an entry of the block table after reset. -/
def BlockEntry.reset : BlockEntry := { state := .free, stamp := none, pages := 0, summary := [] }

/-- R24, R39, R155. -/
def Sm.reset : Sm :=
  { table := Vector.replicate 640 BlockEntry.reset, stampHigh := 0, lastOpened := 639, newestPage := none,
    pressure := .normal, fetchLookup := none, serveLookup := none, reclaimDue := false }

/-- R77: an entry after reset. -/
def Entry.reset : Entry := { floor := 1, top := 0, gaps := [] }

/-- Table 5-9; the station itself becomes PRESENT at release, when its number is latched. -/
def Hu.reset : Hu :=
  { entries := Vector.replicate 24 Entry.reset, matrix := Vector.replicate 24 none,
    presence := Vector.replicate 24 .unknown, silence := Vector.replicate 24 false, reportTimer := false,
    spacingTimer := false, reportPending := false, line2 := false, line3 := false, conflictNoted := [], durable := 0 }

/-- R106, R119. -/
def Su.reset : Su := { entries := Vector.replicate 8 .free }

/-- R122, R139. -/
def Ra.reset : Ra := { slots := Vector.replicate 8 .free, waitList := [] }

/-- R141, R145, R164. -/
def Ce.reset : Ce := { queue := [], flushTimer := false, state := .idle }

/-- R74. -/
def Lc.reset : Lc :=
  { state := .dormant, hasReference := false, lastSender := 0, slotCount := none, tracked := .quiet, quietLimit := false,
    rx := { bytes := [], strayBits := 0, codeFault := false }, chosen := none, fairness := 0 }

/-- R183. -/
def Rp.reset : Rp :=
  { asks := Vector.replicate 4 none, rotation := 1, jobs := [], notHeld := none, busy := [], buffer := none,
    rerunDue := false }

/-- R188. -/
def Nu.reset : Nu := { queue := [], overflow := false, delayTimer := .stopped, attn := false }

/-- R209. -/
def Ap.reset : Ap :=
  { slot := .empty, submitBuffer := none, configures := [], fetch := .idle, counters := Vector.replicate 19 0,
    dataOut := [] }

/-- R19 over an array with content `mem` and one-time flags `prog` and `mark`. -/
def Fc.resetOver (mem : Memory) (prog mark : List Nat) : Fc :=
  { mem := mem, progFlags := prog, markFlags := mark, op := none, fill := FillReg.reset, array := ArrayReg.reset,
    read := ReadReg.reset, programClaim := none, fetchClaim := none, serveClaim := none, markClaims := [],
    eraseClaim := none }

/-- The station held in the reset that a power-on began (log 4), its array as shipped: erased, every flag clear, no
block factory-bad (R3, log 5). -/
def State.reset : State :=
  { sc := { phase := .held .power, supplyFell := true, resetCause := .power, number := 0, settings := none,
            listening := false, scan := none },
    fc := Fc.resetOver [] [] [],
    sm := Sm.reset, hu := Hu.reset, su := Su.reset, ra := Ra.reset, ce := Ce.reset, lc := Lc.reset, rp := Rp.reset,
    nu := Nu.reset, ap := Ap.reset, fresh := 0, pending := [] }

end Sys2Proof.Machine
end

