-- ==== Sys2Proof/Machine/Ops.lean ====
section
/-! DEFINITION. The named operations over the state that every block uses: tables, the canonical memory of the array,
the one-time flags, component updates, and the station state. -/

namespace Sys2Proof.Machine

/-! ## Tables -/

/-- Place `i` of a table, counted from 0; `d` where there is no such place. -/
def place {α : Type} {n : Nat} (v : Vector α n) (d : α) (i : Nat) : α := v[i]?.getD d

/-- The table with place `i` holding `x`; unchanged where there is no such place. -/
def setPlace {α : Type} {n : Nat} (v : Vector α n) (i : Nat) (x : α) : Vector α n := v.setIfInBounds i x

/-- The line of station or origin `o` in a table whose first line is that of station 1; `d` for 0 and beyond the table. -/
def lineOf {α : Type} {n : Nat} (v : Vector α n) (d : α) (o : Nat) : α :=
  match o with
  | 0 => d
  | i + 1 => place v d i

/-- The table with the line of station or origin `o` holding `x`. -/
def setLine {α : Type} {n : Nat} (v : Vector α n) (o : Nat) (x : α) : Vector α n :=
  match o with
  | 0 => v
  | i + 1 => setPlace v i x

/-- The numbers a, a + 1, …, a + n − 1. -/
def upFrom (a n : Nat) : List Nat := (List.range n).map (a + ·)

/-- The first place of a table whose content passes `p`. -/
def firstPlace {α : Type} {n : Nat} (v : Vector α n) (p : α → Bool) : Option Nat := v.toList.findIdx? p

/-- The members of `l` inserted in ascending order, none twice. -/
def insertRising (x : Nat) : List Nat → List Nat
  | [] => [x]
  | y :: l => if x < y then x :: y :: l else if x = y then y :: l else y :: insertRising x l

/-! ## The memory of the array (R1, R2) -/

/-- The byte at an address: FFh where none is listed (R2). -/
def Memory.read : Memory → Nat → Byte
  | [], _ => 0xFF#8
  | (k, b) :: m, a => if k = a then b else if a < k then 0xFF#8 else Memory.read m a

/-- Writing one byte of the listed form: a byte FFh leaves the list. -/
def Memory.insert : Memory → Nat → Byte → Memory
  | [], a, b => if b = 0xFF#8 then [] else [(a, b)]
  | (k, c) :: m, a, b =>
    if k < a then (k, c) :: Memory.insert m a b
    else if k = a then (if b = 0xFF#8 then m else (a, b) :: m)
    else (if b = 0xFF#8 then (k, c) :: m else (a, b) :: (k, c) :: m)

/-- Writing one byte of the array; an address beyond the array takes nothing. -/
def Memory.write (m : Memory) (a : Nat) (b : Byte) : Memory :=
  if a < Config.arrayBytes then m.insert a b else m

/-- The listed cells for bytes written from address `a` on: no byte FFh, nothing beyond the array. -/
def cellsFrom (a : Nat) : List Byte → Memory
  | [] => []
  | b :: bs => if b ≠ 0xFF#8 ∧ a < Config.arrayBytes then (a, b) :: cellsFrom (a + 1) bs else cellsFrom (a + 1) bs

/-- Writing bytes at consecutive addresses. -/
def Memory.writeRange (m : Memory) (a : Nat) (bs : List Byte) : Memory :=
  (m.filter fun c => decide (c.1 < a)) ++ cellsFrom a bs ++ (m.filter fun c => decide (a + bs.length ≤ c.1))

/-- Returning every bit of `n` bytes to 1 (R2). -/
def Memory.eraseRange (m : Memory) (a n : Nat) : Memory := m.filter fun c => decide (c.1 < a) || decide (a + n ≤ c.1)

/-- The cells listed for `n` consecutive addresses. -/
def Memory.window (m : Memory) (a n : Nat) : Memory := m.filter fun c => decide (a ≤ c.1) && decide (c.1 < a + n)

/-- The bytes at `n` consecutive addresses. -/
def Memory.readRange (m : Memory) (a n : Nat) : List Byte :=
  let w := m.window a n
  (List.range n).map fun i => w.read (a + i)

/-- The canonical form from address `lo` on: addresses strictly rising and inside the array, no byte FFh listed. -/
def Memory.wfFrom : Nat → Memory → Bool
  | _, [] => true
  | lo, (k, b) :: m => decide (lo ≤ k) && decide (k < Config.arrayBytes) && b != 0xFF#8 && Memory.wfFrom (k + 1) m

/-- The canonical form. -/
def Memory.wf (m : Memory) : Bool := Memory.wfFrom 0 m

/-- R1: the page exists. -/
def PageAddr.valid (p : PageAddr) : Bool := decide (p.block < Config.blocks) && decide (p.page < Config.pagesPerBlock)

/-- The index of a page among all pages of the array. -/
def PageAddr.index (p : PageAddr) : Nat := p.block * Config.pagesPerBlock + p.page

/-- The address of a page's first data byte. -/
def PageAddr.base (p : PageAddr) : Nat := p.index * Config.pageBytes

/-- The address of a page's first spare byte, which is its block-mark byte (R212). -/
def PageAddr.spareBase (p : PageAddr) : Nat := p.base + Config.dataBytes

/-- The 3,072 data bytes of a page. -/
def Memory.dataOf (m : Memory) (p : PageAddr) : List Byte := m.readRange p.base Config.dataBytes

/-- The 96 spare bytes of a page. -/
def Memory.spareOf (m : Memory) (p : PageAddr) : List Byte := m.readRange p.spareBase Config.spareBytes

/-- R2: programming can only clear bits. -/
def programOver (old new : List Byte) : List Byte := List.zipWith (· &&& ·) old new

/-- R2: a page program of the bytes `image` into page `p`. -/
def Memory.programPage (m : Memory) (p : PageAddr) (image : List Byte) : Memory :=
  m.writeRange p.base (programOver (m.readRange p.base Config.pageBytes) image)

/-- R10: a mark program of `value` into the block-mark byte of page (b, 0). -/
def Memory.markBlock (m : Memory) (b : Nat) (value : Byte) : Memory :=
  let a := (PageAddr.mk b 0).spareBase
  m.write a (m.read a &&& value)

/-- R11: pages `first` to `first + count − 1` of block b erased. -/
def Memory.erasePages (m : Memory) (b first count : Nat) : Memory :=
  m.eraseRange (PageAddr.mk b first).base (count * Config.pageBytes)

/-- `n` bytes of draw `draw` of the free values. -/
def freeBytes (draw n : Nat) : List Byte := (List.range n).map (Config.freeByte draw)

/-- R11, R18: pages 1 to 47 of block b left in an undefined state (log 9). -/
def Memory.scramblePages (m : Memory) (b draw : Nat) : Memory :=
  m.writeRange (PageAddr.mk b 1).base (freeBytes draw ((Config.pagesPerBlock - 1) * Config.pageBytes))

/-! ## Component updates -/

def State.setSc (s : State) (x : Sc) : State := { s with sc := x }
def State.setFc (s : State) (x : Fc) : State := { s with fc := x }
def State.setSm (s : State) (x : Sm) : State := { s with sm := x }
def State.setHu (s : State) (x : Hu) : State := { s with hu := x }
def State.setSu (s : State) (x : Su) : State := { s with su := x }
def State.setRa (s : State) (x : Ra) : State := { s with ra := x }
def State.setCe (s : State) (x : Ce) : State := { s with ce := x }
def State.setLc (s : State) (x : Lc) : State := { s with lc := x }
def State.setRp (s : State) (x : Rp) : State := { s with rp := x }
def State.setNu (s : State) (x : Nu) : State := { s with nu := x }
def State.setAp (s : State) (x : Ap) : State := { s with ap := x }
/-- One draw of the free values has been taken (log 10). -/
def State.drawn (s : State) : State := { s with fresh := s.fresh + 1 }

/-! ## The station state -/

/-- R42: the station state, none while the part is held in reset (R40). -/
def State.station (s : State) : Option StationState :=
  match s.sc.phase with
  | .held _ => none
  | .running st _ => some st

/-- The station states in which the store runs: AWAIT-CONFIG, JOINING, ACTIVE (R17, R157, R163, R188). -/
def State.storeRuns (s : State) : Bool :=
  match s.station with
  | some .awaitConfig | some .joining | some .active => true
  | _ => false

/-- The station states in which the station is on the line: JOINING, ACTIVE (R105, R125, R177). -/
def State.onLine (s : State) : Bool :=
  match s.station with
  | some .joining | some .active => true
  | _ => false

/-- Table 1-4: the own origin. -/
def State.own (s : State) : Nat := s.sc.number

/-- The group size N; 0 before CONFIGURE is accepted (R200). -/
def State.groupSize (s : State) : Nat := (s.sc.settings.map Settings.groupSize).getD 0

/-- R50, R198: the highest origin a command may name: N, or 24 before CONFIGURE is accepted. -/
def State.originLimit (s : State) : Nat := (s.sc.settings.map Settings.groupSize).getD Config.maxStations

/-- The station numbers 1..N but for the station's own. -/
def State.peers (s : State) : List Nat := (upFrom 1 s.groupSize).filter (· != s.own)

/-! ## Holdings entries, rows, slots and entries by number -/

/-- R77: the holdings entry of origin `o`. -/
def State.entry (s : State) (o : Nat) : Entry := lineOf s.hu.entries Entry.reset o

/-- T_own (section 0.6). -/
def State.ownTop (s : State) : Nat := (s.entry s.own).top

/-- R92: the row of peer `p`. -/
def State.row (s : State) (p : Nat) : Option (List Pair) := lineOf s.hu.matrix none p

/-- R92: the cell (F[p][o], C[p][o]), none while UNKNOWN. -/
def State.cell (s : State) (p o : Nat) : Option Pair :=
  match s.row p, o with
  | some row, i + 1 => row[i]?
  | _, _ => none

/-- R97: the presence of station `p`. -/
def State.presenceOf (s : State) (p : Nat) : Presence := lineOf s.hu.presence .unknown p

/-- R24: the entry of block `b`. -/
def Sm.block (sm : Sm) (b : Nat) : BlockEntry := place sm.table BlockEntry.reset b

/-- The block table with the entry of block `b` replaced. -/
def Sm.setBlock (sm : Sm) (b : Nat) (e : BlockEntry) : Sm := { sm with table := setPlace sm.table b e }

/-- R24, R31: the newest-page flag of block `b` (log 28). -/
def Sm.newestFlag (sm : Sm) (b : Nat) : Bool := sm.newestPage.map PageAddr.block == some b

/-- R24: the number of blocks in a state. -/
def Sm.count (sm : Sm) (p : BlockState → Bool) : Nat := sm.table.toList.countP fun e => p e.state

/-- R24: the FREE count. -/
def Sm.freeCount (sm : Sm) : Nat := sm.count (· == .free)

/-- R24: the RETIRED count. -/
def Sm.retiredCount (sm : Sm) : Nat :=
  sm.count fun st => match st with
    | .retired _ => true
    | _ => false

/-- R35: the lookup of a requester. -/
def Sm.lookup (sm : Sm) : Requester → Option Lookup
  | .fetch => sm.fetchLookup
  | .serve => sm.serveLookup

/-- The store manager with a requester's lookup replaced. -/
def Sm.setLookup (sm : Sm) (who : Requester) (l : Option Lookup) : Sm :=
  match who with
  | .fetch => { sm with fetchLookup := l }
  | .serve => { sm with serveLookup := l }

/-- R15: a requester's waiting step claim. -/
def Fc.stepClaim (fc : Fc) : Requester → Option StepClaim
  | .fetch => fc.fetchClaim
  | .serve => fc.serveClaim

/-- The flash controller with a requester's step claim replaced. -/
def Fc.setStepClaim (fc : Fc) (who : Requester) (c : Option StepClaim) : Fc :=
  match who with
  | .fetch => { fc with fetchClaim := c }
  | .serve => { fc with serveClaim := c }

/-! ## One-time flags (R4) -/

/-- The page's page-program flag is set. -/
def Fc.progFlag (fc : Fc) (p : PageAddr) : Bool := fc.progFlags.contains p.index

/-- The page's mark-program flag is set. -/
def Fc.markFlag (fc : Fc) (p : PageAddr) : Bool := fc.markFlags.contains p.index

/-- R4: setting the page-program flag. -/
def Fc.setProgFlag (fc : Fc) (p : PageAddr) : Fc := { fc with progFlags := insertRising p.index fc.progFlags }

/-- R4: setting the mark-program flag. -/
def Fc.setMarkFlag (fc : Fc) (p : PageAddr) : Fc := { fc with markFlags := insertRising p.index fc.markFlags }

/-- R4, R11: an erase of block `b` is issued: both flags of every page of b cleared. -/
def Fc.clearFlags (fc : Fc) (b : Nat) : Fc :=
  let keep := fun i : Nat => i / Config.pagesPerBlock != b
  { fc with progFlags := fc.progFlags.filter keep, markFlags := fc.markFlags.filter keep }

end Sys2Proof.Machine
end

