-- ==== Sys2Proof/Machine/Operands.lean ====
section
/-! DEFINITION. The byte layouts of chapter 12, read and written: integers, the CRC-32, bursts and their bodies, records and
spare areas on flash, attach frames and response data. -/

namespace Sys2Proof.Machine

/-! ## Integers (R210) -/

/-- `n` as `k` bytes, most significant first. -/
def toBytes : Nat → Nat → List Byte
  | 0, _ => []
  | k + 1, n => BitVec.ofNat 8 (n / 256 ^ k) :: toBytes k n

/-- The unsigned integer that bytes stand for, most significant first. -/
def ofBytes (bs : List Byte) : Nat := bs.foldl (fun n b => n * 256 + b.toNat) 0

/-- `len` bytes from offset `off`. -/
def slice (bs : List Byte) (off len : Nat) : List Byte := (bs.drop off).take len

/-- The integer in the `len` bytes at offset `off`. -/
def field (bs : List Byte) (off len : Nat) : Nat := ofBytes (slice bs off len)

/-- `n` bytes FFh. -/
def erasedBytes (n : Nat) : List Byte := List.replicate n 0xFF#8

/-- Every byte reads FFh (R2). -/
def allErased (bs : List Byte) : Bool := bs.all (· == 0xFF#8)

/-! ## CRC-32 (R213) -/

/-- One step of the remainder: a shift left, the generator 04C11DB7h taken out where a one leaves at the top. -/
def crcShift (r : Nat) : Nat :=
  if 2147483648 ≤ r then (2 * r % 4294967296) ^^^ 79764919 else 2 * r

/-- One byte into the remainder, most significant bit first. -/
def crcByte (r : Nat) (b : Byte) : Nat :=
  crcShift (crcShift (crcShift (crcShift (crcShift (crcShift (crcShift (crcShift (r ^^^ (b.toNat * 16777216)))))))))

/-- R213: remainder from FFFFFFFFh, complemented at the end. -/
def crc32 (bs : List Byte) : Check := BitVec.ofNat 32 (bs.foldl crcByte 4294967295 ^^^ 4294967295)

/-- A check in its 4 bytes. -/
def checkBytes (c : Check) : List Byte := toBytes 4 c.toNat

/-- The check in the 4 bytes at offset `off`. -/
def checkField (bs : List Byte) (off : Nat) : Check := BitVec.ofNat 32 (field bs off 4)

/-! ## Bursts (R58, R211) -/

/-- Table 4-1. -/
inductive BurstKind where
  | hail
  | report
  | seg
  | ask
  | refuse
  deriving DecidableEq, Repr

/-- Table 12-2. -/
def BurstKind.code : BurstKind → Byte
  | .hail => 0x36
  | .report => 0x59
  | .seg => 0x93
  | .ask => 0x8C
  | .refuse => 0xE7

/-- The kind of a code, none for any other code (R59 test 3). -/
def kindOfCode (c : Byte) : Option BurstKind :=
  [BurstKind.hail, .report, .seg, .ask, .refuse].find? fun k => k.code == c

/-- R211: the preamble. -/
def preamble : List Byte := [0x55, 0x55, 0x55, 0xD5]

/-- R66, R211: the jam. -/
def jamBytes : List Byte := List.replicate 8 0xF0#8

/-- Table 12-1: the header. -/
def burstHeader (kind : BurstKind) (sender groupSize target bodyLength : Nat) : List Byte :=
  kind.code :: toBytes 2 0x4A31 ++ toBytes 1 sender ++ toBytes 1 groupSize ++ toBytes 1 target ++ toBytes 2 bodyLength

/-- R58: a whole burst, preamble to burst check. -/
def burstBytes (kind : BurstKind) (sender groupSize target : Nat) (body : List Byte) : List Byte :=
  let covered := burstHeader kind sender groupSize target body.length ++ body
  preamble ++ covered ++ checkBytes (crc32 covered)

/-- A good burst as LC hands it on (R60). -/
structure Burst where
  kind : BurstKind
  sender : Nat
  target : Nat
  body : List Byte
  deriving DecidableEq, Repr

/-- R59: the class of a carrier period. -/
inductive PeriodClass where
  | bad
  | foreign
  | good (burst : Burst)
  deriving DecidableEq, Repr

/-- Table 4-1: the body length suits the kind; a SEG's is 16 plus the payload length in its segment header. -/
def bodySuits (kind : BurstKind) (groupSize : Nat) (body : List Byte) : Bool :=
  match kind with
  | .hail | .report => body.length == 8 * groupSize
  | .seg => decide (17 ≤ body.length) && decide (body.length ≤ 256) && body.length == 16 + field body 10 2
  | .ask | .refuse => body.length == 8

/-- R59: the tests in order, for a station `own` of a group of `groupSize`. -/
def classify (own groupSize : Nat) (p : CarrierPeriod) : PeriodClass :=
  let covered := slice p.bytes 4 (p.bytes.length - 8)
  let body := covered.drop 8
  if p.codeFault || p.strayBits != 0 || p.bytes.take 4 != preamble || decide (p.bytes.length < 16)
      || field covered 6 2 != body.length
      || checkField p.bytes (p.bytes.length - 4) != crc32 covered then .bad
  else if field covered 4 1 != groupSize then .foreign
  else
    let sender := field covered 3 1
    match kindOfCode (covered.headD 0) with
    | none => .bad
    | some kind =>
      if field covered 1 2 != 0x4A31 || sender == 0 || decide (groupSize < sender) || sender == own
          || !bodySuits kind groupSize body then .bad
      else .good { kind := kind, sender := sender, target := field covered 5 1, body := body }

/-- R211: the pairs of a REPORT or HAIL body, for origins 1..n. -/
def pairsOf (n : Nat) (body : List Byte) : List Pair :=
  (List.range n).map fun i => { floor := field body (8 * i) 4, frontier := field body (8 * i + 4) 4 }

/-- R211: a REPORT or HAIL body of these pairs. -/
def pairBytes (pairs : List Pair) : List Byte :=
  pairs.flatMap fun p => toBytes 4 p.floor ++ toBytes 4 p.frontier

/-- Table 12-3: a segment as its header and payload give it. -/
structure Segment where
  origin : Nat
  index : Nat
  count : Nat
  resend : Bool
  seq : Nat
  length : Nat
  payloadLength : Nat
  check : Check
  payload : List Byte
  deriving DecidableEq, Repr

/-- Table 12-3: the segment in a SEG body. -/
def segmentOf (body : List Byte) : Segment :=
  { origin := field body 0 1, index := field body 1 1, count := field body 2 1,
    resend := decide (128 ≤ field body 3 1), seq := field body 4 4, length := field body 8 2,
    payloadLength := field body 10 2, check := checkField body 12, payload := body.drop 16 }

/-- Table 12-3: a segment's SEG body; flag bits 6..0 are sent 0. -/
def segmentBytes (g : Segment) : List Byte :=
  toBytes 1 g.origin ++ toBytes 1 g.index ++ toBytes 1 g.count ++ [if g.resend then 0x80#8 else 0x00#8]
    ++ toBytes 4 g.seq ++ toBytes 2 g.length ++ toBytes 2 g.payloadLength ++ checkBytes g.check ++ g.payload

/-- R113: the number of segments of a record of `length` bytes. -/
def segmentCount (length : Nat) : Nat := (length + (Config.segmentBytes - 1)) / Config.segmentBytes

/-- R113: the payload length of segment `index` of a record of `length` bytes in `count` segments. -/
def segmentLength (length count index : Nat) : Nat :=
  if index + 1 < count then Config.segmentBytes else length - Config.segmentBytes * (count - 1)

/-- R113, R114, R181: segment `index` of a record. -/
def cutSegment (origin seq : Nat) (check : Check) (payload : List Byte) (resend : Bool) (index : Nat) : Segment :=
  let count := segmentCount payload.length
  { origin := origin, index := index, count := count, resend := resend, seq := seq, length := payload.length,
    payloadLength := segmentLength payload.length count index, check := check,
    payload := slice payload (Config.segmentBytes * index) (segmentLength payload.length count index) }

/-- Table 12-4: an ASK body as its fields give it. -/
structure AskBody where
  origin : Nat
  count : Nat
  first : Nat
  deriving DecidableEq, Repr

def askOf (body : List Byte) : AskBody :=
  { origin := field body 0 2, count := field body 2 2, first := field body 4 4 }

def askBytes (a : AskBody) : List Byte := toBytes 2 a.origin ++ toBytes 2 a.count ++ toBytes 4 a.first

/-- Table 12-4: the reason of a REFUSE; none for any value but the two (R211). -/
inductive RefuseReason where
  | busy
  | notHeld
  deriving DecidableEq, Repr

def RefuseReason.code : RefuseReason → Nat
  | .busy => 1
  | .notHeld => 2

/-- Table 12-4: a REFUSE body as its fields give it. -/
structure RefuseBody where
  origin : Nat
  reason : Option RefuseReason
  number : Nat
  deriving DecidableEq, Repr

def refuseOf (body : List Byte) : RefuseBody :=
  { origin := field body 0 2,
    reason := if field body 2 2 == 1 then some .busy else if field body 2 2 == 2 then some .notHeld else none,
    number := field body 4 4 }

def refuseBytes (origin : Nat) (reason : RefuseReason) (number : Nat) : List Byte :=
  toBytes 2 origin ++ toBytes 2 reason.code ++ toBytes 4 number

/-! ## Records and spare areas on flash (R20 to R22, R212) -/

/-- R20: the span of a record of `n` payload bytes. -/
def recordSpan (n : Nat) : Nat := (12 + n + 3) / 4 * 4

/-- Table 12-5: a record's span: header, payload, FFh padding. -/
def recordBytes (origin seq : Nat) (check : Check) (payload : List Byte) : List Byte :=
  toBytes 1 origin ++ [0xA5#8] ++ toBytes 2 payload.length ++ toBytes 4 seq ++ checkBytes check ++ payload
    ++ erasedBytes (recordSpan payload.length - (12 + payload.length))

/-- Table 12-6: one entry of the record list. -/
def listEntryBytes (e : ListEntry) : List Byte := toBytes 1 e.origin ++ toBytes 4 e.seq ++ toBytes 2 e.offset

/-- R22: the spare area composed at program start. -/
def spareArea (list : List ListEntry) (stamp ownTop : Nat) (pageCheck : Check) : List Byte :=
  [0xFF#8] ++ toBytes 1 list.length ++ toBytes 4 stamp ++ toBytes 4 ownTop ++ checkBytes pageCheck
    ++ (list.flatMap listEntryBytes ++ erasedBytes (56 - 7 * list.length)) ++ erasedBytes 26

/-- R20: the data part of an image: its spans, then FFh. -/
def paddedData (data : List Byte) : List Byte := data ++ erasedBytes (Config.dataBytes - data.length)

/-- R8, R22: the bytes of a page image composed for a claim. -/
def Image.bytes (i : Image) (c : ProgramClaim) : List Byte :=
  paddedData i.data ++ spareArea i.list c.stamp c.ownTop (crc32 (paddedData i.data))

/-- Table 12-6: the fields of a spare area. -/
def spareMark (spare : List Byte) : Byte := spare.headD 0xFF#8
def spareCount (spare : List Byte) : Nat := field spare 1 1
def spareStamp (spare : List Byte) : Nat := field spare 2 4
def spareOwnTop (spare : List Byte) : Nat := field spare 6 4
def sparePageCheck (spare : List Byte) : Check := checkField spare 10

/-- The first record-count entries of the record list. -/
def spareList (spare : List Byte) : List ListEntry :=
  (List.range (spareCount spare)).map fun i =>
    { origin := field spare (14 + 7 * i) 1, seq := field spare (15 + 7 * i) 4, offset := field spare (19 + 7 * i) 2 }

/-- R36: a record list entry a lookup can use. -/
def ListEntry.usable (e : ListEntry) : Bool :=
  decide (1 ≤ e.origin) && decide (e.origin ≤ 24) && e.offset % 4 == 0 && decide (e.offset ≤ 3056)

/-- R36: the spare is readable. -/
def spareReadable (spare : List Byte) : Bool :=
  decide (1 ≤ spareCount spare) && decide (spareCount spare ≤ 8) && (spareList spare).all ListEntry.usable

/-- R46: the conditions a spare read decides of a good page: count, entries with a sequence number of 1 or more, and an
open stamp in range. -/
def spareGood (spare : List Byte) : Bool :=
  spareReadable spare && (spareList spare).all (fun e => decide (1 ≤ e.seq))
    && decide (1 ≤ spareStamp spare) && decide (spareStamp spare ≤ Config.maxStamp)

/-- R37: the good copy of (origin, seq) at `offset`, none when the copy is damaged. -/
def verifyCopy (origin seq offset : Nat) (data spare : List Byte) : Option (List Byte) :=
  let record := data.drop offset
  let length := field record 2 2
  let payload := slice record 12 length
  if crc32 data == sparePageCheck spare && field record 1 1 == 0xA5 && field record 0 1 == origin
      && field record 4 4 == seq && decide (1 ≤ length) && decide (length ≤ Config.maxPayload)
      && decide (offset + 12 + length ≤ Config.dataBytes) && crc32 payload == checkField record 8 then some payload
  else none

/-! ## Attach frames (R214, R215) -/

/-- Table 12-7. -/
def Status.code : Status → Byte
  | .ok => 0x00
  | .accepted => 0x01
  | .wait => 0x02
  | .pending => 0x03
  | .notReady => 0x10
  | .busy => 0x11
  | .full => 0x12
  | .exhausted => 0x13
  | .refusedState => 0x14
  | .badLength => 0x20
  | .badConfig => 0x21
  | .badOrigin => 0x22
  | .badFrame => 0x23
  | .unknownCommand => 0x24
  | .notHeld => 0x30
  | .lost => 0x31
  | .damaged => 0x32

/-- R214: a response as it is shifted out. -/
def responseBytes (r : Response) : List Byte := r.status.code :: toBytes 2 r.data.length ++ r.data

/-- A flag in a response byte: 01h set, 00h clear (log 15). -/
def flagByte (b : Bool) : Byte := if b then 0x01#8 else 0x00#8

/-- R215: the position of a value in its list, or the code the rule gives. -/
def StationState.code : StationState → Nat
  | .scanning => 0
  | .awaitConfig => 1
  | .joining => 2
  | .active => 3
  | .halted => 4

def ResetKind.code : ResetKind → Nat
  | .power => 0
  | .pin => 1
  | .command => 2

def HaltCause.code : HaltCause → Nat
  | .none => 0
  | .badStraps => 1
  | .storeUnusable => 2

def Pressure.code : Pressure → Nat
  | .normal => 0
  | .low => 1
  | .tight => 2

def CommitState.code : CommitState → Nat
  | .idle => 0
  | .filling => 1
  | .programming => 2
  | .stalled => 3

def Presence.code : Presence → Nat
  | .unknown => 0
  | .present => 1
  | .silent => 2

def NoticeCause.code : NoticeCause → Nat
  | .program => 0
  | .erase => 1

/-- R215: kind, station or origin, first field and second field of a notice. -/
def Notice.fields : Notice → Nat × Nat × Nat × Nat
  | .durable seq => (0, 0, seq, 0)
  | .arrived o seq => (1, o, seq, 0)
  | .lost o first last => (2, o, first, last)
  | .peerPresent p => (3, p, 0, 0)
  | .peerSilent p => (4, p, 0, 0)
  | .storeFull => (5, 0, 0, 0)
  | .storeOk => (6, 0, 0, 0)
  | .blockRetired b cause => (7, 0, b, cause.code)
  | .ownConflict p value => (8, p, value, 0)

/-- R215: a notice in its 10 bytes. -/
def noticeBytes (n : Notice) : List Byte :=
  let (kind, station, first, second) := n.fields
  toBytes 1 kind ++ toBytes 1 station ++ toBytes 4 first ++ toBytes 4 second

/-- R215: the ten parameter bytes of CONFIGURE as settings, none where the arrival-notices byte is neither off nor on. -/
def settingsOf (params : List Byte) : Option Settings :=
  let arrival := field params 9 1
  if arrival == 0 || arrival == 1 then
    some { groupSize := field params 0 1, target := field params 1 1, reportInterval := field params 2 2,
           askTimeout := field params 4 1, reassemblyTimeout := field params 5 1, flushDelay := field params 6 1,
           noticeThreshold := field params 7 1, noticeDelay := field params 8 1, arrivalNotices := arrival == 1 }
  else none

/-- Table 3-5: every setting is in range for a station of number `own`. -/
def Settings.inRange (c : Settings) (own : Nat) : Bool :=
  decide (2 ≤ c.groupSize) && decide (c.groupSize ≤ 24) && decide (own ≤ c.groupSize)
    && decide (1 ≤ c.target) && decide (c.target ≤ c.groupSize)
    && decide (10 ≤ c.reportInterval) && decide (c.reportInterval ≤ 1000) && c.reportInterval % 10 == 0
    && decide (5 ≤ c.askTimeout) && decide (c.askTimeout ≤ 255)
    && decide (5 ≤ c.reassemblyTimeout) && decide (c.reassemblyTimeout ≤ 100)
    && decide (c.flushDelay ≤ 20)
    && decide (1 ≤ c.noticeThreshold) && decide (c.noticeThreshold ≤ 32)
    && decide (c.noticeDelay ≤ 100)

end Sys2Proof.Machine
end

