-- ==== Sys2Proof/Machine/Flags.lean ====
section
/-! DEFINITION. The values that other state decides: the saturating counters, the pressure level of a FREE count, the commit
state, the derived values of a holdings entry, and the condition of ATTN. -/

namespace Sys2Proof.Machine

/-! ## Counters (R207) -/

/-- The place of a counter in Table 11-11. -/
def Counter.index : Counter → Nat
  | .burstsSent => 0
  | .goodBursts => 1
  | .badBursts => 2
  | .foreignBursts => 3
  | .collisions => 4
  | .noSlot => 5
  | .mismatch => 6
  | .expired => 7
  | .checkFailures => 8
  | .refused => 9
  | .orphaned => 10
  | .programFailures => 11
  | .eraseFailures => 12
  | .markFailures => 13
  | .asksSent => 14
  | .askTimeouts => 15
  | .refusalsReceived => 16
  | .jobsCompleted => 17
  | .damagedReads => 18

/-- The value of a counter. -/
def State.counter (s : State) (c : Counter) : Nat := place s.ap.counters 0 c.index

/-- A counter raised by `n`, saturating at 65,535. -/
def State.raise (s : State) (c : Counter) (n : Nat) : State :=
  s.setAp { s.ap with counters := setPlace s.ap.counters c.index (min 65535 (s.counter c + n)) }

/-- A counter raised by one. -/
def State.bump (s : State) (c : Counter) : State := s.raise c 1

/-! ## Pressure (R155) -/

/-- Table 8-5. -/
def pressureOf (free : Nat) : Pressure :=
  if 6 ≤ free then .normal else if 2 ≤ free then .low else .tight

/-! ## Derived values of a holdings entry (R77) -/

/-- The entry is empty when T = F − 1. -/
def Entry.isEmpty (e : Entry) : Bool := e.top + 1 == e.floor

/-- `n` lies in a gap. -/
def Entry.inGap (e : Entry) (n : Nat) : Bool := e.gaps.any fun g => decide (g.lo ≤ n) && decide (n ≤ g.hi)

/-- `n` is settled: F ≤ n ≤ T and in no gap. -/
def Entry.settled (e : Entry) (n : Nat) : Bool := decide (e.floor ≤ n) && decide (n ≤ e.top) && !e.inGap n

/-- The frontier C. -/
def Entry.frontier (e : Entry) : Nat :=
  match e.gaps with
  | [] => e.top
  | g :: _ => g.lo - 1

/-- How many numbers are settled. -/
def Entry.settledCount (e : Entry) : Nat :=
  (e.top + 1 - e.floor) - (e.gaps.map fun g => g.hi + 1 - g.lo).foldl (· + ·) 0

/-- R103: the pair a report carries. -/
def Entry.pair (e : Entry) : Pair := { floor := e.floor, frontier := e.frontier }

/-! ## The commit state (R146) -/

/-- A program claim of CE waits, or the array carries CE's transfer or program. -/
def Fc.programBusy (fc : Fc) : Bool :=
  fc.programClaim.isSome ||
    match fc.op with
    | some (.transfer _) | some (.program _) => true
    | _ => false

/-- R147: CE needs a program target: no program of its own waits or runs, the array register is IDLE, and it holds a kept
image or the fill register is CLOSED. -/
def State.needsTarget (s : State) : Bool :=
  !s.fc.programBusy && s.fc.array.state == .idle && (s.fc.array.image.isSome || s.fc.fill.state == .closed)

/-- R146, the first line of Table 8-2 that holds, where `refused` says that the request for a target just made was answered
with none (log 17). -/
def State.commitStateNow (s : State) (refused : Bool) : CommitState :=
  if refused then .stalled
  else if s.fc.programBusy || s.fc.array.state == .programming then .programming
  else if s.fc.fill.state != .empty then .filling
  else .idle

/-! ## Notices (R189, R194) -/

/-- Table 10-2: the urgent kinds. -/
def Notice.urgent : Notice → Bool
  | .durable _ => false
  | .arrived _ _ => false
  | .lost _ _ _ => true
  | .peerPresent _ => false
  | .peerSilent _ => true
  | .storeFull => true
  | .storeOk => false
  | .blockRetired _ _ => true
  | .ownConflict _ _ => true

/-- R194: when ATTN is asserted, under a notice threshold. -/
def Nu.attnCondition (nu : Nu) (threshold : Nat) : Bool :=
  !nu.queue.isEmpty &&
    (nu.queue.any Notice.urgent || decide (threshold ≤ nu.queue.length) || nu.delayTimer == .expired)

/-- R195: the notice threshold, 1 before CONFIGURE. -/
def State.noticeThreshold (s : State) : Nat := (s.sc.settings.map Settings.noticeThreshold).getD 1

/-- R195: the notice delay, 0 before CONFIGURE. -/
def State.noticeDelay (s : State) : Nat := (s.sc.settings.map Settings.noticeDelay).getD 0

end Sys2Proof.Machine
end

