-- ==== Sys2Proof/Machine/Notices.lean ====
section
/-! DEFINITION. The notice unit (chapter 10): coalescing, overflow, the delay timer, ATTN and the draining of the queue. -/

namespace Sys2Proof.Machine

/-- R190: `old` is the queued partner of `new` in its coalescing class. -/
def Notice.partner (new old : Notice) : Bool :=
  match new, old with
  | .durable _, .durable _ => true
  | .arrived o _, .arrived o' _ => o == o'
  | .peerPresent p, .peerPresent q => p == q
  | .peerPresent p, .peerSilent q => p == q
  | .peerSilent p, .peerPresent q => p == q
  | .peerSilent p, .peerSilent q => p == q
  | .storeFull, .storeFull => true
  | .storeFull, .storeOk => true
  | .storeOk, .storeFull => true
  | .storeOk, .storeOk => true
  | _, _ => false

/-- R190: what stands in the partner's place: the larger number for DURABLE and ARRIVED, the new notice otherwise. -/
def Notice.merge (new old : Notice) : Notice :=
  match new, old with
  | .durable a, .durable b => .durable (max b a)
  | .arrived o a, .arrived _ b => .arrived o (max b a)
  | n, _ => n

/-- R190: the queue with `n` coalesced in place, none where it has no partner. -/
def coalesce (n : Notice) : List Notice → Option (List Notice)
  | [] => none
  | x :: q => if n.partner x then some (n.merge x :: q) else (coalesce n q).map (x :: ·)

/-- R194: ATTN set anew. -/
def Nu.setAttn (nu : Nu) (threshold : Nat) : Nu := { nu with attn := nu.attnCondition threshold }

/-- R193: the delay timer started or restarted; with a delay of 0 it expires in the same event. -/
def startedDelay (delay : Nat) : DelayTimer := if delay == 0 then .expired else .running

/-- R190, R191, R193: a notice handed to NU. -/
def Nu.take (nu : Nu) (threshold delay : Nat) (n : Notice) : Nu :=
  match coalesce n nu.queue with
  | some q => Nu.setAttn { nu with queue := q } threshold
  | none =>
    if nu.queue.length < Config.noticePlaces then
      Nu.setAttn { nu with queue := nu.queue ++ [n],
                           delayTimer := if nu.queue.isEmpty then startedDelay delay else nu.delayTimer } threshold
    else Nu.setAttn { nu with overflow := true } threshold

/-- A notice handed to NU, which takes notices in AWAIT-CONFIG, JOINING and ACTIVE (R188). -/
def State.notify (s : State) (n : Notice) : State :=
  if s.storeRuns then s.setNu (s.nu.take s.noticeThreshold s.noticeDelay n) else s

/-- R192, R193: a NOTICES read of at most `m`. -/
def Nu.drain (nu : Nu) (threshold delay m : Nat) : Nu :=
  let rest := nu.queue.drop m
  Nu.setAttn { queue := rest, overflow := false,
               delayTimer := if rest.isEmpty then .stopped else startedDelay delay, attn := nu.attn } threshold

/-- R193: the delay timer's period ends. -/
def Nu.delayExpired (nu : Nu) (threshold : Nat) : Nu :=
  match nu.delayTimer with
  | .running => Nu.setAttn { nu with delayTimer := .expired } threshold
  | _ => nu

end Sys2Proof.Machine
end

