-- ==== Sys2Proof/Machine/Holdings.lean ====
section
/-! DEFINITION. The holdings unit (chapter 5) and the durable frontier (section 10.1): pending numbers, settling, acceptance,
commits, floor raises, abandonment, the report matrix, presence and reports. -/

namespace Sys2Proof.Machine

/-! ## Pending numbers (R81) -/

/-- A record on the commit path, as a reference reads it (R141). -/
structure PathRecord where
  origin : Nat
  seq : Nat
  check : Check
  payload : List Byte
  deriving DecidableEq, Repr

/-- The bytes a slot holds, in payload order. -/
def SlotData.payload (d : SlotData) : List Byte := d.parts.flatMap Prod.snd

/-- R141: the record a reference names: that of a COMPLETE slot or of a QUEUED entry. -/
def State.refRecord (s : State) : Ref → Option PathRecord
  | .slot i =>
    match place s.ra.slots .free i with
    | .complete d => some { origin := d.origin, seq := d.seq, check := d.check, payload := d.payload }
    | _ => none
  | .entry i =>
    match place s.su.entries .free i with
    | .queued r => some { origin := s.own, seq := r.seq, check := r.check, payload := r.payload }
    | _ => none

/-- R124: the number of origin `o` that a slot makes pending. -/
def Slot.pendingOf (o : Nat) : Slot → Option Nat
  | .free => none
  | .filling d => if d.origin == o then some d.seq else none
  | .complete d => if d.origin == o then some d.seq else none

/-- R107: the number that a submit entry makes pending. -/
def SubmitEntry.pendingSeq : SubmitEntry → Option Nat
  | .queued r => some r.seq
  | _ => none

/-- The numbers of origin `o` in a record list. -/
def listedOf (o : Nat) (l : List ListEntry) : List Nat := (l.filter fun e => e.origin == o).map ListEntry.seq

/-- R81, Table 5-3: the pending numbers of origin `o`, as their owners answer. -/
def State.pendingOf (s : State) (o : Nat) : List Nat :=
  s.ra.slots.toList.filterMap (Slot.pendingOf o)
    ++ (s.ce.queue.filterMap s.refRecord).filterMap (fun r => if r.origin == o then some r.seq else none)
    ++ listedOf o s.fc.fill.list
    ++ (match s.fc.array.image with
        | some i => listedOf o i.list
        | none => [])
    ++ (if o == s.own then s.su.entries.toList.filterMap SubmitEntry.pendingSeq else [])

/-- R81: `n` of origin `o` is pending. -/
def State.isPending (s : State) (o n : Nat) : Bool := (s.pendingOf o).contains n

/-! ## Settling a run (R82) -/

/-- [a, b], or nothing where a > b. -/
def rangeOf (a b : Nat) : List Range := if a ≤ b then [{ lo := a, hi := b }] else []

/-- R82: what settling [a, b] leaves of one gap. -/
def Range.without (g : Range) (a b : Nat) : List Range :=
  if g.lo ≤ a ∧ b ≤ g.hi then
    (if g.lo < a then [{ lo := g.lo, hi := a - 1 }] else []) ++ (if b < g.hi then [{ lo := b + 1, hi := g.hi }] else [])
  else [g]

/-- R82, Table 5-4: the entry with the run [a, b] settled. -/
def Entry.settle (e : Entry) (a b : Nat) : Entry :=
  if e.top < a then { e with top := b, gaps := e.gaps ++ rangeOf (e.top + 1) (a - 1) }
  else { e with gaps := e.gaps.flatMap fun g => g.without a b }

/-- R82: settling [a, b] would hold a seventh range. -/
def Entry.overflows (e : Entry) (a b : Nat) : Bool := decide (Config.maxGaps < (e.settle a b).gaps.length)

/-- Every number of [a, b] is at least F and unsettled: the run lies wholly above T or inside one gap (R82). -/
def Entry.unsettledRun (e : Entry) (a b : Nat) : Bool :=
  decide (e.floor ≤ a) && (decide (e.top < a) || e.gaps.any fun g => decide (g.lo ≤ a) && decide (b ≤ g.hi))

/-! ## The durable frontier (R185 to R187) -/

/-- R186: the candidate multiset. -/
def State.durableMembers (s : State) : List Nat :=
  s.ownTop :: s.peers.filterMap fun p => (s.cell p s.own).map Pair.frontier

/-- R186: the k-th largest member, counting equal members one by one; 0 when there are fewer than k. -/
def kthLargest (k : Nat) (l : List Nat) : Nat :=
  (l.filter fun v => decide (k ≤ l.countP fun w => decide (v ≤ w))).foldl max 0

/-- R185 to R187: an evaluation of D; without settings K has no value and nothing is evaluated. -/
def State.evaluateDurable (s : State) : State :=
  match s.sc.settings with
  | none => s
  | some c =>
    let d := max s.hu.durable (kthLargest c.target s.durableMembers)
    if s.hu.durable < d then
      let s1 := (s.setHu { s.hu with durable := d }).notify (.durable d)
      s1.setSm { s1.sm with reclaimDue := true }
    else s

/-! ## Changing an entry (R83) -/

/-- R101: the report-pending flag set. -/
def State.setReportPending (s : State) : State := s.setHu { s.hu with reportPending := true }

/-- RP is told of an event of Table 9-3 (R167). -/
def State.tellRp (s : State) : State := s.setRp { s.rp with rerunDue := true }

/-- R23, R148: the own-top mark of a waiting program claim raised to T_own. -/
def State.raiseMark (s : State) : State :=
  s.setFc { s.fc with programClaim := s.fc.programClaim.map fun c => { c with ownTop := max c.ownTop s.ownTop } }

/-- R83: whether a change of the entry of origin `o` concerns the report and RP: `o` is one of 1..N. -/
def State.reported (s : State) (o : Nat) : Bool := decide (1 ≤ o) && decide (o ≤ s.groupSize)

/-- R83: the entry of origin `o` becomes `e`, and a change of F or C sets the report-pending flag. -/
def State.writeEntry (s : State) (o : Nat) (e : Entry) : State :=
  s.setHu { s.hu with
    entries := setLine s.hu.entries o e,
    reportPending := s.hu.reportPending || (s.reported o && e.pair != (s.entry o).pair) }

/-- R83: the entry of origin `o` becomes `e`: RP is told of a change of F, T or the gap list, and a change of T_own reaches the
waiting mark (R23) and D. -/
def State.putEntry (s : State) (o : Nat) (e : Entry) : State :=
  let s1 := if s.reported o && e != s.entry o then (s.writeEntry o e).tellRp else s.writeEntry o e
  if o == s.own && e.top != (s.entry o).top then s1.raiseMark.evaluateDurable else s1

/-! ## The acceptance test (R84) -/

/-- Table 5-5. -/
inductive RefusalCause where
  | ownOrigin
  | belowFloor
  | duplicate
  | span
  | gapsFull
  deriving DecidableEq, Repr

/-- R84: the tests in order on number `n` of origin `o`; none when acceptable. -/
def State.acceptance (s : State) (o n : Nat) : Option RefusalCause :=
  let e := s.entry o
  if o == s.own then some .ownOrigin
  else if n < e.floor then some .belowFloor
  else if e.settled n || s.isPending o n then some .duplicate
  else if e.top + 1 < n ∧ Config.spanLimit < n - e.top then some .span
  else if e.overflows n n then some .gapsFull
  else none

/-! ## Commit (R86, R87) -/

/-- R53, R86: records become orphans. -/
def State.orphans (s : State) (n : Nat) : State := s.raise .orphaned n

/-- R86: the commit of peer record (o, n). -/
def State.commitPeer (s : State) (o n : Nat) : State :=
  match s.acceptance o n with
  | none =>
    let s1 := s.putEntry o ((s.entry o).settle n n)
    if (s.sc.settings.map Settings.arrivalNotices).getD false then s1.notify (.arrived o n) else s1
  | some _ => (s.orphans 1).tellRp

/-- R87: the own entry after the commit of own record `n`; none when the record is an orphan. -/
def Entry.commitOwn (e : Entry) (n : Nat) : Option Entry :=
  if n ≤ e.top then none
  else if n = e.top + 1 then some { e with top := n }
  else some { floor := n, top := n, gaps := [] }

/-! ## Floor raise (R88, R89) -/

/-- R88: an entry under a floor raise to `f`. -/
def Entry.raiseFloor (e : Entry) (f : Nat) : Entry :=
  let floor := max e.floor (min f Config.maxSeq)
  if floor = e.floor then e
  else if e.top + 1 < floor then { floor := floor, top := floor - 1, gaps := [] }
  else
    { floor := floor, top := e.top,
      gaps := e.gaps.filterMap fun g =>
        if g.hi < floor then none else if g.lo < floor then some { lo := floor, hi := g.hi } else some g }

/-- R88, R89: SM's floor raise for origin `o`; one for an origin above N is discarded once N is known. -/
def State.floorRaise (s : State) (o f : Nat) : State :=
  if s.originLimit < o then s else s.putEntry o ((s.entry o).raiseFloor f)

/-! ## Abandonment (R90) -/

/-- R90: HU's answer to an abandonment of [a, b] of origin `o`: the state with the cut run settled and LOST handed to NU, or
none when it is declined. -/
def State.abandon (s : State) (o a b : Nat) : Option State :=
  let e := s.entry o
  let first := max a e.floor
  if o != s.own && decide (first ≤ b) && e.unsettledRun first b
      && (s.pendingOf o).all (fun n => decide (n < first) || decide (b < n)) && !e.overflows first b then
    some ((s.putEntry o (e.settle first b)).notify (.lost o first b))
  else none

/-! ## The report matrix (R92 to R96) -/

/-- R93: a well-formed body: F ≥ 1 and C ≥ F − 1 for every origin. -/
def pairsWellFormed (pairs : List Pair) : Bool :=
  pairs.all fun p => decide (1 ≤ p.floor) && decide (p.floor ≤ p.frontier + 1)

/-- R94: the own entry that adopts the frontier `c` above T_own. -/
def adoptedEntry (c : Nat) : Entry :=
  if c = Config.maxSeq then { floor := Config.maxSeq, top := Config.maxSeq, gaps := [] }
  else { floor := c + 1, top := c, gaps := [] }

/-- R95: the stored pair of a frontier above T_own. -/
def clampPair (ownTop : Nat) (p : Pair) : Pair := { floor := min p.floor (ownTop + 1), frontier := ownTop }

/-- The pair of origin `o` in a row (columns 1, 2, …). -/
def pairAt (pairs : List Pair) (o : Nat) : Pair := (pairs[o - 1]?).getD { floor := 1, frontier := 0 }

/-- R94: JOINING adopts an own frontier above T_own. -/
def State.adopt (s : State) (reported : Pair) : State :=
  if s.ownTop < reported.frontier then s.putEntry s.own (adoptedEntry reported.frontier) else s

/-- R95: ACTIVE notes a conflicting own frontier of peer `p` once. -/
def State.noteConflict (s : State) (p : Nat) (reported : Pair) : State :=
  if s.ownTop < reported.frontier ∧ p ∉ s.hu.conflictNoted then
    (s.setHu { s.hu with conflictNoted := s.hu.conflictNoted ++ [p] }).notify (.ownConflict p reported.frontier)
  else s

/-- R93: the row of peer `p` replaced whole. -/
def State.putRow (s : State) (p : Nat) (pairs : List Pair) : State :=
  s.setHu { s.hu with matrix := setLine s.hu.matrix p (some pairs) }

/-- R93 to R96, R101: a REPORT or HAIL body from peer `p`. -/
def State.takeReport (s : State) (isHail : Bool) (p : Nat) (body : List Byte) : State :=
  let pairs := pairsOf s.groupSize body
  let mine := pairAt pairs s.own
  if pairsWellFormed pairs then
    let s1 :=
      if s.station == some .active then
        let stored := if s.ownTop < mine.frontier then pairs.set (s.own - 1) (clampPair s.ownTop mine) else pairs
        (s.noteConflict p mine).putRow p stored
      else (s.adopt mine).putRow p pairs
    let s2 := if isHail then s1.setReportPending else s1
    s2.tellRp.evaluateDurable
  else s.bump .badBursts

/-! ## Presence (R97 to R99) -/

/-- The presence of station `p` and its silence timer set. -/
def State.setPresence (s : State) (p : Nat) (x : Presence) (timer : Bool) : State :=
  s.setHu { s.hu with presence := setLine s.hu.presence p x, silence := setLine s.hu.silence p timer }

/-- R98: a good burst from `p`. -/
def State.heard (s : State) (p : Nat) : State :=
  let s1 := s.setPresence p .present true
  if s.presenceOf p == .present then s1 else (s1.notify (.peerPresent p)).tellRp

/-- R99: the silence timer of `p` expires, if it runs. -/
def State.fallsSilent (s : State) (p : Nat) : State :=
  if lineOf s.hu.silence false p then ((s.setPresence p .silent false).notify (.peerSilent p)).tellRp else s

/-! ## Reports (R100 to R104) -/

/-- R103: the body of a REPORT or HAIL composed now. -/
def State.reportBody (s : State) : List Byte := pairBytes ((upFrom 1 s.groupSize).map fun o => (s.entry o).pair)

/-- R100, R101: a REPORT or the HAIL is chosen. -/
def Hu.reportChosen (hu : Hu) : Hu := { hu with reportTimer := false, reportPending := false, line2 := false }

/-- R100, R102: a REPORT or the HAIL has been sent. -/
def Hu.reportSent (hu : Hu) : Hu := { hu with reportTimer := true, spacingTimer := true }

/-- R102: whether HU offers a REPORT on line 7. -/
def Hu.line7 (hu : Hu) : Bool := hu.reportPending && !hu.spacingTimer && !hu.line2

end Sys2Proof.Machine
end

