-- ==== Sys2Proof/Machine/Store.lean ====
section
/-! DEFINITION. The store manager (chapters 2 and 8): opening blocks and binding targets, summaries, program outcomes, pressure,
lookups and what their requesters make of the outcome, reclaim. -/

namespace Sys2Proof.Machine

/-! ## Summaries (R30) -/

/-- R30: a record entered into a summary, lines in ascending origin order. -/
def enterSummary (o n : Nat) : List SummaryLine → List SummaryLine
  | [] => [{ origin := o, lowest := n, highest := n }]
  | l :: ls =>
    if o < l.origin then { origin := o, lowest := n, highest := n } :: l :: ls
    else if o = l.origin then { origin := o, lowest := min l.lowest n, highest := max l.highest n } :: ls
    else l :: enterSummary o n ls

/-- The records of a record list entered into a summary. -/
def enterList (list : List ListEntry) (summary : List SummaryLine) : List SummaryLine :=
  list.foldl (fun m e => enterSummary e.origin e.seq m) summary

/-- R30: the summary covers (o, n). -/
def covers (summary : List SummaryLine) (o n : Nat) : Bool :=
  summary.any fun l => l.origin == o && decide (l.lowest ≤ n) && decide (n ≤ l.highest)

/-! ## Pressure (R155, R156) -/

/-- R155, R156: the level set anew from the FREE count, with STORE-FULL on entering TIGHT and STORE-OK on leaving it; a change is
an event of R157. -/
def State.setPressure (s : State) : State :=
  let new := pressureOf s.sm.freeCount
  let old := s.sm.pressure
  let s1 := s.setSm { s.sm with pressure := new, reclaimDue := s.sm.reclaimDue || new != old }
  if new == .tight && old != .tight then s1.notify .storeFull
  else if old == .tight && new != .tight then s1.notify .storeOk
  else s1

/-! ## The block table -/

/-- Block `b` gets the entry `e`: a change of the block table in the sense of R157. -/
def State.putBlock (s : State) (b : Nat) (e : BlockEntry) : State :=
  s.setSm { s.sm.setBlock b e with reclaimDue := true }

/-- R32, R33: the values of a RETIRED entry. -/
def retiredEntry (cause : RetireCause) : BlockEntry := { state := .retired cause, stamp := none, pages := 0, summary := [] }

/-- The numbers of the blocks whose state passes `p`, ascending. -/
def Sm.blocksIn (sm : Sm) (p : BlockState → Bool) : List Nat :=
  ((sm.table.toList.zipIdx).filter fun x => p x.1.state).map Prod.snd

/-- The block that is OPEN (R25: at most one). -/
def Sm.openBlock (sm : Sm) : Option Nat := (sm.blocksIn (· == .opened)).head?

/-- R26: the FREE block to open: the lowest above the last-opened block, else the lowest of all. -/
def Sm.nextFree (sm : Sm) : Option Nat :=
  let free := sm.blocksIn (· == .free)
  match free.find? fun b => decide (sm.lastOpened < b) with
  | some b => some b
  | none => free.head?

/-- R26: block `b` opened. -/
def State.openFree (s : State) (b : Nat) : State :=
  let stamp := s.sm.stampHigh + 1
  let s1 := s.putBlock b { state := .opened, stamp := some stamp, pages := 0, summary := [] }
  (s1.setSm { s1.sm with stampHigh := stamp, lastOpened := b }).setPressure

/-- R26, R27: the OPEN block after CE has asked for a target, opened now if none was; the state with none where no block is FREE
or the stamps are used up. With the stamps used up an OPEN block is still served: R150's words alone would answer no target (log 37,
DEDUCED). -/
def State.withOpenBlock (s : State) : State × Option Nat :=
  match s.sm.openBlock with
  | some b => (s, some b)
  | none =>
    if s.sm.stampHigh = Config.maxStamp then (s, none)
    else
      match s.sm.nextFree with
      | some b => (s.openFree b, some b)
      | none => (s, none)

/-- R28: SM takes a program pass for page `p` with the image's record list. -/
def State.smProgramPassed (s : State) (p : PageAddr) (list : List ListEntry) : State :=
  let e := s.sm.block p.block
  let s1 := s.putBlock p.block { e with
    pages := p.page + 1,
    summary := enterList list e.summary,
    state := if p.page = 47 then .sealed else e.state }
  s1.setSm { s1.sm with newestPage := some p }

/-- R29: SM takes a program failure for page `p`. -/
def State.smProgramFailed (s : State) (p : PageAddr) : State :=
  let e := s.sm.block p.block
  (s.putBlock p.block { e with state := .retiring, pages := p.page }).notify (.blockRetired p.block .program)

/-! ## What a lookup's end does (R180, R203) -/

/-- R39. -/
inductive LookupOutcome where
  | found (payload : List Byte)
  | damaged
  | notFound
  deriving DecidableEq, Repr

/-- R203: the fetch lookup's outcome, tested again against the holdings. -/
def State.fetchEnds (s : State) (o n : Nat) (r : LookupOutcome) : State :=
  let result : FetchOutcome :=
    if (s.entry o).settled n then
      match r with
      | .found p => .ok p
      | .damaged => .damaged
      | .notFound => .lost
    else .notHeld
  s.setAp { s.ap with fetch := .done o n result }

/-- R178: the head job's REFUSE NOT-HELD(q) made due. -/
def State.makeNotHeld (s : State) (q : Nat) : State :=
  s.setRp { s.rp with notHeld := some { number := q, older := s.rp.busy.length } }

/-- R180: the serve lookup's outcome. -/
def State.serveEnds (s : State) (o n : Nat) (r : LookupOutcome) : State :=
  match r with
  | .found p =>
    if (s.entry o).settled n then
      s.setRp { s.rp with buffer := some { origin := o, seq := n, check := crc32 p, payload := p, next := 0 } }
    else s.makeNotHeld n
  | .notFound => s.makeNotHeld n
  | .damaged => (s.bump .damagedReads).makeNotHeld n

/-- R39: a lookup ends; its state is discarded and the outcome handed to its requester. -/
def State.lookupEnds (s : State) (who : Requester) (l : Lookup) (r : LookupOutcome) : State :=
  let s1 := s.setSm (s.sm.setLookup who none)
  match who with
  | .fetch => s1.fetchEnds l.origin l.seq r
  | .serve => s1.serveEnds l.origin l.seq r

/-! ## Lookup (R35 to R38) -/

/-- R35, R47: (stamp, block) stands below the bound. -/
def belowBound (stamp b : Nat) : Option (Nat × Nat) → Bool
  | none => true
  | some (st, bb) => decide (stamp < st) || (stamp == st && decide (b < bb))

/-- R25: the block states a lookup searches. -/
def BlockState.searched : BlockState → Bool
  | .opened => true
  | .sealed => true
  | .retiring => true
  | _ => false

/-- The later of two blocks in the order of R35; both as (stamp, block). -/
def laterOf (a : Option (Nat × Nat)) (b : Nat × Nat) : Option (Nat × Nat) :=
  match a with
  | none => some b
  | some x => if belowBound b.1 b.2 (some x) then some x else some b

/-- R35: the candidate for (o, n) below a bound, as (stamp, block). -/
def Sm.candidate (sm : Sm) (o n : Nat) (bound : Option (Nat × Nat)) : Option (Nat × Nat) :=
  (sm.table.toList.zipIdx).foldl (fun best x =>
    let stamp := x.1.stamp.getD 0
    if x.1.state.searched && covers x.1.summary o n && belowBound stamp x.2 bound then laterOf best (stamp, x.2)
    else best) none

/-- A lookup's next step claimed: it waits for a read of `kind` of page `p`. -/
def State.claimStep (s : State) (who : Requester) (l : Lookup) (kind : ReadKind) (p : PageAddr) : State :=
  (s.setSm (s.sm.setLookup who (some { l with block := some p.block, page := p.page, step := .waiting }))).setFc
    (s.fc.setStepClaim who (some { kind := kind, page := p }))

/-- R35: the lookup chooses its candidate and claims the spare read of its highest programmed page, or ends. -/
def State.choose (s : State) (who : Requester) (l : Lookup) : State :=
  match s.sm.candidate l.origin l.seq l.bound with
  | some (stamp, b) =>
    s.claimStep who { l with bound := some (stamp, b) } .spare { block := b, page := (s.sm.block b).pages - 1 }
  | none => s.lookupEnds who l (if l.damaged then .damaged else .notFound)

/-- R35: a lookup of (o, n) begins. -/
def State.startLookup (s : State) (who : Requester) (o n : Nat) : State :=
  s.choose who { origin := o, seq := n, block := none, page := 0, offset := 0, bound := none, damaged := false,
                 step := .waiting }

/-- R36: page `p` is passed over: the next page down, or the next candidate when the block is finished. -/
def State.passOver (s : State) (who : Requester) (l : Lookup) (p : PageAddr) : State :=
  if p.page = 0 then s.choose who l
  else s.claimStep who l .spare { block := p.block, page := p.page - 1 }

/-- R36: a lookup's spare read of page `p` has delivered `spare`. -/
def State.lookupSpare (s : State) (who : Requester) (l : Lookup) (p : PageAddr) (spare : List Byte) : State :=
  match if spareReadable spare then (spareList spare).find? fun e => e.origin == l.origin && e.seq == l.seq else none with
  | some e => s.claimStep who { l with offset := e.offset } .page p
  | none => s.passOver who l p

/-- R37: a lookup's page read of page `p` has delivered its data and spare. -/
def State.lookupPage (s : State) (who : Requester) (l : Lookup) (p : PageAddr) (data spare : List Byte) : State :=
  match verifyCopy l.origin l.seq l.offset data spare with
  | some payload => s.lookupEnds who l (.found payload)
  | none => s.passOver who { l with damaged := true } p

/-- R38: a lookup whose current block is `b` leaves it: a waiting step is withdrawn and a candidate chosen, a running read is to
be discarded at its completion. -/
def State.leaveBlock (s : State) (b : Nat) (who : Requester) : State :=
  match s.sm.lookup who with
  | none => s
  | some l =>
    if l.block == some b then
      match l.step with
      | .waiting => (s.setFc (s.fc.setStepClaim who none)).choose who l
      | .running => s.setSm (s.sm.setLookup who (some { l with step := .leaving }))
      | .leaving => s
    else s

/-! ## Reclaim (R157 to R160) -/

/-- R158: the earlier of two blocks by stamp, then by number. -/
def earlierOf (a : Option (Nat × Nat)) (b : Nat × Nat) : Option (Nat × Nat) :=
  match a with
  | none => some b
  | some x => if belowBound b.1 b.2 (some x) then some b else some x

/-- R158: the reclaim candidate: the SEALED or RETIRING block with the lowest stamp, the lower number on equal stamps. -/
def Sm.reclaimCandidate (sm : Sm) : Option Nat :=
  ((sm.table.toList.zipIdx).foldl (fun best x =>
    if x.1.state == .sealed || x.1.state == .retiring then earlierOf best (x.1.stamp.getD 0, x.2) else best) none).map
    Prod.snd

/-- R159: block `b` may be taken: no own record above D in its summary, and not the newest page. -/
def State.eligible (s : State) (b : Nat) : Bool :=
  (s.sm.block b).summary.all (fun l => l.origin != s.own || decide (l.highest ≤ s.hu.durable)) && !s.sm.newestFlag b

/-- R157: the block an evaluation selects. -/
def State.selection (s : State) : Option Nat :=
  if s.sm.pressure != .normal && s.sm.count (· == .erasing) == 0 then
    match s.sm.reclaimCandidate with
    | some b => if s.eligible b then some b else none
    | none => none
  else none

/-- R160 item 1: the floor raises of a summary, in ascending origin order. -/
def State.raiseFloors (s : State) (summary : List SummaryLine) : State :=
  summary.foldl (fun s l => s.floorRaise l.origin (l.highest + 1)) s

/-- R32, R160: block `b` selected: floors, state change, lookups, claim. -/
def State.select (s : State) (b : Nat) : State :=
  let e := s.sm.block b
  let s1 := s.raiseFloors e.summary
  if e.state == .retiring then
    let s2 := (((s1.putBlock b (retiredEntry .worn)).leaveBlock b .fetch).leaveBlock b .serve)
    s2.setFc { s2.fc with markClaims := s2.fc.markClaims ++ [{ block := b, value := 0x3C#8 }] }
  else
    let s2 := (((s1.putBlock b { e with state := .erasing }).leaveBlock b .fetch).leaveBlock b .serve)
    s2.setFc { s2.fc with eraseClaim := some b }

/-- R157, R160: evaluations until none selects a block; each selection of a RETIRING block leads to another evaluation, so
at most one round for each block and one more is needed (log 25). -/
def State.reclaimRounds : Nat → State → State
  | 0, s => s
  | n + 1, s =>
    match s.selection with
    | some b => State.reclaimRounds n (s.select b)
    | none => s

/-- R157: SM evaluates reclaim if an event of R157 has happened in this command. -/
def State.evaluateReclaim (s : State) : State :=
  if s.sm.reclaimDue then
    let s1 := if s.storeRuns then s.reclaimRounds (Config.blocks + 1) else s
    s1.setSm { s1.sm with reclaimDue := false }
  else s

/-! ## Erase and mark outcomes (R33, R34) -/

/-- R33: the erase of block `b` passed. -/
def State.eraseApplied (s : State) (b : Nat) : State := (s.putBlock b BlockEntry.reset).setPressure

/-- R33: the erase of block `b` failed. -/
def State.eraseRefused (s : State) (b : Nat) : State :=
  let s1 := s.putBlock b (retiredEntry .worn)
  let s2 := s1.setFc { s1.fc with markClaims := s1.fc.markClaims ++ [{ block := b, value := 0x3C#8 }] }
  s2.notify (.blockRetired b .erase)

end Sys2Proof.Machine
end

