-- ==== Sys2Proof/Machine/Repair.lean ====
section
/-! DEFINITION. The repair unit (chapter 9): the missing set, the ask list and its re-runs, serving, refusals. -/

namespace Sys2Proof.Machine

/-! ## The missing set (R165) -/

/-- R165: B: the largest known frontier for `o` among the peers, or T when no row is known. -/
def State.bestFrontier (s : State) (o : Nat) : Nat :=
  match s.peers.filterMap fun p => (s.cell p o).map Pair.frontier with
  | [] => (s.entry o).top
  | c :: cs => cs.foldl max c

/-- The parts of a range that a pending number leaves. -/
def Range.minus (n : Nat) (r : Range) : List Range :=
  if r.lo ≤ n ∧ n ≤ r.hi then
    (if r.lo < n then [{ lo := r.lo, hi := n - 1 }] else []) ++ (if n < r.hi then [{ lo := n + 1, hi := r.hi }] else [])
  else [r]

/-- R165: the unsettled numbers from F up to B: the gaps, and (T, B]. -/
def State.unsettledRanges (s : State) (o : Nat) : List Range :=
  let e := s.entry o
  (e.gaps ++ rangeOf (e.top + 1) (s.bestFrontier o)).flatMap fun r => rangeOf (max r.lo e.floor) r.hi

/-- R165: the missing runs of origin `o`, ascending; none for the own origin and origins above N. -/
def State.missingRuns (s : State) (o : Nat) : List Range :=
  if o == s.own || o == 0 || decide (s.groupSize < o) then []
  else (s.pendingOf o).foldl (fun rs n => rs.flatMap (Range.minus n)) (s.unsettledRanges o)

/-- R169: the lowest missing number from `u` on, with the end of the missing run there (log 24). -/
def lowestFrom (u : Nat) (runs : List Range) : Option Range :=
  runs.findSome? fun r => if u ≤ r.hi then some { lo := max u r.lo, hi := r.hi } else none

/-! ## Responders (R169, R170) -/

/-- The row of `p` covers (o, q): F[p][o] ≤ q ≤ C[p][o]. -/
def State.rowCovers (s : State) (p o q : Nat) : Bool :=
  match s.cell p o with
  | some c => decide (c.floor ≤ q) && decide (q ≤ c.frontier)
  | none => false

/-- R169: `p` is a candidate responder for (o, q) under a skip list. -/
def State.isCandidate (s : State) (skip : List Nat) (o q p : Nat) : Bool :=
  p != s.own && s.presenceOf p == .present && !skip.contains p && s.rowCovers p o q

/-- R169: the stations in cyclic order after the own number. -/
def State.afterOwn (s : State) : List Nat := (List.range s.groupSize).map fun i => (s.own + i) % s.groupSize + 1

/-- R169: the responder chosen for (o, q): the origin, else the first candidate after the own number. -/
def State.responderFor (s : State) (skip : List Nat) (o q : Nat) : Option Nat :=
  if s.isCandidate skip o q o then some o else s.afterOwn.find? (s.isCandidate skip o q)

/-- R170: the peers whose known rows count when no candidate is left: those not on the skip list. -/
def State.unskipped (s : State) (skip : List Nat) : List Nat := s.peers.filter fun p => !skip.contains p

/-- R170: the last number of the run to abandon: one below the lowest number in (q, e] that an unskipped row covers, or e. -/
def State.abandonEnd (s : State) (skip : List Nat) (o q e : Nat) : Nat :=
  (s.unskipped skip).foldl (fun b p =>
    match s.cell p o with
    | some c => if q < c.floor ∧ c.floor ≤ b ∧ c.floor ≤ c.frontier then c.floor - 1 else b
    | none => b) e

/-! ## Ask entries (R166, R169 to R171) -/

/-- The entry in place `i` of the ask list. -/
def State.ask (s : State) (i : Nat) : Option AskEntry := place s.rp.asks none i

/-- The ask list with place `i` replaced. -/
def State.putAsk (s : State) (i : Nat) (e : Option AskEntry) : State :=
  s.setRp { s.rp with asks := setPlace s.rp.asks i e }

/-- R168: the origin after `o`, cyclically over 1..N. -/
def State.originAfter (s : State) (o : Nat) : Nat := if s.groupSize ≤ o then 1 else o + 1

/-- R171: the entry of origin `o` in place `i` removed: an event of Table 9-3. -/
def State.removeAsk (s : State) (i o : Nat) : State :=
  let s1 := s.putAsk i none
  (s1.setRp { s1.rp with rotation := s.originAfter o }).tellRp

/-- R169, R170: the entry made ASKED for the run [q, e] of its origin. -/
def AskEntry.askFrom (a : AskEntry) (responder q e frontier : Nat) : AskEntry :=
  { a with first := q, count := min 8 (min (e + 1 - q) (frontier + 1 - q)), tries := 0, state := .asked responder true false }

/-- R170: the entry made WAITING for the run [q, e]. -/
def AskEntry.waitFor (a : AskEntry) (q e : Nat) : AskEntry :=
  { a with first := q, count := min 8 (e + 1 - q), tries := 0, state := .waiting }

/-- R169, R170: an evaluation of entry `a` in place `i` from number `u`. Each applied abandonment takes at least one missing
run out, so one round more than there are runs is enough (log 25). -/
def State.evaluateAskRounds : Nat → Nat → AskEntry → Nat → State → State
  | 0, _, _, _, s => s
  | n + 1, i, a, u, s =>
    match lowestFrom u (s.missingRuns a.origin) with
    | none => s.removeAsk i a.origin
    | some r =>
      match s.responderFor a.skip a.origin r.lo with
      | some p =>
        s.putAsk i (some (a.askFrom p r.lo r.hi (((s.cell p a.origin).map Pair.frontier).getD r.lo)))
      | none =>
        if (s.unskipped a.skip).any fun p => s.rowCovers p a.origin r.lo then s.putAsk i (some (a.waitFor r.lo r.hi))
        else
          let b := s.abandonEnd a.skip a.origin r.lo r.hi
          match s.abandon a.origin r.lo b with
          | some s' => State.evaluateAskRounds n i a (b + 1) s'
          | none => s.putAsk i (some (a.waitFor r.lo r.hi))

/-- R169: an evaluation from `u`. -/
def State.evaluateAsk (s : State) (i : Nat) (a : AskEntry) (u : Nat) : State :=
  s.evaluateAskRounds ((s.missingRuns a.origin).length + 1) i a u

/-- R171: an ASKED entry advanced: its last number stays, its first becomes the lowest number of its range still missing. -/
def State.advanceAsk (s : State) (i : Nat) (a : AskEntry) : State :=
  let last := a.first + a.count - 1
  match lowestFrom a.first (s.missingRuns a.origin) with
  | some r => if r.lo ≤ last then s.putAsk i (some { a with first := r.lo, count := last + 1 - r.lo })
              else s.removeAsk i a.origin
  | none => s.removeAsk i a.origin

/-- R167 step 1 for place `i`. -/
def State.rerunPlace (s : State) (i : Nat) : State :=
  match s.ask i with
  | none => s
  | some a =>
    match a.state with
    | .asked _ _ _ => s.advanceAsk i a
    | .waiting => s.evaluateAsk i a (s.entry a.origin).floor

/-- R168: the origins of a creation pass, from the rotation pointer on. -/
def State.creationOrder (s : State) : List Nat :=
  (List.range s.groupSize).map fun i => (s.rp.rotation - 1 + i) % s.groupSize + 1

/-- The ask list holds an entry for origin `o`. -/
def State.hasAsk (s : State) (o : Nat) : Bool := s.rp.asks.toList.any fun a => (a.map AskEntry.origin) == some o

/-- R168: the creation pass at origin `o`. -/
def State.createAt (s : State) (o : Nat) : State :=
  match firstPlace s.rp.asks Option.isNone with
  | none => s
  | some i =>
    if o != s.own && !(s.missingRuns o).isEmpty && !s.hasAsk o then
      s.evaluateAsk i { origin := o, first := 0, count := 0, tries := 0, skip := [], state := .waiting } (s.entry o).floor
    else s

/-- R167: a re-run: the entries in place order, then one creation pass; what it changes itself is taken into it. -/
def State.rerun (s : State) : State :=
  let s1 := [0, 1, 2, 3].foldl State.rerunPlace s
  s1.creationOrder.foldl State.createAt s1

/-- R167: the one re-run of a command in which RP was told of an event of Table 9-3; only an ACTIVE station makes it, and
what reached RP in another state is not kept. -/
def State.settleRepair (s : State) : State :=
  if s.rp.rerunDue then
    let s1 := if s.station == some .active then s.rerun else s
    s1.setRp { s1.rp with rerunDue := false }
  else s

/-! ## Ask timers, resends, refusals (R172 to R175) -/

/-- The place of the entry of origin `o`. -/
def State.askPlace (s : State) (o : Nat) : Option Nat :=
  firstPlace s.rp.asks fun a => (a.map AskEntry.origin) == some o

/-- R173, R175: the responder passed over and the entry re-chosen from `u`. -/
def State.skipResponder (s : State) (i : Nat) (a : AskEntry) (responder u : Nat) : State :=
  s.evaluateAsk i { a with skip := a.skip ++ [responder], tries := 0 } u

/-- R173: the ask timer of place `i` expires, if it runs. -/
def State.askExpires (s : State) (i : Nat) : State :=
  match s.ask i with
  | some a =>
    match a.state with
    | .asked p _ true =>
      let s1 := s.bump .askTimeouts
      if a.tries + 1 < 3 then s1.putAsk i (some { a with tries := a.tries + 1, state := .asked p true false })
      else s1.skipResponder i a p a.first
    | _ => s
  | none => s

/-- R174: a resend report for (o, n): the running timer of an entry whose range holds it is restarted, which keeps it
running. -/
def State.resendHeard (s : State) (o n : Nat) : State :=
  match s.askPlace o with
  | some i =>
    match s.ask i with
    | some a =>
      match a.state with
      | .asked p due true =>
        if a.first ≤ n ∧ n < a.first + a.count then s.putAsk i (some { a with state := .asked p due true }) else s
      | _ => s
    | none => s
  | none => s

/-- R175, R211: a good REFUSE from `sender` addressed to `target`. -/
def State.takeRefuse (s : State) (sender target : Nat) (body : List Byte) : State :=
  let r := refuseOf body
  if target != s.own then s
  else
    match r.reason with
    | none => s.bump .badBursts
    | some reason =>
      let s1 := s.bump .refusalsReceived
      match s1.askPlace r.origin with
      | none => s1
      | some i =>
        match s1.ask i, reason with
        | some a, .notHeld =>
          match a.state with
          | .asked p _ _ =>
            if p == sender then s1.skipResponder i a p (min (max a.first r.number) (a.first + a.count - 1)) else s1
          | .waiting => s1
        | _, _ => s1

/-- R172: the entry that stands on line 6. -/
def State.dueAsk (s : State) : Option (Nat × AskEntry × Nat) :=
  [0, 1, 2, 3].findSome? fun i =>
    match s.ask i with
    | some a =>
      match a.state with
      | .asked p true _ => some (i, a, p)
      | _ => none
    | none => none

/-- R172: LC reports the ASK for `origin` to `target` sent. -/
def State.askSent (s : State) (origin target : Nat) : State :=
  let s1 := s.bump .asksSent
  match s1.askPlace origin with
  | some i =>
    match s1.ask i with
    | some a =>
      match a.state with
      | .asked p false _ => if p == target then s1.putAsk i (some { a with state := .asked p false true }) else s1
      | _ => s1
    | none => s1
  | none => s1

/-! ## Serving (R177 to R181) -/

/-- R179: the head job tests its next number: settled, a lookup is asked for; otherwise NOT-HELD is due. -/
def State.testHead (s : State) : State :=
  match s.rp.jobs with
  | [] => s
  | j :: _ => if (s.entry j.origin).settled j.next then s.startLookup .serve j.origin j.next else s.makeNotHeld j.next

/-- R178, R181: the head job leaves the queue and the next becomes head. -/
def State.endHead (s : State) : State :=
  (s.setRp { s.rp with jobs := s.rp.jobs.drop 1, notHeld := none }).testHead

/-- R177 test 3: job `j` of this asker and origin still has to serve a number of [first, last]. -/
def ServeJob.overlaps (j : ServeJob) (asker origin first last : Nat) : Bool :=
  j.asker == asker && j.origin == origin && decide (j.next ≤ last) && decide (first ≤ j.first + j.count - 1)

/-- R178: a REFUSE BUSY made due, unless the list is full or holds the same. -/
def State.makeBusy (s : State) (r : BusyRefusal) : State :=
  if s.rp.busy.length < 4 ∧ r ∉ s.rp.busy then s.setRp { s.rp with busy := s.rp.busy ++ [r] } else s

/-- R177: a good ASK from `asker` addressed to `target`. -/
def State.takeAsk (s : State) (asker target : Nat) (body : List Byte) : State :=
  let a := askOf body
  let last := a.first + a.count - 1
  if target != s.own then s
  else if a.origin = 0 ∨ s.groupSize < a.origin ∨ a.count = 0 ∨ 8 < a.count ∨ a.first = 0 ∨ Config.maxSeq < last then
    s.bump .badBursts
  else if s.rp.jobs.any fun j => j.overlaps asker a.origin a.first last then s
  else if 4 ≤ s.rp.jobs.length then s.makeBusy { asker := asker, origin := a.origin, number := a.first }
  else
    let s1 := s.setRp { s.rp with
      jobs := s.rp.jobs ++ [{ asker := asker, origin := a.origin, first := a.first, count := a.count, next := a.first }] }
    if s.rp.jobs.isEmpty then s1.testHead else s1

/-- R178: the oldest due refusal: asker, origin, number, reason. -/
def State.dueRefusal (s : State) : Option (Nat × Nat × Nat × RefuseReason) :=
  match s.rp.notHeld, s.rp.jobs.head?, s.rp.busy with
  | some r, some j, [] => some (j.asker, j.origin, r.number, .notHeld)
  | some r, some j, b :: _ =>
    if r.older = 0 then some (j.asker, j.origin, r.number, .notHeld) else some (b.asker, b.origin, b.number, .busy)
  | _, _, b :: _ => some (b.asker, b.origin, b.number, .busy)
  | _, _, [] => none

/-- R178: the chosen refusal leaves: a BUSY the list, a NOT-HELD the head job with it. -/
def State.refusalChosen (s : State) (reason : RefuseReason) : State :=
  match reason with
  | .busy => s.setRp { s.rp with busy := s.rp.busy.drop 1,
                                 notHeld := s.rp.notHeld.map fun r => { r with older := r.older - 1 } }
  | .notHeld => s.endHead

/-- R181: the record whose next segment stands on line 4. -/
def State.resendOffer (s : State) : Option ServeRecord :=
  match s.rp.buffer with
  | some r => if r.next < segmentCount r.payload.length then some r else none
  | none => none

/-- R181: the segment of the serve record buffer's record has been chosen: the next index, and after the last segment the next
number of the head job or its end. -/
def State.resendChosen (s : State) (r : ServeRecord) : State :=
  let s1 := s.setRp { s.rp with buffer := some { r with next := r.next + 1 } }
  if r.next + 1 < segmentCount r.payload.length then s1
  else
    match s1.rp.jobs with
    | [] => s1
    | j :: js =>
      if j.next + 1 ≤ j.first + j.count - 1 then (s1.setRp { s1.rp with jobs := { j with next := j.next + 1 } :: js }).testHead
      else (s1.bump .jobsCompleted).endHead

end Sys2Proof.Machine
end

