-- ==== Sys2Proof/Machine/Commit.lean ====
section
/-! DEFINITION. The commit engine (chapter 8) and the submit unit's part in a commit (chapter 6): placement, closing, the flush
timer, program claims, program pass and failure. -/

namespace Sys2Proof.Machine

/-! ## Placement and closing (R142 to R145) -/

/-- R143 item 1: a record of `n` payload bytes fits the fill register. -/
def FillReg.fits (f : FillReg) (n : Nat) : Bool :=
  decide (f.list.length < 8) && decide (f.data.length + recordSpan n ≤ Config.dataBytes)

/-- R143 item 2: the record copied behind the last span, with its record list entry. -/
def FillReg.put (f : FillReg) (r : PathRecord) : FillReg :=
  { state := .opened,
    list := f.list ++ [{ origin := r.origin, seq := r.seq, offset := f.data.length }],
    data := f.data ++ recordBytes r.origin r.seq r.check r.payload }

/-- R143 item 3: what a placed reference names is released: a slot becomes FREE, an entry stays QUEUED. -/
def State.releaseRef (s : State) : Ref → State
  | .slot i => s.setRa { s.ra with slots := setPlace s.ra.slots i .free }
  | .entry _ => s

/-- R134: a place freed in the commit queue goes to the oldest waiting slot. -/
def State.moveWaiting (s : State) : State :=
  match s.ra.waitList with
  | [] => s
  | i :: rest => (s.setRa { s.ra with waitList := rest }).setCe { s.ce with queue := s.ce.queue ++ [.slot i] }

/-- R144: the fill register closed, which stops the flush timer (R145). -/
def State.closeFill (s : State) : State :=
  (s.setFc { s.fc with fill := { s.fc.fill with state := .closed } }).setCe { s.ce with flushTimer := false }

/-- The flush delay; no record is placed before it is set (R145). -/
def State.flushDelay (s : State) : Nat := (s.sc.settings.map Settings.flushDelay).getD 0

/-- R145: after a placement that leaves the queue empty the flush timer starts, or a delay of 0 closes the register. -/
def State.startFlush (s : State) : State :=
  if s.ce.queue.isEmpty && s.fc.fill.state == .opened && !s.ce.flushTimer then
    if s.flushDelay = 0 then s.closeFill else s.setCe { s.ce with flushTimer := true }
  else s

/-- R143: the record `r` named by the head reference is placed. -/
def State.placeHead (s : State) (ref : Ref) (r : PathRecord) : State :=
  let s1 := (s.setFc { s.fc with fill := s.fc.fill.put r }).setCe { s.ce with queue := s.ce.queue.drop 1 }
  ((s1.releaseRef ref).moveWaiting).startFlush

/-- R143, R144: placement until the queue is empty, the register is CLOSED or a head does not fit. A register takes at most 8
records, so 9 rounds are enough (log 25). -/
def State.placeRounds : Nat → State → State
  | 0, s => s
  | n + 1, s =>
    match s.ce.queue with
    | [] => s
    | ref :: _ =>
      if s.fc.fill.state == .closed then s
      else
        match s.refRecord ref with
        | none => s
        | some r => if s.fc.fill.fits r.payload.length then State.placeRounds n (s.placeHead ref r) else s.closeFill

/-! ## Program claims (R147, R148, R150) -/

/-- R23, R148: the own-top mark for an image with this record list. -/
def State.ownTopMark (s : State) (list : List ListEntry) : Nat := (listedOf s.own list).foldl max s.ownTop

/-- The record list of the image that CE's next program carries: the kept image, else the fill register's content. -/
def State.nextImageList (s : State) : List ListEntry :=
  match s.fc.array.image with
  | some i => i.list
  | none => s.fc.fill.list

/-- R147: the program claim for the OPEN block `b`. -/
def State.claimProgram (s : State) (b : Nat) : State :=
  let e := s.sm.block b
  let c : ProgramClaim :=
    { target := { block := b, page := e.pages }, stamp := e.stamp.getD 0, ownTop := s.ownTopMark s.nextImageList }
  s.setFc { s.fc with programClaim := some c }

/-- CE's commit state set at the end of an event (R146). -/
def State.setCommitState (s : State) (refused : Bool) : State :=
  s.setCe { s.ce with state := s.commitStateNow refused }

/-- R147, R150: where CE needs a target it asks SM and makes its claim, or becomes STALLED; its commit state is set. -/
def State.claimIfNeeded (s : State) : State :=
  if s.needsTarget then
    match s.withOpenBlock with
    | (s1, some b) => (s1.claimProgram b).setCommitState false
    | (s1, none) => s1.setCommitState true
  else s.setCommitState false

/-- An event of CE: placement, then the program claim (R143, R147). -/
def State.runCommit (s : State) : State := (State.placeRounds 9 s).claimIfNeeded

/-! ## Program pass (R151, R152) -/

/-- R112: the submit entry of own record `n` after its commit. -/
def SubmitEntry.committed (n : Nat) (settled : Bool) : SubmitEntry → SubmitEntry
  | .queued r =>
    if r.seq = n then (if settled then .sending r (segmentCount r.payload.length) 0 else .free) else .queued r
  | e => e

/-- A table with every place changed by `f`. -/
def mapPlaces {α : Type} {n : Nat} (v : Vector α n) (f : α → α) : Vector α n :=
  ⟨⟨v.toList.map f⟩, by simp⟩

/-- R87, R112: the commit of own record `n` at HU and at once at SU. -/
def State.commitOwn (s : State) (n : Nat) : State :=
  match (s.entry s.own).commitOwn n with
  | some e =>
    let s1 := s.putEntry s.own e
    s1.setSu { s1.su with entries := mapPlaces s1.su.entries (SubmitEntry.committed n true) }
  | none =>
    let s1 := s.orphans 1
    s1.setSu { s1.su with entries := mapPlaces s1.su.entries (SubmitEntry.committed n false) }

/-- R151 item 2: one record of the page. -/
def State.commitRecord (s : State) (e : ListEntry) : State :=
  if e.origin == s.own then s.commitOwn e.seq else s.commitPeer e.origin e.seq

/-- R151: CE applies a pass for page `p` of an image with this record list: to SM, then record by record to HU and SU. -/
def State.programPassed (s : State) (p : PageAddr) (list : List ListEntry) : State :=
  list.foldl State.commitRecord (s.smProgramPassed p list)

end Sys2Proof.Machine
end

