-- ==== Sys2Proof/Machine/Flash.lean ====
section
/-! DEFINITION. The flash controller's arbiter and its operations' effects on the array (chapter 1): grants, refusals by a
one-time flag, completions, what a reset cuts short. -/

namespace Sys2Proof.Machine

/-! ## What follows a program failure (R153) -/

/-- R153, R157: SM and CE take a program failure for page `p`; the re-drive's target is asked for and reclaim evaluated. -/
def State.programFailed (s : State) (p : PageAddr) : State := ((s.smProgramFailed p).runCommit).evaluateReclaim

/-! ## Grants (R8, R10, R11, R16, R17) -/

/-- R5, R9: a page program fails in FC's registers: the array register idle with its image kept, the failure counted. -/
def State.fcProgramFails (s : State) : State :=
  (s.setFc { s.fc with op := none, array := { s.fc.array with state := .idle, target := none } }).bump .programFailures

/-- R8: the program of the array register's image begins on the array: flag set, PROGRAMMING with the target bound. -/
def State.beginProgram (s : State) (c : ProgramClaim) : State :=
  let fc := s.fc.setProgFlag c.target
  s.setFc { fc with op := some (.program c), array := { fc.array with state := .programming, target := some c.target } }

/-- R16: a lookup step granted: its read runs. -/
def State.grantStep (s : State) (who : Requester) (c : StepClaim) : State :=
  let s1 := s.setFc { s.fc.setStepClaim who none with op := some (.lookupRead who c.kind c.page) }
  s1.setSm (s1.sm.setLookup who ((s1.sm.lookup who).map fun l => { l with step := .running }))

/-- R38: a lookup has block `b` as its current block. -/
def Sm.lookupIn (sm : Sm) (b : Nat) : Bool :=
  (sm.fetchLookup.bind Lookup.block) == some b || (sm.serveLookup.bind Lookup.block) == some b

/-- R11: the erase of block `b` granted: its flags cleared and page 0 erased. -/
def State.beginErase (s : State) (b : Nat) : State :=
  s.setFc { s.fc.clearFlags b with eraseClaim := none, mem := s.fc.mem.erasePages b 0 1, op := some (.erase b) }

/-- R16: the arbiter: while the array is free, the waiting claim of the lowest class is granted. A refused re-drive or a refused
mark program (R5) leaves the array free, and the next claim is granted at once. Each refused re-drive retires a block and
each refused mark uses up a claim, so the rounds that `grant` gives are enough (log 25). CE's new claim after a refused re-drive is made
before the grant that follows, which R16 and R147 leave open (log 36, DESIGN CHOICE). The erase of a block is not granted before a
lookup that stands in it has moved on (R38). -/
def State.grantRounds : Nat → State → State
  | 0, s => s
  | n + 1, s =>
    if !s.storeRuns || s.fc.op.isSome then s
    else
      match s.fc.programClaim with
      | some c =>
        let s1 := s.setFc { s.fc with programClaim := none }
        match s.fc.array.image with
        | none => s1.setFc { s1.fc with op := some (.transfer c) }
        | some _ =>
          if s.fc.progFlag c.target then State.grantRounds n ((s1.fcProgramFails).programFailed c.target)
          else s1.beginProgram c
      | none =>
        match s.fc.fetchClaim with
        | some c => s.grantStep .fetch c
        | none =>
          match s.fc.serveClaim with
          | some c => s.grantStep .serve c
          | none =>
            match s.fc.markClaims with
            | m :: rest =>
              let s1 := s.setFc { s.fc with markClaims := rest }
              if s.fc.markFlag { block := m.block, page := 0 } then State.grantRounds n (s1.bump .markFailures)
              else s1.setFc { s1.fc.setMarkFlag { block := m.block, page := 0 } with op := some (.mark m.block m.value) }
            | [] =>
              match s.fc.eraseClaim with
              | some b => if s.sm.lookupIn b then s else s.beginErase b
              | none => s

/-- R16: the grant at this instant, if the array is free. -/
def State.grant (s : State) : State := s.grantRounds (s.fc.markClaims.length + 3 * Config.blocks)

/-- R16: a completion event with `effects` as what the blocks do about it. Whether the claims they make take part in the grant at
the completion is open: a free value decides whether they come before it (log 11). A lookup that leaves a block chooses anew before
the erase of that block is granted in either order (R38): `grantRounds` holds that erase back. -/
def State.completion (s : State) (effects : State → State) : State :=
  if Config.freeClaimFirst s.fresh then (effects s.drawn).grant else (effects s.drawn.grant).grant

/-! ## Undefined contents (R2, R10, R11) -/

/-- R2: a page's bytes read as erased, or its page check matches its data: what a torn page never does. -/
def looksWhole (bytes : List Byte) : Bool :=
  allErased bytes || crc32 (bytes.take Config.dataBytes) == sparePageCheck (bytes.drop Config.dataBytes)

/-- R2: the content of a page torn by draw `draw` over its old bytes: any bytes whose ones are among the old ones, within the two
guarantees; where the draw breaks a guarantee, all bits are cleared, which breaks neither (log 7). -/
def tornBytes (old : List Byte) (draw : Nat) : List Byte :=
  let drawn := programOver old (freeBytes draw old.length)
  if looksWhole drawn then List.replicate old.length 0x00#8 else drawn

/-- R2, R9: page `p` torn. -/
def Memory.tearPage (m : Memory) (p : PageAddr) (draw : Nat) : Memory :=
  m.writeRange p.base (tornBytes (m.readRange p.base Config.pageBytes) draw)

/-- R10: a failed mark program of `value`: every bit that was 0 stays 0, and bits that `value` would have cleared may stay 1
(log 8). -/
def Memory.markFails (m : Memory) (b : Nat) (value : Byte) (draw : Nat) : Memory :=
  m.markBlock b (value ||| Config.freeByte draw 0)

/-! ## Completions at the array (R9 to R11) -/

/-- R10: the mark program of `value` into page 0 of block `b` completes. -/
def State.fcMarkDone (s : State) (b : Nat) (value : Byte) (o : FlashOutcome) : State :=
  match o with
  | .pass => s.setFc { s.fc with op := none, mem := s.fc.mem.markBlock b value }
  | .fail =>
    ((s.setFc { s.fc with op := none, mem := s.fc.mem.markFails b value s.fresh }).drawn).bump .markFailures

/-- R11: the erase of block `b` completes. -/
def State.fcEraseDone (s : State) (b : Nat) (o : FlashOutcome) : State :=
  match o with
  | .pass => s.setFc { s.fc with op := none, mem := s.fc.mem.erasePages b 0 Config.pagesPerBlock }
  | .fail =>
    ((s.setFc { s.fc with op := none, mem := (s.fc.mem.erasePages b 0 1).scramblePages b s.fresh }).drawn).bump
      .eraseFailures

/-- R9: the page program of claim `c` completes with PASS: the image is in the page, the array register idle and empty. -/
def State.fcProgramPasses (s : State) (c : ProgramClaim) : State :=
  let bytes := (s.fc.array.image.map fun i => i.bytes c).getD (erasedBytes Config.pageBytes)
  s.setFc { s.fc with op := none, mem := s.fc.mem.programPage c.target bytes, array := ArrayReg.reset }

/-- R9: the page program of claim `c` completes with FAIL: the page is torn, the image kept. -/
def State.fcProgramTears (s : State) (c : ProgramClaim) : State :=
  ((s.setFc { s.fc with mem := s.fc.mem.tearPage c.target s.fresh }).drawn).fcProgramFails

/-- R6, R14: a spare read of page `p` completes: the read register holds its spare part. -/
def State.fcSpareRead (s : State) (p : PageAddr) : State :=
  s.setFc { s.fc with op := none, read := { page := some p, spare := some (s.fc.mem.spareOf p), data := none } }

/-- R7, R14: a page read of page `p` completes: the read register holds both parts. -/
def State.fcPageRead (s : State) (p : PageAddr) : State :=
  s.setFc { s.fc with op := none,
                      read := { page := some p, spare := some (s.fc.mem.spareOf p), data := some (s.fc.mem.dataOf p) } }

/-! ## Reset with an operation in flight (R18) -/

/-- R18: what the array holds after a reset that cuts short operation `op`, with `draw` for the open values. -/
def Memory.cutShort (m : Memory) (draw : Nat) : Op → Memory
  | .scanSpareRead _ => m
  | .scanPageRead _ => m
  | .lookupRead _ _ _ => m
  | .transfer _ => m
  | .program c => if c.target.valid then m.tearPage c.target draw else m
  | .scanMark b value => if Config.freeMarkLanded draw then m.markBlock b value else m
  | .mark b value => if Config.freeMarkLanded draw then m.markBlock b value else m
  | .scanErase b => if b < Config.blocks then (m.erasePages b 0 1).scramblePages b draw else m
  | .erase b => if b < Config.blocks then (m.erasePages b 0 1).scramblePages b draw else m

/-- R18, R19: FC after a reset: the array as the operation cut short leaves it, the flags kept (R4), the rest empty. -/
def Fc.afterReset (fc : Fc) (draw : Nat) : Fc :=
  Fc.resetOver ((fc.op.map (fc.mem.cutShort draw)).getD fc.mem) fc.progFlags fc.markFlags

end Sys2Proof.Machine
end

