-- ==== Sys2Proof/Machine/Reassembly.lean ====
section
/-! DEFINITION. The reassembly unit (chapter 7), and what ends every command that reaches the store. -/

namespace Sys2Proof.Machine

/-! ## The end of a command -/

/-- What follows the blocks' own effects in a command: SM's reclaim evaluation if one is due (R157), the arbiter's grant to
the claims made (R16), and RP's one re-run if one is due (R167); see logs 12, 13 and 14. -/
def State.settleAll (s : State) : State := ((s.evaluateReclaim).grant).settleRepair

/-! ## Tests on a segment (R125 to R128) -/

/-- R126: the header is consistent in itself. -/
def Segment.consistent (g : Segment) (groupSize : Nat) : Bool :=
  decide (1 ≤ g.origin) && decide (g.origin ≤ groupSize) && decide (1 ≤ g.count) && decide (g.count ≤ 8)
    && decide (g.index < g.count) && decide (1 ≤ g.length) && decide (g.length ≤ Config.maxPayload)
    && g.count == segmentCount g.length && g.payloadLength == segmentLength g.length g.count g.index

/-- What a slot in use holds. -/
def Slot.data : Slot → Option SlotData
  | .free => none
  | .filling d => some d
  | .complete d => some d

/-- R127: the slot that holds (o, n). -/
def State.slotOf (s : State) (o n : Nat) : Option Nat :=
  firstPlace s.ra.slots fun x =>
    match x.data with
    | some d => d.origin == o && d.seq == n
    | none => false

/-- R127: the segment agrees with the slot. -/
def SlotData.agrees (d : SlotData) (g : Segment) : Bool :=
  d.count == g.count && d.length == g.length && d.check == g.check

/-- R122: the index is in the received set. -/
def SlotData.received (d : SlotData) (i : Nat) : Bool := d.parts.any fun p => p.1 == i

/-- Slot `i` of RA replaced. -/
def State.putSlot (s : State) (i : Nat) (x : Slot) : State := s.setRa { s.ra with slots := setPlace s.ra.slots i x }

/-! ## Storing and completion (R130, R132, R133) -/

/-- R130: a part inserted in ascending place. -/
def insertPart (i : Nat) (bytes : List Byte) : List (Nat × List Byte) → List (Nat × List Byte)
  | [] => [(i, bytes)]
  | p :: ps => if i < p.1 then (i, bytes) :: p :: ps else p :: insertPart i bytes ps

/-- R133: a COMPLETE slot gets a reference, or joins the wait list. -/
def State.enqueueSlot (s : State) (i : Nat) : State :=
  if s.ce.queue.length < Config.queuePlaces ∧ s.ra.waitList = [] then
    (s.setCe { s.ce with queue := s.ce.queue ++ [.slot i] }).runCommit
  else s.setRa { s.ra with waitList := s.ra.waitList ++ [i] }

/-- R132: slot `i` holds every segment: its record check decides. -/
def State.finishSlot (s : State) (i : Nat) (d : SlotData) : State :=
  if crc32 (d.payload.take d.length) = d.check then (s.putSlot i (.complete d)).enqueueSlot i
  else ((s.putSlot i .free).bump .checkFailures).tellRp

/-- R130: segment `g` stored in slot `i`, which holds `d`. -/
def State.storeSegment (s : State) (i : Nat) (d : SlotData) (g : Segment) : State :=
  let d1 := { d with parts := insertPart g.index g.payload d.parts }
  if d1.parts.length = d1.count then s.finishSlot i d1 else s.putSlot i (.filling d1)

/-- R129: an accepted segment takes the lowest-numbered FREE slot, or is dropped NO-SLOT. -/
def State.allocateSlot (s : State) (g : Segment) : State :=
  match firstPlace s.ra.slots (· == .free) with
  | none => s.bump .noSlot
  | some i =>
    s.tellRp.storeSegment i
      { origin := g.origin, seq := g.seq, count := g.count, length := g.length, check := g.check, parts := [] } g

/-- R127, R128: tests 3 and 4 of R125 on a consistent segment of a peer's record. -/
def State.matchSegment (s : State) (g : Segment) : State :=
  match s.slotOf g.origin g.seq with
  | some i =>
    match (place s.ra.slots .free i).data with
    | some d =>
      if !d.agrees g then s.bump .mismatch else if d.received g.index then s else s.storeSegment i d g
    | none => s
  | none =>
    match s.acceptance g.origin g.seq with
    | none => s.allocateSlot g
    | some .belowFloor => s.bump .refused
    | some .span => s.bump .refused
    | some .gapsFull => s.bump .refused
    | some .duplicate => s
    | some .ownOrigin => s

/-- R125, R137, R174: a SEG body is taken; a RESEND segment that passes tests 1 and 2 is reported to RP after everything else. -/
def State.takeSegment (s : State) (body : List Byte) : State :=
  let g := segmentOf body
  if g.origin == s.own then s.settleAll
  else if !g.consistent s.groupSize then (s.bump .mismatch).settleAll
  else
    let s1 := (s.matchSegment g).settleAll
    if g.resend then s1.resendHeard g.origin g.seq else s1

/-- R131: the timer of slot `i` expires, if it runs. -/
def State.slotExpires (s : State) (i : Nat) : State :=
  match place s.ra.slots .free i with
  | .filling _ => ((s.putSlot i .free).bump .expired).tellRp
  | _ => s

end Sys2Proof.Machine
end

