-- ==== Sys2Proof/Machine/Scan.lean ====
section
/-! DEFINITION. The store scan (chapter 3): its operations, what it makes of each read, the completion of the block table, the
rebuilding of the holdings, and its end. -/

namespace Sys2Proof.Machine

/-! ## The scan's operations (R17, R43 to R46) -/

/-- R17: a scan operation, granted as the array is free, with the scan's working state. -/
def State.scanIssue (s : State) (scan : Scan) (op : Op) : State :=
  (s.setSc { s.sc with scan := some scan }).setFc { s.fc with op := some op }

/-- The scan claims the spare read of page `page` of its block. -/
def State.scanSpare (s : State) (scan : Scan) (mode : ScanMode) (page : Nat) : State :=
  s.scanIssue { scan with page := page, step := .spare mode } (.scanSpareRead { block := scan.block, page := page })

/-- The scan keeps the spare it has read and claims the page read of the same page. -/
def State.scanPage (s : State) (scan : Scan) (mode : ScanMode) (spare : List Byte) : State :=
  s.scanIssue { scan with step := .page mode spare } (.scanPageRead { block := scan.block, page := scan.page })

/-- R45, R11: the scan's erase of its block begins: the flags cleared and page 0 erased at the grant. -/
def State.scanErase (s : State) (scan : Scan) : State :=
  let s1 := s.scanIssue { scan with step := .erase } (.scanErase scan.block)
  s1.setFc { s1.fc.clearFlags scan.block with mem := s1.fc.mem.erasePages scan.block 0 1 }

/-! ## The end of the scan (R47) -/

/-- R47: the newest of the written blocks as (stamp, block). -/
def newestWritten (classes : List (ScanClass × Nat)) : Option (Nat × Nat) :=
  classes.foldl (fun best x =>
    match x.1 with
    | .written stamp _ _ _ => laterOf best (stamp, x.2)
    | _ => best) none

/-- R43 to R47: the block table entry of a class; `newest` says that the block is the newest written one. -/
def ScanClass.entry (newest : Bool) : ScanClass → BlockEntry
  | .free => BlockEntry.reset
  | .retired cause => retiredEntry cause
  | .written stamp pages torn summary =>
    { state := if newest && decide (1 ≤ pages) && decide (pages ≤ 47) && !torn then .opened else .sealed,
      stamp := some stamp, pages := pages, summary := summary }

/-- The good pages of a written block. -/
def ScanClass.pages : ScanClass → Nat
  | .written _ pages _ _ => pages
  | _ => 0

/-- R47: the store manager's table, newest page, stamp high-water and last-opened block; `classes` is in block order. -/
def Sm.rebuilt (sm : Sm) (classes : List (ScanClass × Nat)) : Sm :=
  let newest := newestWritten classes
  let sm1 := classes.foldl (fun m x => m.setBlock x.2 (x.1.entry (newest.map Prod.snd == some x.2))) sm
  match newest with
  | none => { sm1 with newestPage := none, stampHigh := 0, lastOpened := 639 }
  | some (stamp, b) =>
    { sm1 with newestPage := some { block := b, page := (sm1.block b).pages - 1 }, stampHigh := stamp, lastOpened := b }

/-! ## Rebuilding the holdings (R48, R49) -/

/-- The lowest number of the run of consecutive numbers that goes down from `lo`, over found numbers in falling order. -/
def runDown (lo : Nat) : List Nat → Nat
  | [] => lo
  | x :: xs => if x + 1 = lo then runDown x xs else lo

/-- R48: the own entry for the largest own-top mark and the own found set in rising order; a floor cannot pass
4,294,967,295 (log 34). -/
def ownRebuilt (mark : Nat) (found : List Nat) : Entry :=
  match (found.filter fun n => decide (n ≤ mark)).reverse with
  | x :: xs =>
    if x = mark then { floor := runDown mark xs, top := mark, gaps := [] }
    else { floor := min (mark + 1) Config.maxSeq, top := mark, gaps := [] }
  | [] => { floor := min (mark + 1) Config.maxSeq, top := mark, gaps := [] }

/-- R49: the walk down through the found numbers in falling order: the floor reached and the gaps entered. -/
def walkDown (lo : Nat) (gaps : List Range) : List Nat → Nat × List Range
  | [] => (lo, gaps)
  | x :: xs =>
    if x + 1 = lo then walkDown x gaps xs
    else if gaps.length < Config.maxGaps then walkDown x ({ lo := x + 1, hi := lo - 1 } :: gaps) xs
    else (lo, gaps)

/-- R49: the entry of a peer origin for its found set in rising order. -/
def peerRebuilt (found : List Nat) : Entry :=
  match found.reverse with
  | [] => Entry.reset
  | t :: xs =>
    let (floor, gaps) := walkDown t [] xs
    { floor := floor, top := t, gaps := gaps }

/-- R48, R49: the entry of origin `o` after the scan. -/
def Scan.entryOf (scan : Scan) (own o : Nat) : Entry :=
  let found := lineOf scan.found [] o
  if o = own then ownRebuilt scan.ownTop found else peerRebuilt found

/-- R48, R49: the found numbers of origin `o` below its rebuilt floor. -/
def Scan.orphansOf (scan : Scan) (own o : Nat) : Nat :=
  (lineOf scan.found [] o).countP fun n => decide (n < (scan.entryOf own o).floor)

/-- R48, R49: the holdings rebuilt and the orphans counted. -/
def State.rebuildHoldings (s : State) (scan : Scan) : State :=
  let origins := upFrom 1 Config.maxStations
  let entries := origins.foldl (fun v o => setLine v o (scan.entryOf s.own o)) s.hu.entries
  (s.setHu { s.hu with entries := entries }).orphans ((origins.map (scan.orphansOf s.own)).foldl (· + ·) 0)

/-- R50: the station state the scan ends in. -/
def State.afterScan (s : State) : State :=
  let phase : Phase :=
    if Config.blocks - s.sm.retiredCount < 8 then .running .halted .storeUnusable else .running .awaitConfig .none
  s.setSc { s.sc with phase := phase, scan := none }

/-- R47 to R50: the scan ends: the table and the holdings are rebuilt, the station leaves SCANNING, the pressure level is set
(log 16) and reclaim evaluated. -/
def State.scanEnds (s : State) (scan : Scan) : State :=
  let s1 := (s.setSm { s.sm.rebuilt scan.classes.reverse.zipIdx with reclaimDue := true }).rebuildHoldings scan
  (s1.afterScan.setPressure).settleAll

/-- A block has been classified: the next block is begun with its spare read of page 0, or the scan ends. -/
def State.scanBlockDone (s : State) (scan : Scan) (c : ScanClass) : State :=
  let scan1 := { scan with classes := c :: scan.classes }
  if scan.block + 1 < Config.blocks then
    s.scanSpare { scan1 with block := scan.block + 1, stamp := 0, summary := [] } .first 0
  else s.scanEnds scan1

/-! ## What the scan makes of a read (R43 to R46) -/

/-- R43 to R46: the scan's spare read of a page has returned `spare`. A page whose spare read already decides is not read
(log 18). -/
def State.scanSpareRead (s : State) (scan : Scan) (mode : ScanMode) (spare : List Byte) : State :=
  match mode with
  | .first =>
    if spareMark spare = 0x3C#8 then s.scanBlockDone scan (.retired .worn)
    else if spareMark spare ≠ 0xFF#8 then s.scanBlockDone scan (.retired .factory)
    else if allErased spare || spareGood spare then s.scanPage scan .first spare
    else s.scanErase scan
  | .freeTest => if allErased spare then s.scanPage scan .freeTest spare else s.scanErase scan
  | .walk =>
    if allErased spare || (spareGood spare && spareStamp spare == scan.stamp) then s.scanPage scan .walk spare
    else s.scanBlockDone scan (.written scan.stamp scan.page true scan.summary)

/-- R46, R48: a good page's record list in the summary and the found sets, its mark in the largest own-top mark. -/
def Scan.takeGood (scan : Scan) (spare : List Byte) : Scan :=
  { scan with
    summary := enterList (spareList spare) scan.summary,
    found := (spareList spare).foldl (fun v e => setLine v e.origin (insertRising e.seq (lineOf v [] e.origin))) scan.found,
    ownTop := max scan.ownTop (spareOwnTop spare) }

/-- R44: the next page of the free test, or the block is FREE. -/
def State.scanNextFree (s : State) (scan : Scan) : State :=
  if scan.page = 47 then s.scanBlockDone scan .free else s.scanSpare scan .freeTest (scan.page + 1)

/-- R46: the next page of the walk, or the block is full. -/
def State.scanNextWalk (s : State) (scan : Scan) : State :=
  if scan.page = 47 then s.scanBlockDone scan (.written scan.stamp 48 false scan.summary)
  else s.scanSpare scan .walk (scan.page + 1)

/-- R44, R46: the scan's page read has returned `data` after the spare read returned `spare`. -/
def State.scanPageRead (s : State) (scan : Scan) (mode : ScanMode) (spare data : List Byte) : State :=
  let erased := allErased spare && allErased data
  let good := !allErased spare && crc32 data == sparePageCheck spare
  match mode with
  | .first =>
    if erased then s.scanNextFree scan
    else if good then s.scanNextWalk { scan.takeGood spare with stamp := spareStamp spare }
    else s.scanErase scan
  | .freeTest => if erased then s.scanNextFree scan else s.scanErase scan
  | .walk =>
    if erased then s.scanBlockDone scan (.written scan.stamp scan.page false scan.summary)
    else if good then s.scanNextWalk (scan.takeGood spare)
    else s.scanBlockDone scan (.written scan.stamp scan.page true scan.summary)

/-- R45: the scan's erase has ended; after a failure the mark program of 3Ch is claimed, which R5 may refuse at once. -/
def State.scanErased (s : State) (scan : Scan) (o : FlashOutcome) : State :=
  match o with
  | .pass => s.scanBlockDone scan .free
  | .fail =>
    let p : PageAddr := { block := scan.block, page := 0 }
    if s.fc.markFlag p then (s.bump .markFailures).scanBlockDone scan (.retired .worn)
    else (s.setFc (s.fc.setMarkFlag p)).scanIssue { scan with step := .mark } (.scanMark scan.block 0x3C#8)

/-! ## Meanings -/

/-- SCAN_SPARE_READ_DONE (R6, R14, R43, R44, R46). -/
def execScanSpareReadDone (s : State) : Host.Outcome State Fault Refusal :=
  match s.fc.op, s.sc.scan with
  | some (.scanSpareRead p), some scan =>
    match scan.step with
    | .spare mode =>
      if p.valid then .next ((s.fcSpareRead p).scanSpareRead scan mode (s.fc.mem.spareOf p)) else .fault (.noSuchPage p)
    | _ => .next s
  | _, _ => .next s

/-- SCAN_PAGE_READ_DONE (R7, R14, R44, R46). -/
def execScanPageReadDone (s : State) : Host.Outcome State Fault Refusal :=
  match s.fc.op, s.sc.scan with
  | some (.scanPageRead p), some scan =>
    match scan.step with
    | .page mode spare =>
      if p.valid then .next ((s.fcPageRead p).scanPageRead scan mode spare (s.fc.mem.dataOf p)) else .fault (.noSuchPage p)
    | _ => .next s
  | _, _ => .next s

/-- SCAN_ERASE_DONE (R11, R45). -/
def execScanEraseDone (outcome : FlashOutcome) (s : State) : Host.Outcome State Fault Refusal :=
  match s.fc.op, s.sc.scan with
  | some (.scanErase b), some scan =>
    if b < Config.blocks then .next ((s.fcEraseDone b outcome).scanErased scan outcome)
    else .fault (.noSuchPage { block := b, page := 0 })
  | _, _ => .next s

/-- SCAN_MARK_DONE (R10, R45): RETIRED(WORN) with either outcome. -/
def execScanMarkDone (outcome : FlashOutcome) (s : State) : Host.Outcome State Fault Refusal :=
  match s.fc.op, s.sc.scan with
  | some (.scanMark b value), some scan =>
    if b < Config.blocks then .next ((s.fcMarkDone b value outcome).scanBlockDone scan (.retired .worn))
    else .fault (.noSuchPage { block := b, page := 0 })
  | _, _ => .next s

end Sys2Proof.Machine
end

