-- ==== Sys2Proof/Machine/Start.lean ====
section
/-! DEFINITION. The start controller (chapter 3): resets and their release, CONFIGURE, and the entry to JOINING. -/

namespace Sys2Proof.Machine

/-! ## Reset (R40, R18, R19, R24, R74, R77, R92, R97, R105, R106, R119, R122, R139, R164, R166, R183, R188, R209) -/

/-- R40: a reset of `kind` begins: the flash operation in flight is cut short (R18), and every block takes its reset values.
The reset cause is written at release; the commands waiting are events to come and stay. -/
def State.beginReset (s : State) (kind : ResetKind) : State :=
  { sc := { phase := .held kind, supplyFell := s.sc.supplyFell || kind == .power, resetCause := s.sc.resetCause,
            number := s.sc.number, settings := none, listening := false, scan := none },
    fc := s.fc.afterReset s.fresh,
    sm := Sm.reset, hu := Hu.reset, su := Su.reset, ra := Ra.reset, ce := Ce.reset, lc := Lc.reset, rp := Rp.reset,
    nu := Nu.reset, ap := Ap.reset, fresh := s.fresh + 1, pending := s.pending }

/-- R43: the scan before its first read completes. -/
def Scan.first : Scan :=
  { block := 0, page := 0, step := .spare .first, stamp := 0, summary := [], classes := [],
    found := Vector.replicate 24 [], ownTop := 0 }

/-- R40: the reset cause at a release. -/
def Sc.releaseCause (sc : Sc) (kind : ResetKind) : ResetKind := if sc.supplyFell then .power else kind

/-- R40, R41, R97: the reset is released with the straps reading `n`. -/
def State.release (s : State) (kind : ResetKind) (n : Nat) : State :=
  let sc := { s.sc with resetCause := s.sc.releaseCause kind, supplyFell := false, number := n }
  if 1 ≤ n ∧ n ≤ 24 then
    let s1 := s.setSc { sc with phase := .running .scanning .none }
    (s1.setHu { s1.hu with presence := setLine s1.hu.presence n .present }).scanSpare Scan.first .first 0
  else s.setSc { sc with phase := .running .halted .badStraps }

/-- POWER_ON_RESET (R40). -/
def execPowerOnReset (s : State) : Host.Outcome State Fault Refusal := .next (s.beginReset .power)

/-- PIN_RESET (R40). -/
def execPinReset (s : State) : Host.Outcome State Fault Refusal := .next (s.beginReset .pin)

/-- RESET_RELEASE (R40, R41); a part that is not held in reset is not released (log 2). -/
def execResetRelease (straps : BitVec 5) (s : State) : Host.Outcome State Fault Refusal :=
  match s.sc.phase with
  | .held kind => .next (s.release kind straps.toNat)
  | .running _ _ => .next s

/-! ## Configuration (R52, R53, R54, R195) -/

/-- R197: an owner's answer to a command it was handed: it goes to the slot only while the slot still awaits it. -/
def State.answer (s : State) (owed : Bool) (status : Status) (data : List Byte) : State :=
  if owed then s.setAp { s.ap with slot := .ready { status := status, data := data, armsReset := false } } else s

/-- R53: the numbers settled in the entries of origins above `n`. -/
def State.settledAbove (s : State) (n : Nat) : Nat :=
  ((upFrom (n + 1) (Config.maxStations - n)).map fun o => (s.entry o).settledCount).foldl (· + ·) 0

/-- R53, R92, R97, R100, R101, R104: HU at the acceptance of a CONFIGURE with group size `n`. -/
def Hu.configured (hu : Hu) (own n : Nat) : Hu :=
  { hu with
    entries := (upFrom (n + 1) (Config.maxStations - n)).foldl (fun v o => setLine v o Entry.reset) hu.entries,
    matrix := Vector.replicate 24 none,
    presence := setLine (Vector.replicate 24 .unknown) own .present,
    silence := Vector.replicate 24 false,
    reportTimer := true,
    reportPending := false,
    line3 := true }

/-- R54, R65, R69: LC at the entry to JOINING; `carrier` says whether carrier is present at that instant (log 19). -/
def Lc.joining (lc : Lc) (carrier : Bool) : Lc :=
  { lc with state := .seeking, quietLimit := true, tracked := if carrier then .inProgress else .quiet }

/-- R53: the settings `c` accepted. -/
def State.accept (s : State) (c : Settings) (carrier : Bool) : State :=
  let s1 := s.setSc { s.sc with settings := some c, phase := .running .joining .none }
  let s2 := (s1.setHu (s1.hu.configured s.own c.groupSize)).orphans (s.settledAbove c.groupSize)
  let s3 := (s2.setLc (s2.lc.joining carrier)).setNu (s2.nu.setAttn c.noticeThreshold)
  (s3.evaluateDurable).settleAll

/-- R52: the settings a CONFIGURE carries, if every one is in range for station `own`. -/
def validSettings (own : Nat) (params : List Byte) : Option Settings :=
  (settingsOf params).filter fun c => c.inRange own

/-- CONFIGURE_TAKEN (R52, R53, R201): the oldest CONFIGURE handed on is taken. -/
def execConfigureTaken (carrier : Bool) (s : State) : Host.Outcome State Fault Refusal :=
  match s.ap.configures with
  | [] => .next s
  | h :: rest =>
    let s1 := s.setAp { s.ap with configures := rest }
    if s.station == some .awaitConfig then
      match validSettings s.own h.params with
      | some c => .next ((s1.accept c carrier).answer h.owed .ok [])
      | none => .next (s1.answer h.owed .badConfig [])
    else .next (s1.answer h.owed .refusedState [])

end Sys2Proof.Machine
end

