-- ==== Sys2Proof/Machine/Attach.lean ====
section
/-! DEFINITION. The attach port (chapter 11), the command frames and response reads, and SU's taking of a SUBMIT (chapter 6). A
transaction is one command, at the rising edge of chip select (log 20). -/

namespace Sys2Proof.Machine

/-! ## A transaction (R196) -/

/-- R196: the rising edge of chip select ends a transaction of these bits: the command its identifier picks joins the commands
waiting; a transaction without a whole byte changes nothing. -/
def State.chipSelectRises (s : State) (bits : List Bool) : State :=
  match transactionOf bits with
  | none => s
  | some c => { s with pending := s.pending ++ [c] }

/-! ## Taking a frame (R196 to R199) -/

/-- R197: AP or NU answers at once. -/
def State.respond (s : State) (status : Status) (data : List Byte) : State := s.answer true status data

/-- R196, R197: a command frame of `rest` after its identifier has been taken: data out carried FFh, and an answer still owed to
the slot is dropped when it arrives. -/
def State.frameTaken (s : State) (rest : List Byte) : State :=
  s.setAp { s.ap with
    submitBuffer := s.ap.submitBuffer.map fun h => { h with owed := false },
    configures := s.ap.configures.map fun h => { h with owed := false },
    dataOut := erasedBytes rest.length }

/-- R198 test 2: the parameters of a frame whose length is right, if `fits` accepts them. -/
def frameParams (rest : List Byte) (fits : List Byte → Bool) : Option (List Byte) :=
  if decide (2 ≤ rest.length) && rest.length - 2 == field rest 0 2 && fits (rest.drop 2) then some (rest.drop 2) else none

/-- Table 11-4: STATUS and RESTART. -/
def takenAlways : StationState → Option Status := fun _ => none

/-- Table 11-4: COUNTERS. -/
def takenUnlessScanning : StationState → Option Status
  | .scanning => some .notReady
  | .awaitConfig => none
  | .joining => none
  | .active => none
  | .halted => none

/-- Table 11-4: SUBMIT, FETCH, FETCH-RESULT, HOLDINGS, NOTICES. -/
def takenWhileRunning : StationState → Option Status
  | .scanning => some .notReady
  | .awaitConfig => none
  | .joining => none
  | .active => none
  | .halted => some .notReady

/-- Table 11-4: CONFIGURE. -/
def takenInAwaitConfig : StationState → Option Status
  | .scanning => some .notReady
  | .awaitConfig => none
  | .joining => some .refusedState
  | .active => some .refusedState
  | .halted => some .notReady

/-- R198: tests 2 and 3 on a frame of a known command, in order; a frame that passes them goes to `owner`. While the part is held
in reset the port takes nothing (R209). -/
def State.takeFrame (s : State) (rest : List Byte) (fits : List Byte → Bool) (refused : StationState → Option Status)
    (owner : List Byte → State → State) : State :=
  match s.station with
  | none => s
  | some st =>
    let t := s.frameTaken rest
    match frameParams rest fits with
    | none => t.respond .badFrame []
    | some params =>
      match refused st with
      | some status => t.respond status []
      | none => owner params t

/-- R198 test 4: the origin parameter is out of range. -/
def State.badOrigin (s : State) (o : Nat) : Bool := o == 0 || decide (s.originLimit < o)

/-! ## Response reads (R197, R208) -/

/-- R197: what a response read returns. -/
def ResponseSlot.reading : ResponseSlot → Response
  | .empty => { status := .badFrame, data := [], armsReset := false }
  | .awaiting => { status := .wait, data := [], armsReset := false }
  | .ready r => r

/-- R196: `clocks` bytes shifted out of the response `r`, FFh beyond its end. -/
def shiftedOut (clocks : Nat) (r : Response) : List Byte :=
  (responseBytes r ++ erasedBytes (clocks - (responseBytes r).length)).take clocks

/-- RESPONSE_READ (R196, R197, R208): the read changes nothing in the slot; one that returns the OK of a RESTART is followed by a
command reset (log 21). -/
def execResponseRead (clocks : Nat) (s : State) : Host.Outcome State Fault Refusal :=
  match s.station with
  | none => .next s
  | some _ =>
    let r := s.ap.slot.reading
    let s1 := if r.armsReset then s.beginReset .command else s
    .next (s1.setAp { s1.ap with dataOut := shiftedOut clocks r })

/-! ## STATUS, COUNTERS, RESTART (R200, R207, R208) -/

/-- The codes of the station state and the halt cause. -/
def Phase.codes : Phase → Nat × Nat
  | .held _ => (0, 0)
  | .running st halt => (st.code, halt.code)

/-- Table 12-8: the data of STATUS. -/
def State.statusData (s : State) : List Byte :=
  let target := (s.sc.settings.map Settings.target).getD 0
  toBytes 1 s.sc.phase.codes.1 ++ toBytes 1 s.sc.resetCause.code ++ toBytes 1 s.sc.phase.codes.2
    ++ toBytes 1 s.sc.number ++ toBytes 1 s.groupSize ++ toBytes 1 target
    ++ toBytes 1 s.sm.pressure.code ++ toBytes 1 s.ce.state.code
    ++ toBytes 2 s.sm.freeCount ++ toBytes 2 s.sm.retiredCount
    ++ toBytes 4 s.ownTop ++ toBytes 4 s.hu.durable
    ++ toBytes 1 s.nu.queue.length ++ [flagByte s.nu.overflow]

/-- STATUS (R200). -/
def execStatus (rest : List Byte) (s : State) : Host.Outcome State Fault Refusal :=
  .next (s.takeFrame rest List.isEmpty takenAlways fun _ t => t.respond .ok t.statusData)

/-- Table 12-8: the data of COUNTERS. -/
def State.countersData (s : State) : List Byte := s.ap.counters.toList.flatMap (toBytes 2)

/-- R207: COUNTERS with its clear flag. -/
def State.takeCounters (s : State) (clear : Bool) : State :=
  let s1 := s.respond .ok s.countersData
  if clear then s1.setAp { s1.ap with counters := Vector.replicate 19 0 } else s1

/-- R215: the parameter of COUNTERS is 00h or 01h. -/
def countersFits (params : List Byte) : Bool := params == [0x00#8] || params == [0x01#8]

/-- COUNTERS (R207). -/
def execCounters (rest : List Byte) (s : State) : Host.Outcome State Fault Refusal :=
  .next (s.takeFrame rest countersFits takenUnlessScanning fun params t => t.takeCounters (params == [0x01#8]))

/-- RESTART (R208): the OK that arms a command reset. -/
def execRestart (rest : List Byte) (s : State) : Host.Outcome State Fault Refusal :=
  .next (s.takeFrame rest List.isEmpty takenAlways fun _ t =>
    t.setAp { t.ap with slot := .ready { status := .ok, data := [], armsReset := true } })

/-! ## CONFIGURE and SUBMIT (R201) -/

/-- CONFIGURE (R201): the settings are handed to the start controller. -/
def execConfigure (rest : List Byte) (s : State) : Host.Outcome State Fault Refusal :=
  .next (s.takeFrame rest (fun params => params.length == 10) takenInAwaitConfig fun params t =>
    t.setAp { t.ap with slot := .awaiting, configures := t.ap.configures ++ [{ params := params, owed := true }] })

/-- R198 test 5, R201: the payload is handed to SU, at most 1,920 bytes of it kept. -/
def State.handSubmit (s : State) (params : List Byte) : State :=
  match s.ap.submitBuffer with
  | some _ => s.respond .busy []
  | none =>
    s.setAp { s.ap with
      slot := .awaiting,
      submitBuffer := some { length := params.length, payload := params.take Config.maxPayload, owed := true } }

/-- SUBMIT (R201). -/
def execSubmit (rest : List Byte) (s : State) : Host.Outcome State Fault Refusal :=
  .next (s.takeFrame rest (fun _ => true) takenWhileRunning fun params t => t.handSubmit params)

/-- R107: q, the number of QUEUED entries. -/
def Su.queued (su : Su) : Nat := su.entries.toList.countP fun e => e.pendingSeq.isSome

/-- R108: the first test that fails on a SUBMIT of `length` bytes. -/
def State.submitRefusal (s : State) (length : Nat) : Option Status :=
  if s.station != some .active then some .notReady
  else if length = 0 ∨ Config.maxPayload < length then some .badLength
  else if Config.maxSeq < s.ownTop + s.su.queued + 1 then some .exhausted
  else if s.sm.pressure = .tight then some .full
  else if (firstPlace s.su.entries (· == .free)).isNone ∨ Config.queuePlaces ≤ s.ce.queue.length then some .busy
  else none

/-- R109: the number the next accepted SUBMIT is given. -/
def State.nextNumber (s : State) : Nat := s.ownTop + s.su.queued + 1

/-- R109: a SUBMIT accepted into the FREE entry `i`. -/
def State.acceptSubmit (s : State) (i : Nat) (payload : List Byte) : State :=
  let r : OwnRecord := { seq := s.nextNumber, check := crc32 payload, payload := payload }
  let s1 := s.setSu { entries := setPlace s.su.entries i (.queued r) }
  ((s1.setCe { s1.ce with queue := s1.ce.queue ++ [.entry i] }).runCommit).settleAll

/-- SUBMIT_TAKEN (R108, R109): SU takes the SUBMIT handed to it and answers. -/
def execSubmitTaken (s : State) : Host.Outcome State Fault Refusal :=
  match s.ap.submitBuffer with
  | none => .next s
  | some h =>
    let s1 := s.setAp { s.ap with submitBuffer := none }
    match s1.submitRefusal h.length, firstPlace s1.su.entries (· == .free) with
    | some status, _ => .next (s1.answer h.owed status [])
    | none, some i => .next ((s1.acceptSubmit i h.payload).answer h.owed .ok (toBytes 4 s1.nextNumber))
    | none, none => .next (s1.answer h.owed .busy [])

/-! ## FETCH and FETCH-RESULT (R202 to R204) -/

/-- R202: FETCH(o, n). -/
def State.takeFetch (s : State) (o n : Nat) : State :=
  if s.badOrigin o then s.respond .badOrigin []
  else if !(s.entry o).settled n then s.respond .notHeld []
  else
    match s.ap.fetch with
    | .idle => (((s.setAp { s.ap with fetch := .looking o n }).startLookup .fetch o n).settleAll).respond .accepted []
    | _ => s.respond .busy []

/-- FETCH (R202). -/
def execFetch (rest : List Byte) (s : State) : Host.Outcome State Fault Refusal :=
  .next (s.takeFrame rest (fun params => params.length == 5) takenWhileRunning fun params t =>
    t.takeFetch (field params 0 1) (field params 1 4))

/-- Table 12-8: the answer of FETCH-RESULT to a DONE job. -/
def fetchAnswer (o n : Nat) : FetchOutcome → Status × List Byte
  | .ok payload => (.ok, toBytes 1 o ++ toBytes 4 n ++ toBytes 2 payload.length ++ payload)
  | .lost => (.lost, toBytes 1 o ++ toBytes 4 n)
  | .damaged => (.damaged, toBytes 1 o ++ toBytes 4 n)
  | .notHeld => (.notHeld, toBytes 1 o ++ toBytes 4 n)

/-- R204: FETCH-RESULT. -/
def State.takeFetchResult (s : State) : State :=
  match s.ap.fetch with
  | .idle => s.respond .notHeld []
  | .looking _ _ => s.respond .pending []
  | .done o n r =>
    let s1 := s.respond (fetchAnswer o n r).1 (fetchAnswer o n r).2
    s1.setAp { s1.ap with fetch := .idle }

/-- FETCH_RESULT (R204). -/
def execFetchResult (rest : List Byte) (s : State) : Host.Outcome State Fault Refusal :=
  .next (s.takeFrame rest List.isEmpty takenWhileRunning fun _ t => t.takeFetchResult)

/-! ## HOLDINGS and NOTICES (R205, R206) -/

/-- R205: the report-matrix place of station `p` for origin `o`: the station's own pair for itself. -/
def State.columnPlace (s : State) (o p : Nat) : Option Pair :=
  if p = s.own then some (s.entry o).pair else s.cell p o

/-- Table 12-8: a place in 9 bytes: 01h and the pair, or for UNKNOWN 00h throughout (log 35). -/
def placeBytes : Option Pair → List Byte
  | some p => [0x01#8] ++ toBytes 4 p.floor ++ toBytes 4 p.frontier
  | none => List.replicate 9 0x00#8

/-- Table 12-8: the data of HOLDINGS(o). -/
def State.holdingsData (s : State) (o : Nat) : List Byte :=
  let e := s.entry o
  toBytes 4 e.floor ++ toBytes 4 e.frontier ++ toBytes 4 e.top
    ++ toBytes 1 e.gaps.length ++ e.gaps.flatMap (fun g => toBytes 4 g.lo ++ toBytes 4 g.hi)
    ++ toBytes 1 (s.presenceOf o).code
    ++ toBytes 1 s.originLimit ++ (upFrom 1 s.originLimit).flatMap (fun p => placeBytes (s.columnPlace o p))

/-- HOLDINGS (R205). -/
def execHoldings (rest : List Byte) (s : State) : Host.Outcome State Fault Refusal :=
  .next (s.takeFrame rest (fun params => params.length == 1) takenWhileRunning fun params t =>
    if t.badOrigin (field params 0 1) then t.respond .badOrigin [] else t.respond .ok (t.holdingsData (field params 0 1)))

/-- Table 12-8: the data of NOTICES: how many, the overflow flag, the notices. -/
def noticesData (taken : List Notice) (overflow : Bool) : List Byte :=
  toBytes 1 taken.length ++ [flagByte overflow] ++ taken.flatMap noticeBytes

/-- R192, R206: a NOTICES read of at most `m`. -/
def State.takeNotices (s : State) (m : Nat) : State :=
  (s.setNu (s.nu.drain s.noticeThreshold s.noticeDelay m)).respond .ok
    (noticesData (s.nu.queue.take m) s.nu.overflow)

/-- R198: the maximum of NOTICES lies in 1..32. -/
def noticesFits (params : List Byte) : Bool :=
  params.length == 1 && decide (1 ≤ field params 0 1) && decide (field params 0 1 ≤ 32)

/-- NOTICES (R192, R206). -/
def execNotices (rest : List Byte) (s : State) : Host.Outcome State Fault Refusal :=
  .next (s.takeFrame rest noticesFits takenWhileRunning fun params t => t.takeNotices (field params 0 1))

/-! ## UNKNOWN-COMMAND (R198) -/

/-- UNKNOWN_COMMAND (R198 test 1): a frame whose identifier names no command. A term with an identifier of Table 12-7 spells no
such event and has no effect (log 32). -/
def execUnknownCommand (id : Byte) (rest : List Byte) (s : State) : Host.Outcome State Fault Refusal :=
  match s.station with
  | none => .next s
  | some _ =>
    if knownIdentifiers.contains id then .next s else .next ((s.frameTaken rest).respond .unknownCommand [])

end Sys2Proof.Machine
end

