-- ==== Sys2Proof/Machine/FlashEvents.lean ====
section
/-! DEFINITION. The meanings of the commands that the array brings outside the store scan: completions of lookup reads, transfers,
programs, mark programs and erases. -/

namespace Sys2Proof.Machine

/-! ## Lookups (R36 to R39) -/

/-- What a requester's lookup makes of the read of page `p` that has just completed: a read that was to be discarded lets it
choose anew (R38), any other is examined by `use`. -/
def State.lookupGoesOn (s : State) (who : Requester) (use : Lookup → State → State) : State :=
  match s.sm.lookup who with
  | none => s
  | some l =>
    match l.step with
    | .leaving => s.choose who l
    | .running => use l s
    | .waiting => s

/-- A lookup's spare read of page `p` completes. -/
def State.lookupSpareReadEnds (s : State) (who : Requester) (p : PageAddr) : State :=
  let spare := s.fc.mem.spareOf p
  ((s.fcSpareRead p).completion fun t =>
    t.lookupGoesOn who fun l u => u.lookupSpare who l p spare).settleRepair

/-- A lookup's page read of page `p` completes. -/
def State.lookupPageReadEnds (s : State) (who : Requester) (p : PageAddr) : State :=
  let spare := s.fc.mem.spareOf p
  let data := s.fc.mem.dataOf p
  ((s.fcPageRead p).completion fun t =>
    t.lookupGoesOn who fun l u => u.lookupPage who l p data spare).settleRepair

/-- LOOKUP_SPARE_READ_DONE (R6, R14, R36, R38); without such a read in flight it has no effect (log 2). -/
def execLookupSpareReadDone (s : State) : Host.Outcome State Fault Refusal :=
  match s.fc.op with
  | some (.lookupRead who .spare p) =>
    if p.valid then .next (s.lookupSpareReadEnds who p) else .fault (.noSuchPage p)
  | _ => .next s

/-- LOOKUP_PAGE_READ_DONE (R7, R14, R37, R38). -/
def execLookupPageReadDone (s : State) : Host.Outcome State Fault Refusal :=
  match s.fc.op with
  | some (.lookupRead who .page p) =>
    if p.valid then .next (s.lookupPageReadEnds who p) else .fault (.noSuchPage p)
  | _ => .next s

/-! ## Transfers and programs (R5, R8, R9, R151, R153) -/

/-- R8, R12: the fill register's content is in the array register, and the fill register is EMPTY. -/
def State.fcTransferred (s : State) : State :=
  s.setFc { s.fc with
    op := none,
    fill := FillReg.reset,
    array := { s.fc.array with image := some { data := s.fc.fill.data, list := s.fc.fill.list } } }

/-- R8, R5: the transfer of claim `c` ends: the program begins, or is refused by the page's flag and reported FAIL. Placements
resume either way. -/
def State.transferEnds (s : State) (c : ProgramClaim) : State :=
  if s.fc.progFlag c.target then
    (((s.fcTransferred).fcProgramFails).completion fun t => t.programFailed c.target).settleRepair
  else (((s.fcTransferred).beginProgram c).runCommit).settleAll

/-- TRANSFER_END (R8). -/
def execTransferEnd (s : State) : Host.Outcome State Fault Refusal :=
  match s.fc.op with
  | some (.transfer c) => if c.target.valid then .next (s.transferEnds c) else .fault (.noSuchPage c.target)
  | _ => .next s

/-- The record list of the array register's image. -/
def Fc.imageList (fc : Fc) : List ListEntry := (fc.array.image.map Image.list).getD []

/-- R9, R151: the program of claim `c` passes. -/
def State.programEndsPass (s : State) (c : ProgramClaim) : State :=
  let list := s.fc.imageList
  ((s.fcProgramPasses c).completion fun t =>
    ((t.programPassed c.target list).runCommit).evaluateReclaim).settleRepair

/-- R9, R153: the program of claim `c` fails. -/
def State.programEndsFail (s : State) (c : ProgramClaim) : State :=
  ((s.fcProgramTears c).completion fun t => t.programFailed c.target).settleRepair

/-- PROGRAM_DONE (R9). -/
def execProgramDone (outcome : FlashOutcome) (s : State) : Host.Outcome State Fault Refusal :=
  match s.fc.op with
  | some (.program c) =>
    if c.target.valid then
      match outcome with
      | .pass => .next (s.programEndsPass c)
      | .fail => .next (s.programEndsFail c)
    else .fault (.noSuchPage c.target)
  | _ => .next s

/-! ## Marks and erases (R10, R11, R33, R34) -/

/-- MARK_PROGRAM_DONE (R10, R34): the array is free again, and the block stays RETIRED(WORN) with either outcome. -/
def execMarkProgramDone (outcome : FlashOutcome) (s : State) : Host.Outcome State Fault Refusal :=
  match s.fc.op with
  | some (.mark b value) =>
    if b < Config.blocks then .next (((s.fcMarkDone b value outcome).grant).settleRepair)
    else .fault (.noSuchPage { block := b, page := 0 })
  | _ => .next s

/-- R33, R150, R161: what SM and CE do about the outcome of the erase of block `b`. -/
def State.eraseOutcome (s : State) (b : Nat) (o : FlashOutcome) : State :=
  match o with
  | .pass => ((s.eraseApplied b).runCommit).evaluateReclaim
  | .fail => (s.eraseRefused b).evaluateReclaim

/-- ERASE_DONE (R11, R33). -/
def execEraseDone (outcome : FlashOutcome) (s : State) : Host.Outcome State Fault Refusal :=
  match s.fc.op with
  | some (.erase b) =>
    if b < Config.blocks then
      .next (((s.fcEraseDone b outcome).completion fun t => t.eraseOutcome b outcome).settleRepair)
    else .fault (.noSuchPage { block := b, page := 0 })
  | _ => .next s

end Sys2Proof.Machine
end

