-- ==== Sys2Proof/Machine/Line.lean ====
section
/-! DEFINITION. The line controller (chapter 4) and the meanings of the commands that the line brings. -/

namespace Sys2Proof.Machine

/-! ## References, slots and ranks (R61, R62) -/

/-- R61: a reference is taken with the last-sender view `l`; LC counts slots from it. -/
def State.takeReference (s : State) (l : Nat) : State :=
  s.setLc { s.lc with state := .deferring, hasReference := true, lastSender := l, slotCount := none, tracked := .quiet,
                      quietLimit := false }

/-- R62: (own number − L − 1) mod N. -/
def rankOf (own l groupSize : Nat) : Nat := (own + groupSize - 1 - l) % groupSize

/-- R62: the number of the next own slot under the current reference. -/
def State.nextSlot (s : State) : Nat :=
  match s.lc.slotCount with
  | none => rankOf s.own s.lc.lastSender s.groupSize
  | some k => k + s.groupSize

/-- What the transmitter drives (R57, R66): the chosen burst while SENDING, the jam while JAMMING, nothing otherwise. -/
def State.lineOut (s : State) : List Byte :=
  match s.lc.state, s.lc.chosen with
  | .sending, some c => c.bytes
  | .jamming, _ => jamBytes
  | _, _ => []

/-! ## Own segments (R115, R116) -/

/-- The lower of two SENDING entries by sequence number. -/
def olderEntry (a : Option (Nat × OwnRecord × Nat)) (b : Nat × OwnRecord × Nat) : Option (Nat × OwnRecord × Nat) :=
  match a with
  | none => some b
  | some x => if b.2.1.seq < x.2.1.seq then some b else some x

/-- R115: line 5: the oldest SENDING entry with a segment not yet chosen: its place, record and next segment index. -/
def Su.offer (su : Su) : Option (Nat × OwnRecord × Nat) :=
  (su.entries.toList.zipIdx).foldl (fun best x =>
    match x.1 with
    | .sending r count next => if next < count then olderEntry best (x.2, r, next) else best
    | _ => best) none

/-- R116: the entry in place `i` moves on to its next segment. -/
def Su.segmentChosen (su : Su) (i : Nat) : Su :=
  match place su.entries .free i with
  | .sending r count next => { entries := setPlace su.entries i (.sending r count (next + 1)) }
  | _ => su

/-- R117: the last segment of own record `n` has been sent: its entry is released. -/
def Su.release (su : Su) (n : Nat) : Su :=
  { entries := mapPlaces su.entries fun e =>
      match e with
      | .sending r count next => if r.seq = n then .free else .sending r count next
      | x => x }

/-! ## The transmit selector (R70 to R73) -/

/-- A burst of this station. -/
def State.burst (s : State) (kind : BurstKind) (target : Nat) (body : List Byte) : List Byte :=
  burstBytes kind s.own s.groupSize target body

/-- A choice: the chosen burst with the state in which its owner has moved its offer on. -/
abbrev Choice := ChosenBurst × State

/-- Line 5 (R114, R116). -/
def State.chooseOwnSeg (s : State) : Option Choice :=
  s.su.offer.map fun (i, r, next) =>
    ({ item := .ownSeg r.seq (next + 1 == segmentCount r.payload.length),
       bytes := s.burst .seg 0 (segmentBytes (cutSegment s.own r.seq r.check r.payload false next)),
       contested := true },
     s.setSu (s.su.segmentChosen i))

/-- Line 1 (R178). -/
def State.chooseRefuse (s : State) : Option Choice :=
  s.dueRefusal.map fun (asker, origin, number, reason) =>
    ({ item := .refuse, bytes := s.burst .refuse asker (refuseBytes origin reason number),
       contested := s.su.offer.isSome },
     s.refusalChosen reason)

/-- Lines 2 and 7 (R100 to R103). -/
def State.chooseReport (s : State) : Choice :=
  ({ item := .report, bytes := s.burst .report 0 s.reportBody, contested := s.su.offer.isSome },
   s.setHu s.hu.reportChosen)

/-- Line 3 (R104). -/
def State.chooseHail (s : State) : Choice :=
  ({ item := .hail, bytes := s.burst .hail 0 s.reportBody, contested := s.su.offer.isSome },
   s.setHu { s.hu.reportChosen with line3 := false })

/-- Line 4 (R181). -/
def State.chooseResend (s : State) : Option Choice :=
  s.resendOffer.map fun r =>
    ({ item := .resend,
       bytes := s.burst .seg 0 (segmentBytes (cutSegment r.origin r.seq r.check r.payload true r.next)),
       contested := s.su.offer.isSome },
     s.resendChosen r)

/-- Line 6 (R172). -/
def State.chooseAsk (s : State) : Option Choice :=
  s.dueAsk.map fun (i, a, p) =>
    ({ item := .ask a.origin p,
       bytes := s.burst .ask p (askBytes { origin := a.origin, count := a.count, first := a.first }),
       contested := s.su.offer.isSome },
     s.putAsk i (some { a with state := .asked p false false }))

/-- R71: the standing offer of the lowest line number. -/
def State.chooseByLine (s : State) : Option Choice :=
  (((((s.chooseRefuse.orElse fun _ => if s.hu.line2 then some s.chooseReport else none).orElse
    fun _ => if s.hu.line3 then some s.chooseHail else none).orElse
    fun _ => s.chooseResend).orElse
    fun _ => s.chooseOwnSeg).orElse
    fun _ => s.chooseAsk).orElse
    fun _ => if s.hu.line7 then some s.chooseReport else none

/-- R71, R72: the selector's choice: at a fairness count of 4 a standing own SEG comes first. -/
def State.chooseBurst (s : State) : Option Choice :=
  if s.lc.fairness = 4 then s.chooseOwnSeg.orElse fun _ => s.chooseByLine else s.chooseByLine

/-! ## Reports of a burst sent (R72, R73) -/

/-- R72: the fairness count after a burst has been sent. -/
def fairnessAfter (count : Nat) (c : ChosenBurst) : Nat :=
  if c.item = .resend ∧ c.contested = true then min 4 (count + 1) else 0

/-- R73: the owner of a burst is told that it has been sent. -/
def State.reportSent (s : State) : BurstItem → State
  | .refuse => s
  | .report => s.setHu s.hu.reportSent
  | .hail => (s.setHu s.hu.reportSent).setSc { s.sc with listening := true }
  | .resend => s
  | .ownSeg n last => if last then s.setSu (s.su.release n) else s
  | .ask origin target => s.askSent origin target

/-! ## Receiving (R59, R60, R69) -/

/-- R60: a good burst handed on: its sender to HU for presence, then its body to the block of its kind, and what follows of
it. -/
def State.handOn (s : State) (b : Burst) : State :=
  let s1 := (s.bump .goodBursts).heard b.sender
  match b.kind with
  | .hail => (s1.takeReport true b.sender b.body).settleAll
  | .report => (s1.takeReport false b.sender b.body).settleAll
  | .seg => s1.takeSegment b.body
  | .ask => (s1.takeAsk b.sender b.target b.body).settleAll
  | .refuse => (s1.takeRefuse b.sender b.target b.body).settleAll

/-- R59 to R61: a period heard from its start ends: it is classified, counted and handed on; the reference is taken with the L
that its class gives, or with 0 where `late` says that the quiet limit had expired (R69). -/
def State.endPeriod (s : State) (late : Bool) (p : CarrierPeriod) : State :=
  match classify s.own s.groupSize p with
  | .bad => (s.takeReference 0).bump .badBursts
  | .foreign => (s.takeReference 0).bump .foreignBursts
  | .good b => (s.takeReference (if late then 0 else b.sender)).handOn b

/-! ## Meanings -/

/-- CARRIER_BEGIN (R63, R65): DEFERRING stops the slot count and hears; SEEKING tracks the period. In every other state LC is
already in a carrier period, or deaf. -/
def execCarrierBegin (s : State) : Host.Outcome State Fault Refusal :=
  let rx : CarrierPeriod := { bytes := [], strayBits := 0, codeFault := false }
  match s.lc.state with
  | .deferring => .next (s.setLc { s.lc with state := .hearing, slotCount := none, rx := rx })
  | .seeking =>
    if s.lc.tracked = .quiet then .next (s.setLc { s.lc with tracked := .fromStart, rx := rx }) else .next s
  | _ => .next s

/-- CARRIER_END (R59 to R61, R65, R67, R69). -/
def execCarrierEnd (period : CarrierPeriod) (s : State) : Host.Outcome State Fault Refusal :=
  let s1 := s.setLc { s.lc with rx := period }
  match s.lc.state with
  | .hearing => .next (s1.endPeriod false s1.lc.rx)
  | .trailing => .next (s1.takeReference 0)
  | .seeking =>
    match s.lc.tracked with
    | .fromStart => .next (s1.endPeriod (!s.lc.quietLimit) s1.lc.rx)
    | .inProgress => .next (s1.takeReference 0)
    | .quiet => .next s
  | _ => .next s

/-- OWN_SLOT_START (R64, R71 to R73): in DEFERRING, with the line quiet, the chosen burst is sent again, or one that the selector
chooses; with neither the slot passes unused. -/
def execOwnSlotStart (s : State) : Host.Outcome State Fault Refusal :=
  match s.lc.state with
  | .deferring =>
    let s1 := s.setLc { s.lc with slotCount := some s.nextSlot }
    match s.lc.chosen with
    | some _ => .next (s1.setLc { s1.lc with state := .sending })
    | none =>
      match s1.chooseBurst with
      | some (c, s2) => .next ((s2.setLc { s2.lc with chosen := some c, state := .sending }).settleAll)
      | none => .next s1
  | _ => .next s

/-- MISMATCH_DETECTED (R66): the burst is abandoned and stays chosen; the jam begins. -/
def execMismatchDetected (s : State) : Host.Outcome State Fault Refusal :=
  match s.lc.state with
  | .sending => .next ((s.setLc { s.lc with state := .jamming }).bump .collisions)
  | _ => .next s

/-- BURST_SENT (R61, R65, R72, R73): a reference with L the own number; the owner is told and the chosen burst cleared. -/
def execBurstSent (s : State) : Host.Outcome State Fault Refusal :=
  match s.lc.state, s.lc.chosen with
  | .sending, some c =>
    let s1 := (s.takeReference s.own).bump .burstsSent
    .next ((s1.setLc { s1.lc with chosen := none, fairness := fairnessAfter s.lc.fairness c }).reportSent c.item)
  | _, _ => .next s

/-- JAM_END (R65, R67): a reference with L = 0, or TRAILING while carrier remains. -/
def execJamEnd (carrierRemains : Bool) (s : State) : Host.Outcome State Fault Refusal :=
  match s.lc.state with
  | .jamming => if carrierRemains then .next (s.setLc { s.lc with state := .trailing }) else .next (s.takeReference 0)
  | _ => .next s

/-- QUIET_LIMIT_EXPIRY (R65, R69): with no carrier the instant is a self-made reference with L = 0; with carrier present SEEKING
goes on to the end of that carrier. -/
def execQuietLimitExpiry (s : State) : Host.Outcome State Fault Refusal :=
  match s.lc.state with
  | .seeking =>
    if !s.lc.quietLimit then .next s
    else if s.lc.tracked = .quiet then .next (s.takeReference 0)
    else .next (s.setLc { s.lc with quietLimit := false })
  | _ => .next s

end Sys2Proof.Machine
end

