-- ==== Sys2Proof/Machine/Timers.lean ====
section
/-! DEFINITION. The meanings of the commands that timers bring. An expiry of a timer that does not run has no effect (log 2). -/

namespace Sys2Proof.Machine

/-- REPORT_TIMER_EXPIRY (R100): the timer stops and a REPORT is due on line 2. -/
def execReportTimerExpiry (s : State) : Host.Outcome State Fault Refusal :=
  if s.hu.reportTimer then .next (s.setHu { s.hu with reportTimer := false, line2 := true }) else .next s

/-- SPACING_TIMER_EXPIRY (R102): with the timer stopped the line 7 offer may stand (Hu.line7). -/
def execSpacingTimerExpiry (s : State) : Host.Outcome State Fault Refusal :=
  .next (s.setHu { s.hu with spacingTimer := false })

/-- SILENCE_TIMER_EXPIRY (R99). -/
def execSilenceTimerExpiry (peer : Nat) (s : State) : Host.Outcome State Fault Refusal :=
  .next ((s.fallsSilent peer).settleRepair)

/-- SLOT_TIMER_EXPIRY (R131, R136). -/
def execSlotTimerExpiry (slot : Nat) (s : State) : Host.Outcome State Fault Refusal :=
  .next ((s.slotExpires slot).settleRepair)

/-- FLUSH_TIMER_EXPIRY (R145, R147): the OPEN register becomes CLOSED, and CE goes on to its program claim. -/
def execFlushTimerExpiry (s : State) : Host.Outcome State Fault Refusal :=
  if s.ce.flushTimer then .next (((s.closeFill).claimIfNeeded).settleAll) else .next s

/-- ASK_TIMER_EXPIRY (R173, R167). -/
def execAskTimerExpiry (place : Nat) (s : State) : Host.Outcome State Fault Refusal :=
  .next ((s.askExpires place).settleRepair)

/-- NOTICE_DELAY_TIMER_EXPIRY (R193, R194). -/
def execNoticeDelayTimerExpiry (s : State) : Host.Outcome State Fault Refusal :=
  .next (s.setNu (s.nu.delayExpired s.noticeThreshold))

/-- R55: the listen interval ends: the station is ACTIVE, and RP is told (Table 9-3). -/
def State.becomeActive (s : State) : State :=
  (s.setSc { s.sc with phase := .running .active .none, listening := false }).tellRp

/-- LISTEN_INTERVAL_END (R55): in JOINING, while the listen interval runs. -/
def execListenIntervalEnd (s : State) : Host.Outcome State Fault Refusal :=
  if s.station == some .joining && s.sc.listening then .next ((s.becomeActive).settleRepair) else .next s

end Sys2Proof.Machine
end

