-- ==== Sys2Proof/Machine/Dispatch.lean ====
section
/-! DEFINITION. exec: one arm per command, each a direct call of the command's meaning. -/

namespace Sys2Proof.Machine

/-- The effect of a command on everything but the queue of waiting commands. -/
def exec (i : Instr) (s : State) : Host.Outcome State Fault Refusal :=
  match i with
  | .powerOnReset => Sys2Proof.Machine.execPowerOnReset s
  | .pinReset => Sys2Proof.Machine.execPinReset s
  | .resetRelease straps => Sys2Proof.Machine.execResetRelease straps s
  | .scanSpareReadDone => Sys2Proof.Machine.execScanSpareReadDone s
  | .scanPageReadDone => Sys2Proof.Machine.execScanPageReadDone s
  | .scanEraseDone outcome => Sys2Proof.Machine.execScanEraseDone outcome s
  | .scanMarkDone outcome => Sys2Proof.Machine.execScanMarkDone outcome s
  | .lookupSpareReadDone => Sys2Proof.Machine.execLookupSpareReadDone s
  | .lookupPageReadDone => Sys2Proof.Machine.execLookupPageReadDone s
  | .transferEnd => Sys2Proof.Machine.execTransferEnd s
  | .programDone outcome => Sys2Proof.Machine.execProgramDone outcome s
  | .markProgramDone outcome => Sys2Proof.Machine.execMarkProgramDone outcome s
  | .eraseDone outcome => Sys2Proof.Machine.execEraseDone outcome s
  | .carrierBegin => Sys2Proof.Machine.execCarrierBegin s
  | .carrierEnd period => Sys2Proof.Machine.execCarrierEnd period s
  | .ownSlotStart => Sys2Proof.Machine.execOwnSlotStart s
  | .mismatchDetected => Sys2Proof.Machine.execMismatchDetected s
  | .burstSent => Sys2Proof.Machine.execBurstSent s
  | .jamEnd carrierRemains => Sys2Proof.Machine.execJamEnd carrierRemains s
  | .quietLimitExpiry => Sys2Proof.Machine.execQuietLimitExpiry s
  | .reportTimerExpiry => Sys2Proof.Machine.execReportTimerExpiry s
  | .spacingTimerExpiry => Sys2Proof.Machine.execSpacingTimerExpiry s
  | .silenceTimerExpiry peer => Sys2Proof.Machine.execSilenceTimerExpiry peer s
  | .slotTimerExpiry slot => Sys2Proof.Machine.execSlotTimerExpiry slot s
  | .flushTimerExpiry => Sys2Proof.Machine.execFlushTimerExpiry s
  | .askTimerExpiry place => Sys2Proof.Machine.execAskTimerExpiry place s
  | .noticeDelayTimerExpiry => Sys2Proof.Machine.execNoticeDelayTimerExpiry s
  | .listenIntervalEnd => Sys2Proof.Machine.execListenIntervalEnd s
  | .responseRead clocks => Sys2Proof.Machine.execResponseRead clocks s
  | .status rest => Sys2Proof.Machine.execStatus rest s
  | .configure rest => Sys2Proof.Machine.execConfigure rest s
  | .configureTaken carrier => Sys2Proof.Machine.execConfigureTaken carrier s
  | .submit rest => Sys2Proof.Machine.execSubmit rest s
  | .submitTaken => Sys2Proof.Machine.execSubmitTaken s
  | .fetch rest => Sys2Proof.Machine.execFetch rest s
  | .fetchResult rest => Sys2Proof.Machine.execFetchResult rest s
  | .holdings rest => Sys2Proof.Machine.execHoldings rest s
  | .notices rest => Sys2Proof.Machine.execNotices rest s
  | .counters rest => Sys2Proof.Machine.execCounters rest s
  | .restart rest => Sys2Proof.Machine.execRestart rest s
  | .unknownCommand id rest => Sys2Proof.Machine.execUnknownCommand id rest s

end Sys2Proof.Machine
end

