-- ==== Sys2Proof/Safety.lean ====
section
/-! DEFINITION. What counts as a sound state, in the terms the statements use. -/

namespace Sys2Proof.Safety

open Sys2Proof.Machine

/-- R78: ranges ascending from `lo` on, separated by at least one settled number, each ending below `top`. -/
def gapsOk : Nat → Nat → List Range → Bool
  | _, _, [] => true
  | lo, top, g :: gs => decide (lo ≤ g.lo) && decide (g.lo ≤ g.hi) && decide (g.hi < top) && gapsOk (g.hi + 2) top gs

/-- R77, R78: the form of a holdings entry. -/
def entryOk (e : Entry) : Bool :=
  decide (1 ≤ e.floor) && decide (e.floor ≤ e.top + 1) && gapsOk e.floor e.top e.gaps
    && decide (e.gaps.length ≤ Config.maxGaps)

/-- R78, R79: every entry has its form, and the own entry has no gap. -/
def HoldingsOk (s : State) : Prop := (∀ o, entryOk (s.entry o) = true) ∧ (s.entry s.own).gaps = []

/-- The memory of the array is in canonical form. -/
def MemoryOk (s : State) : Prop := s.fc.mem.wf = true

/-- R186: D is at most T_own, and so is every stored own-origin frontier. -/
def DurableOk (s : State) : Prop :=
  s.hu.durable ≤ s.ownTop ∧ ∀ p c, s.cell p s.own = some c → c.frontier ≤ s.ownTop

/-- R194: ATTN is what its condition says. -/
def AttnOk (s : State) : Prop := s.nu.attn = s.nu.attnCondition s.noticeThreshold

/-- R188: the notice queue holds at most 32 notices. -/
def NoticesOk (s : State) : Prop := s.nu.queue.length ≤ Config.noticePlaces

/-- R25: at most one block is OPEN. -/
def OneOpen (s : State) : Prop :=
  ∀ a b, (s.sm.block a).state = .opened → (s.sm.block b).state = .opened → a = b

/-- The array holds `m`, or `m` with page (b, 0) erased under an erase of b that has begun since (R11, R16). -/
def ArrayIs (m : Memory) (t : State) : Prop :=
  t.fc.mem = m ∨ ∃ b, t.fc.op = some (.erase b) ∧ t.fc.mem = m.erasePages b 0 1

/-- The array's content changes only as an erase begins. -/
def ArrayKept (s t : State) : Prop := ArrayIs s.fc.mem t

/-- What a command of the store, the timers or the repair leaves alone: the waiting commands, the start controller, the line
controller, the attach port's slot and handed commands, the report matrix and presence. -/
def StationKept (s t : State) : Prop :=
  t.pending = s.pending ∧ t.sc = s.sc ∧ t.lc = s.lc ∧ t.ap.slot = s.ap.slot ∧ t.ap.submitBuffer = s.ap.submitBuffer
    ∧ t.ap.configures = s.ap.configures ∧ t.ap.dataOut = s.ap.dataOut ∧ t.hu.matrix = s.hu.matrix
    ∧ t.hu.presence = s.hu.presence ∧ t.hu.silence = s.hu.silence

/-- No re-evaluation is owed between two commands (logs 13 and 14). -/
def Quiet (s : State) : Prop := s.sm.reclaimDue = false ∧ s.rp.rerunDue = false

/-- The page an operation of the array is for; page 0 of its block for an erase or a mark program. -/
def opPage : Op → PageAddr
  | .scanSpareRead p => p
  | .scanPageRead p => p
  | .scanErase b => { block := b, page := 0 }
  | .scanMark b _ => { block := b, page := 0 }
  | .lookupRead _ _ p => p
  | .transfer c => c.target
  | .program c => c.target
  | .mark b _ => { block := b, page := 0 }
  | .erase b => { block := b, page := 0 }

/-- The operation is one that the store scan issues (R17). -/
def scanOp : Op → Bool
  | .scanSpareRead _ => true
  | .scanPageRead _ => true
  | .scanErase _ => true
  | .scanMark _ _ => true
  | _ => false

/-- R52: the stored settings are in range for the station's number. -/
def SettingsOk (s : State) : Prop := ∀ c, s.sc.settings = some c → c.inRange s.own = true

/-- R51, R75: every block but the start controller and the array is as a reset leaves it; HU knows the station itself (R97). -/
def AtRest (s : State) : Prop :=
  s.sm = Sm.reset ∧ s.hu = { Hu.reset with presence := s.hu.presence } ∧ s.su = Su.reset ∧ s.ra = Ra.reset ∧ s.ce = Ce.reset
    ∧ s.lc = Lc.reset ∧ s.rp = Rp.reset ∧ s.nu = Nu.reset ∧ s.ap.submitBuffer = none ∧ s.ap.configures = []
    ∧ s.ap.fetch = .idle ∧ s.sc.settings = none ∧ s.sc.listening = false ∧ s.fc.fill = FillReg.reset
    ∧ s.fc.array = ArrayReg.reset ∧ s.fc.programClaim = none ∧ s.fc.fetchClaim = none ∧ s.fc.serveClaim = none
    ∧ s.fc.markClaims = [] ∧ s.fc.eraseClaim = none ∧ ∀ op, s.fc.op = some op → scanOp op = true

/-- R40, R51: while the part is held in reset or SCANNING every other block is at rest, and only a SCANNING station scans. -/
def StartOk (s : State) : Prop :=
  (s.station = none ∨ s.station = some .scanning → AtRest s) ∧ (s.sc.scan.isSome → s.station = some .scanning)

/-- R46, R48: the found sets are in rising order without the number 0, and the spare that goes with a page read is erased or
passes the tests of a good page. -/
def ScanOk (s : State) : Prop :=
  ∀ scan, s.sc.scan = some scan →
    (∀ o, (lineOf scan.found [] o).Pairwise (· < ·) ∧ 0 ∉ lineOf scan.found [] o)
      ∧ ∀ mode spare, scan.step = .page mode spare → (allErased spare || spareGood spare) = true

/-- R214: what follows the identifier of a command frame with these parameters. -/
def frame (params : List Byte) : List Byte := toBytes 2 params.length ++ params

/-- R18: the mark byte of block `b` holds its old value or the AND of it and the written value; no other byte changes. -/
def MarkCut (s t : State) (b : Nat) (v : Byte) : Prop :=
  b < 640 →
    let m := (PageAddr.mk b 0).spareBase
    (t.fc.mem.read m = s.fc.mem.read m ∨ t.fc.mem.read m = s.fc.mem.read m &&& v)
      ∧ ∀ a, a ≠ m → t.fc.mem.read a = s.fc.mem.read a

/-- R18: page 0 of block `b` is erased; no byte outside the block changes. -/
def EraseCut (s t : State) (b : Nat) : Prop :=
  b < 640 →
    (∀ i, i < 3168 → t.fc.mem.read ((PageAddr.mk b 0).base + i) = 0xFF#8)
      ∧ ∀ a, a < (PageAddr.mk b 0).base ∨ (PageAddr.mk b 0).base + 48 * 3168 ≤ a →
          t.fc.mem.read a = s.fc.mem.read a

/-- The scan has put its block in class `c` over the array content `m`: it has begun the next block with the spare read of its
page 0, or, after block 639, it has ended and the station has left SCANNING. -/
def Scanned (scan : Scan) (m : Memory) (t : State) (c : ScanClass) : Prop :=
  (scan.block < 639 →
      t.fc.op = some (.scanSpareRead { block := scan.block + 1, page := 0 }) ∧ t.fc.mem = m
        ∧ ∃ next, t.sc.scan = some next ∧ next.block = scan.block + 1 ∧ next.page = 0 ∧ next.step = .spare .first
            ∧ next.classes = c :: scan.classes ∧ next.found = scan.found ∧ next.ownTop = scan.ownTop)
    ∧ (639 ≤ scan.block → t.sc.scan = none ∧ t.station ≠ some .scanning ∧ ArrayIs m t)

/-- The scan has claimed the erase of its block: its flags are clear and its page 0 is erased (R11, R45). -/
def ScanErases (scan : Scan) (s t : State) : Prop :=
  t.fc.op = some (.scanErase scan.block) ∧ t.fc.mem = s.fc.mem.erasePages scan.block 0 1
    ∧ t.sc.scan = some { scan with step := .erase }
    ∧ (∀ p, p.block = scan.block → p.page < 48 → t.fc.progFlag p = false ∧ t.fc.markFlag p = false)

/-- What every operation of the scan leaves alone while the scan goes on. -/
def ScanFrame (s t : State) : Prop :=
  t.pending = s.pending
    ∧ (t.sc.scan.isSome →
        t.sm = s.sm ∧ t.hu = s.hu ∧ t.su = s.su ∧ t.ra = s.ra ∧ t.ce = s.ce ∧ t.lc = s.lc ∧ t.rp = s.rp ∧ t.nu = s.nu
          ∧ t.ap = { s.ap with counters := t.ap.counters } ∧ t.sc = { s.sc with scan := t.sc.scan }
          ∧ t.fc.fill = s.fc.fill ∧ t.fc.array = s.fc.array)

/-! ## Commands that meet the arbiter -/

/-- No program claim waits that the grant at the end of this command could meet, so that no re-drive is refused in it (R5, R16). -/
def NoClaim (s : State) : Prop := s.fc.op.isSome ∨ s.fc.programClaim = none

/-- The program claim that waits, if the array register keeps an image, is for a page whose flag is clear (R4, R5). -/
def NoRefusal (s : State) : Prop :=
  ∀ c, s.fc.programClaim = some c → s.fc.array.image.isSome → s.fc.progFlag c.target = false

/-- Nothing is owed and no program claim waits over a free array. -/
def Calm (s : State) : Prop := Quiet s ∧ NoClaim s

/-! ## The commit path (R81, R141 to R145) -/

/-- R143 to R145: the record `r` has joined the commit queue by its reference: behind a CLOSED register the reference waits; alone
before a register with room the record is placed, and the flush timer runs or a delay of 0 closes the register; without room the
register is CLOSED and the reference is the head. -/
def ReferenceJoins (s t : State) (ref : Ref) (r : PathRecord) : Prop :=
  let f := s.fc.fill
  let fits := f.list.length < 8 ∧ f.data.length + recordSpan r.payload.length ≤ 3072
  (f.state = .closed → t.ce.queue = s.ce.queue ++ [ref] ∧ t.fc.fill = f)
    ∧ (f.state ≠ .closed → s.ce.queue = [] → s.ra.waitList = [] →
        (fits →
          t.ce.queue = []
            ∧ t.fc.fill.list = f.list ++ [{ origin := r.origin, seq := r.seq, offset := f.data.length }]
            ∧ t.fc.fill.data = f.data ++ recordBytes r.origin r.seq r.check r.payload
            ∧ (s.ce.flushTimer = true ∨ s.flushDelay ≠ 0 → t.fc.fill.state = .opened ∧ t.ce.flushTimer = true)
            ∧ (s.ce.flushTimer = false → s.flushDelay = 0 → t.fc.fill.state = .closed ∧ t.ce.flushTimer = false))
        ∧ (¬ fits →
            t.ce.queue = [ref] ∧ t.fc.fill = { f with state := .closed } ∧ t.ce.flushTimer = false))

/-- R130, R132 to R134: slot `i` holds every segment of `d`: a wrong check frees it and is counted; a right one makes it COMPLETE,
and it joins the commit queue, or the wait list where the queue is full or other slots wait. -/
def SlotCompletes (s t : State) (i : Nat) (d : SlotData) : Prop :=
  (crc32 (d.payload.take d.length) ≠ d.check →
      place t.ra.slots .free i = .free ∧ t.counter .checkFailures = min 65535 (s.counter .checkFailures + 1))
    ∧ (crc32 (d.payload.take d.length) = d.check →
        t.counter .checkFailures = s.counter .checkFailures ∧ t.isPending d.origin d.seq = true
          ∧ (NoClaim s → 12 ≤ s.ce.queue.length ∨ s.ra.waitList ≠ [] →
              place t.ra.slots .free i = .complete d ∧ t.ra.waitList = s.ra.waitList ++ [i] ∧ t.ce.queue = s.ce.queue)
          ∧ (s.ce.queue.length < 12 → s.ra.waitList = [] →
              ReferenceJoins s t (.slot i) { origin := d.origin, seq := d.seq, check := d.check, payload := d.payload }
                ∧ (s.fc.fill.state = .closed ∨ s.ce.queue = [] →
                    place t.ra.slots .free i = if .slot i ∈ t.ce.queue then .complete d else .free)))

/-- R112, R141: the own numbers on the commit path, oldest first: those of the array register's image, of the fill register, and of
the queue's references to QUEUED entries. -/
def ownPath (s : State) : List Nat :=
  (match s.fc.array.image with
    | some i => listedOf s.own i.list
    | none => [])
    ++ listedOf s.own s.fc.fill.list
    ++ s.ce.queue.filterMap fun ref =>
        match ref with
        | .entry i => (place s.su.entries .free i).pendingSeq
        | .slot _ => none

/-- R81: no number of an origin is at once settled and pending; with it what makes that hold at a commit of own records: the own
numbers on the path are T_own + 1, T_own + 2, … in order, one for each QUEUED entry (R107, R109); a reference to an entry names a
QUEUED one; no slot holds an own record (R125); a transfer is carried only without a kept image (R8); entries are QUEUED only in
ACTIVE (R108), and a station that is not halted has a number 1 to 24 (R41). -/
def PendingOk (s : State) : Prop :=
  (∀ o n, n ∈ s.pendingOf o → (s.entry o).settled n = false)
    ∧ ownPath s = upFrom (s.ownTop + 1) s.su.queued
    ∧ (s.su.entries.toList.filterMap SubmitEntry.pendingSeq).Perm (upFrom (s.ownTop + 1) s.su.queued)
    ∧ (∀ i, .entry i ∈ s.ce.queue → (place s.su.entries .free i).pendingSeq.isSome)
    ∧ (∀ i d, (place s.ra.slots .free i).data = some d → d.origin ≠ s.own)
    ∧ (∀ c, s.fc.op = some (.transfer c) → s.fc.array.image = none)
    ∧ (s.station ≠ some .active → s.su.queued = 0)
    ∧ ∀ st, s.station = some st → st ≠ .halted → 1 ≤ s.own ∧ s.own ≤ 24

/-! ## Serving (R179, R180) -/

/-- R179: the head of `jobs` has been tested over the holdings and the block table of `s`: an unsettled number, or one that no block
can hold, makes NOT-HELD due behind the BUSY refusals; any other is being looked up. -/
def HeadTested (s t : State) (jobs : List ServeJob) : Prop :=
  ∀ j js, jobs = j :: js →
    let notHeld := t.rp.notHeld = some { number := j.next, older := s.rp.busy.length }
    ((s.entry j.origin).settled j.next = false → notHeld)
      ∧ ((s.entry j.origin).settled j.next = true →
          (s.sm.candidate j.origin j.next none = none → notHeld)
          ∧ ∀ st b, s.sm.candidate j.origin j.next none = some (st, b) →
              ∃ l, t.sm.serveLookup = some l ∧ l.origin = j.origin ∧ l.seq = j.next ∧ l.block = some b
                ∧ l.page = (s.sm.block b).pages - 1 ∧ l.bound = some (st, b) ∧ l.damaged = false)

/-- LC as a reference with last-sender view `l` leaves it (R61). -/
def Referenced (s : State) (p : CarrierPeriod) (l : Nat) : Lc :=
  { s.lc with state := .deferring, hasReference := true, lastSender := l, slotCount := none, tracked := .quiet,
              quietLimit := false, rx := p }

/-- The state after a frame has been answered at once: data out carried FFh, an answer still owed to the slot is dropped, and the
slot holds the answer (R196, R197). -/
def Answered (s : State) (rest : List Byte) (status : Status) (data : List Byte) : State :=
  let t := s.frameTaken rest
  { t with ap := { t.ap with slot := .ready { status := status, data := data, armsReset := false } } }

end Sys2Proof.Safety
end

