-- ==== Sys2Proof/Certificates/Slice0/Obligations.lean ====
section
/-! DEFINITION. The statements for the provers. Each docstring names the rule it comes from, or the log entry of the choice it
rests on. -/

open Sys2Proof Sys2Proof.Machine Sys2Proof.Safety

/-! ## The machine -/

/-- A step takes the command at the front of the queue and carries it out on the rest of the state; with no command waiting the
station idles (log 3, DESIGN CHOICE). -/
def Obligations.StepTakesTheFrontCommand : Prop :=
  (∀ (c : Instr) (rest : List Instr) (s : State), s.pending = c :: rest → step s = exec c { s with pending := rest })
    ∧ ∀ s : State, s.pending = [] → step s = .next s

/-- No command is refused; a command stops with a fault only where the operation in flight names a page outside the array of R1
(log 22); and a command leaves the queue of waiting commands alone. -/
def Obligations.OutcomesOfACommand : Prop :=
  ∀ (c : Instr) (s : State),
    (∀ r, exec c s ≠ .refused r)
      ∧ (∀ f, exec c s = .fault f →
          ∃ op, s.fc.op = some op ∧ (opPage op).valid = false ∧ f = .noSuchPage (opPage op))
      ∧ ∀ t, exec c s = .next t → t.pending = s.pending

/-! ## Reset (chapters 1 to 11) -/

/-- R19, R24, R39, R74, R77, R92, R97, R105, R106, R119, R122, R139, R141, R145, R155, R164, R166, R183, R185, R188, R209: what a
reset leaves; the flags of R4 stay, and nothing is pending. That the commands waiting stay, that the cause and the number stand until
the release, and that presence is UNKNOWN of the station itself too until the release latches its number (R97 and Table 5-9 say
PRESENT after every reset) is how the model reads R40 and R41 (log 4, DESIGN CHOICE). -/
def Obligations.ResetGivesTheResetValues : Prop :=
  ∀ (c : Instr) (k : ResetKind) (s : State), (c = .powerOnReset ∧ k = .power) ∨ (c = .pinReset ∧ k = .pin) →
    ∃ t, exec c s = .next t
      ∧ t.sc = { s.sc with phase := .held k, supplyFell := s.sc.supplyFell || k == .power, settings := none,
                           listening := false, scan := none }
      ∧ (t.fc.op = none ∧ t.fc.programClaim = none ∧ t.fc.fetchClaim = none ∧ t.fc.serveClaim = none
          ∧ t.fc.markClaims = [] ∧ t.fc.eraseClaim = none)
      ∧ t.fc.fill = { state := .empty, list := [], data := [] }
      ∧ t.fc.array = { state := .idle, image := none, target := none }
      ∧ t.fc.read = { page := none, spare := none, data := none }
      ∧ (t.fc.progFlags = s.fc.progFlags ∧ t.fc.markFlags = s.fc.markFlags)
      ∧ (∀ b, t.sm.block b = { state := .free, stamp := none, pages := 0, summary := [] })
      ∧ (t.sm.stampHigh = 0 ∧ t.sm.lastOpened = 639 ∧ t.sm.newestPage = none ∧ t.sm.pressure = .normal
          ∧ t.sm.freeCount = 640 ∧ t.sm.fetchLookup = none ∧ t.sm.serveLookup = none)
      ∧ (∀ o, t.entry o = { floor := 1, top := 0, gaps := [] })
      ∧ (∀ p o, t.cell p o = none)
      ∧ (∀ p, t.presenceOf p = .unknown ∧ lineOf t.hu.silence false p = false)
      ∧ (t.hu.reportTimer = false ∧ t.hu.spacingTimer = false ∧ t.hu.reportPending = false ∧ t.hu.line2 = false
          ∧ t.hu.line3 = false ∧ t.hu.line7 = false ∧ t.hu.conflictNoted = [] ∧ t.hu.durable = 0)
      ∧ (∀ i, place t.su.entries .free i = .free)
      ∧ (∀ i, place t.ra.slots .free i = .free) ∧ t.ra.waitList = []
      ∧ t.ce = { queue := [], flushTimer := false, state := .idle }
      ∧ (t.lc.state = .dormant ∧ t.lc.hasReference = false ∧ t.lc.lastSender = 0 ∧ t.lc.slotCount = none
          ∧ t.lc.chosen = none ∧ t.lc.fairness = 0)
      ∧ ((∀ i, t.ask i = none) ∧ t.rp.rotation = 1 ∧ t.rp.jobs = [] ∧ t.rp.busy = [] ∧ t.rp.notHeld = none
          ∧ t.rp.buffer = none)
      ∧ t.nu = { queue := [], overflow := false, delayTimer := .stopped, attn := false }
      ∧ (t.ap.slot = .empty ∧ t.ap.submitBuffer = none ∧ t.ap.configures = [] ∧ t.ap.fetch = .idle
          ∧ ∀ k, t.counter k = 0)
      ∧ (∀ o, t.pendingOf o = []) ∧ t.pending = s.pending

/-- R18, Table 1-12: what the array holds after a reset that cuts an operation short; the flags stay. A torn page never reads as
erased and its check never matches its data (R2). -/
def Obligations.ResetCutsAnOperationShort : Prop :=
  ∀ (c : Instr) (s : State), c = .powerOnReset ∨ c = .pinReset → MemoryOk s → ∃ t, exec c s = .next t
    ∧ t.fc.progFlags = s.fc.progFlags ∧ t.fc.markFlags = s.fc.markFlags
    ∧ match s.fc.op with
      | none => t.fc.mem = s.fc.mem
      | some (.scanSpareRead _) => t.fc.mem = s.fc.mem
      | some (.scanPageRead _) => t.fc.mem = s.fc.mem
      | some (.lookupRead _ _ _) => t.fc.mem = s.fc.mem
      | some (.transfer _) => t.fc.mem = s.fc.mem
      | some (.program c) => c.target.valid = true →
          looksWhole (t.fc.mem.readRange c.target.base 3168) = false
            ∧ ∀ a, a < c.target.base ∨ c.target.base + 3168 ≤ a → t.fc.mem.read a = s.fc.mem.read a
      | some (.mark b v) => MarkCut s t b v
      | some (.scanMark b v) => MarkCut s t b v
      | some (.erase b) => EraseCut s t b
      | some (.scanErase b) => EraseCut s t b

/-- R40, R41, R97, Table 3-1: the release writes the cause, latches the straps, and begins the scan or halts; nothing else
changes. A station that is not held in reset is not released (log 2). -/
def Obligations.ReleaseLatchesTheStraps : Prop :=
  ∀ (straps : BitVec 5) (s : State),
    (∀ k, s.sc.phase = .held k →
      let n := straps.toNat
      let sc := { s.sc with resetCause := if s.sc.supplyFell then .power else k, supplyFell := false, number := n }
      if 1 ≤ n ∧ n ≤ 24 then
        ∃ t scan, exec (.resetRelease straps) s = .next t
          ∧ t = { s with sc := { sc with phase := .running .scanning .none, scan := some scan },
                         fc := { s.fc with op := some (.scanSpareRead { block := 0, page := 0 }) },
                         hu := { s.hu with presence := t.hu.presence } }
          ∧ scan.block = 0 ∧ scan.classes = []
          ∧ t.presenceOf n = .present ∧ ∀ p, p ≠ n → t.presenceOf p = s.presenceOf p
      else
        exec (.resetRelease straps) s = .next { s with sc := { sc with phase := .running .halted .badStraps } })
      ∧ ∀ st h, s.sc.phase = .running st h → exec (.resetRelease straps) s = .next s

/-! ## The store scan (chapter 3) -/

/-- R6, R14, R43 to R46, Table 3-4: a spare read of the scan ends: the read register holds what it returned, and the block is put in
its class, or the page read follows, or the erase. That a page its spare read has decided is not read is log 18 (DEDUCED). -/
def Obligations.ScanJudgesTheSpare : Prop :=
  ∀ (s : State) (scan : Scan) (p : PageAddr) (mode : ScanMode), s.fc.op = some (.scanSpareRead p) → s.sc.scan = some scan →
    scan.step = .spare mode → p = { block := scan.block, page := scan.page } → p.valid = true →
    let spare := s.fc.mem.spareOf p
    ∃ t, exec .scanSpareReadDone s = .next t
      ∧ t.fc.read = { page := some p, spare := some spare, data := none } ∧ ScanFrame s t
      ∧ let pageRead := t.fc.op = some (.scanPageRead p) ∧ t.fc.mem = s.fc.mem
            ∧ t.sc.scan = some { scan with step := .page mode spare }
        match mode with
        | .first =>
          (spareMark spare = 0x3C#8 → Scanned scan s.fc.mem t (.retired .worn))
            ∧ (spareMark spare ≠ 0x3C#8 → spareMark spare ≠ 0xFF#8 → Scanned scan s.fc.mem t (.retired .factory))
            ∧ (spareMark spare = 0xFF#8 → allErased spare = true ∨ spareGood spare = true → pageRead)
            ∧ (spareMark spare = 0xFF#8 → allErased spare = false → spareGood spare = false → ScanErases scan s t)
        | .freeTest => (allErased spare = true → pageRead) ∧ (allErased spare = false → ScanErases scan s t)
        | .walk =>
          (allErased spare = true ∨ (spareGood spare = true ∧ spareStamp spare = scan.stamp) → pageRead)
            ∧ (allErased spare = false → spareGood spare = false ∨ spareStamp spare ≠ scan.stamp →
                Scanned scan s.fc.mem t (.written scan.stamp scan.page true scan.summary))

/-- R7, R14, R44 to R46, R48: the page read that follows a spare read judges the page: the walk of the block goes on with the next
page, or the block is put in its class, or it is erased; a good page's records go into the summary and the found sets, its mark
into the largest own-top mark. -/
def Obligations.ScanJudgesThePage : Prop :=
  ∀ (s : State) (scan : Scan) (p : PageAddr) (mode : ScanMode) (spare : List Byte),
    s.fc.op = some (.scanPageRead p) → s.sc.scan = some scan → scan.step = .page mode spare →
    p = { block := scan.block, page := scan.page } → p.valid = true →
    let data := s.fc.mem.dataOf p
    let erased := allErased spare = true ∧ allErased data = true
    let matched := allErased spare = false ∧ crc32 data = sparePageCheck spare
    let full := scan.takeGood spare
    let m := s.fc.mem
    ∃ t, exec .scanPageReadDone s = .next t
      ∧ t.fc.read = { page := some p, spare := some (m.spareOf p), data := some data }
      ∧ ScanFrame s t
      ∧ (full.ownTop = max scan.ownTop (spareOwnTop spare) ∧ full.block = scan.block ∧ full.classes = scan.classes
          ∧ (∀ e, e ∈ spareList spare → covers full.summary e.origin e.seq = true)
          ∧ ∀ o n, 1 ≤ o → o ≤ 24 → (n ∈ lineOf full.found [] o ↔
              n ∈ lineOf scan.found [] o ∨ ∃ e, e ∈ spareList spare ∧ e.origin = o ∧ e.seq = n))
      ∧ let goesOn := fun (now : Scan) (next : ScanMode) (done : ScanClass) =>
            (scan.page = 47 → Scanned now m t done)
              ∧ (scan.page ≠ 47 →
                  t.fc.op = some (.scanSpareRead { block := scan.block, page := scan.page + 1 }) ∧ t.fc.mem = m
                    ∧ t.sc.scan = some { now with page := scan.page + 1, step := .spare next })
        match mode with
        | .first =>
          (erased → goesOn scan .freeTest .free)
            ∧ (matched → goesOn { full with stamp := spareStamp spare } .walk
                (.written (spareStamp spare) 48 false full.summary))
            ∧ (¬ erased → ¬ matched → ScanErases scan s t)
        | .freeTest => (erased → goesOn scan .freeTest .free) ∧ (¬ erased → ScanErases scan s t)
        | .walk =>
          (erased → Scanned scan m t (.written scan.stamp scan.page false scan.summary))
            ∧ (matched → goesOn full .walk (.written scan.stamp 48 false full.summary))
            ∧ (¬ erased → ¬ matched → Scanned scan m t (.written scan.stamp scan.page true scan.summary))

/-- R5, R10, R11, R45: the outcome of the scan's erase, and of the mark program that follows a failed one. -/
def Obligations.ScanErasesAndMarks : Prop :=
  ∀ (s : State) (scan : Scan) (b : Nat), s.sc.scan = some scan → b = scan.block → b < 640 →
    (s.fc.op = some (.scanErase b) →
      (∃ t, exec (.scanEraseDone .pass) s = .next t ∧ Scanned scan (s.fc.mem.erasePages b 0 48) t .free ∧ ScanFrame s t)
      ∧ ∃ t bytes, exec (.scanEraseDone .fail) s = .next t ∧ bytes.length = 47 * 3168 ∧ ScanFrame s t
          ∧ let m := (s.fc.mem.erasePages b 0 1).writeRange (PageAddr.mk b 1).base bytes
            (s.fc.markFlag { block := b, page := 0 } = false →
              t.fc.op = some (.scanMark b 0x3C#8) ∧ t.fc.mem = m ∧ t.fc.markFlag { block := b, page := 0 } = true
                ∧ t.sc.scan = some { scan with step := .mark }
                ∧ t.counter .eraseFailures = min 65535 (s.counter .eraseFailures + 1))
            ∧ (s.fc.markFlag { block := b, page := 0 } = true → Scanned scan m t (.retired .worn)))
    ∧ ∀ v, s.fc.op = some (.scanMark b v) →
        (∃ t, exec (.scanMarkDone .pass) s = .next t ∧ Scanned scan (s.fc.mem.markBlock b v) t (.retired .worn)
          ∧ ScanFrame s t)
        ∧ ∃ t w, exec (.scanMarkDone .fail) s = .next t ∧ v &&& w = v
            ∧ Scanned scan (s.fc.mem.markBlock b w) t (.retired .worn)
            ∧ ScanFrame s t
            ∧ (t.sc.scan.isSome → t.counter .markFailures = min 65535 (s.counter .markFailures + 1))

/-- R47, R50, R155 to R160: the end of the scan, told at an erase of block 639 that passes: the rebuilt table and entries stand, the
orphans are counted, and the station enters AWAIT-CONFIG or halts. With at least 6 blocks FREE nothing is reclaimed. With fewer, over
blocks at rest as the scan leaves them (R51), the level is LOW or TIGHT, a station that does not halt has STORE-FULL on entering TIGHT,
and reclaim takes the block its evaluation selects. That a halting station sets its level too is log 16 (DEDUCED). -/
def Obligations.ScanEnds : Prop :=
  (∀ (s : State) (scan : Scan), s.fc.op = some (.scanErase 639) → s.sc.scan = some scan → scan.block = 639 →
    s.fc.programClaim = none → s.fc.fetchClaim = none → s.fc.serveClaim = none → s.fc.markClaims = [] →
    s.fc.eraseClaim = none → s.rp.rerunDue = false →
    let sm := s.sm.rebuilt (ScanClass.free :: scan.classes).reverse.zipIdx
    6 ≤ sm.freeCount →
    ∃ t, exec (.scanEraseDone .pass) s = .next t
      ∧ t.sc = { s.sc with scan := none,
                           phase := if 640 - sm.retiredCount < 8 then .running .halted .storeUnusable
                                    else .running .awaitConfig .none }
      ∧ t.sm = { sm with pressure := .normal, reclaimDue := false }
      ∧ (∀ o, 1 ≤ o → o ≤ 24 → t.entry o = scan.entryOf s.own o)
      ∧ t.counter .orphaned
          = min 65535 (s.counter .orphaned + ((upFrom 1 24).map (scan.orphansOf s.own)).foldl (· + ·) 0)
      ∧ t.hu = { s.hu with entries := t.hu.entries }
      ∧ t.fc.op = none ∧ t.fc.mem = s.fc.mem.erasePages 639 0 48 ∧ t.su = s.su ∧ t.ra = s.ra ∧ t.ce = s.ce ∧ t.lc = s.lc
      ∧ t.rp = s.rp ∧ t.pending = s.pending)
    ∧ ∀ (s : State) (scan : Scan), s.fc.op = some (.scanErase 639) → s.sc.scan = some scan → scan.block = 639 → AtRest s →
        let sm := s.sm.rebuilt (ScanClass.free :: scan.classes).reverse.zipIdx
        let level : Pressure := if 6 ≤ sm.freeCount then .normal else if 2 ≤ sm.freeCount then .low else .tight
        let halts := 640 - sm.retiredCount < 8
        let m := s.fc.mem.erasePages 639 0 48
        ∃ t, exec (.scanEraseDone .pass) s = .next t
          ∧ t.sc = { s.sc with scan := none,
                               phase := if halts then .running .halted .storeUnusable else .running .awaitConfig .none }
          ∧ t.sm.pressure = level ∧ t.sm.freeCount = sm.freeCount
          ∧ t.nu = (if halts ∨ level ≠ .tight then s.nu
                    else { queue := [.storeFull], overflow := false, delayTimer := .expired, attn := true })
          ∧ t.counter .orphaned
              = min 65535 (s.counter .orphaned + ((upFrom 1 24).map (scan.orphansOf s.own)).foldl (· + ·) 0)
          ∧ t.hu = { s.hu with entries := t.hu.entries }
          ∧ t.su = s.su ∧ t.ra = s.ra ∧ t.ce = s.ce ∧ t.lc = s.lc ∧ t.rp = s.rp ∧ t.pending = s.pending
          ∧ match (if halts then none else ({ s with sm := { sm with pressure := level } } : State).selection) with
            | none => t.sm = { sm with pressure := level, reclaimDue := false } ∧ t.fc.op = none ∧ t.fc.mem = m
                ∧ ∀ o, 1 ≤ o → o ≤ 24 → t.entry o = scan.entryOf s.own o
            | some b =>
                t.sm = { sm.setBlock b { sm.block b with state := .erasing } with pressure := level, reclaimDue := false }
                ∧ t.fc.op = some (.erase b) ∧ t.fc.mem = m.erasePages b 0 1
                ∧ (∀ o, 1 ≤ o → o ≤ 24 → (∀ l, l ∈ (sm.block b).summary → l.origin ≠ o) →
                    t.entry o = scan.entryOf s.own o)
                ∧ ∀ l, l ∈ (sm.block b).summary → 1 ≤ l.origin → l.origin ≤ 24 →
                    min (l.highest + 1) 4294967295 ≤ (t.entry l.origin).floor

/-- R47: the block table completed from the classes of all 640 blocks, in block order. R48, R49: the own entry and a peer's entry
rebuilt from found numbers in rising order. That F_own does not pass 4,294,967,295 where the mark stands there is log 34. -/
def Obligations.StoreRebuilt : Prop :=
  (∀ (sm : Sm) (classes : List ScanClass), classes.length = 640 →
      let m := sm.rebuilt classes.zipIdx
      let newest := fun (b : Nat) => ∃ st pages torn summary, classes[b]? = some (ScanClass.written st pages torn summary)
        ∧ ∀ b' st' pages' torn' summary', classes[b']? = some (ScanClass.written st' pages' torn' summary') →
            st' < st ∨ (st' = st ∧ b' ≤ b)
      (∀ b, classes[b]? = some ScanClass.free → m.block b = { state := .free, stamp := none, pages := 0, summary := [] })
        ∧ (∀ b cause, classes[b]? = some (ScanClass.retired cause) →
            m.block b = { state := .retired cause, stamp := none, pages := 0, summary := [] })
        ∧ (∀ b st pages torn summary, classes[b]? = some (ScanClass.written st pages torn summary) →
            (newest b ∧ 1 ≤ pages ∧ pages ≤ 47 ∧ torn = false →
              m.block b = { state := .opened, stamp := some st, pages := pages, summary := summary })
            ∧ (¬ (newest b ∧ 1 ≤ pages ∧ pages ≤ 47 ∧ torn = false) →
              m.block b = { state := .sealed, stamp := some st, pages := pages, summary := summary })
            ∧ (newest b → m.stampHigh = st ∧ m.lastOpened = b ∧ m.newestPage = some { block := b, page := pages - 1 }))
        ∧ ((∀ (b : Nat) st pages torn summary, classes[b]? ≠ some (ScanClass.written st pages torn summary)) →
            m.stampHigh = 0 ∧ m.lastOpened = 639 ∧ m.newestPage = none))
    ∧ ∀ found : List Nat, found.Pairwise (· < ·) → 0 ∉ found →
        (∀ mark, let e := ownRebuilt mark found
          e.top = mark ∧ e.gaps = []
            ∧ (mark ∉ found → e.floor = min (mark + 1) 4294967295)
            ∧ (mark ∈ found → e.floor ≤ mark ∧ (∀ n, e.floor ≤ n → n ≤ mark → n ∈ found) ∧ e.floor - 1 ∉ found))
        ∧ (found = [] → peerRebuilt found = { floor := 1, top := 0, gaps := [] })
        ∧ (found ≠ [] → let e := peerRebuilt found
            entryOk e = true ∧ e.top ∈ found ∧ e.floor ∈ found ∧ (∀ n, n ∈ found → n ≤ e.top)
              ∧ (∀ n, e.settled n = true ↔ n ∈ found ∧ e.floor ≤ n)
              ∧ ∀ n, n ∈ found → n < e.floor → e.gaps.length = 6 ∧ e.floor - 1 ∉ found)

/-! ## The station line (chapter 4) -/

/-- R60, R61, R63, R65 to R67, R69, Table 4-4: the events of the line that change the line controller alone, with the collision
counted once (R66). The bytes driven during the jam are eight F0h (R211). That the receive buffer of R60 is emptied at CARRIER_BEGIN
is log 33 (DEDUCED). -/
def Obligations.LineEventsOfTheController : Prop :=
  ∀ s : State,
    (s.lc.state = .deferring →
      exec .carrierBegin s = .next { s with lc := { s.lc with
        state := .hearing, slotCount := none, rx := { bytes := [], strayBits := 0, codeFault := false } } })
    ∧ (s.lc.state = .seeking → s.lc.tracked = .quiet →
      exec .carrierBegin s = .next { s with lc := { s.lc with
        tracked := .fromStart, rx := { bytes := [], strayBits := 0, codeFault := false } } })
    ∧ (s.lc.state = .sending → ∃ t, exec .mismatchDetected s = .next t
        ∧ t = { s with lc := { s.lc with state := .jamming }, ap := { s.ap with counters := t.ap.counters } }
        ∧ t.counter .collisions = min 65535 (s.counter .collisions + 1)
        ∧ (∀ k, k ≠ .collisions → t.counter k = s.counter k) ∧ t.lineOut = List.replicate 8 0xF0#8)
    ∧ (s.lc.state = .jamming →
        exec (.jamEnd true) s = .next { s with lc := { s.lc with state := .trailing } }
        ∧ exec (.jamEnd false) s = .next { s with lc := { s.lc with
            state := .deferring, hasReference := true, lastSender := 0, slotCount := none, tracked := .quiet,
            quietLimit := false } })
    ∧ (s.lc.state = .seeking → s.lc.quietLimit = true →
        (s.lc.tracked = .quiet →
          exec .quietLimitExpiry s = .next { s with lc := { s.lc with
            state := .deferring, hasReference := true, lastSender := 0, slotCount := none, tracked := .quiet,
            quietLimit := false } })
        ∧ (s.lc.tracked ≠ .quiet →
          exec .quietLimitExpiry s = .next { s with lc := { s.lc with quietLimit := false } }))

/-- R59 to R61, R67, R69, R76: the end of a bad or foreign period, and of a carrier that is not judged, gives a reference with L = 0;
a bad or foreign period raises its counter and is handed to no block. That the receive buffer of R60 holds a period that is not
judged as well is log 33 (DEDUCED). -/
def Obligations.CarrierEndsUnheard : Prop :=
  ∀ (p : CarrierPeriod) (s : State),
    (s.lc.state = .trailing ∨ (s.lc.state = .seeking ∧ s.lc.tracked = .inProgress) →
      exec (.carrierEnd p) s = .next { s with lc := Referenced s p 0 })
    ∧ (s.lc.state = .hearing ∨ (s.lc.state = .seeking ∧ s.lc.tracked = .fromStart) →
        ∀ k, (classify s.own s.groupSize p = .bad ∧ k = .badBursts)
            ∨ (classify s.own s.groupSize p = .foreign ∧ k = .foreignBursts) →
          ∃ t, exec (.carrierEnd p) s = .next t
            ∧ t = { s with lc := Referenced s p 0, ap := { s.ap with counters := t.ap.counters } }
            ∧ t.counter k = min 65535 (s.counter k + 1) ∧ ∀ j, j ≠ k → t.counter j = s.counter j)

/-- R59 to R61, R98: the end of a good burst: the reference with L the sender, or 0 where the quiet limit had run out (R69); the burst
counted; the sender PRESENT with its silence timer running; then its sender, target and body to the block of its kind (R60, R94, R125,
R175, R177), and what follows of that, in the order that logs 12 to 14 (DESIGN CHOICE) give it: reclaim, the grant, the re-run of the
ask list. An ASK to this station reaches the serve queue, the refusals and the serve lookup, and a REFUSE the ask list, as
AskAndRefuseTaken says of them. -/
def Obligations.GoodBurstIsHandedOn : Prop :=
  ∀ (p : CarrierPeriod) (b : Burst) (s : State), classify s.own s.groupSize p = .good b → s.groupSize ≤ 24 →
    s.lc.state = .hearing ∨ (s.lc.state = .seeking ∧ s.lc.tracked = .fromStart) →
    ∃ t, exec (.carrierEnd p) s = .next t
      ∧ t.lc = Referenced s p (if s.lc.state = .hearing ∨ s.lc.quietLimit = true then b.sender else 0)
      ∧ (let heard := ((s.setLc t.lc).bump .goodBursts).heard b.sender
        t = match b.kind with
          | .hail => (heard.takeReport true b.sender b.body).settleAll
          | .report => (heard.takeReport false b.sender b.body).settleAll
          | .seg => heard.takeSegment b.body
          | .ask => (heard.takeAsk b.sender b.target b.body).settleAll
          | .refuse => (heard.takeRefuse b.sender b.target b.body).settleAll)
      ∧ (b.kind = .ask →
          let u := s.takeAsk b.sender b.target b.body
          let waiting := fun (l : Option Lookup) => l.map fun x => { x with step := .waiting }
          t.rp.jobs = u.rp.jobs ∧ t.rp.busy = u.rp.busy ∧ t.rp.buffer = s.rp.buffer
            ∧ t.counter .badBursts = u.counter .badBursts
            ∧ (Calm s → t.rp.notHeld = u.rp.notHeld ∧ waiting t.sm.serveLookup = waiting u.sm.serveLookup))
      ∧ (b.kind = .refuse →
          let u := s.takeRefuse b.sender b.target b.body
          t.counter .refusalsReceived = u.counter .refusalsReceived ∧ t.counter .badBursts = u.counter .badBursts
            ∧ (Calm s → s.presenceOf b.sender = .present → u.rp.rerunDue = false → t.rp = u.rp))
      ∧ t.counter .goodBursts = min 65535 (s.counter .goodBursts + 1)
      ∧ t.presenceOf b.sender = .present ∧ lineOf t.hu.silence false b.sender = true
      ∧ (∀ q, q ≠ b.sender → t.presenceOf q = s.presenceOf q
          ∧ lineOf t.hu.silence false q = lineOf s.hu.silence false q)
      ∧ (∀ q o, q ≠ b.sender ∨ (b.kind ≠ .hail ∧ b.kind ≠ .report) → t.cell q o = s.cell q o)
      ∧ t.sc = s.sc ∧ t.pending = s.pending ∧ t.ap.slot = s.ap.slot ∧ ArrayKept s t

/-- R58, R59, R211, R213: a burst of Table 4-1 that a station sends is good at every other station of its group, with its sender,
target and body as sent; foreign at a station with another group size; bad at a station of the same number. -/
def Obligations.BurstsAreReadAsComposed : Prop :=
  ∀ (own groupSize sender n target : Nat) (kind : BurstKind) (body : List Byte),
    1 ≤ sender → sender ≤ n → n ≤ 24 → target ≤ 24 → bodySuits kind n body = true → groupSize ≤ 24 →
    let period : CarrierPeriod := { bytes := burstBytes kind sender n target body, strayBits := 0, codeFault := false }
    (groupSize ≠ n → classify own groupSize period = .foreign)
      ∧ (groupSize = n → sender ≠ own →
          classify own groupSize period = .good { kind := kind, sender := sender, target := target, body := body })
      ∧ (groupSize = n → sender = own → classify own groupSize period = .bad)

/-- R103, R114, R211, Tables 12-3 and 12-4: report pairs, segments, asks and refusals are read back from their bytes. -/
def Obligations.BodiesAreReadAsWritten : Prop :=
  (∀ pairs : List Pair, (∀ p, p ∈ pairs → p.floor < 2 ^ 32 ∧ p.frontier < 2 ^ 32) →
      pairsOf pairs.length (pairBytes pairs) = pairs ∧ (pairBytes pairs).length = 8 * pairs.length)
    ∧ (∀ (g : Segment) (n : Nat), n ≤ 24 → g.consistent n = true → g.seq < 2 ^ 32 →
        segmentOf (segmentBytes g) = g ∧ (segmentBytes g).length = 16 + g.payload.length)
    ∧ (∀ a : AskBody, a.origin < 2 ^ 16 → a.count < 2 ^ 16 → a.first < 2 ^ 32 →
        askOf (askBytes a) = a ∧ (askBytes a).length = 8)
    ∧ ∀ (origin : Nat) (reason : RefuseReason) (number : Nat), origin < 2 ^ 16 → number < 2 ^ 32 →
        refuseOf (refuseBytes origin reason number) = { origin := origin, reason := some reason, number := number }
          ∧ (refuseBytes origin reason number).length = 8

/-- R64, R70 to R73, Table 4-5: at an own slot the chosen burst goes again; else the standing offer of the lowest line, or an own
SEG at a fairness count of 4; with no offer the slot passes. The slot's number and L give the rank (R62). The owner of the choice moves
its offer on: the next own segment (R116), the refusal gone and with a NOT-HELD its job (R178), the report flag and offers cleared
(R101, R104), the next resend segment, number or job (R179, R181), the ASK no longer due (R172); no other owner's offer changes. -/
def Obligations.OwnSlotSendsByTheOrder : Prop :=
  ∀ s : State, s.lc.state = .deferring →
    (∀ c, s.lc.chosen = some c →
      exec .ownSlotStart s = .next { s with lc := { s.lc with slotCount := some s.nextSlot, state := .sending } })
    ∧ (s.lc.chosen = none → s.su.offer = none → s.dueRefusal = none → s.hu.line2 = false → s.hu.line3 = false →
        s.resendOffer = none → s.dueAsk = none → s.hu.line7 = false →
        exec .ownSlotStart s = .next { s with lc := { s.lc with slotCount := some s.nextSlot } })
    ∧ (s.lc.chosen = none →
        s.su.offer.isSome ∨ s.dueRefusal.isSome ∨ s.hu.line2 = true ∨ s.hu.line3 = true ∨ s.resendOffer.isSome
          ∨ s.dueAsk.isSome ∨ s.hu.line7 = true →
        let unmoved := fun (t : State) => t.rp.jobs = s.rp.jobs ∧ t.rp.busy = s.rp.busy ∧ t.rp.buffer = s.rp.buffer
          ∧ t.counter .jobsCompleted = s.counter .jobsCompleted
        let segmentMoved := fun (t : State) (i : Nat) (r : OwnRecord) (next : Nat) =>
          (∃ count, place s.su.entries .free i = .sending r count next
              ∧ place t.su.entries .free i = .sending r count (next + 1))
            ∧ (∀ j, j ≠ i → place t.su.entries .free j = place s.su.entries .free j)
            ∧ unmoved t ∧ (Calm s → t.hu = s.hu ∧ t.rp = s.rp)
        ∃ t c, exec .ownSlotStart s = .next t
          ∧ t.lc = { s.lc with slotCount := some s.nextSlot, state := .sending, chosen := some c }
          ∧ c.contested = s.su.offer.isSome
          ∧ (match s.lc.fairness == 4, s.su.offer, s.dueRefusal, s.hu.line2, s.hu.line3, s.resendOffer, s.dueAsk with
            | true, some (i, r, next), _, _, _, _, _ =>
              c.item = .ownSeg r.seq (next + 1 == segmentCount r.payload.length)
                ∧ c.bytes = burstBytes .seg s.own s.groupSize 0
                    (segmentBytes (cutSegment s.own r.seq r.check r.payload false next))
                ∧ segmentMoved t i r next
            | _, _, some (asker, origin, number, reason), _, _, _, _ =>
              c.item = .refuse ∧ c.bytes = burstBytes .refuse s.own s.groupSize asker (refuseBytes origin reason number)
                ∧ t.su = s.su ∧ (Calm s → t.hu = s.hu) ∧ t.rp.buffer = s.rp.buffer
                ∧ t.counter .jobsCompleted = s.counter .jobsCompleted
                ∧ (reason = .busy → t.rp.busy = s.rp.busy.drop 1 ∧ t.rp.jobs = s.rp.jobs
                    ∧ (Calm s → t.rp.notHeld = s.rp.notHeld.map fun r => { r with older := r.older - 1 }))
                ∧ (reason = .notHeld → t.rp.jobs = s.rp.jobs.drop 1 ∧ t.rp.busy = s.rp.busy
                    ∧ (Calm s → HeadTested s t (s.rp.jobs.drop 1) ∧ (s.rp.jobs.drop 1 = [] → t.rp.notHeld = none)))
            | _, _, none, true, _, _, _ =>
              c.item = .report ∧ c.bytes = burstBytes .report s.own s.groupSize 0 s.reportBody
                ∧ t.hu.line2 = false ∧ t.hu.reportTimer = false ∧ t.su = s.su ∧ unmoved t
                ∧ (Calm s → t.rp = s.rp
                    ∧ t.hu = { s.hu with reportTimer := false, reportPending := false, line2 := false })
            | _, _, none, false, true, _, _ =>
              c.item = .hail ∧ c.bytes = burstBytes .hail s.own s.groupSize 0 s.reportBody
                ∧ t.hu.line3 = false ∧ t.hu.reportTimer = false ∧ t.su = s.su ∧ unmoved t
                ∧ (Calm s → t.rp = s.rp
                    ∧ t.hu = { s.hu with reportTimer := false, reportPending := false, line2 := false, line3 := false })
            | _, _, none, false, false, some r, _ =>
              c.item = .resend ∧ c.bytes = burstBytes .seg s.own s.groupSize 0
                (segmentBytes (cutSegment r.origin r.seq r.check r.payload true r.next))
                ∧ t.su = s.su ∧ (Calm s → t.hu = s.hu) ∧ t.rp.busy = s.rp.busy
                ∧ t.rp.buffer = some { r with next := r.next + 1 }
                ∧ (r.next + 1 < segmentCount r.payload.length →
                    t.rp.jobs = s.rp.jobs ∧ t.counter .jobsCompleted = s.counter .jobsCompleted)
                ∧ (segmentCount r.payload.length ≤ r.next + 1 → ∀ j js, s.rp.jobs = j :: js →
                    (j.next + 1 ≤ j.first + j.count - 1 →
                      t.rp.jobs = { j with next := j.next + 1 } :: js
                        ∧ t.counter .jobsCompleted = s.counter .jobsCompleted
                        ∧ (Calm s → HeadTested s t ({ j with next := j.next + 1 } :: js)))
                    ∧ (j.first + j.count - 1 < j.next + 1 →
                        t.rp.jobs = js ∧ t.counter .jobsCompleted = min 65535 (s.counter .jobsCompleted + 1)
                          ∧ (Calm s → HeadTested s t js ∧ (js = [] → t.rp.notHeld = none))))
            | _, some (i, r, next), none, false, false, none, _ =>
              c.item = .ownSeg r.seq (next + 1 == segmentCount r.payload.length)
                ∧ c.bytes = burstBytes .seg s.own s.groupSize 0
                    (segmentBytes (cutSegment s.own r.seq r.check r.payload false next))
                ∧ segmentMoved t i r next
            | _, none, none, false, false, none, some (i, a, p) =>
              c.item = .ask a.origin p ∧ c.bytes = burstBytes .ask s.own s.groupSize p
                (askBytes { origin := a.origin, count := a.count, first := a.first })
                ∧ t.su = s.su ∧ unmoved t
                ∧ (Calm s → t.hu = s.hu ∧ t.ask i = some { a with state := .asked p false false }
                    ∧ ∀ j, j ≠ i → t.ask j = s.ask j)
            | _, none, none, false, false, none, none =>
              c.item = .report ∧ c.bytes = burstBytes .report s.own s.groupSize 0 s.reportBody
                ∧ t.hu.reportTimer = false ∧ t.su = s.su ∧ unmoved t
                ∧ (Calm s → t.rp = s.rp
                    ∧ t.hu = { s.hu with reportTimer := false, reportPending := false, line2 := false }))
          ∧ t.sc = s.sc ∧ t.hu.matrix = s.hu.matrix ∧ t.hu.presence = s.hu.presence ∧ t.ap.slot = s.ap.slot
          ∧ t.pending = s.pending ∧ ArrayKept s t)

/-- R61, R72, R73, R76, R100, R102, R104, R117, R172: a burst has been sent: the reference with L the own number, the fairness
count, the chosen burst cleared, and what its owner does; no other owner is told. The end of an ASK starts the timer of its origin's
entry where that is ASKED of the same target with the ASK not due, and otherwise changes nothing of RP. -/
def Obligations.BurstSentIsReported : Prop :=
  ∀ (s : State) (c : ChosenBurst), s.lc.state = .sending → s.lc.chosen = some c →
    ∃ t, exec .burstSent s = .next t
      ∧ t.lc = { s.lc with state := .deferring, hasReference := true, lastSender := s.own, slotCount := none,
                           tracked := .quiet, quietLimit := false, chosen := none,
                           fairness := if c.item = .resend ∧ c.contested = true then min 4 (s.lc.fairness + 1) else 0 }
      ∧ t.counter .burstsSent = min 65535 (s.counter .burstsSent + 1)
      ∧ (match c.item with
        | .report => t.hu = { s.hu with reportTimer := true, spacingTimer := true }
        | .hail => t.hu = { s.hu with reportTimer := true, spacingTimer := true }
        | _ => t.hu = s.hu)
      ∧ (match c.item with
        | .hail => t.sc = { s.sc with listening := true }
        | _ => t.sc = s.sc)
      ∧ (match c.item with
        | .ownSeg n true => ∀ i, place t.su.entries .free i
            = (match place s.su.entries .free i with
              | .sending r count next => if r.seq = n then .free else .sending r count next
              | e => e)
        | _ => t.su = s.su)
      ∧ (match c.item with
        | .ask _ _ => t.counter .asksSent = min 65535 (s.counter .asksSent + 1)
        | _ => t.rp = s.rp ∧ t.counter .asksSent = s.counter .asksSent)
      ∧ (∀ o target, c.item = .ask o target →
          (∀ i a timer, s.askPlace o = some i → s.ask i = some a → a.state = .asked target false timer →
            t.ask i = some { a with state := .asked target false true } ∧ (∀ j, j ≠ i → t.ask j = s.ask j)
              ∧ t.rp = { s.rp with asks := t.rp.asks })
          ∧ ((∀ i a timer, s.askPlace o = some i → s.ask i = some a → a.state ≠ .asked target false timer) → t.rp = s.rp))
      ∧ (∀ k, k ≠ .burstsSent → k ≠ .asksSent → t.counter k = s.counter k)
      ∧ t.fc = s.fc ∧ t.sm = s.sm ∧ t.ra = s.ra ∧ t.ce = s.ce ∧ t.nu = s.nu ∧ t.pending = s.pending

/-- R62: ranks lie in 0..N−1, two stations never share one, the last sender has the last and the station above it the first,
and every own slot belongs to the station's rank. -/
def Obligations.RanksAreDistinct : Prop :=
  (∀ n l a b : Nat, l ≤ n → 1 ≤ a → a ≤ n → 1 ≤ b → b ≤ n →
      rankOf a l n < n ∧ (rankOf a l n = rankOf b l n → a = b)
        ∧ (1 ≤ l → rankOf l l n = n - 1 ∧ rankOf (l % n + 1) l n = 0)
        ∧ rankOf a 0 n = a - 1)
    ∧ ∀ s : State, (∀ k, s.lc.slotCount = some k → k % s.groupSize = rankOf s.own s.lc.lastSender s.groupSize) →
        1 ≤ s.groupSize → s.nextSlot % s.groupSize = rankOf s.own s.lc.lastSender s.groupSize

/-! ## Holdings, reports and durability (chapters 5 and 10) -/

/-- R60, R93 to R96, R101: a REPORT or HAIL heard from its start: a malformed body is counted bad and changes no row; a well-formed
one replaces the sender's row; an own frontier above T_own is adopted in JOINING, and clamped and noted in ACTIVE, with OWN-CONFLICT
once for each sender. -/
def Obligations.ReportReplacesTheRow : Prop :=
  ∀ (p : CarrierPeriod) (b : Burst) (s : State),
    s.lc.state = .hearing ∨ (s.lc.state = .seeking ∧ s.lc.tracked = .fromStart) →
    classify s.own s.groupSize p = .good b → b.kind = .hail ∨ b.kind = .report → s.groupSize ≤ 24 → 1 ≤ s.own → s.own ≤ s.groupSize →
    let pairs := pairsOf s.groupSize b.body
    let mine := pairAt pairs s.own
    ∃ t, exec (.carrierEnd p) s = .next t
      ∧ ((∃ q, q ∈ pairs ∧ (q.floor = 0 ∨ q.frontier + 1 < q.floor)) →
          t.hu.matrix = s.hu.matrix ∧ t.counter .badBursts = min 65535 (s.counter .badBursts + 1))
      ∧ ((∀ q, q ∈ pairs → 1 ≤ q.floor ∧ q.floor ≤ q.frontier + 1) →
          t.counter .badBursts = s.counter .badBursts
          ∧ (∀ o, 1 ≤ o → o ≤ s.groupSize → o ≠ s.own → t.cell b.sender o = some (pairAt pairs o))
          ∧ (∀ q o, q ≠ b.sender → t.cell q o = s.cell q o)
          ∧ (b.kind = .hail → t.hu.reportPending = true)
          ∧ (s.station = some .joining →
              t.cell b.sender s.own = some mine ∧ mine.frontier ≤ t.ownTop ∧ t.hu.conflictNoted = s.hu.conflictNoted
                ∧ (DurableOk s → t.ownTop = max s.ownTop mine.frontier
                    ∧ (s.ownTop < mine.frontier →
                        t.entry s.own = { floor := min (mine.frontier + 1) 4294967295, top := mine.frontier, gaps := [] })))
          ∧ (s.station = some .active →
              (DurableOk s → t.ownTop = s.ownTop)
              ∧ (mine.frontier ≤ s.ownTop → t.cell b.sender s.own = some mine
                ∧ t.hu.conflictNoted = s.hu.conflictNoted)
              ∧ (s.ownTop < mine.frontier →
                  t.cell b.sender s.own = some { floor := min mine.floor (s.ownTop + 1), frontier := s.ownTop }
                  ∧ b.sender ∈ t.hu.conflictNoted
                  ∧ (∀ q, q ∈ t.hu.conflictNoted → q = b.sender ∨ q ∈ s.hu.conflictNoted)
                  ∧ (b.sender ∉ s.hu.conflictNoted →
                      .ownConflict b.sender mine.frontier ∈ t.nu.queue ∨ t.nu.overflow = true)))
          ∧ ∀ q v, .ownConflict q v ∈ t.nu.queue → .ownConflict q v ∈ s.nu.queue
              ∨ (s.station = some .active ∧ s.ownTop < mine.frontier ∧ b.sender ∉ s.hu.conflictNoted
                  ∧ q = b.sender ∧ v = mine.frontier))

/-- R82, Table 5-4: settling a run of numbers that are at least F and unsettled settles exactly that run, moves T only where the
run lies above it, and adds at most one range; the form of R78 is kept unless a seventh range would stand. R87, R88: the steps of a
floor raise at an entry, and the three cases of the commit of own record `n`. R90: an abandonment of a run of a peer origin is taken
where what is left of the run from F on is unsettled, not pending, and leaves at most six ranges, and settles it with LOST; any other
is declined. -/
def Obligations.EntriesSettleRaiseAndCommit : Prop :=
  (∀ (e : Entry) (a b : Nat), entryOk e = true → a ≤ b →
      (∀ n, a ≤ n → n ≤ b → e.floor ≤ n ∧ e.settled n = false) →
      let f := e.settle a b
      (∀ n, f.settled n = true ↔ e.settled n = true ∨ (a ≤ n ∧ n ≤ b))
        ∧ f.floor = e.floor ∧ f.top = max e.top b ∧ f.gaps.length ≤ e.gaps.length + 1
        ∧ (f.gaps.length ≤ 6 → entryOk f = true))
    ∧ (∀ (e : Entry) (f : Nat), entryOk e = true →
        let r := e.raiseFloor f
        let floor := max e.floor (min f 4294967295)
        r.floor = floor ∧ (floor = e.floor → r = e)
          ∧ r.top = (if e.top + 1 < floor then floor - 1 else e.top)
          ∧ (∀ n, r.settled n = true ↔ floor ≤ n ∧ e.settled n = true) ∧ entryOk r = true)
    ∧ (∀ (e : Entry) (n : Nat), entryOk e = true → e.gaps = [] →
        (n = e.top + 1 → e.commitOwn n = some { floor := e.floor, top := n, gaps := [] })
        ∧ (n ≤ e.top → e.commitOwn n = none)
        ∧ (e.top + 1 < n → e.commitOwn n = some { floor := n, top := n, gaps := [] }))
    ∧ ∀ (s : State) (o a b : Nat), 1 ≤ o → o ≤ 24 → o ≠ s.own → entryOk (s.entry o) = true →
        let e := s.entry o
        let first := max a e.floor
        let taken := first ≤ b ∧ (∀ n, first ≤ n → n ≤ b → e.settled n = false ∧ s.isPending o n = false)
          ∧ (e.settle first b).gaps.length ≤ 6
        (¬ taken → s.abandon o a b = none)
          ∧ (taken → ∃ t, s.abandon o a b = some t
              ∧ t = { s with hu := { s.hu with entries := t.hu.entries, reportPending := t.hu.reportPending },
                             rp := { s.rp with rerunDue := s.rp.rerunDue || decide (o ≤ s.groupSize) }, nu := t.nu }
              ∧ t.entry o = e.settle first b ∧ (∀ p, p ≠ o → t.entry p = s.entry p)
              ∧ t.hu.reportPending
                  = (s.hu.reportPending || decide (o ≤ s.groupSize ∧ (e.settle first b).pair ≠ e.pair))
              ∧ (s.storeRuns = true → .lost o first b ∈ t.nu.queue ∨ t.nu.overflow = true))

/-- R84, Table 5-5: the tests in order. -/
def Obligations.AcceptanceTest : Prop :=
  ∀ (s : State) (o n : Nat), entryOk (s.entry o) = true →
    let e := s.entry o
    s.acceptance o n =
      if o = s.own then some .ownOrigin
      else if n < e.floor then some .belowFloor
      else if e.settled n = true ∨ s.isPending o n = true then some .duplicate
      else if e.top + 1 < n ∧ 4096 < n - e.top then some .span
      else if ((∃ g, g ∈ e.gaps ∧ g.lo < n ∧ n < g.hi) ∨ e.top + 1 < n) ∧ e.gaps.length = 6 then some .gapsFull
      else none

/-- R99, R100, R102, R193, R194: the expiry of a silence timer, of the report timer, of the spacing timer and of the notice delay
timer. -/
def Obligations.HoldingsAndNoticeTimers : Prop :=
  ∀ s : State,
    (∀ p, 1 ≤ p → p ≤ 24 → lineOf s.hu.silence false p = true →
      ∃ t, exec (.silenceTimerExpiry p) s = .next t
        ∧ t.presenceOf p = .silent ∧ lineOf t.hu.silence false p = false
        ∧ (∀ q, q ≠ p → t.presenceOf q = s.presenceOf q ∧ lineOf t.hu.silence false q = lineOf s.hu.silence false q)
        ∧ (s.storeRuns = true → .peerSilent p ∈ t.nu.queue ∨ t.nu.overflow = true)
        ∧ t.hu.matrix = s.hu.matrix ∧ t.hu.durable = s.hu.durable ∧ t.sc = s.sc ∧ t.fc = s.fc ∧ t.sm = s.sm
        ∧ t.su = s.su ∧ t.ra = s.ra ∧ t.ce = s.ce ∧ t.lc = s.lc ∧ t.ap = s.ap ∧ t.pending = s.pending)
    ∧ (s.hu.reportTimer = true →
        exec .reportTimerExpiry s = .next { s with hu := { s.hu with reportTimer := false, line2 := true } })
    ∧ (exec .spacingTimerExpiry s = .next { s with hu := { s.hu with spacingTimer := false } }
        ∧ (s.hu.line7 = true ↔ s.hu.reportPending = true ∧ s.hu.spacingTimer = false ∧ s.hu.line2 = false))
    ∧ (s.nu.delayTimer = .running →
        exec .noticeDelayTimerExpiry s
          = .next { s with nu := { s.nu with delayTimer := .expired, attn := !s.nu.queue.isEmpty } })

/-- R185 to R187: an evaluation of D: with fewer than K members it is unchanged; else it becomes the larger of itself and the K-th
largest member. R79, R186: while the store runs, D and T_own never fall. -/
def Obligations.DurableFrontierRises : Prop :=
  (∀ (s : State) (c : Settings), s.sc.settings = some c → 1 ≤ c.target →
      let members := s.ownTop :: (s.peers.filterMap fun p => (s.cell p s.own).map Pair.frontier)
      let t := s.evaluateDurable
      (members.length < c.target → t = s)
        ∧ (c.target ≤ members.length → ∃ v, v ∈ members
            ∧ c.target ≤ members.countP (fun w => decide (v ≤ w)) ∧ members.countP (fun w => decide (v < w)) < c.target
            ∧ t.hu.durable = max s.hu.durable v
            ∧ (v ≤ s.hu.durable → t = s)
            ∧ (s.hu.durable < v → t.sm.reclaimDue = true
                ∧ (s.storeRuns = true → (∃ d, .durable d ∈ t.nu.queue ∧ v ≤ d) ∨ t.nu.overflow = true))))
    ∧ ∀ (c : Instr) (s t : State), s.storeRuns = true → s.sc.scan = none → exec c s = .next t → t.storeRuns = true →
        s.hu.durable ≤ t.hu.durable ∧ s.ownTop ≤ t.ownTop

/-! ## Own records (chapter 6) -/

/-- R108, Table 6-3: SU's answer to a SUBMIT by the first test that fails, or OK with the number; a refused SUBMIT changes nothing but
the payload buffer and, where the slot awaits it, the slot. -/
def Obligations.SubmitAnswered : Prop :=
  ∀ (s : State) (h : HandedSubmit), s.ap.submitBuffer = some h →
    let q := s.su.queued
    let refusedWith := fun (st : Status) =>
      exec .submitTaken s = .next { s with ap := { s.ap with
        submitBuffer := none,
        slot := if h.owed then .ready { status := st, data := [], armsReset := false } else s.ap.slot } }
    (s.station ≠ some .active → refusedWith .notReady)
      ∧ (s.station = some .active →
          (h.length = 0 ∨ 1920 < h.length → refusedWith .badLength)
          ∧ (1 ≤ h.length → h.length ≤ 1920 →
              (4294967295 < s.ownTop + q + 1 → refusedWith .exhausted)
              ∧ (s.ownTop + q + 1 ≤ 4294967295 →
                  (s.sm.pressure = .tight → refusedWith .full)
                  ∧ (s.sm.pressure ≠ .tight →
                      ((∀ i, i < 8 → place s.su.entries .free i ≠ .free) ∨ 12 ≤ s.ce.queue.length → refusedWith .busy)
                      ∧ ((∃ i, i < 8 ∧ place s.su.entries .free i = .free) → s.ce.queue.length < 12 →
                          ∃ t, exec .submitTaken s = .next t
                            ∧ t.ap.slot = (if h.owed then
                                .ready { status := .ok, data := toBytes 4 (s.ownTop + q + 1), armsReset := false }
                              else s.ap.slot))))))

/-- R109, R141, R143 to R145: an accepted SUBMIT takes the lowest-numbered FREE entry with the next own number, which is pending from
then on, joins the commit queue by a reference or is placed at once, and is answered OK with the number. -/
def Obligations.SubmitAccepted : Prop :=
  ∀ (s : State) (h : HandedSubmit) (i : Nat), s.ap.submitBuffer = some h → s.station = some .active →
    1 ≤ h.length → h.length ≤ 1920 → s.ownTop + s.su.queued + 1 ≤ 4294967295 → s.sm.pressure ≠ .tight →
    s.ce.queue.length < 12 → i < 8 → place s.su.entries .free i = .free →
    (∀ j, j < i → place s.su.entries .free j ≠ .free) →
    let n := s.ownTop + s.su.queued + 1
    ∃ t, exec .submitTaken s = .next t
      ∧ place t.su.entries .free i = .queued { seq := n, check := crc32 h.payload, payload := h.payload }
      ∧ (∀ j, j ≠ i → place t.su.entries .free j = place s.su.entries .free j)
      ∧ t.isPending s.own n = true
      ∧ ReferenceJoins s t (.entry i) { origin := s.own, seq := n, check := crc32 h.payload, payload := h.payload }
      ∧ t.ap.submitBuffer = none
      ∧ t.ap.slot = (if h.owed then .ready { status := .ok, data := toBytes 4 n, armsReset := false } else s.ap.slot)
      ∧ t.sc = s.sc ∧ t.lc = s.lc ∧ t.hu.matrix = s.hu.matrix ∧ t.hu.presence = s.hu.presence
      ∧ t.ap.configures = s.ap.configures ∧ t.pending = s.pending ∧ ArrayKept s t

/-- R113, R114: the segments of a record of one byte or more: their number, their lengths, the bytes each carries, and that
together they are the payload. -/
def Obligations.SegmentsTileTheRecord : Prop :=
  ∀ (origin seq : Nat) (check : Check) (payload : List Byte) (resend : Bool), payload ≠ [] →
    let n := segmentCount payload.length
    let cut := cutSegment origin seq check payload resend
    240 * (n - 1) < payload.length ∧ payload.length ≤ 240 * n
      ∧ (∀ i, i < n →
          (cut i).payload = (payload.drop (240 * i)).take 240
          ∧ (cut i).payloadLength = (cut i).payload.length
          ∧ (i + 1 < n → (cut i).payloadLength = 240)
          ∧ (i + 1 = n → (cut i).payloadLength = payload.length - 240 * (n - 1))
          ∧ 1 ≤ (cut i).payloadLength ∧ (cut i).payloadLength ≤ 240
          ∧ (cut i).index = i ∧ (cut i).count = n ∧ (cut i).length = payload.length ∧ (cut i).seq = seq
          ∧ (cut i).origin = origin ∧ (cut i).check = check ∧ (cut i).resend = resend)
      ∧ ((List.range n).flatMap fun i => (cut i).payload) = payload

/-! ## Reassembly (chapter 7) -/

/-- R125 to R130, R132 to R134, R136, R140: a SEG heard from its start, in HEARING or SEEKING: dropped for its origin or as
inconsistent, refused by its cause, dropped for want of a slot (each leaves the slots and the commit path as they were), or taken into
the lowest-numbered FREE slot: the first of several segments fills it, and its number is pending from then on. One that meets the slot
of its record is a mismatch where it disagrees, changes nothing where it repeats, and is stored otherwise; the last segment decides by
the record check, and a COMPLETE slot joins the commit queue or the wait list. -/
def Obligations.SegmentTakesASlot : Prop :=
  ∀ (p : CarrierPeriod) (b : Burst) (s : State),
    s.lc.state = .hearing ∨ (s.lc.state = .seeking ∧ s.lc.tracked = .fromStart) → classify s.own s.groupSize p = .good b →
    b.kind = .seg → s.groupSize ≤ 24 →
    let g := segmentOf b.body
    let untouched := fun (t : State) => NoClaim s → t.ra = s.ra ∧ t.ce = s.ce ∧ t.fc.fill = s.fc.fill
    ∃ t, exec (.carrierEnd p) s = .next t
      ∧ (g.origin = s.own →
          t.counter .mismatch = s.counter .mismatch ∧ t.counter .refused = s.counter .refused ∧ untouched t)
      ∧ (g.origin ≠ s.own → g.consistent s.groupSize = false →
          t.counter .mismatch = min 65535 (s.counter .mismatch + 1) ∧ untouched t)
      ∧ (g.origin ≠ s.own → g.consistent s.groupSize = true → s.slotOf g.origin g.seq = none →
          (s.acceptance g.origin g.seq = some .belowFloor ∨ s.acceptance g.origin g.seq = some .span
              ∨ s.acceptance g.origin g.seq = some .gapsFull →
            t.counter .refused = min 65535 (s.counter .refused + 1) ∧ untouched t)
          ∧ (s.acceptance g.origin g.seq = some .duplicate → t.counter .refused = s.counter .refused ∧ untouched t)
          ∧ (s.acceptance g.origin g.seq = none →
              ((∀ i, i < 8 → place s.ra.slots .free i ≠ .free) →
                t.counter .noSlot = min 65535 (s.counter .noSlot + 1) ∧ untouched t)
              ∧ ∀ i, i < 8 → place s.ra.slots .free i = .free → (∀ j, j < i → place s.ra.slots .free j ≠ .free) →
                  (1 < g.count →
                    place t.ra.slots .free i = .filling { origin := g.origin, seq := g.seq, count := g.count,
                                                          length := g.length, check := g.check,
                                                          parts := [(g.index, g.payload)] }
                    ∧ t.isPending g.origin g.seq = true)
                  ∧ (g.count = 1 →
                      t.counter .checkFailures
                          = (if crc32 (g.payload.take g.length) = g.check then s.counter .checkFailures
                             else min 65535 (s.counter .checkFailures + 1))
                        ∧ SlotCompletes s t i { origin := g.origin, seq := g.seq, count := g.count, length := g.length,
                                                check := g.check, parts := [(g.index, g.payload)] })))
      ∧ (g.origin ≠ s.own → g.consistent s.groupSize = true →
          ∀ i d, s.slotOf g.origin g.seq = some i → (place s.ra.slots .free i).data = some d →
            let agrees := d.count = g.count ∧ d.length = g.length ∧ d.check = g.check
            let received := ∃ bytes, (g.index, bytes) ∈ d.parts
            let stored : SlotData := { d with parts := insertPart g.index g.payload d.parts }
            (¬ agrees → t.counter .mismatch = min 65535 (s.counter .mismatch + 1) ∧ untouched t)
              ∧ (agrees → t.counter .mismatch = s.counter .mismatch ∧ t.counter .refused = s.counter .refused
                  ∧ (received → t.counter .checkFailures = s.counter .checkFailures ∧ untouched t)
                  ∧ (¬ received →
                      (stored.parts.length ≠ d.count → place t.ra.slots .free i = .filling stored
                        ∧ t.counter .checkFailures = s.counter .checkFailures
                        ∧ (NoClaim s → t.ce = s.ce ∧ t.ra.waitList = s.ra.waitList
                            ∧ ∀ j, j ≠ i → place t.ra.slots .free j = place s.ra.slots .free j))
                      ∧ (stored.parts.length = d.count → SlotCompletes s t i stored))))

/-- R131, R136, R173: the expiry of a slot timer frees the slot and is counted; that of an ask timer below the third try makes the ASK
due again with the same responder and range; at the third the responder joins the skip list and the entry is evaluated from its first
number (AskEntryEvaluated says what that gives), and the re-run follows that this makes due (log 14). -/
def Obligations.SlotAndAskTimers : Prop :=
  ∀ s : State,
    (∀ i d, i < 8 → place s.ra.slots .free i = .filling d →
      ∃ t, exec (.slotTimerExpiry i) s = .next t
        ∧ place t.ra.slots .free i = .free ∧ (∀ j, j ≠ i → place t.ra.slots .free j = place s.ra.slots .free j)
        ∧ t.ra.waitList = s.ra.waitList
        ∧ t.counter .expired = min 65535 (s.counter .expired + 1)
        ∧ (∀ k, k ≠ .expired → t.counter k = s.counter k)
        ∧ StationKept s t ∧ t.fc = s.fc ∧ t.sm = s.sm ∧ t.su = s.su ∧ t.ce = s.ce)
    ∧ ∀ i a p due, i < 4 → s.ask i = some a → a.state = .asked p due true → s.rp.rerunDue = false →
        ∃ t, exec (.askTimerExpiry i) s = .next t
          ∧ t.counter .askTimeouts = min 65535 (s.counter .askTimeouts + 1)
          ∧ (∀ k, k ≠ .askTimeouts → t.counter k = s.counter k)
          ∧ StationKept s t ∧ t.fc = s.fc ∧ t.sm = s.sm ∧ t.su = s.su ∧ t.ra = s.ra ∧ t.ce = s.ce
          ∧ (a.tries + 1 < 3 →
              t.ask i = some { a with tries := a.tries + 1, state := .asked p true false }
              ∧ (∀ j, j ≠ i → t.ask j = s.ask j) ∧ t.hu = s.hu ∧ t.nu = s.nu)
          ∧ (3 ≤ a.tries + 1 →
              t = (((s.bump .askTimeouts).evaluateAsk i { a with skip := a.skip ++ [p], tries := 0 } a.first).settleRepair))

/-! ## The commit path and the array (chapters 1, 2 and 8) -/

/-- R141 to R145: the head of the commit queue is placed while the fill register is not CLOSED and it fits: its header and payload are
copied behind the last record with a record list entry, its slot is FREE and the oldest waiting slot joins the queue; a head that does
not fit closes the register; a placement that leaves the queue empty starts the flush timer, or with a delay of 0 closes. Nine rounds
place all there is to place (log 25). R145, R147, R150: the flush timer closes the OPEN register, its records kept; with the array
register IDLE, CE then has a program claim or operation, or is STALLED. -/
def Obligations.PlacementAndFlushTimer : Prop :=
  (∀ (s : State) (ref : Ref) (refs : List Ref) (r : PathRecord), s.ce.queue = ref :: refs → s.refRecord ref = some r →
      s.fc.fill.state ≠ .closed →
      let f := s.fc.fill
      let fits := f.list.length < 8 ∧ f.data.length + recordSpan r.payload.length ≤ 3072
      let t := s.placeHead ref r
      let queue := refs ++ (s.ra.waitList.take 1).map Ref.slot
      let starts := queue = [] ∧ s.ce.flushTimer = false
      (fits → ∀ k, s.placeRounds (k + 1) = t.placeRounds k)
        ∧ (¬ fits → ∀ k, s.placeRounds (k + 1)
            = { s with fc := { s.fc with fill := { f with state := .closed } }, ce := { s.ce with flushTimer := false } })
        ∧ t.fc = { s.fc with fill := { list := f.list ++ [{ origin := r.origin, seq := r.seq, offset := f.data.length }],
                                       data := f.data ++ recordBytes r.origin r.seq r.check r.payload,
                                       state := if starts ∧ s.flushDelay = 0 then .closed else .opened } }
        ∧ t.ce = { s.ce with queue := queue, flushTimer := s.ce.flushTimer || decide (starts ∧ s.flushDelay ≠ 0) }
        ∧ t.ra.waitList = s.ra.waitList.drop 1
        ∧ (∀ j, place t.ra.slots .free j = if ref = .slot j then .free else place s.ra.slots .free j)
        ∧ t = { s with fc := t.fc, ce := t.ce, ra := t.ra })
    ∧ (∀ (s : State) (k : Nat), s.ce.queue = [] ∨ s.fc.fill.state = .closed → s.placeRounds k = s)
    ∧ (∀ (s : State) (k : Nat), s.fc.fill.list.length ≤ 8 → 9 ≤ k → s.placeRounds k = s.placeRounds 9)
    ∧ (∀ s : State, s.runCommit = (s.placeRounds 9).claimIfNeeded)
    ∧ ∀ s : State, s.ce.flushTimer = true → ∃ t, exec .flushTimerExpiry s = .next t
        ∧ t.fc.fill = { s.fc.fill with state := .closed } ∧ t.ce.flushTimer = false ∧ t.ce.queue = s.ce.queue
        ∧ (s.fc.array.state = .idle → t.fc.programBusy = true ∨ t.ce.state = .stalled)
        ∧ StationKept s t ∧ ArrayKept s t

/-- R4, R5, R8, R12, R143: the end of a transfer: the fill register's content is in the array register; with the target's flag clear
the program begins and the array is unchanged; with it set the program is refused, the content stays as the kept image and the block
leaves service. Either way the fill register is EMPTY, or holds what placement resumed with, from the head of the queue at offset 0. -/
def Obligations.TransferEnds : Prop :=
  ∀ (s : State) (c : ProgramClaim), s.fc.op = some (.transfer c) → c.target.valid = true →
    ∃ t, exec .transferEnd s = .next t ∧ StationKept s t
      ∧ t.fc.array.image = some { data := s.fc.fill.data, list := s.fc.fill.list }
      ∧ (s.ce.queue = [] → t.fc.fill = { state := .empty, list := [], data := [] } ∧ t.ce.queue = [])
      ∧ (∀ ref refs r, s.ce.queue = ref :: refs → s.refRecord ref = some r → r.payload.length ≤ 1920 →
          ∃ list data, t.fc.fill.state ≠ .empty
            ∧ t.fc.fill.list = { origin := r.origin, seq := r.seq, offset := 0 } :: list
            ∧ t.fc.fill.data = recordBytes r.origin r.seq r.check r.payload ++ data)
      ∧ (s.fc.progFlag c.target = false →
          t.fc.op = some (.program c) ∧ t.fc.array.state = .programming ∧ t.fc.array.target = some c.target
          ∧ t.fc.progFlag c.target = true ∧ t.fc.mem = s.fc.mem)
      ∧ (s.fc.progFlag c.target = true →
          ArrayKept s t
          ∧ ((t.sm.block c.target.block).state = .retiring
              ∨ (t.sm.block c.target.block).state = .retired .worn))

/-- R9, R23, R28, R30, R31, R86, R87, R112, R151: a program that passes: the page is programmed with the image, the array register
emptied, the block and the newest page moved on, the records in the summary and committed one by one, and the own records at or below
T_own, their entries SENDING. A record's commit: an acceptable number of a peer is settled, with ARRIVED where it is on; a refused one
is an orphan; an own number above T_own becomes T_own and its entry SENDING; an own number at or below it is an orphan and its entry
FREE. What follows the commits in the command may raise floors (pressure) and abandon further numbers (ACTIVE), and unsettles
nothing. That the orphan count, SU's entries and the floors are first those which the commits alone leave is the model's choice: its
one reclaim evaluation comes after the last commit and CE's claim, where R157 would let one before a later commit raise a floor and
make a record an orphan (log 13, DESIGN CHOICE). -/
def Obligations.ProgramPasses : Prop :=
  (∀ (v : State) (e : ListEntry), 1 ≤ v.own → v.own ≤ 24 → 1 ≤ e.origin → e.origin ≤ 24 →
      let w := v.commitRecord e
      let entriesAre := fun (released : OwnRecord → SubmitEntry) => ∀ i, place w.su.entries .free i
        = (match place v.su.entries .free i with
          | .queued r => if r.seq = e.seq then released r else .queued r
          | x => x)
      (∀ o, o ≠ e.origin → w.entry o = v.entry o)
        ∧ (e.origin ≠ v.own →
            w.su = v.su
            ∧ (v.acceptance e.origin e.seq = none →
                w.entry e.origin = (v.entry e.origin).settle e.seq e.seq
                ∧ w.counter .orphaned = v.counter .orphaned
                ∧ ((v.sc.settings.map Settings.arrivalNotices).getD false = false → w.nu = v.nu)
                ∧ ((v.sc.settings.map Settings.arrivalNotices).getD false = true → v.storeRuns = true →
                    (∃ n, .arrived e.origin n ∈ w.nu.queue ∧ e.seq ≤ n) ∨ w.nu.overflow = true))
            ∧ (v.acceptance e.origin e.seq ≠ none →
                w = { v with ap := { v.ap with counters := w.ap.counters }, rp := { v.rp with rerunDue := true } }
                ∧ w.counter .orphaned = min 65535 (v.counter .orphaned + 1)))
        ∧ (e.origin = v.own →
            (e.seq ≤ v.ownTop →
              w.hu = v.hu ∧ w.counter .orphaned = min 65535 (v.counter .orphaned + 1) ∧ entriesAre fun _ => .free)
            ∧ (v.ownTop < e.seq →
                (v.entry v.own).commitOwn e.seq = some (w.entry v.own) ∧ w.ownTop = e.seq
                ∧ w.counter .orphaned = v.counter .orphaned
                ∧ entriesAre fun r => .sending r (segmentCount r.payload.length) 0)))
    ∧ ∀ (s : State) (c : ProgramClaim) (image : Image), s.fc.op = some (.program c) → c.target.valid = true →
        s.fc.array.image = some image → (s.sm.block c.target.block).state = .opened →
        1 ≤ s.own → s.own ≤ 24 →
        ∃ t, exec (.programDone .pass) s = .next t ∧ StationKept s t
          ∧ ArrayIs (s.fc.mem.programPage c.target (image.bytes c)) t
          ∧ t.fc.array = { state := .idle, image := none, target := none }
          ∧ t.sm.newestPage = some c.target
          ∧ (t.sm.block c.target.block).pages = c.target.page + 1
          ∧ (t.sm.block c.target.block).state = (if c.target.page = 47 then .sealed else .opened)
          ∧ (∀ e, e ∈ image.list → covers (t.sm.block c.target.block).summary e.origin e.seq = true)
          ∧ (∀ e, e ∈ image.list → e.origin = s.own → e.seq ≤ t.ownTop)
          ∧ s.ownTop ≤ t.ownTop ∧ s.hu.durable ≤ t.hu.durable
          ∧ (let u := (s.fcProgramPasses c).programPassed c.target image.list
            t.su = u.su ∧ t.counter .orphaned = u.counter .orphaned
            ∧ (∀ o n, (u.entry o).settled n = true → (t.entry o).floor ≤ n → (t.entry o).settled n = true)
            ∧ (t.sm.pressure = .normal →
                (∀ o, (t.entry o).floor = (u.entry o).floor) ∧ (s.station ≠ some .active → t.hu.entries = u.hu.entries)))
          ∧ (∀ i r, place s.su.entries .free i = .queued r →
              (r.seq ∉ listedOf s.own image.list → place t.su.entries .free i = .queued r)
              ∧ (r.seq ∈ listedOf s.own image.list → s.ownTop < r.seq → (listedOf s.own image.list).Pairwise (· < ·) →
                  place t.su.entries .free i = .sending r (segmentCount r.payload.length) 0))

/-- R9, R29, R153: a program that fails: the page is torn, the image kept, the failure counted, the block taken out of service with
its notice; nothing is committed. -/
def Obligations.ProgramFails : Prop :=
  ∀ (s : State) (c : ProgramClaim), s.fc.op = some (.program c) → c.target.valid = true →
    ∃ t bytes, exec (.programDone .fail) s = .next t ∧ StationKept s t
      ∧ bytes.length = 3168 ∧ looksWhole bytes = false
      ∧ ArrayIs (s.fc.mem.writeRange c.target.base bytes) t
      ∧ t.fc.array.image = s.fc.array.image
      ∧ min 65535 (s.counter .programFailures + 1) ≤ t.counter .programFailures
      ∧ ((t.sm.block c.target.block).state = .retiring ∨ (t.sm.block c.target.block).state = .retired .worn)
      ∧ (s.storeRuns = true → .blockRetired c.target.block .program ∈ t.nu.queue ∨ t.nu.overflow = true)
      ∧ t.su = s.su

/-- R10, R11, R15, R33, R34, R150, R161: a mark program and an erase of SM end: what the array holds, what the block becomes, and the
failures counted, in a command in which no re-drive is refused (R5). An erase that passes while CE is STALLED over a kept image, with
no other block OPEN or FREE, opens the erased block for the re-drive. After an erase that fails SM has claimed the mark program of 3Ch
into page 0 of the block, whose mark-program flag the erase had cleared (R11): the claim waits in the mark class, or its operation has
begun. -/
def Obligations.MarkAndEraseEnd : Prop :=
  ∀ (s : State) (b : Nat), b < 640 →
    (∀ v, s.fc.op = some (.mark b v) →
      (∃ t, exec (.markProgramDone .pass) s = .next t ∧ StationKept s t ∧ ArrayIs (s.fc.mem.markBlock b v) t
        ∧ t.fc.array.image = s.fc.array.image ∧ (NoRefusal s → t.sm.table = s.sm.table))
      ∧ ∃ t w, exec (.markProgramDone .fail) s = .next t ∧ StationKept s t
          ∧ v &&& w = v ∧ ArrayIs (s.fc.mem.markBlock b w) t ∧ t.fc.array.image = s.fc.array.image
          ∧ (NoRefusal s → t.sm.table = s.sm.table)
          ∧ min 65535 (s.counter .markFailures + 1) ≤ t.counter .markFailures)
    ∧ (s.fc.op = some (.erase b) →
        (∃ t, exec (.eraseDone .pass) s = .next t ∧ StationKept s t ∧ ArrayIs (s.fc.mem.erasePages b 0 48) t
          ∧ t.fc.array.image = s.fc.array.image
          ∧ (s.fc.array.image = none ∨ (NoRefusal s ∧ s.fc.programClaim.isSome) →
              (t.sm.block b).pages = 0 ∧ (t.sm.block b).summary = []
              ∧ ((t.sm.block b).state = .free ∨ (t.sm.block b).state = .opened))
          ∧ (s.fc.array.image.isSome → s.fc.programClaim = none → s.fc.array.state = .idle → s.storeRuns = true →
              (∀ a, a < 640 → (s.sm.block a).state ≠ .opened ∧ (s.sm.block a).state ≠ .free) →
              s.sm.stampHigh ≠ 4294967294 → s.fc.progFlag { block := b, page := 0 } = false →
              (s.sm.block b).state = .erasing →
              t.sm.block b = { state := .opened, stamp := some (s.sm.stampHigh + 1), pages := 0, summary := [] }
              ∧ t.sm.stampHigh = s.sm.stampHigh + 1 ∧ t.ce.state = .programming
              ∧ ∃ c : ProgramClaim, c.target = { block := b, page := 0 } ∧ c.stamp = s.sm.stampHigh + 1
                  ∧ (t.fc.programClaim = some c
                      ∨ (t.fc.op = some (.program c) ∧ t.fc.array.state = .programming
                          ∧ t.fc.array.target = some c.target ∧ t.fc.progFlag c.target = true))))
        ∧ ∃ t bytes, exec (.eraseDone .fail) s = .next t ∧ StationKept s t
            ∧ bytes.length = 47 * 3168
            ∧ ArrayIs ((s.fc.mem.erasePages b 0 1).writeRange (PageAddr.mk b 1).base bytes) t
            ∧ t.fc.array.image = s.fc.array.image
            ∧ t.counter .eraseFailures = min 65535 (s.counter .eraseFailures + 1)
            ∧ (s.storeRuns = true → .blockRetired b .erase ∈ t.nu.queue ∨ t.nu.overflow = true)
            ∧ (NoRefusal s → t.sm.block b = { state := .retired .worn, stamp := none, pages := 0, summary := [] })
            ∧ (s.fc.markFlag { block := b, page := 0 } = false →
                { block := b, value := 0x3C#8 } ∈ t.fc.markClaims
                  ∨ (t.fc.op = some (.mark b 0x3C#8) ∧ t.fc.markFlag { block := b, page := 0 } = true)))

/-- R26, R27, R33, R155 to R157: the level set anew from the FREE count, with STORE-FULL on entering TIGHT, STORE-OK on leaving it, and
a reclaim evaluation due on a change; and the two events that change the FREE count: a request for a target that opens the FREE block
next above the last-opened one, cyclically, where no block is OPEN, and an erase that passes. That an OPEN block is served also when
the stamps are used up is log 37 (DEDUCED). -/
def Obligations.PressureFollowsTheFreeCount : Prop :=
  let level := fun (free : Nat) => if 6 ≤ free then Pressure.normal else if 2 ≤ free then .low else .tight
  let levelSet := fun (s : State) (sm : Sm) (t : State) =>
    t.sm = { sm with pressure := level sm.freeCount,
                     reclaimDue := sm.reclaimDue || decide (level sm.freeCount ≠ s.sm.pressure) }
      ∧ (s.storeRuns = true → sm.freeCount < 2 → s.sm.pressure ≠ .tight →
          t.nu = s.nu.take s.noticeThreshold s.noticeDelay .storeFull)
      ∧ (s.storeRuns = true → 2 ≤ sm.freeCount → s.sm.pressure = .tight →
          t.nu = s.nu.take s.noticeThreshold s.noticeDelay .storeOk)
      ∧ (s.storeRuns = false ∨ (sm.freeCount < 2 ↔ s.sm.pressure = .tight) → t.nu = s.nu)
      ∧ t = { s with sm := t.sm, nu := t.nu }
  (∀ s : State, levelSet s s.sm s.setPressure)
    ∧ (∀ (s : State) (b : Nat), b < 640 → (s.sm.block b).state = .free →
        let sm := { s.sm.setBlock b { state := .opened, stamp := some (s.sm.stampHigh + 1), pages := 0, summary := [] } with
          stampHigh := s.sm.stampHigh + 1, lastOpened := b, reclaimDue := true }
        levelSet s sm (s.openFree b) ∧ sm.freeCount + 1 = s.sm.freeCount)
    ∧ (∀ (s : State) (b : Nat), b < 640 → (s.sm.block b).state = .erasing →
        let sm := { s.sm.setBlock b { state := .free, stamp := none, pages := 0, summary := [] } with reclaimDue := true }
        levelSet s sm (s.eraseApplied b) ∧ sm.freeCount = s.sm.freeCount + 1)
    ∧ ∀ s : State,
        let isOpen := fun b => b < 640 ∧ (s.sm.block b).state = .opened
        let isFree := fun b => b < 640 ∧ (s.sm.block b).state = .free
        (∀ b, isOpen b → (∀ a, isOpen a → a = b) → s.withOpenBlock = (s, some b))
          ∧ ((∀ b, ¬ isOpen b) → s.sm.stampHigh = 4294967294 ∨ (∀ b, ¬ isFree b) → s.withOpenBlock = (s, none))
          ∧ ((∀ b, ¬ isOpen b) → s.sm.stampHigh ≠ 4294967294 → ∀ b, isFree b →
              (s.sm.lastOpened < b ∧ (∀ a, isFree a → s.sm.lastOpened < a → b ≤ a))
                ∨ ((∀ a, isFree a → a ≤ s.sm.lastOpened) ∧ ∀ a, isFree a → b ≤ a) →
              s.withOpenBlock = (s.openFree b, some b))

/-- R5, R8, R11, R15 to R17, R38: the arbiter grants nothing while the array carries an operation or the store does not run; else the
waiting claim of the lowest class: CE's program (the transfer of a fresh image, the program of a kept one, or, its page's flag being
set, a refusal, after which CE makes its new claim and then the grant goes on, an order that is the model's choice: log 36, DESIGN
CHOICE), the fetch's read, the serve's, the oldest mark program (or its refusal), the erase, held back while a lookup stands in its
block. As many rounds as mark claims and one more are enough where no re-drive is refused, and a completed mark program is followed by
such a grant; which of a completion's own claims come before its grant is open (log 11, DESIGN CHOICE). R2, R10, R11: a page program
ANDs the image into its page, a mark program its value into one byte, an erase returns its pages to FFh; no other byte changes. -/
def Obligations.ArbiterGrantsAndArrayOperations : Prop :=
  (∀ (s : State) (n : Nat),
      let t := s.grantRounds (n + 1)
      (s.storeRuns = false ∨ s.fc.op.isSome → s.grantRounds n = s)
        ∧ (s.storeRuns = true → s.fc.op = none →
            (∀ c, s.fc.programClaim = some c →
              let taken : State := { s with fc := { s.fc with programClaim := none } }
              (s.fc.array.image = none → t = { s with fc := { s.fc with programClaim := none, op := some (.transfer c) } })
              ∧ (s.fc.array.image.isSome → s.fc.progFlag c.target = false →
                  t = { s with fc := { s.fc.setProgFlag c.target with
                    programClaim := none, op := some (.program c),
                    array := { s.fc.array with state := .programming, target := some c.target } } })
              ∧ (s.fc.array.image.isSome → s.fc.progFlag c.target = true →
                  t = ((taken.fcProgramFails).programFailed c.target).grantRounds n))
            ∧ (s.fc.programClaim = none →
                (∀ c, s.fc.fetchClaim = some c →
                  t = { s with
                    fc := { s.fc with fetchClaim := none, op := some (.lookupRead .fetch c.kind c.page) },
                    sm := { s.sm with fetchLookup := s.sm.fetchLookup.map fun l => { l with step := .running } } })
                ∧ (s.fc.fetchClaim = none →
                    (∀ c, s.fc.serveClaim = some c →
                      t = { s with
                        fc := { s.fc with serveClaim := none, op := some (.lookupRead .serve c.kind c.page) },
                        sm := { s.sm with serveLookup := s.sm.serveLookup.map fun l => { l with step := .running } } })
                    ∧ (s.fc.serveClaim = none →
                        (∀ m rest, s.fc.markClaims = m :: rest →
                          let page : PageAddr := { block := m.block, page := 0 }
                          let left : State := { s with fc := { s.fc with markClaims := rest } }
                          (s.fc.markFlag page = false →
                            t = { s with fc := { s.fc.setMarkFlag page with
                              markClaims := rest, op := some (.mark m.block m.value) } })
                          ∧ (s.fc.markFlag page = true → t = (left.bump .markFailures).grantRounds n))
                        ∧ (s.fc.markClaims = [] →
                            (∀ b, s.fc.eraseClaim = some b →
                              let stands := ∃ who l, s.sm.lookup who = some l ∧ l.block = some b
                              (stands → t = s)
                              ∧ (¬ stands →
                                  t = { s with fc := { s.fc.clearFlags b with
                                    eraseClaim := none, mem := s.fc.mem.erasePages b 0 1, op := some (.erase b) } }))
                            ∧ (s.fc.eraseClaim = none → t = s))))))
        ∧ (NoRefusal s → s.fc.markClaims.length < n → s.grantRounds n = s.grant))
    ∧ (∀ (s : State) (b : Nat) (v : Byte) (o : FlashOutcome), s.fc.op = some (.mark b v) → b < 640 →
        ∃ t, exec (.markProgramDone o) s = .next t ∧ t.fc = ((s.fcMarkDone b v o).grant).fc)
    ∧ ∀ (m : Memory), m.wf = true →
        (∀ (p : PageAddr) (image : List Byte) (a : Nat), p.valid = true → image.length = 3168 →
          (m.programPage p image).read a
            = if p.base ≤ a ∧ a < p.base + 3168 then m.read a &&& image.getD (a - p.base) 0xFF#8 else m.read a)
        ∧ (∀ (b a : Nat) (v : Byte), b < 640 →
            (m.markBlock b v).read a
              = if a = (PageAddr.mk b 0).spareBase then m.read a &&& v else m.read a)
        ∧ ∀ (b first count a : Nat),
            (m.erasePages b first count).read a
              = if (PageAddr.mk b first).base ≤ a ∧ a < (PageAddr.mk b first).base + count * 3168 then 0xFF#8 else m.read a

/-- R20 to R22, R36, R37, R46, R212, R213: a page image with a placed record among its records: its parts have their sizes, the spare
area gives back what was written, and the record is read back good at its offset. -/
def Obligations.PlacedRecordReadsBack : Prop :=
  ∀ (f : FillReg) (r : PathRecord) (tail : List Byte) (list : List ListEntry) (stamp ownTop : Nat),
    1 ≤ r.origin → r.origin ≤ 24 → r.seq < 2 ^ 32 → 1 ≤ r.payload.length → r.payload.length ≤ 1920 →
    r.check = crc32 r.payload → f.data.length + recordSpan r.payload.length + tail.length ≤ 3072 →
    list.length ≤ 8 → (∀ e, e ∈ list → e.origin < 256 ∧ e.seq < 2 ^ 32 ∧ e.offset < 2 ^ 16) →
    stamp < 2 ^ 32 → ownTop < 2 ^ 32 →
    let data := paddedData ((f.put r).data ++ tail)
    let spare := spareArea list stamp ownTop (crc32 data)
    data.length = 3072 ∧ spare.length = 96
      ∧ spareMark spare = 0xFF#8 ∧ spareList spare = list ∧ spareStamp spare = stamp ∧ spareOwnTop spare = ownTop
      ∧ sparePageCheck spare = crc32 data
      ∧ verifyCopy r.origin r.seq f.data.length data spare = some r.payload

/-- R6, R7, R14, R35 to R39, R180, R203: a lookup's spare read and page read end. The read register holds what was read. In a command in
which no re-drive is refused (R5; one granted first could move the floors and the blocks): the next step, claimed or begun (the page
read of a listed page, the spare read of a page below or of the next candidate's highest page), FOUND at its requester, a damaged copy
or an unlisted page passed over to the page below or, at page 0, to the next candidate, and with none left the end, DAMAGED or
NOT-FOUND; a lookup that is leaving its block discards the read and chooses anew, before the erase of that block is granted (R38). -/
def Obligations.LookupReadsEnd : Prop :=
  ∀ (s : State) (who : Requester) (p : PageAddr), p.valid = true →
    let spare := s.fc.mem.spareOf p
    let data := s.fc.mem.dataOf p
    let claim := fun (u : State) =>
      match who with
      | .fetch => u.fc.fetchClaim
      | .serve => u.fc.serveClaim
    let goesOn := fun (t : State) (kind : ReadKind) (page : PageAddr) (next : Lookup) =>
      (t.sm.lookup who = some { next with step := .waiting } ∧ claim t = some { kind := kind, page := page })
        ∨ (t.sm.lookup who = some { next with step := .running } ∧ t.fc.op = some (.lookupRead who kind page) ∧ claim t = none)
    let ends := fun (t : State) => t.sm.lookup who = none ∧ (claim s = none → claim t = none)
    let stands := fun (t : State) (l : Lookup) (kind : ReadKind) (page offset : Nat) (damaged : Bool) =>
      goesOn t kind { block := p.block, page := page }
        { l with block := some p.block, page := page, offset := offset, damaged := damaged }
    let notHeld := fun (t : State) (l : Lookup) => t.rp.notHeld = some { number := l.seq, older := s.rp.busy.length }
    let choosesAnew := fun (t : State) (l : Lookup) (damaged : Bool) =>
      (∀ st b, s.sm.candidate l.origin l.seq l.bound = some (st, b) →
        let page := (s.sm.block b).pages - 1
        goesOn t .spare { block := b, page := page }
          { l with block := some b, page := page, bound := some (st, b), damaged := damaged })
      ∧ (s.sm.candidate l.origin l.seq l.bound = none →
          ends t
          ∧ (who = .fetch → t.ap.fetch = .done l.origin l.seq
              (if (s.entry l.origin).settled l.seq = false then .notHeld else if damaged = true then .damaged else .lost))
          ∧ (who = .serve → notHeld t l
              ∧ t.counter .damagedReads
                  = if damaged = true then min 65535 (s.counter .damagedReads + 1) else s.counter .damagedReads))
    let leaves := fun (t : State) (l : Lookup) =>
      choosesAnew t l l.damaged
        ∧ ∀ b, l.block = some b → (s.sm.candidate l.origin l.seq l.bound).isSome → t.fc.op ≠ some (.erase b)
    (s.fc.op = some (.lookupRead who .spare p) →
      ∃ t, exec .lookupSpareReadDone s = .next t ∧ StationKept s t ∧ ArrayKept s t
        ∧ t.fc.read = { page := some p, spare := some spare, data := none }
        ∧ ∀ l, s.sm.lookup who = some l →
            let entry := (spareList spare).find? (fun e => e.origin == l.origin && e.seq == l.seq)
            (NoRefusal s → l.step = .leaving → claim s = none → leaves t l)
            ∧ (NoRefusal s → l.step = .running →
                (∀ e, spareReadable spare = true → entry = some e → stands t l .page p.page e.offset l.damaged)
                ∧ (spareReadable spare = false ∨ entry = none →
                    (1 ≤ p.page → stands t l .spare (p.page - 1) l.offset l.damaged)
                    ∧ (p.page = 0 → choosesAnew t l l.damaged))))
    ∧ (s.fc.op = some (.lookupRead who .page p) →
        ∃ t, exec .lookupPageReadDone s = .next t ∧ StationKept s t ∧ ArrayKept s t
          ∧ t.fc.read = { page := some p, spare := some spare, data := some data }
          ∧ ∀ l, s.sm.lookup who = some l →
              let settled := (s.entry l.origin).settled l.seq
              (NoRefusal s → l.step = .leaving → claim s = none → leaves t l)
              ∧ (NoRefusal s → l.step = .running →
                  (∀ payload, verifyCopy l.origin l.seq l.offset data spare = some payload →
                    ends t
                    ∧ (who = .fetch → t.ap.fetch = .done l.origin l.seq (if settled = true then .ok payload else .notHeld))
                    ∧ (who = .serve → settled = true →
                        t.rp.buffer = some { origin := l.origin, seq := l.seq, check := crc32 payload, payload := payload,
                                             next := 0 })
                    ∧ (who = .serve → settled = false → notHeld t l))
                  ∧ (verifyCopy l.origin l.seq l.offset data spare = none →
                      (1 ≤ p.page → stands t l .spare (p.page - 1) l.offset true)
                      ∧ (p.page = 0 → choosesAnew t l true))))

/-- R35, R157 to R159: the candidate of a lookup is the highest block, by stamp and then by number, among those that are OPEN, SEALED
or RETIRING, cover the number and stand below the bound; the block a reclaim evaluation selects: the level is LOW or TIGHT, no block
is ERASING, it is the SEALED or RETIRING block with the lowest stamp and then number, its own records lie at or below D, and it does
not hold the newest page. R32, R38, R160: what the selection of a block does: the floor raises of its summary; the block ERASING with
its erase claimed, or from RETIRING RETIRED(WORN) with the mark program of 3Ch claimed, and no notice but of a risen D; a lookup whose
step in the block waits is withdrawn and chooses anew, one whose read is in flight leaves the block when the read ends, and any other
stays. An evaluation that is due selects until it finds no block; 641 rounds are enough (log 25). That a due evaluation is noted and
made once, after the other effects, is the model's choice (log 13). -/
def Obligations.BlocksAreChosenAndReclaimed : Prop :=
  (∀ (sm : Sm) (o n : Nat) (bound : Option (Nat × Nat)),
      let stampOf := fun b => (sm.block b).stamp.getD 0
      let fits := fun b => b < 640
        ∧ ((sm.block b).state = .opened ∨ (sm.block b).state = .sealed ∨ (sm.block b).state = .retiring)
        ∧ covers (sm.block b).summary o n = true
        ∧ ∀ st bb, bound = some (st, bb) → stampOf b < st ∨ (stampOf b = st ∧ b < bb)
      (∀ st b, sm.candidate o n bound = some (st, b) →
        fits b ∧ st = stampOf b ∧ ∀ b', fits b' → stampOf b' < st ∨ (stampOf b' = st ∧ b' ≤ b))
      ∧ (sm.candidate o n bound = none → ∀ b, ¬ fits b))
    ∧ (∀ (s : State) (b : Nat),
        let stampOf := fun b => (s.sm.block b).stamp.getD 0
        let old := fun b => b < 640 ∧ ((s.sm.block b).state = .sealed ∨ (s.sm.block b).state = .retiring)
        s.selection = some b ↔
          (s.sm.pressure ≠ .normal ∧ (∀ b', b' < 640 → (s.sm.block b').state ≠ .erasing)
            ∧ old b ∧ (∀ b', old b' → stampOf b < stampOf b' ∨ (stampOf b = stampOf b' ∧ b ≤ b'))
            ∧ (∀ l, l ∈ (s.sm.block b).summary → l.origin = s.own → l.highest ≤ s.hu.durable)
            ∧ ∀ p, s.sm.newestPage = some p → p.block ≠ b))
    ∧ (∀ (s : State) (b : Nat), b < 640 → (s.sm.block b).state = .sealed ∨ (s.sm.block b).state = .retiring →
        let e := s.sm.block b
        let t := s.select b
        let claim := fun (u : State) (who : Requester) =>
          match who with
          | .fetch => u.fc.fetchClaim
          | .serve => u.fc.serveClaim
        (e.state = .sealed → t.sm.block b = { e with state := .erasing } ∧ t.fc.eraseClaim = some b
            ∧ t.fc.markClaims = s.fc.markClaims)
          ∧ (e.state = .retiring →
              t.sm.block b = { state := .retired .worn, stamp := none, pages := 0, summary := [] }
              ∧ t.fc.markClaims = s.fc.markClaims ++ [{ block := b, value := 0x3C#8 }] ∧ t.fc.eraseClaim = s.fc.eraseClaim)
          ∧ (∀ a, a ≠ b → t.sm.block a = s.sm.block a)
          ∧ (∀ o, s.originLimit < o ∨ (∀ l, l ∈ e.summary → l.origin ≠ o) → t.entry o = s.entry o)
          ∧ (e.summary.Pairwise (fun l m => l.origin < m.origin) →
              ∀ l, l ∈ e.summary → 1 ≤ l.origin → l.origin ≤ 24 → l.origin ≤ s.originLimit →
                t.entry l.origin = (s.entry l.origin).raiseFloor (l.highest + 1))
          ∧ (∀ x, x ∈ t.nu.queue → x ∈ s.nu.queue ∨ ∃ d, x = .durable d)
          ∧ (∀ who, (∀ l, s.sm.lookup who = some l → l.block ≠ some b ∨ l.step = .leaving) →
              t.sm.lookup who = s.sm.lookup who ∧ claim t who = claim s who)
          ∧ (∀ who l, s.sm.lookup who = some l → l.block = some b →
              (l.step = .running → t.sm.lookup who = some { l with step := .leaving } ∧ claim t who = claim s who)
              ∧ (l.step = .waiting →
                  (∀ st a, t.sm.candidate l.origin l.seq l.bound = some (st, a) →
                    let page := (t.sm.block a).pages - 1
                    t.sm.lookup who
                        = some { l with block := some a, page := page, bound := some (st, a), step := .waiting }
                      ∧ claim t who = some { kind := .spare, page := { block := a, page := page } })
                  ∧ (t.sm.candidate l.origin l.seq l.bound = none →
                      t.sm.lookup who = none ∧ claim t who = none
                      ∧ (who = .fetch → t.ap.fetch = .done l.origin l.seq
                          (if (t.entry l.origin).settled l.seq = false then .notHeld
                           else if l.damaged = true then .damaged else .lost))
                      ∧ (who = .serve → t.rp.notHeld = some { number := l.seq, older := s.rp.busy.length }
                          ∧ t.counter .damagedReads
                            = if l.damaged = true then min 65535 (s.counter .damagedReads + 1)
                              else s.counter .damagedReads))))
          ∧ t = { s with
              sm := { s.sm with table := t.sm.table, fetchLookup := t.sm.fetchLookup, serveLookup := t.sm.serveLookup,
                                reclaimDue := true },
              hu := { s.hu with entries := t.hu.entries, reportPending := t.hu.reportPending, durable := t.hu.durable },
              fc := { s.fc with programClaim := t.fc.programClaim, fetchClaim := t.fc.fetchClaim,
                                serveClaim := t.fc.serveClaim, markClaims := t.fc.markClaims, eraseClaim := t.fc.eraseClaim },
              rp := { s.rp with notHeld := t.rp.notHeld, rerunDue := t.rp.rerunDue },
              nu := t.nu,
              ap := { s.ap with fetch := t.ap.fetch, counters := t.ap.counters } })
    ∧ (∀ (s : State) (n : Nat),
        (s.selection = none → s.reclaimRounds n = s)
        ∧ (∀ b, s.selection = some b → s.reclaimRounds (n + 1) = (s.select b).reclaimRounds n)
        ∧ (641 ≤ n → s.reclaimRounds n = s.reclaimRounds 641))
    ∧ ∀ s : State,
        let u := s.reclaimRounds 641
        (s.sm.reclaimDue = false → s.evaluateReclaim = s)
        ∧ (s.sm.reclaimDue = true → s.storeRuns = true →
            s.evaluateReclaim = { u with sm := { u.sm with reclaimDue := false } })
        ∧ (s.sm.reclaimDue = true → s.storeRuns = false →
            s.evaluateReclaim = { s with sm := { s.sm with reclaimDue := false } })

/-! ## Repair (chapter 9) -/

/-- R165: the missing runs of a peer origin hold exactly the missing numbers, and each is maximal. -/
def Obligations.MissingSet : Prop :=
  ∀ (s : State) (o : Nat), 1 ≤ o → o ≤ s.groupSize → o ≠ s.own → entryOk (s.entry o) = true →
    let e := s.entry o
    let rows := s.peers.filterMap fun p => (s.cell p o).map Pair.frontier
    let missing := fun n => e.floor ≤ n
      ∧ (e.inGap n = true ∨ (e.top < n ∧ ∃ c, c ∈ rows ∧ n ≤ c)) ∧ s.isPending o n = false
    (∀ n, missing n ↔ ∃ r, r ∈ s.missingRuns o ∧ r.lo ≤ n ∧ n ≤ r.hi)
      ∧ (∀ r, r ∈ s.missingRuns o → r.lo ≤ r.hi ∧ ¬ missing (r.hi + 1) ∧ ∀ n, n + 1 = r.lo → ¬ missing n)
      ∧ s.missingRuns s.own = []

/-- R90, R166 to R171: an evaluation of ask entry `a` in place `i` from number `u`, one round of it and its end. With nothing missing
from `u` on the entry is removed. Else, for the lowest missing number `q` with the end `e` of its run: the responder is the origin where
it is a candidate, else the first candidate after the own number cyclically, and the entry is ASKED of it for up to 8 numbers of the run
that its row covers; with no candidate but an unskipped row that covers `q` it is WAITING; with none the run is abandoned up to `b`, and
the evaluation goes on behind it, or, where the abandonment is declined, the entry is WAITING. Then the advance of an ASKED entry, the
removal, the creation pass, and the re-run of a command in ACTIVE. More rounds than there are missing runs change nothing (log 25). Two
points are the model's choice: that an evaluation from a `u` inside a missing run takes the rest of that run from `u` on (log 24,
DEDUCED), and that a command makes one re-run, noted by `rerunDue` and made at its end (log 14, DESIGN CHOICE). -/
def Obligations.AskEntryEvaluated : Prop :=
  (∀ (s : State) (i u k : Nat) (a : AskEntry), i < 4 → 1 ≤ a.origin → a.origin ≤ s.groupSize → a.origin ≠ s.own →
      1 ≤ s.own → s.own ≤ s.groupSize → s.groupSize ≤ 24 → entryOk (s.entry a.origin) = true →
      let o := a.origin
      let t := s.evaluateAskRounds (k + 1) i a u
      let missing := fun n => ∃ r, r ∈ s.missingRuns o ∧ r.lo ≤ n ∧ n ≤ r.hi
      let put := fun (x : Option AskEntry) (y : State) => y.ask i = x ∧ ∀ j, j ≠ i → y.ask j = s.ask j
      let unskipped := fun p n => 1 ≤ p ∧ p ≤ s.groupSize ∧ p ≠ s.own ∧ p ∉ a.skip
        ∧ ∃ c, s.cell p o = some c ∧ c.floor ≤ n ∧ n ≤ c.frontier
      let candidate := fun p n => unskipped p n ∧ s.presenceOf p = .present
      ((∀ n, u ≤ n → ¬ missing n) →
        put none t ∧ t = { s with rp := { s.rp with asks := t.rp.asks, rerunDue := true,
                                                    rotation := if o = s.groupSize then 1 else o + 1 } })
      ∧ (∀ q e, u ≤ q → (∀ n, u ≤ n → n < q → ¬ missing n) → q ≤ e → (∀ n, q ≤ n → n ≤ e → missing n) →
          ¬ missing (e + 1) →
          (∀ p c, s.cell p o = some c → candidate p q →
            p = o ∨ (¬ candidate o q ∧ ∀ p', candidate p' q →
              (p + s.groupSize - s.own - 1) % s.groupSize ≤ (p' + s.groupSize - s.own - 1) % s.groupSize) →
            put (some { a with first := q, count := min 8 (min (e + 1 - q) (c.frontier + 1 - q)), tries := 0,
                               state := .asked p true false }) t
              ∧ t = { s with rp := { s.rp with asks := t.rp.asks } })
          ∧ ((∀ p, ¬ candidate p q) →
              let waits := put (some { a with first := q, count := min 8 (e + 1 - q), tries := 0, state := .waiting }) t
                ∧ t = { s with rp := { s.rp with asks := t.rp.asks } }
              ((∃ p, unskipped p q) → waits)
              ∧ ((∀ p, ¬ unskipped p q) → ∀ b, q ≤ b → b ≤ e → (∀ p n, q < n → n ≤ b → ¬ unskipped p n) →
                  b = e ∨ (∃ p, unskipped p (b + 1)) →
                  (s.abandon o q b = none → waits)
                  ∧ ∀ s', s.abandon o q b = some s' → t = s'.evaluateAskRounds k i a (b + 1))))
      ∧ ((s.missingRuns o).length < k → s.evaluateAskRounds k i a u = s.evaluateAsk i a u))
    ∧ (∀ (s : State) (i : Nat) (a : AskEntry), i < 4 → 1 ≤ a.origin → a.origin ≤ s.groupSize → a.origin ≠ s.own →
        entryOk (s.entry a.origin) = true →
        let last := a.first + a.count - 1
        let missing := fun n => ∃ r, r ∈ s.missingRuns a.origin ∧ r.lo ≤ n ∧ n ≤ r.hi
        (∀ q, a.first ≤ q → q ≤ last → missing q → (∀ n, a.first ≤ n → n < q → ¬ missing n) →
          s.advanceAsk i a = s.putAsk i (some { a with first := q, count := last + 1 - q }))
        ∧ ((∀ n, a.first ≤ n → n ≤ last → ¬ missing n) → s.advanceAsk i a = s.removeAsk i a.origin))
    ∧ (∀ (s : State) (o : Nat),
        let fresh : AskEntry := { origin := o, first := 0, count := 0, tries := 0, skip := [], state := .waiting }
        let listed := ∃ i a, i < 4 ∧ s.ask i = some a ∧ a.origin = o
        ((∀ i, i < 4 → s.ask i ≠ none) ∨ o = s.own ∨ s.missingRuns o = [] ∨ listed → s.createAt o = s)
        ∧ (o ≠ s.own → s.missingRuns o ≠ [] → ¬ listed →
            ∀ i, i < 4 → s.ask i = none → (∀ j, j < i → s.ask j ≠ none) →
              s.createAt o = s.evaluateAsk i fresh (s.entry o).floor))
    ∧ (∀ (s : State) (i : Nat),
        (s.ask i = none → s.rerunPlace i = s)
        ∧ ∀ a, s.ask i = some a →
            (a.state = .waiting → s.rerunPlace i = s.evaluateAsk i a (s.entry a.origin).floor)
            ∧ (∀ p due timer, a.state = .asked p due timer → s.rerunPlace i = s.advanceAsk i a))
    ∧ ∀ s : State,
        let places := (((s.rerunPlace 0).rerunPlace 1).rerunPlace 2).rerunPlace 3
        let origins := (List.range s.groupSize).map fun k => (places.rp.rotation - 1 + k) % s.groupSize + 1
        let u := origins.foldl State.createAt places
        (s.rp.rerunDue = false → s.settleRepair = s)
        ∧ (s.rp.rerunDue = true → s.station = some .active →
            s.settleRepair = { u with rp := { u.rp with rerunDue := false } })
        ∧ (s.rp.rerunDue = true → s.station ≠ some .active →
            s.settleRepair = { s with rp := { s.rp with rerunDue := false } })

/-- R177 to R179, Table 9-5: what RP does with the body of an ASK, test by test. A job that becomes the head has its first number
tested at once: settled, and with a block that may hold it, it is looked up, the lookup's first step claimed; else NOT-HELD is due. A
job behind others changes the queue alone. R175, R211: what it does with the body of a REFUSE: one for another station is nothing, a
reason that is neither of the two is a bad burst; any other is counted, and a NOT-HELD of the responder that its entry is ASKED of
passes that responder over and evaluates the entry from the refused number, kept within the entry's range (AskEntryEvaluated says what
that gives). R171, R174: a SEG heard, a resend or not, leaves an ask timer that runs running (what a restart gives it is time, which
the model leaves out: log 1), and the entry advanced past what is no longer missing, by the one re-run of the command (log 14, DESIGN
CHOICE). -/
def Obligations.AskAndRefuseTaken : Prop :=
  (∀ (s : State) (asker target : Nat) (body : List Byte),
      let a := askOf body
      let last := a.first + a.count - 1
      let t := s.takeAsk asker target body
      let malformed := a.origin = 0 ∨ s.groupSize < a.origin ∨ a.count = 0 ∨ 8 < a.count ∨ a.first = 0 ∨ 4294967295 < last
      let overlaps := ∃ j, j ∈ s.rp.jobs ∧ j.asker = asker ∧ j.origin = a.origin ∧ j.next ≤ last
        ∧ a.first ≤ j.first + j.count - 1
      (target ≠ s.own → t = s)
        ∧ (target = s.own → malformed → t = s.bump .badBursts)
        ∧ (target = s.own → ¬ malformed → overlaps → t = s)
        ∧ (target = s.own → ¬ malformed → ¬ overlaps → 4 ≤ s.rp.jobs.length →
            let r : BusyRefusal := { asker := asker, origin := a.origin, number := a.first }
            (s.rp.busy.length < 4 ∧ r ∉ s.rp.busy → t = { s with rp := { s.rp with busy := s.rp.busy ++ [r] } })
            ∧ (4 ≤ s.rp.busy.length ∨ r ∈ s.rp.busy → t = s))
        ∧ (target = s.own → ¬ malformed → ¬ overlaps → s.rp.jobs.length < 4 →
            let job : ServeJob := { asker := asker, origin := a.origin, first := a.first, count := a.count, next := a.first }
            (s.rp.jobs ≠ [] → t = { s with rp := { s.rp with jobs := s.rp.jobs ++ [job] } })
            ∧ (s.rp.jobs = [] →
                HeadTested s t [job]
                ∧ t = { s with rp := { s.rp with jobs := [job], notHeld := t.rp.notHeld },
                               sm := { s.sm with serveLookup := t.sm.serveLookup },
                               fc := { s.fc with serveClaim := t.fc.serveClaim } }
                ∧ ((s.entry a.origin).settled a.first = false →
                    t.sm.serveLookup = s.sm.serveLookup ∧ t.fc.serveClaim = s.fc.serveClaim)
                ∧ ((s.entry a.origin).settled a.first = true →
                    (∀ st b, s.sm.candidate a.origin a.first none = some (st, b) →
                      t.rp.notHeld = s.rp.notHeld
                      ∧ t.fc.serveClaim
                        = some { kind := .spare, page := { block := b, page := (s.sm.block b).pages - 1 } })
                    ∧ (s.sm.candidate a.origin a.first none = none →
                        t.sm.serveLookup = none ∧ t.fc.serveClaim = s.fc.serveClaim)))))
    ∧ (∀ (s : State) (sender target : Nat) (body : List Byte),
        let r := refuseOf body
        let t := s.takeRefuse sender target body
        let concerns := fun (i : Nat) (a : AskEntry) =>
          s.askPlace r.origin = some i ∧ s.ask i = some a ∧ ∃ due timer, a.state = .asked sender due timer
        (target ≠ s.own → t = s)
          ∧ (target = s.own → r.reason = none → t = s.bump .badBursts)
          ∧ (target = s.own → r.reason = some .busy → t = s.bump .refusalsReceived)
          ∧ (target = s.own → r.reason = some .notHeld →
              ((∀ i a, ¬ concerns i a) → t = s.bump .refusalsReceived)
              ∧ ∀ i a, concerns i a →
                  t = (s.bump .refusalsReceived).evaluateAsk i { a with skip := a.skip ++ [sender], tries := 0 }
                    (min (max a.first r.number) (a.first + a.count - 1))))
    ∧ ∀ (s : State) (p : CarrierPeriod) (b : Burst) (i responder : Nat) (a : AskEntry), s.station = some .active → Calm s →
        s.lc.state = .hearing ∨ (s.lc.state = .seeking ∧ s.lc.tracked = .fromStart) →
        classify s.own s.groupSize p = .good b → b.kind = .seg → s.groupSize ≤ 24 → i < 4 →
        s.ask i = some a → a.state = .asked responder false true →
        (∀ j, j ≠ i → ∀ x, s.ask j = some x → x.origin ≠ a.origin) →
        1 ≤ a.origin → a.origin ≤ s.groupSize → a.origin ≠ s.own → entryOk (s.entry a.origin) = true →
        let last := a.first + a.count - 1
        let missing := fun (u : State) (n : Nat) => ∃ r, r ∈ u.missingRuns a.origin ∧ r.lo ≤ n ∧ n ≤ r.hi
        missing s a.first →
        ∃ t, exec (.carrierEnd p) s = .next t
          ∧ ∀ q, a.first ≤ q → q ≤ last → missing t q → (∀ n, a.first ≤ n → n < q → ¬ missing t n) →
              t.ask i = some { a with first := q, count := last + 1 - q, state := .asked responder false true }

/-! ## Notices (chapter 10) -/

/-- R188, R190, R191, R193: a notice handed to NU coalesces with its partner, joins the tail, or is dropped with the overflow flag set;
the queue never passes 32 notices, and never holds two of one coalescing class. -/
def Obligations.NoticeTaken : Prop :=
  ∀ (nu : Nu) (threshold delay : Nat) (n : Notice),
    let t := nu.take threshold delay n
    ((∃ x, x ∈ nu.queue ∧ n.partner x = true) →
      ∃ before x after, nu.queue = before ++ x :: after ∧ n.partner x = true
        ∧ t.queue = before ++ n.merge x :: after ∧ t.overflow = nu.overflow ∧ t.delayTimer = nu.delayTimer)
    ∧ ((∀ x, x ∈ nu.queue → n.partner x = false) → nu.queue.length < 32 →
        t.queue = nu.queue ++ [n] ∧ t.overflow = nu.overflow
        ∧ t.delayTimer = (if nu.queue ≠ [] then nu.delayTimer else if delay = 0 then .expired else .running))
    ∧ ((∀ x, x ∈ nu.queue → n.partner x = false) → 32 ≤ nu.queue.length →
        t.queue = nu.queue ∧ t.overflow = true ∧ t.delayTimer = nu.delayTimer)
    ∧ (nu.queue.length ≤ 32 → t.queue.length ≤ 32)
    ∧ (nu.queue.Pairwise (fun x y => x.partner y = false) → t.queue.Pairwise (fun x y => x.partner y = false))

/-! ## The attach port (chapter 11) -/

/-- R192, R193, R206, R215: NOTICES of maximum `m`. R215 states no code for the overflow flag: its byte 01h or 00h is the model's
choice (log 15, DEDUCED). -/
def Obligations.NoticesRead : Prop :=
  ∀ (s : State) (m : Nat), s.storeRuns = true → 1 ≤ m → m ≤ 32 →
    let rest := frame [BitVec.ofNat 8 m]
    let taken := s.nu.queue.take m
    ∃ t, exec (.notices rest) s = .next t
      ∧ t.nu.queue = s.nu.queue.drop m ∧ t.nu.overflow = false
      ∧ t.nu.delayTimer = (if s.nu.queue.length ≤ m then .stopped
                            else if s.noticeDelay = 0 then .expired else .running)
      ∧ AttnOk t
      ∧ { t with nu := s.nu }
          = Answered s rest .ok (toBytes 1 taken.length ++ [if s.nu.overflow then 0x01#8 else 0x00#8]
              ++ taken.flatMap noticeBytes)

/-- R196, R198 test 1, R214, Table 12-7: the bytes of a transaction, whole bytes most significant bit first with fewer than eight bits
after them discarded, spell the command that their first byte picks, which then waits its turn; no whole byte spells none. R198 tests 1
to 3, R199, Table 11-4: the frames refused before they reach an owner, each with no other effect than its answer. -/
def Obligations.TransactionsSpelledAndRefused : Prop :=
  (∀ (s : State) (bytes : List Byte) (stray : List Bool), stray.length < 8 →
      let bits := (bytes.flatMap fun b => (List.range 8).map fun i => b.getLsbD (7 - i)) ++ stray
      (bytes = [] → transactionOf bits = none ∧ s.chipSelectRises bits = s)
      ∧ ∀ id rest, bytes = id :: rest →
          s.chipSelectRises bits = { s with pending := s.pending ++ [commandOf id rest] }
          ∧ transactionOf bits = some (commandOf id rest)
          ∧ (id = 0x80#8 → commandOf id rest = .responseRead rest.length)
          ∧ (id = 0x01#8 → commandOf id rest = .status rest) ∧ (id = 0x02#8 → commandOf id rest = .configure rest)
          ∧ (id = 0x03#8 → commandOf id rest = .submit rest) ∧ (id = 0x04#8 → commandOf id rest = .fetch rest)
          ∧ (id = 0x05#8 → commandOf id rest = .fetchResult rest) ∧ (id = 0x06#8 → commandOf id rest = .holdings rest)
          ∧ (id = 0x07#8 → commandOf id rest = .notices rest) ∧ (id = 0x08#8 → commandOf id rest = .counters rest)
          ∧ (id = 0x09#8 → commandOf id rest = .restart rest)
          ∧ (id.toNat = 0 ∨ (9 < id.toNat ∧ id.toNat ≠ 128) → commandOf id rest = .unknownCommand id rest))
    ∧ ∀ (s : State) (st : StationState), s.station = some st →
        (∀ id rest, knownIdentifiers.contains id = false →
          exec (.unknownCommand id rest) s = .next (Answered s rest .unknownCommand []))
        ∧ (∀ rest, rest.length < 2 ∨ rest.length ≠ 2 + field rest 0 2 →
            ∀ c, c ∈ [Instr.status rest, .configure rest, .submit rest, .fetch rest, .fetchResult rest, .holdings rest,
                .notices rest, .counters rest, .restart rest] →
              exec c s = .next (Answered s rest .badFrame []))
        ∧ (∀ params : List Byte, params.length < 2 ^ 16 →
            (params.length ≠ 0 → ∀ c, c ∈ [Instr.status (frame params), .fetchResult (frame params), .restart (frame params)] →
              exec c s = .next (Answered s (frame params) .badFrame []))
            ∧ (params.length ≠ 10 →
                exec (.configure (frame params)) s = .next (Answered s (frame params) .badFrame []))
            ∧ (params.length ≠ 5 →
                exec (.fetch (frame params)) s = .next (Answered s (frame params) .badFrame []))
            ∧ (params.length ≠ 1 → ∀ c, c ∈ [Instr.holdings (frame params), .notices (frame params), .counters (frame params)] →
                exec c s = .next (Answered s (frame params) .badFrame []))
            ∧ (params = [0x00#8] ∨ (∃ b, params = [b] ∧ 32 < b.toNat) →
                exec (.notices (frame params)) s = .next (Answered s (frame params) .badFrame []))
            ∧ ((∃ b, params = [b] ∧ 1 < b.toNat) →
                exec (.counters (frame params)) s = .next (Answered s (frame params) .badFrame []))
            ∧ (params.length = 10 →
                (st = .scanning ∨ st = .halted →
                  exec (.configure (frame params)) s = .next (Answered s (frame params) .notReady []))
                ∧ (st = .joining ∨ st = .active →
                  exec (.configure (frame params)) s = .next (Answered s (frame params) .refusedState [])))
            ∧ (st = .scanning ∨ st = .halted →
                exec (.submit (frame params)) s = .next (Answered s (frame params) .notReady [])
                ∧ (params.length = 5 →
                    exec (.fetch (frame params)) s = .next (Answered s (frame params) .notReady []))
                ∧ (params = [] →
                    exec (.fetchResult (frame params)) s = .next (Answered s (frame params) .notReady []))
                ∧ (params.length = 1 →
                    exec (.holdings (frame params)) s = .next (Answered s (frame params) .notReady []))
                ∧ ((∃ b, params = [b] ∧ 1 ≤ b.toNat ∧ b.toNat ≤ 32) →
                    exec (.notices (frame params)) s = .next (Answered s (frame params) .notReady [])))
            ∧ (st = .scanning → (params = [0x00#8] ∨ params = [0x01#8]) →
                exec (.counters (frame params)) s = .next (Answered s (frame params) .notReady [])))

/-- R198 test 4, R200, R205, R207, R215: STATUS in every station state, HOLDINGS and COUNTERS where they are taken: the data of
each, byte by byte; nothing but a clearing COUNTERS changes what it reads. The byte of the overflow flag (log 15, DEDUCED) and the
nine bytes 00h of an UNKNOWN place, of which the spec states the first (log 35, DEDUCED), are the model's choices. -/
def Obligations.QueriesAnswered : Prop :=
  ∀ (s : State) (st : StationState) (h : HaltCause), s.sc.phase = .running st h →
    (let target := (s.sc.settings.map Settings.target).getD 0
     exec (.status (frame [])) s = .next (Answered s (frame []) .ok
      (toBytes 1 st.code ++ toBytes 1 s.sc.resetCause.code ++ toBytes 1 h.code ++ toBytes 1 s.sc.number
        ++ toBytes 1 s.groupSize ++ toBytes 1 target ++ toBytes 1 s.sm.pressure.code ++ toBytes 1 s.ce.state.code
        ++ toBytes 2 s.sm.freeCount ++ toBytes 2 s.sm.retiredCount ++ toBytes 4 s.ownTop ++ toBytes 4 s.hu.durable
        ++ toBytes 1 s.nu.queue.length ++ [if s.nu.overflow then 0x01#8 else 0x00#8])))
    ∧ (s.storeRuns = true → ∀ o : Byte,
        (o = 0x00#8 ∨ s.originLimit < o.toNat →
          exec (.holdings (frame [o])) s = .next (Answered s (frame [o]) .badOrigin []))
        ∧ (1 ≤ o.toNat → o.toNat ≤ s.originLimit →
            let e := s.entry o.toNat
            let column := fun p => if p = s.own then some e.pair else s.cell p o.toNat
            exec (.holdings (frame [o])) s = .next (Answered s (frame [o]) .ok
              (toBytes 4 e.floor ++ toBytes 4 e.frontier ++ toBytes 4 e.top ++ toBytes 1 e.gaps.length
                ++ e.gaps.flatMap (fun g => toBytes 4 g.lo ++ toBytes 4 g.hi)
                ++ toBytes 1 (s.presenceOf o.toNat).code ++ toBytes 1 s.originLimit
                ++ (upFrom 1 s.originLimit).flatMap (fun p => match column p with
                    | some c => 0x01#8 :: toBytes 4 c.floor ++ toBytes 4 c.frontier
                    | none => List.replicate 9 0x00#8)))))
    ∧ (st ≠ .scanning →
        let data := s.ap.counters.toList.flatMap (toBytes 2)
        exec (.counters (frame [0x00#8])) s = .next (Answered s (frame [0x00#8]) .ok data)
        ∧ ∃ t, exec (.counters (frame [0x01#8])) s = .next t ∧ (∀ k, t.counter k = 0)
            ∧ { t with ap := { t.ap with counters := s.ap.counters } } = Answered s (frame [0x01#8]) .ok data)

/-- R198 test 5, R201: a CONFIGURE goes to the start controller and a SUBMIT to SU, the slot AWAITING; a SUBMIT that finds the buffer
occupied is answered BUSY and leaves the buffer's payload. -/
def Obligations.ConfigureAndSubmitHandedOn : Prop :=
  ∀ (s : State) (params : List Byte), params.length < 2 ^ 16 →
    (s.station = some .awaitConfig → params.length = 10 →
      exec (.configure (frame params)) s = .next { s with ap := { s.ap with
        slot := .awaiting,
        submitBuffer := s.ap.submitBuffer.map fun h => { h with owed := false },
        configures := (s.ap.configures.map fun h => { h with owed := false }) ++ [{ params := params, owed := true }],
        dataOut := erasedBytes (frame params).length } })
    ∧ (s.storeRuns = true →
        (s.ap.submitBuffer = none →
          exec (.submit (frame params)) s = .next { s with ap := { s.ap with
            slot := .awaiting,
            submitBuffer := some { length := params.length, payload := params.take 1920, owed := true },
            configures := s.ap.configures.map fun h => { h with owed := false },
            dataOut := erasedBytes (frame params).length } })
        ∧ ∀ h, s.ap.submitBuffer = some h →
            exec (.submit (frame params)) s = .next (Answered s (frame params) .busy []))

/-- R52 to R55, R69, R92, R97, R100, R101, R104, R195: the start controller takes the oldest CONFIGURE: BAD-CONFIG, REFUSED-STATE, or
the entry to JOINING with the settings applied: the entries above N emptied and what was settled in them counted as orphans, those of
1..N as they were but for the floors of what reclaim takes in the same command (log 13, DESIGN CHOICE), with nothing taken where the
evaluation selects no block and no re-drive is refused; the report-pending flag clear unless such a floor has moved (R83). -/
def Obligations.ConfigureTaken : Prop :=
  ∀ (s : State) (carrier : Bool) (h : HandedConfigure) (rest : List HandedConfigure), s.ap.configures = h :: rest →
    let answered := fun (st : Status) =>
      if h.owed then ResponseSlot.ready { status := st, data := [], armsReset := false } else s.ap.slot
    (s.station = some .awaitConfig → (∀ c, settingsOf h.params = some c → c.inRange s.own = false) →
      exec (.configureTaken carrier) s
        = .next { s with ap := { s.ap with configures := rest, slot := answered .badConfig } })
    ∧ (s.station ≠ some .awaitConfig →
      exec (.configureTaken carrier) s
        = .next { s with ap := { s.ap with configures := rest, slot := answered .refusedState } })
    ∧ ∀ c, s.station = some .awaitConfig → settingsOf h.params = some c → c.inRange s.own = true → 1 ≤ s.own →
        ∃ t, exec (.configureTaken carrier) s = .next t
          ∧ t.sc = { s.sc with settings := some c, phase := .running .joining .none }
          ∧ (∀ o, c.groupSize < o → o ≤ 24 → t.entry o = { floor := 1, top := 0, gaps := [] })
          ∧ ((∀ o, c.groupSize < o → o ≤ 24 → entryOk (s.entry o) = true) →
              let settledIn := fun (e : Entry) => (upFrom e.floor (e.top + 1 - e.floor)).countP fun n => e.settled n
              t.counter .orphaned = min 65535 (s.counter .orphaned
                + ((upFrom (c.groupSize + 1) (24 - c.groupSize)).map fun o => settledIn (s.entry o)).foldl (· + ·) 0))
          ∧ (NoRefusal s → ({ s with hu := { s.hu with durable := t.hu.durable } } : State).selection = none →
              ∀ o, o ≤ c.groupSize → t.entry o = s.entry o)
          ∧ (∀ o, o ≤ c.groupSize → (s.entry o).floor ≤ (t.entry o).floor
              ∧ ∀ n, (t.entry o).floor ≤ n → (t.entry o).settled n = (s.entry o).settled n)
          ∧ (t.hu.reportPending = true ↔
              ∃ o, 1 ≤ o ∧ o ≤ c.groupSize ∧ (t.entry o).floor ≠ (s.entry o).floor)
          ∧ (∀ p o, t.cell p o = none)
          ∧ t.presenceOf s.own = .present ∧ (∀ p, p ≠ s.own → t.presenceOf p = .unknown)
          ∧ (∀ p, lineOf t.hu.silence false p = false)
          ∧ t.hu.reportTimer = true ∧ t.hu.line3 = true
          ∧ t.lc = { s.lc with state := .seeking, quietLimit := true,
                               tracked := if carrier then .inProgress else .quiet }
          ∧ t.ap.slot = answered .ok ∧ t.ap.configures = rest
          ∧ s.ownTop ≤ t.ownTop ∧ s.hu.durable ≤ t.hu.durable
          ∧ AttnOk t ∧ ArrayKept s t ∧ t.pending = s.pending

/-- R55, R139, R163, R167, R183: the end of the listen interval: the station is ACTIVE, and the line, the slots, the queue, the store,
the matrix, presence, D and what RP serves stay as they are. RP is told and makes its first re-run, which may fill the ask list and
abandon numbers that no station holds: floors and the own entry stay, settled numbers stay settled, a change of a reported pair sets the
report flag, and each notice that joins the queue is a LOST. With nothing missing and an empty ask list nothing else changes. -/
def Obligations.ListenIntervalEnds : Prop :=
  ∀ s : State, s.station = some .joining → s.sc.listening = true →
    ∃ t, exec .listenIntervalEnd s = .next t
      ∧ t.sc = { s.sc with phase := .running .active .none, listening := false }
      ∧ t.lc = s.lc ∧ t.ra = s.ra ∧ t.ce = s.ce ∧ t.su = s.su ∧ t.fc = s.fc ∧ t.sm = s.sm ∧ t.ap = s.ap
      ∧ t.hu = { s.hu with entries := t.hu.entries, reportPending := t.hu.reportPending }
      ∧ t.rp = { s.rp with asks := t.rp.asks, rotation := t.rp.rotation, rerunDue := false } ∧ t.pending = s.pending
      ∧ t.entry s.own = s.entry s.own
      ∧ (∀ o, (t.entry o).floor = (s.entry o).floor ∧ ∀ n, (s.entry o).settled n = true → (t.entry o).settled n = true)
      ∧ (s.hu.reportPending = true → t.hu.reportPending = true)
      ∧ ((∃ o, 1 ≤ o ∧ o ≤ s.groupSize ∧ (t.entry o).pair ≠ (s.entry o).pair) → t.hu.reportPending = true)
      ∧ (s.groupSize ≤ 24 → t.hu.entries = s.hu.entries → t.hu.reportPending = s.hu.reportPending ∧ t.nu = s.nu)
      ∧ (∃ lost : List Notice, t.nu.queue = s.nu.queue ++ lost ∧ ∀ x, x ∈ lost → ∃ o a b, x = .lost o a b)
      ∧ ((∀ o, 1 ≤ o → o ≤ s.groupSize → s.missingRuns o = []) → (∀ i, i < 4 → s.ask i = none) →
          t = { s with sc := { s.sc with phase := .running .active .none, listening := false },
                       rp := { s.rp with rerunDue := false } })

/-- R16, R35, R202, R204, Tables 11-7 and 11-9: FETCH(o, s) decided, and FETCH-RESULT from an IDLE, a LOOKING and a DONE job. The job is
LOOKING while a block can hold the number: the spare read of the page its lookup stands at waits in the fetch class, or has begun where
the array was free; with no such block the lookup ends in the same event and the job is DONE with LOST. -/
def Obligations.FetchAndItsResult : Prop :=
  (∀ (s : State) (params : List Byte), s.storeRuns = true → params.length = 5 → Quiet s →
      s.fc.op.isSome ∨ s.fc.programClaim = none →
      let o := field params 0 1
      let n := field params 1 4
      (o = 0 ∨ s.originLimit < o →
        exec (.fetch (frame params)) s = .next (Answered s (frame params) .badOrigin []))
      ∧ (1 ≤ o → o ≤ s.originLimit →
          ((s.entry o).settled n = false →
            exec (.fetch (frame params)) s = .next (Answered s (frame params) .notHeld []))
          ∧ ((s.entry o).settled n = true →
              (s.ap.fetch ≠ .idle →
                exec (.fetch (frame params)) s = .next (Answered s (frame params) .busy []))
              ∧ (s.ap.fetch = .idle →
                  ∃ t, exec (.fetch (frame params)) s = .next t
                    ∧ t.ap.slot = .ready { status := .accepted, data := [], armsReset := false }
                    ∧ t.ap.dataOut = erasedBytes 7
                    ∧ t.sc = s.sc ∧ t.lc = s.lc ∧ t.hu = s.hu ∧ t.su = s.su ∧ t.ra = s.ra ∧ t.ce = s.ce ∧ t.rp = s.rp
                    ∧ t.nu = s.nu ∧ t.pending = s.pending ∧ ArrayKept s t
                    ∧ (∀ st b, s.sm.candidate o n none = some (st, b) →
                        let page : PageAddr := { block := b, page := (s.sm.block b).pages - 1 }
                        let lookup := fun (step : LookupStep) =>
                          some ({ origin := o, seq := n, block := some b, page := page.page, offset := 0, bound := some (st, b),
                                  damaged := false, step := step } : Lookup)
                        t.ap.fetch = .looking o n
                        ∧ (s.fc.op.isSome →
                            t.sm.fetchLookup = lookup .waiting ∧ t.fc.op = s.fc.op
                            ∧ t.fc.fetchClaim = some { kind := .spare, page := page })
                        ∧ (s.fc.op = none →
                            t.sm.fetchLookup = lookup .running ∧ t.fc.op = some (.lookupRead .fetch .spare page)
                            ∧ t.fc.fetchClaim = none))
                    ∧ (s.sm.candidate o n none = none →
                        t.ap.fetch = .done o n .lost ∧ t.sm.fetchLookup = none)))))
    ∧ ∀ s : State, s.storeRuns = true →
        (s.ap.fetch = .idle →
          exec (.fetchResult (frame [])) s = .next (Answered s (frame []) .notHeld []))
        ∧ (∀ o n, s.ap.fetch = .looking o n →
            exec (.fetchResult (frame [])) s = .next (Answered s (frame []) .pending []))
        ∧ ∀ o n r, s.ap.fetch = .done o n r →
            let t := match r with
              | .ok payload => Answered s (frame []) .ok
                  (toBytes 1 o ++ toBytes 4 n ++ toBytes 2 payload.length ++ payload)
              | .lost => Answered s (frame []) .lost (toBytes 1 o ++ toBytes 4 n)
              | .damaged => Answered s (frame []) .damaged (toBytes 1 o ++ toBytes 4 n)
              | .notHeld => Answered s (frame []) .notHeld (toBytes 1 o ++ toBytes 4 n)
            exec (.fetchResult (frame [])) s = .next { t with ap := { t.ap with fetch := .idle } }

/-- R40, R196, R197, R208: RESTART is answered OK in every station state; a response read returns BAD-FRAME, WAIT or the held response
and changes nothing else; one that returns the OK of a RESTART, 00h 00h 00h, is followed by a command reset. That the part then stays
held in that reset until a RESET_RELEASE, where Table 3-1 says that a command reset is released at once, is the model's reading (log
21, DEDUCED). -/
def Obligations.RestartAndResponseRead : Prop :=
  ∀ (s : State) (st : StationState), s.station = some st →
    (exec (.restart (frame [])) s = .next { s with ap := { (s.frameTaken (frame [])).ap with
        slot := .ready { status := .ok, data := [], armsReset := true } } })
    ∧ (∀ r clocks, exec (.restart (frame [])) s = .next r →
        ∃ t, exec (.responseRead clocks) r = .next t ∧ t.sc.phase = .held .command
          ∧ t.ap.dataOut = ([0x00#8, 0x00#8, 0x00#8] ++ List.replicate clocks 0xFF#8).take clocks)
    ∧ ∀ clocks : Nat,
        let shifted := fun (bytes : List Byte) => (bytes ++ List.replicate clocks 0xFF#8).take clocks
        let response := fun (r : Response) => r.status.code :: toBytes 2 r.data.length ++ r.data
        let reads := fun (bytes : List Byte) =>
          exec (.responseRead clocks) s = .next { s with ap := { s.ap with dataOut := shifted bytes } }
        (s.ap.slot = .empty → reads [0x23#8, 0x00#8, 0x00#8])
        ∧ (s.ap.slot = .awaiting → reads [0x02#8, 0x00#8, 0x00#8])
        ∧ (∀ r, s.ap.slot = .ready r → r.armsReset = false →
            reads (response r))
        ∧ ∀ r, s.ap.slot = .ready r → r.armsReset = true →
            ∃ t u, exec (.responseRead clocks) s = .next t ∧ exec .pinReset s = .next u
              ∧ t = { u with sc := { u.sc with phase := .held .command }, ap := { u.ap with dataOut := shifted (response r) } }

/-! ## Invariants -/

/-- The memory of the array keeps its canonical form. -/
def Obligations.MemoryStaysCanonical : Prop := ∀ s t : State, MemoryOk s → step s = .next t → MemoryOk t

/-- R194: ATTN is asserted exactly while its condition holds. R188: the notice queue never holds more than 32 notices. -/
def Obligations.AttnAndTheNoticeQueueAreKept : Prop :=
  (∀ s t : State, AttnOk s → step s = .next t → AttnOk t) ∧ ∀ s t : State, NoticesOk s → step s = .next t → NoticesOk t

/-- R40, R51, R75: while the part is held in reset or SCANNING, every block but the start controller and the array stays as the reset
left it. -/
def Obligations.BlocksRestDuringTheScan : Prop := ∀ s t : State, StartOk s → step s = .next t → StartOk t

/-- R25: at most one block is OPEN. -/
def Obligations.AtMostOneBlockIsOpen : Prop :=
  ∀ s t : State, StartOk s ∧ OneOpen s → step s = .next t → StartOk t ∧ OneOpen t

/-- R77 to R79: every holdings entry keeps its form, and the own entry has no gap. -/
def Obligations.HoldingsKeepTheirForm : Prop :=
  ∀ s t : State, StartOk s ∧ ScanOk s ∧ SettingsOk s ∧ HoldingsOk s → step s = .next t →
    StartOk t ∧ ScanOk t ∧ SettingsOk t ∧ HoldingsOk t

/-- R186: D and every stored own-origin frontier stay at or below T_own. -/
def Obligations.DurableStaysBelowTheTop : Prop :=
  ∀ s t : State, StartOk s ∧ SettingsOk s ∧ DurableOk s → step s = .next t → StartOk t ∧ SettingsOk t ∧ DurableOk t

/-- R81: no number of an origin is at once settled and pending, with the form of the commit path that PendingOk adds to it. -/
def Obligations.PendingIsNeverSettled : Prop :=
  ∀ s t : State, StartOk s ∧ SettingsOk s ∧ DurableOk s ∧ PendingOk s → step s = .next t →
    StartOk t ∧ SettingsOk t ∧ DurableOk t ∧ PendingOk t

/-- Logs 13 and 14 (DESIGN CHOICE): a re-evaluation that a command makes due has been made when the command ends. -/
def Obligations.NothingStaysOwed : Prop := ∀ s t : State, Quiet s → step s = .next t → Quiet t

/-- R2, R11: no command but a reset, a step of the scan, and the completion of a program, a mark program or an erase changes a byte of
the array, except that an erase which begins erases its page 0. -/
def Obligations.OnlyFlashOperationsChangeTheArray : Prop :=
  ∀ (c : Instr) (s t : State), exec c s = .next t →
    (match c with
    | .powerOnReset => False
    | .pinReset => False
    | .responseRead _ => False
    | .scanSpareReadDone => False
    | .scanPageReadDone => False
    | .scanEraseDone _ => False
    | .scanMarkDone _ => False
    | .programDone _ => False
    | .markProgramDone _ => False
    | .eraseDone _ => False
    | _ => True) →
    ArrayKept s t

/-- The invariants hold after reset. -/
def Obligations.InvariantsHoldAtReset : Prop :=
  MemoryOk State.reset ∧ AttnOk State.reset ∧ NoticesOk State.reset ∧ StartOk State.reset ∧ ScanOk State.reset
    ∧ SettingsOk State.reset ∧ OneOpen State.reset ∧ HoldingsOk State.reset ∧ DurableOk State.reset ∧ PendingOk State.reset
    ∧ Quiet State.reset
end

