-- ==== Sys2Proof/WellFormed.lean ====
section
/-! DEFINITION. Which terms of Instr spell an event that the part can meet. -/

namespace Sys2Proof

/-- Fewer than eight bits stand after the last whole byte of a carrier period. -/
def CarrierPeriod.wellFormed (p : CarrierPeriod) : Bool := decide (p.strayBits < 8)

/-- The checks: a timer names a station, a slot or a place that exists; a carrier period is cut into bytes; an unknown
command's identifier names no command and is not RESPONSE (R196, R198). -/
def Instr.wellFormed : Instr → Bool
  | .powerOnReset => true
  | .pinReset => true
  | .resetRelease _ => true
  | .scanSpareReadDone => true
  | .scanPageReadDone => true
  | .scanEraseDone _ => true
  | .scanMarkDone _ => true
  | .lookupSpareReadDone => true
  | .lookupPageReadDone => true
  | .transferEnd => true
  | .programDone _ => true
  | .markProgramDone _ => true
  | .eraseDone _ => true
  | .carrierBegin => true
  | .carrierEnd p => p.wellFormed
  | .ownSlotStart => true
  | .mismatchDetected => true
  | .burstSent => true
  | .jamEnd _ => true
  | .quietLimitExpiry => true
  | .reportTimerExpiry => true
  | .spacingTimerExpiry => true
  | .silenceTimerExpiry p => decide (1 ≤ p) && decide (p ≤ 24)
  | .slotTimerExpiry i => decide (i < 8)
  | .flushTimerExpiry => true
  | .askTimerExpiry i => decide (i < 4)
  | .noticeDelayTimerExpiry => true
  | .listenIntervalEnd => true
  | .responseRead _ => true
  | .status _ => true
  | .configure _ => true
  | .configureTaken _ => true
  | .submit _ => true
  | .submitTaken => true
  | .fetch _ => true
  | .fetchResult _ => true
  | .holdings _ => true
  | .notices _ => true
  | .counters _ => true
  | .restart _ => true
  | .unknownCommand id _ => !(knownIdentifiers.contains id)

end Sys2Proof
end

