-- ==== Sys2Proof/Laws/Decode.lean ====
section
/-! SUPPORT. Laws of the command that a transaction's bytes spell. -/

namespace Sys2Proof

/-- The identifiers of Table 12-7 are that of the response read and those of the command frames. -/
theorem knownIdentifiers_eq : knownIdentifiers = responseIdentifier :: frameCommands.map Prod.fst := by decide

/-- R196: of a response read only the number of clocked bytes matters. -/
theorem commandOf_response (rest : List Byte) : commandOf responseIdentifier rest = .responseRead rest.length := rfl

/-- R198 test 1: an identifier that Table 12-7 does not name spells UNKNOWN_COMMAND. -/
theorem commandOf_unknown {id : Byte} (h : knownIdentifiers.contains id = false) (rest : List Byte) :
    commandOf id rest = .unknownCommand id rest := by
  simp only [knownIdentifiers, List.contains_cons, Bool.or_eq_false_iff, beq_eq_false_iff_ne] at h
  unfold commandOf responseIdentifier
  rw [if_neg h.1]
  have hn : frameCommands.find? (fun c => c.1 == id) = none := by
    simp only [frameCommands, List.find?_eq_none, List.mem_cons, List.not_mem_nil, or_false, beq_iff_eq]
    rintro x (rfl | rfl | rfl | rfl | rfl | rfl | rfl | rfl | rfl) hx
    all_goals simp_all
  rw [hn]

/-- Every transaction spells a well-formed command. -/
theorem commandOf_wellFormed (id : Byte) (rest : List Byte) : (commandOf id rest).wellFormed = true := by
  cases h : knownIdentifiers.contains id with
  | false =>
    rw [commandOf_unknown h]
    show (!knownIdentifiers.contains id) = true
    rw [h]
    rfl
  | true =>
    simp only [knownIdentifiers, List.contains_cons, Bool.or_eq_true, beq_iff_eq] at h
    rcases h with rfl | rfl | rfl | rfl | rfl | rfl | rfl | rfl | rfl | rfl | h
    all_goals first | rfl | (exact absurd h Bool.false_ne_true)

/-! ## Whole bytes (R196) -/

/-- A byte is read back from its bits, most significant first. -/
theorem byteOf_bits : ∀ b : Byte, byteOf ((List.range 8).map fun i => b.getLsbD (7 - i)) = b := by decide +kernel

/-- Fewer than eight bits make no byte. -/
theorem wholeBytes_short {bits : List Bool} (h : bits.length < 8) : wholeBytes bits = [] := by
  unfold wholeBytes
  split
  · simp only [List.length_cons] at h
    omega
  · rfl

/-- The first whole byte of a transaction, and the bits after it. -/
theorem wholeBytes_byte (b : Byte) (bits : List Bool) :
    wholeBytes ((List.range 8).map (fun i => b.getLsbD (7 - i)) ++ bits) = b :: wholeBytes bits := by
  conv => rhs; rw [← byteOf_bits b]
  rfl

end Sys2Proof
end

