-- ==== Sys2Proof/Laws/State.lean ====
section
/-! SUPPORT. One lemma per field per update of the state, each true by rfl, and the same for the views of the state that read one
component only. -/

namespace Sys2Proof.Machine.State

/-! ### setSc -/

@[simp] theorem setSc_sc (s : State) (x : Sc) : (s.setSc x).sc = x := rfl
@[simp] theorem setSc_fc (s : State) (x : Sc) : (s.setSc x).fc = s.fc := rfl
@[simp] theorem setSc_sm (s : State) (x : Sc) : (s.setSc x).sm = s.sm := rfl
@[simp] theorem setSc_hu (s : State) (x : Sc) : (s.setSc x).hu = s.hu := rfl
@[simp] theorem setSc_su (s : State) (x : Sc) : (s.setSc x).su = s.su := rfl
@[simp] theorem setSc_ra (s : State) (x : Sc) : (s.setSc x).ra = s.ra := rfl
@[simp] theorem setSc_ce (s : State) (x : Sc) : (s.setSc x).ce = s.ce := rfl
@[simp] theorem setSc_lc (s : State) (x : Sc) : (s.setSc x).lc = s.lc := rfl
@[simp] theorem setSc_rp (s : State) (x : Sc) : (s.setSc x).rp = s.rp := rfl
@[simp] theorem setSc_nu (s : State) (x : Sc) : (s.setSc x).nu = s.nu := rfl
@[simp] theorem setSc_ap (s : State) (x : Sc) : (s.setSc x).ap = s.ap := rfl
@[simp] theorem setSc_fresh (s : State) (x : Sc) : (s.setSc x).fresh = s.fresh := rfl
@[simp] theorem setSc_pending (s : State) (x : Sc) : (s.setSc x).pending = s.pending := rfl

/-! ### setFc -/

@[simp] theorem setFc_sc (s : State) (x : Fc) : (s.setFc x).sc = s.sc := rfl
@[simp] theorem setFc_fc (s : State) (x : Fc) : (s.setFc x).fc = x := rfl
@[simp] theorem setFc_sm (s : State) (x : Fc) : (s.setFc x).sm = s.sm := rfl
@[simp] theorem setFc_hu (s : State) (x : Fc) : (s.setFc x).hu = s.hu := rfl
@[simp] theorem setFc_su (s : State) (x : Fc) : (s.setFc x).su = s.su := rfl
@[simp] theorem setFc_ra (s : State) (x : Fc) : (s.setFc x).ra = s.ra := rfl
@[simp] theorem setFc_ce (s : State) (x : Fc) : (s.setFc x).ce = s.ce := rfl
@[simp] theorem setFc_lc (s : State) (x : Fc) : (s.setFc x).lc = s.lc := rfl
@[simp] theorem setFc_rp (s : State) (x : Fc) : (s.setFc x).rp = s.rp := rfl
@[simp] theorem setFc_nu (s : State) (x : Fc) : (s.setFc x).nu = s.nu := rfl
@[simp] theorem setFc_ap (s : State) (x : Fc) : (s.setFc x).ap = s.ap := rfl
@[simp] theorem setFc_fresh (s : State) (x : Fc) : (s.setFc x).fresh = s.fresh := rfl
@[simp] theorem setFc_pending (s : State) (x : Fc) : (s.setFc x).pending = s.pending := rfl

/-! ### setSm -/

@[simp] theorem setSm_sc (s : State) (x : Sm) : (s.setSm x).sc = s.sc := rfl
@[simp] theorem setSm_fc (s : State) (x : Sm) : (s.setSm x).fc = s.fc := rfl
@[simp] theorem setSm_sm (s : State) (x : Sm) : (s.setSm x).sm = x := rfl
@[simp] theorem setSm_hu (s : State) (x : Sm) : (s.setSm x).hu = s.hu := rfl
@[simp] theorem setSm_su (s : State) (x : Sm) : (s.setSm x).su = s.su := rfl
@[simp] theorem setSm_ra (s : State) (x : Sm) : (s.setSm x).ra = s.ra := rfl
@[simp] theorem setSm_ce (s : State) (x : Sm) : (s.setSm x).ce = s.ce := rfl
@[simp] theorem setSm_lc (s : State) (x : Sm) : (s.setSm x).lc = s.lc := rfl
@[simp] theorem setSm_rp (s : State) (x : Sm) : (s.setSm x).rp = s.rp := rfl
@[simp] theorem setSm_nu (s : State) (x : Sm) : (s.setSm x).nu = s.nu := rfl
@[simp] theorem setSm_ap (s : State) (x : Sm) : (s.setSm x).ap = s.ap := rfl
@[simp] theorem setSm_fresh (s : State) (x : Sm) : (s.setSm x).fresh = s.fresh := rfl
@[simp] theorem setSm_pending (s : State) (x : Sm) : (s.setSm x).pending = s.pending := rfl

/-! ### setHu -/

@[simp] theorem setHu_sc (s : State) (x : Hu) : (s.setHu x).sc = s.sc := rfl
@[simp] theorem setHu_fc (s : State) (x : Hu) : (s.setHu x).fc = s.fc := rfl
@[simp] theorem setHu_sm (s : State) (x : Hu) : (s.setHu x).sm = s.sm := rfl
@[simp] theorem setHu_hu (s : State) (x : Hu) : (s.setHu x).hu = x := rfl
@[simp] theorem setHu_su (s : State) (x : Hu) : (s.setHu x).su = s.su := rfl
@[simp] theorem setHu_ra (s : State) (x : Hu) : (s.setHu x).ra = s.ra := rfl
@[simp] theorem setHu_ce (s : State) (x : Hu) : (s.setHu x).ce = s.ce := rfl
@[simp] theorem setHu_lc (s : State) (x : Hu) : (s.setHu x).lc = s.lc := rfl
@[simp] theorem setHu_rp (s : State) (x : Hu) : (s.setHu x).rp = s.rp := rfl
@[simp] theorem setHu_nu (s : State) (x : Hu) : (s.setHu x).nu = s.nu := rfl
@[simp] theorem setHu_ap (s : State) (x : Hu) : (s.setHu x).ap = s.ap := rfl
@[simp] theorem setHu_fresh (s : State) (x : Hu) : (s.setHu x).fresh = s.fresh := rfl
@[simp] theorem setHu_pending (s : State) (x : Hu) : (s.setHu x).pending = s.pending := rfl

/-! ### setSu -/

@[simp] theorem setSu_sc (s : State) (x : Su) : (s.setSu x).sc = s.sc := rfl
@[simp] theorem setSu_fc (s : State) (x : Su) : (s.setSu x).fc = s.fc := rfl
@[simp] theorem setSu_sm (s : State) (x : Su) : (s.setSu x).sm = s.sm := rfl
@[simp] theorem setSu_hu (s : State) (x : Su) : (s.setSu x).hu = s.hu := rfl
@[simp] theorem setSu_su (s : State) (x : Su) : (s.setSu x).su = x := rfl
@[simp] theorem setSu_ra (s : State) (x : Su) : (s.setSu x).ra = s.ra := rfl
@[simp] theorem setSu_ce (s : State) (x : Su) : (s.setSu x).ce = s.ce := rfl
@[simp] theorem setSu_lc (s : State) (x : Su) : (s.setSu x).lc = s.lc := rfl
@[simp] theorem setSu_rp (s : State) (x : Su) : (s.setSu x).rp = s.rp := rfl
@[simp] theorem setSu_nu (s : State) (x : Su) : (s.setSu x).nu = s.nu := rfl
@[simp] theorem setSu_ap (s : State) (x : Su) : (s.setSu x).ap = s.ap := rfl
@[simp] theorem setSu_fresh (s : State) (x : Su) : (s.setSu x).fresh = s.fresh := rfl
@[simp] theorem setSu_pending (s : State) (x : Su) : (s.setSu x).pending = s.pending := rfl

/-! ### setRa -/

@[simp] theorem setRa_sc (s : State) (x : Ra) : (s.setRa x).sc = s.sc := rfl
@[simp] theorem setRa_fc (s : State) (x : Ra) : (s.setRa x).fc = s.fc := rfl
@[simp] theorem setRa_sm (s : State) (x : Ra) : (s.setRa x).sm = s.sm := rfl
@[simp] theorem setRa_hu (s : State) (x : Ra) : (s.setRa x).hu = s.hu := rfl
@[simp] theorem setRa_su (s : State) (x : Ra) : (s.setRa x).su = s.su := rfl
@[simp] theorem setRa_ra (s : State) (x : Ra) : (s.setRa x).ra = x := rfl
@[simp] theorem setRa_ce (s : State) (x : Ra) : (s.setRa x).ce = s.ce := rfl
@[simp] theorem setRa_lc (s : State) (x : Ra) : (s.setRa x).lc = s.lc := rfl
@[simp] theorem setRa_rp (s : State) (x : Ra) : (s.setRa x).rp = s.rp := rfl
@[simp] theorem setRa_nu (s : State) (x : Ra) : (s.setRa x).nu = s.nu := rfl
@[simp] theorem setRa_ap (s : State) (x : Ra) : (s.setRa x).ap = s.ap := rfl
@[simp] theorem setRa_fresh (s : State) (x : Ra) : (s.setRa x).fresh = s.fresh := rfl
@[simp] theorem setRa_pending (s : State) (x : Ra) : (s.setRa x).pending = s.pending := rfl

/-! ### setCe -/

@[simp] theorem setCe_sc (s : State) (x : Ce) : (s.setCe x).sc = s.sc := rfl
@[simp] theorem setCe_fc (s : State) (x : Ce) : (s.setCe x).fc = s.fc := rfl
@[simp] theorem setCe_sm (s : State) (x : Ce) : (s.setCe x).sm = s.sm := rfl
@[simp] theorem setCe_hu (s : State) (x : Ce) : (s.setCe x).hu = s.hu := rfl
@[simp] theorem setCe_su (s : State) (x : Ce) : (s.setCe x).su = s.su := rfl
@[simp] theorem setCe_ra (s : State) (x : Ce) : (s.setCe x).ra = s.ra := rfl
@[simp] theorem setCe_ce (s : State) (x : Ce) : (s.setCe x).ce = x := rfl
@[simp] theorem setCe_lc (s : State) (x : Ce) : (s.setCe x).lc = s.lc := rfl
@[simp] theorem setCe_rp (s : State) (x : Ce) : (s.setCe x).rp = s.rp := rfl
@[simp] theorem setCe_nu (s : State) (x : Ce) : (s.setCe x).nu = s.nu := rfl
@[simp] theorem setCe_ap (s : State) (x : Ce) : (s.setCe x).ap = s.ap := rfl
@[simp] theorem setCe_fresh (s : State) (x : Ce) : (s.setCe x).fresh = s.fresh := rfl
@[simp] theorem setCe_pending (s : State) (x : Ce) : (s.setCe x).pending = s.pending := rfl

/-! ### setLc -/

@[simp] theorem setLc_sc (s : State) (x : Lc) : (s.setLc x).sc = s.sc := rfl
@[simp] theorem setLc_fc (s : State) (x : Lc) : (s.setLc x).fc = s.fc := rfl
@[simp] theorem setLc_sm (s : State) (x : Lc) : (s.setLc x).sm = s.sm := rfl
@[simp] theorem setLc_hu (s : State) (x : Lc) : (s.setLc x).hu = s.hu := rfl
@[simp] theorem setLc_su (s : State) (x : Lc) : (s.setLc x).su = s.su := rfl
@[simp] theorem setLc_ra (s : State) (x : Lc) : (s.setLc x).ra = s.ra := rfl
@[simp] theorem setLc_ce (s : State) (x : Lc) : (s.setLc x).ce = s.ce := rfl
@[simp] theorem setLc_lc (s : State) (x : Lc) : (s.setLc x).lc = x := rfl
@[simp] theorem setLc_rp (s : State) (x : Lc) : (s.setLc x).rp = s.rp := rfl
@[simp] theorem setLc_nu (s : State) (x : Lc) : (s.setLc x).nu = s.nu := rfl
@[simp] theorem setLc_ap (s : State) (x : Lc) : (s.setLc x).ap = s.ap := rfl
@[simp] theorem setLc_fresh (s : State) (x : Lc) : (s.setLc x).fresh = s.fresh := rfl
@[simp] theorem setLc_pending (s : State) (x : Lc) : (s.setLc x).pending = s.pending := rfl

/-! ### setRp -/

@[simp] theorem setRp_sc (s : State) (x : Rp) : (s.setRp x).sc = s.sc := rfl
@[simp] theorem setRp_fc (s : State) (x : Rp) : (s.setRp x).fc = s.fc := rfl
@[simp] theorem setRp_sm (s : State) (x : Rp) : (s.setRp x).sm = s.sm := rfl
@[simp] theorem setRp_hu (s : State) (x : Rp) : (s.setRp x).hu = s.hu := rfl
@[simp] theorem setRp_su (s : State) (x : Rp) : (s.setRp x).su = s.su := rfl
@[simp] theorem setRp_ra (s : State) (x : Rp) : (s.setRp x).ra = s.ra := rfl
@[simp] theorem setRp_ce (s : State) (x : Rp) : (s.setRp x).ce = s.ce := rfl
@[simp] theorem setRp_lc (s : State) (x : Rp) : (s.setRp x).lc = s.lc := rfl
@[simp] theorem setRp_rp (s : State) (x : Rp) : (s.setRp x).rp = x := rfl
@[simp] theorem setRp_nu (s : State) (x : Rp) : (s.setRp x).nu = s.nu := rfl
@[simp] theorem setRp_ap (s : State) (x : Rp) : (s.setRp x).ap = s.ap := rfl
@[simp] theorem setRp_fresh (s : State) (x : Rp) : (s.setRp x).fresh = s.fresh := rfl
@[simp] theorem setRp_pending (s : State) (x : Rp) : (s.setRp x).pending = s.pending := rfl

/-! ### setNu -/

@[simp] theorem setNu_sc (s : State) (x : Nu) : (s.setNu x).sc = s.sc := rfl
@[simp] theorem setNu_fc (s : State) (x : Nu) : (s.setNu x).fc = s.fc := rfl
@[simp] theorem setNu_sm (s : State) (x : Nu) : (s.setNu x).sm = s.sm := rfl
@[simp] theorem setNu_hu (s : State) (x : Nu) : (s.setNu x).hu = s.hu := rfl
@[simp] theorem setNu_su (s : State) (x : Nu) : (s.setNu x).su = s.su := rfl
@[simp] theorem setNu_ra (s : State) (x : Nu) : (s.setNu x).ra = s.ra := rfl
@[simp] theorem setNu_ce (s : State) (x : Nu) : (s.setNu x).ce = s.ce := rfl
@[simp] theorem setNu_lc (s : State) (x : Nu) : (s.setNu x).lc = s.lc := rfl
@[simp] theorem setNu_rp (s : State) (x : Nu) : (s.setNu x).rp = s.rp := rfl
@[simp] theorem setNu_nu (s : State) (x : Nu) : (s.setNu x).nu = x := rfl
@[simp] theorem setNu_ap (s : State) (x : Nu) : (s.setNu x).ap = s.ap := rfl
@[simp] theorem setNu_fresh (s : State) (x : Nu) : (s.setNu x).fresh = s.fresh := rfl
@[simp] theorem setNu_pending (s : State) (x : Nu) : (s.setNu x).pending = s.pending := rfl

/-! ### setAp -/

@[simp] theorem setAp_sc (s : State) (x : Ap) : (s.setAp x).sc = s.sc := rfl
@[simp] theorem setAp_fc (s : State) (x : Ap) : (s.setAp x).fc = s.fc := rfl
@[simp] theorem setAp_sm (s : State) (x : Ap) : (s.setAp x).sm = s.sm := rfl
@[simp] theorem setAp_hu (s : State) (x : Ap) : (s.setAp x).hu = s.hu := rfl
@[simp] theorem setAp_su (s : State) (x : Ap) : (s.setAp x).su = s.su := rfl
@[simp] theorem setAp_ra (s : State) (x : Ap) : (s.setAp x).ra = s.ra := rfl
@[simp] theorem setAp_ce (s : State) (x : Ap) : (s.setAp x).ce = s.ce := rfl
@[simp] theorem setAp_lc (s : State) (x : Ap) : (s.setAp x).lc = s.lc := rfl
@[simp] theorem setAp_rp (s : State) (x : Ap) : (s.setAp x).rp = s.rp := rfl
@[simp] theorem setAp_nu (s : State) (x : Ap) : (s.setAp x).nu = s.nu := rfl
@[simp] theorem setAp_ap (s : State) (x : Ap) : (s.setAp x).ap = x := rfl
@[simp] theorem setAp_fresh (s : State) (x : Ap) : (s.setAp x).fresh = s.fresh := rfl
@[simp] theorem setAp_pending (s : State) (x : Ap) : (s.setAp x).pending = s.pending := rfl

/-! ### drawn -/

@[simp] theorem drawn_sc (s : State) : s.drawn.sc = s.sc := rfl
@[simp] theorem drawn_fc (s : State) : s.drawn.fc = s.fc := rfl
@[simp] theorem drawn_sm (s : State) : s.drawn.sm = s.sm := rfl
@[simp] theorem drawn_hu (s : State) : s.drawn.hu = s.hu := rfl
@[simp] theorem drawn_su (s : State) : s.drawn.su = s.su := rfl
@[simp] theorem drawn_ra (s : State) : s.drawn.ra = s.ra := rfl
@[simp] theorem drawn_ce (s : State) : s.drawn.ce = s.ce := rfl
@[simp] theorem drawn_lc (s : State) : s.drawn.lc = s.lc := rfl
@[simp] theorem drawn_rp (s : State) : s.drawn.rp = s.rp := rfl
@[simp] theorem drawn_nu (s : State) : s.drawn.nu = s.nu := rfl
@[simp] theorem drawn_ap (s : State) : s.drawn.ap = s.ap := rfl
@[simp] theorem drawn_fresh (s : State) : s.drawn.fresh = s.fresh + 1 := rfl
@[simp] theorem drawn_pending (s : State) : s.drawn.pending = s.pending := rfl

/-! ### station -/

@[simp] theorem setFc_station (s : State) (x : Fc) : (s.setFc x).station = s.station := rfl
@[simp] theorem setSm_station (s : State) (x : Sm) : (s.setSm x).station = s.station := rfl
@[simp] theorem setHu_station (s : State) (x : Hu) : (s.setHu x).station = s.station := rfl
@[simp] theorem setSu_station (s : State) (x : Su) : (s.setSu x).station = s.station := rfl
@[simp] theorem setRa_station (s : State) (x : Ra) : (s.setRa x).station = s.station := rfl
@[simp] theorem setCe_station (s : State) (x : Ce) : (s.setCe x).station = s.station := rfl
@[simp] theorem setLc_station (s : State) (x : Lc) : (s.setLc x).station = s.station := rfl
@[simp] theorem setRp_station (s : State) (x : Rp) : (s.setRp x).station = s.station := rfl
@[simp] theorem setNu_station (s : State) (x : Nu) : (s.setNu x).station = s.station := rfl
@[simp] theorem setAp_station (s : State) (x : Ap) : (s.setAp x).station = s.station := rfl
@[simp] theorem drawn_station (s : State) : s.drawn.station = s.station := rfl

/-! ### storeRuns -/

@[simp] theorem setFc_storeRuns (s : State) (x : Fc) : (s.setFc x).storeRuns = s.storeRuns := rfl
@[simp] theorem setSm_storeRuns (s : State) (x : Sm) : (s.setSm x).storeRuns = s.storeRuns := rfl
@[simp] theorem setHu_storeRuns (s : State) (x : Hu) : (s.setHu x).storeRuns = s.storeRuns := rfl
@[simp] theorem setSu_storeRuns (s : State) (x : Su) : (s.setSu x).storeRuns = s.storeRuns := rfl
@[simp] theorem setRa_storeRuns (s : State) (x : Ra) : (s.setRa x).storeRuns = s.storeRuns := rfl
@[simp] theorem setCe_storeRuns (s : State) (x : Ce) : (s.setCe x).storeRuns = s.storeRuns := rfl
@[simp] theorem setLc_storeRuns (s : State) (x : Lc) : (s.setLc x).storeRuns = s.storeRuns := rfl
@[simp] theorem setRp_storeRuns (s : State) (x : Rp) : (s.setRp x).storeRuns = s.storeRuns := rfl
@[simp] theorem setNu_storeRuns (s : State) (x : Nu) : (s.setNu x).storeRuns = s.storeRuns := rfl
@[simp] theorem setAp_storeRuns (s : State) (x : Ap) : (s.setAp x).storeRuns = s.storeRuns := rfl
@[simp] theorem drawn_storeRuns (s : State) : s.drawn.storeRuns = s.storeRuns := rfl

/-! ### onLine -/

@[simp] theorem setFc_onLine (s : State) (x : Fc) : (s.setFc x).onLine = s.onLine := rfl
@[simp] theorem setSm_onLine (s : State) (x : Sm) : (s.setSm x).onLine = s.onLine := rfl
@[simp] theorem setHu_onLine (s : State) (x : Hu) : (s.setHu x).onLine = s.onLine := rfl
@[simp] theorem setSu_onLine (s : State) (x : Su) : (s.setSu x).onLine = s.onLine := rfl
@[simp] theorem setRa_onLine (s : State) (x : Ra) : (s.setRa x).onLine = s.onLine := rfl
@[simp] theorem setCe_onLine (s : State) (x : Ce) : (s.setCe x).onLine = s.onLine := rfl
@[simp] theorem setLc_onLine (s : State) (x : Lc) : (s.setLc x).onLine = s.onLine := rfl
@[simp] theorem setRp_onLine (s : State) (x : Rp) : (s.setRp x).onLine = s.onLine := rfl
@[simp] theorem setNu_onLine (s : State) (x : Nu) : (s.setNu x).onLine = s.onLine := rfl
@[simp] theorem setAp_onLine (s : State) (x : Ap) : (s.setAp x).onLine = s.onLine := rfl
@[simp] theorem drawn_onLine (s : State) : s.drawn.onLine = s.onLine := rfl

/-! ### own -/

@[simp] theorem setFc_own (s : State) (x : Fc) : (s.setFc x).own = s.own := rfl
@[simp] theorem setSm_own (s : State) (x : Sm) : (s.setSm x).own = s.own := rfl
@[simp] theorem setHu_own (s : State) (x : Hu) : (s.setHu x).own = s.own := rfl
@[simp] theorem setSu_own (s : State) (x : Su) : (s.setSu x).own = s.own := rfl
@[simp] theorem setRa_own (s : State) (x : Ra) : (s.setRa x).own = s.own := rfl
@[simp] theorem setCe_own (s : State) (x : Ce) : (s.setCe x).own = s.own := rfl
@[simp] theorem setLc_own (s : State) (x : Lc) : (s.setLc x).own = s.own := rfl
@[simp] theorem setRp_own (s : State) (x : Rp) : (s.setRp x).own = s.own := rfl
@[simp] theorem setNu_own (s : State) (x : Nu) : (s.setNu x).own = s.own := rfl
@[simp] theorem setAp_own (s : State) (x : Ap) : (s.setAp x).own = s.own := rfl
@[simp] theorem drawn_own (s : State) : s.drawn.own = s.own := rfl

/-! ### groupSize -/

@[simp] theorem setFc_groupSize (s : State) (x : Fc) : (s.setFc x).groupSize = s.groupSize := rfl
@[simp] theorem setSm_groupSize (s : State) (x : Sm) : (s.setSm x).groupSize = s.groupSize := rfl
@[simp] theorem setHu_groupSize (s : State) (x : Hu) : (s.setHu x).groupSize = s.groupSize := rfl
@[simp] theorem setSu_groupSize (s : State) (x : Su) : (s.setSu x).groupSize = s.groupSize := rfl
@[simp] theorem setRa_groupSize (s : State) (x : Ra) : (s.setRa x).groupSize = s.groupSize := rfl
@[simp] theorem setCe_groupSize (s : State) (x : Ce) : (s.setCe x).groupSize = s.groupSize := rfl
@[simp] theorem setLc_groupSize (s : State) (x : Lc) : (s.setLc x).groupSize = s.groupSize := rfl
@[simp] theorem setRp_groupSize (s : State) (x : Rp) : (s.setRp x).groupSize = s.groupSize := rfl
@[simp] theorem setNu_groupSize (s : State) (x : Nu) : (s.setNu x).groupSize = s.groupSize := rfl
@[simp] theorem setAp_groupSize (s : State) (x : Ap) : (s.setAp x).groupSize = s.groupSize := rfl
@[simp] theorem drawn_groupSize (s : State) : s.drawn.groupSize = s.groupSize := rfl

/-! ### originLimit -/

@[simp] theorem setFc_originLimit (s : State) (x : Fc) : (s.setFc x).originLimit = s.originLimit := rfl
@[simp] theorem setSm_originLimit (s : State) (x : Sm) : (s.setSm x).originLimit = s.originLimit := rfl
@[simp] theorem setHu_originLimit (s : State) (x : Hu) : (s.setHu x).originLimit = s.originLimit := rfl
@[simp] theorem setSu_originLimit (s : State) (x : Su) : (s.setSu x).originLimit = s.originLimit := rfl
@[simp] theorem setRa_originLimit (s : State) (x : Ra) : (s.setRa x).originLimit = s.originLimit := rfl
@[simp] theorem setCe_originLimit (s : State) (x : Ce) : (s.setCe x).originLimit = s.originLimit := rfl
@[simp] theorem setLc_originLimit (s : State) (x : Lc) : (s.setLc x).originLimit = s.originLimit := rfl
@[simp] theorem setRp_originLimit (s : State) (x : Rp) : (s.setRp x).originLimit = s.originLimit := rfl
@[simp] theorem setNu_originLimit (s : State) (x : Nu) : (s.setNu x).originLimit = s.originLimit := rfl
@[simp] theorem setAp_originLimit (s : State) (x : Ap) : (s.setAp x).originLimit = s.originLimit := rfl
@[simp] theorem drawn_originLimit (s : State) : s.drawn.originLimit = s.originLimit := rfl

/-! ### peers -/

@[simp] theorem setFc_peers (s : State) (x : Fc) : (s.setFc x).peers = s.peers := rfl
@[simp] theorem setSm_peers (s : State) (x : Sm) : (s.setSm x).peers = s.peers := rfl
@[simp] theorem setHu_peers (s : State) (x : Hu) : (s.setHu x).peers = s.peers := rfl
@[simp] theorem setSu_peers (s : State) (x : Su) : (s.setSu x).peers = s.peers := rfl
@[simp] theorem setRa_peers (s : State) (x : Ra) : (s.setRa x).peers = s.peers := rfl
@[simp] theorem setCe_peers (s : State) (x : Ce) : (s.setCe x).peers = s.peers := rfl
@[simp] theorem setLc_peers (s : State) (x : Lc) : (s.setLc x).peers = s.peers := rfl
@[simp] theorem setRp_peers (s : State) (x : Rp) : (s.setRp x).peers = s.peers := rfl
@[simp] theorem setNu_peers (s : State) (x : Nu) : (s.setNu x).peers = s.peers := rfl
@[simp] theorem setAp_peers (s : State) (x : Ap) : (s.setAp x).peers = s.peers := rfl
@[simp] theorem drawn_peers (s : State) : s.drawn.peers = s.peers := rfl

/-! ### noticeThreshold -/

@[simp] theorem setFc_noticeThreshold (s : State) (x : Fc) : (s.setFc x).noticeThreshold = s.noticeThreshold := rfl
@[simp] theorem setSm_noticeThreshold (s : State) (x : Sm) : (s.setSm x).noticeThreshold = s.noticeThreshold := rfl
@[simp] theorem setHu_noticeThreshold (s : State) (x : Hu) : (s.setHu x).noticeThreshold = s.noticeThreshold := rfl
@[simp] theorem setSu_noticeThreshold (s : State) (x : Su) : (s.setSu x).noticeThreshold = s.noticeThreshold := rfl
@[simp] theorem setRa_noticeThreshold (s : State) (x : Ra) : (s.setRa x).noticeThreshold = s.noticeThreshold := rfl
@[simp] theorem setCe_noticeThreshold (s : State) (x : Ce) : (s.setCe x).noticeThreshold = s.noticeThreshold := rfl
@[simp] theorem setLc_noticeThreshold (s : State) (x : Lc) : (s.setLc x).noticeThreshold = s.noticeThreshold := rfl
@[simp] theorem setRp_noticeThreshold (s : State) (x : Rp) : (s.setRp x).noticeThreshold = s.noticeThreshold := rfl
@[simp] theorem setNu_noticeThreshold (s : State) (x : Nu) : (s.setNu x).noticeThreshold = s.noticeThreshold := rfl
@[simp] theorem setAp_noticeThreshold (s : State) (x : Ap) : (s.setAp x).noticeThreshold = s.noticeThreshold := rfl
@[simp] theorem drawn_noticeThreshold (s : State) : s.drawn.noticeThreshold = s.noticeThreshold := rfl

/-! ### noticeDelay -/

@[simp] theorem setFc_noticeDelay (s : State) (x : Fc) : (s.setFc x).noticeDelay = s.noticeDelay := rfl
@[simp] theorem setSm_noticeDelay (s : State) (x : Sm) : (s.setSm x).noticeDelay = s.noticeDelay := rfl
@[simp] theorem setHu_noticeDelay (s : State) (x : Hu) : (s.setHu x).noticeDelay = s.noticeDelay := rfl
@[simp] theorem setSu_noticeDelay (s : State) (x : Su) : (s.setSu x).noticeDelay = s.noticeDelay := rfl
@[simp] theorem setRa_noticeDelay (s : State) (x : Ra) : (s.setRa x).noticeDelay = s.noticeDelay := rfl
@[simp] theorem setCe_noticeDelay (s : State) (x : Ce) : (s.setCe x).noticeDelay = s.noticeDelay := rfl
@[simp] theorem setLc_noticeDelay (s : State) (x : Lc) : (s.setLc x).noticeDelay = s.noticeDelay := rfl
@[simp] theorem setRp_noticeDelay (s : State) (x : Rp) : (s.setRp x).noticeDelay = s.noticeDelay := rfl
@[simp] theorem setNu_noticeDelay (s : State) (x : Nu) : (s.setNu x).noticeDelay = s.noticeDelay := rfl
@[simp] theorem setAp_noticeDelay (s : State) (x : Ap) : (s.setAp x).noticeDelay = s.noticeDelay := rfl
@[simp] theorem drawn_noticeDelay (s : State) : s.drawn.noticeDelay = s.noticeDelay := rfl

/-! ### entry -/

@[simp] theorem setSc_entry (s : State) (x : Sc) (o : Nat) : (s.setSc x).entry o = s.entry o := rfl
@[simp] theorem setFc_entry (s : State) (x : Fc) (o : Nat) : (s.setFc x).entry o = s.entry o := rfl
@[simp] theorem setSm_entry (s : State) (x : Sm) (o : Nat) : (s.setSm x).entry o = s.entry o := rfl
@[simp] theorem setSu_entry (s : State) (x : Su) (o : Nat) : (s.setSu x).entry o = s.entry o := rfl
@[simp] theorem setRa_entry (s : State) (x : Ra) (o : Nat) : (s.setRa x).entry o = s.entry o := rfl
@[simp] theorem setCe_entry (s : State) (x : Ce) (o : Nat) : (s.setCe x).entry o = s.entry o := rfl
@[simp] theorem setLc_entry (s : State) (x : Lc) (o : Nat) : (s.setLc x).entry o = s.entry o := rfl
@[simp] theorem setRp_entry (s : State) (x : Rp) (o : Nat) : (s.setRp x).entry o = s.entry o := rfl
@[simp] theorem setNu_entry (s : State) (x : Nu) (o : Nat) : (s.setNu x).entry o = s.entry o := rfl
@[simp] theorem setAp_entry (s : State) (x : Ap) (o : Nat) : (s.setAp x).entry o = s.entry o := rfl
@[simp] theorem drawn_entry (s : State) (o : Nat) : s.drawn.entry o = s.entry o := rfl

/-! ### row -/

@[simp] theorem setSc_row (s : State) (x : Sc) (p : Nat) : (s.setSc x).row p = s.row p := rfl
@[simp] theorem setFc_row (s : State) (x : Fc) (p : Nat) : (s.setFc x).row p = s.row p := rfl
@[simp] theorem setSm_row (s : State) (x : Sm) (p : Nat) : (s.setSm x).row p = s.row p := rfl
@[simp] theorem setSu_row (s : State) (x : Su) (p : Nat) : (s.setSu x).row p = s.row p := rfl
@[simp] theorem setRa_row (s : State) (x : Ra) (p : Nat) : (s.setRa x).row p = s.row p := rfl
@[simp] theorem setCe_row (s : State) (x : Ce) (p : Nat) : (s.setCe x).row p = s.row p := rfl
@[simp] theorem setLc_row (s : State) (x : Lc) (p : Nat) : (s.setLc x).row p = s.row p := rfl
@[simp] theorem setRp_row (s : State) (x : Rp) (p : Nat) : (s.setRp x).row p = s.row p := rfl
@[simp] theorem setNu_row (s : State) (x : Nu) (p : Nat) : (s.setNu x).row p = s.row p := rfl
@[simp] theorem setAp_row (s : State) (x : Ap) (p : Nat) : (s.setAp x).row p = s.row p := rfl
@[simp] theorem drawn_row (s : State) (p : Nat) : s.drawn.row p = s.row p := rfl

/-! ### cell -/

@[simp] theorem setSc_cell (s : State) (x : Sc) (p : Nat) (o : Nat) : (s.setSc x).cell p o = s.cell p o := rfl
@[simp] theorem setFc_cell (s : State) (x : Fc) (p : Nat) (o : Nat) : (s.setFc x).cell p o = s.cell p o := rfl
@[simp] theorem setSm_cell (s : State) (x : Sm) (p : Nat) (o : Nat) : (s.setSm x).cell p o = s.cell p o := rfl
@[simp] theorem setSu_cell (s : State) (x : Su) (p : Nat) (o : Nat) : (s.setSu x).cell p o = s.cell p o := rfl
@[simp] theorem setRa_cell (s : State) (x : Ra) (p : Nat) (o : Nat) : (s.setRa x).cell p o = s.cell p o := rfl
@[simp] theorem setCe_cell (s : State) (x : Ce) (p : Nat) (o : Nat) : (s.setCe x).cell p o = s.cell p o := rfl
@[simp] theorem setLc_cell (s : State) (x : Lc) (p : Nat) (o : Nat) : (s.setLc x).cell p o = s.cell p o := rfl
@[simp] theorem setRp_cell (s : State) (x : Rp) (p : Nat) (o : Nat) : (s.setRp x).cell p o = s.cell p o := rfl
@[simp] theorem setNu_cell (s : State) (x : Nu) (p : Nat) (o : Nat) : (s.setNu x).cell p o = s.cell p o := rfl
@[simp] theorem setAp_cell (s : State) (x : Ap) (p : Nat) (o : Nat) : (s.setAp x).cell p o = s.cell p o := rfl
@[simp] theorem drawn_cell (s : State) (p : Nat) (o : Nat) : s.drawn.cell p o = s.cell p o := rfl

/-! ### presenceOf -/

@[simp] theorem setSc_presenceOf (s : State) (x : Sc) (p : Nat) : (s.setSc x).presenceOf p = s.presenceOf p := rfl
@[simp] theorem setFc_presenceOf (s : State) (x : Fc) (p : Nat) : (s.setFc x).presenceOf p = s.presenceOf p := rfl
@[simp] theorem setSm_presenceOf (s : State) (x : Sm) (p : Nat) : (s.setSm x).presenceOf p = s.presenceOf p := rfl
@[simp] theorem setSu_presenceOf (s : State) (x : Su) (p : Nat) : (s.setSu x).presenceOf p = s.presenceOf p := rfl
@[simp] theorem setRa_presenceOf (s : State) (x : Ra) (p : Nat) : (s.setRa x).presenceOf p = s.presenceOf p := rfl
@[simp] theorem setCe_presenceOf (s : State) (x : Ce) (p : Nat) : (s.setCe x).presenceOf p = s.presenceOf p := rfl
@[simp] theorem setLc_presenceOf (s : State) (x : Lc) (p : Nat) : (s.setLc x).presenceOf p = s.presenceOf p := rfl
@[simp] theorem setRp_presenceOf (s : State) (x : Rp) (p : Nat) : (s.setRp x).presenceOf p = s.presenceOf p := rfl
@[simp] theorem setNu_presenceOf (s : State) (x : Nu) (p : Nat) : (s.setNu x).presenceOf p = s.presenceOf p := rfl
@[simp] theorem setAp_presenceOf (s : State) (x : Ap) (p : Nat) : (s.setAp x).presenceOf p = s.presenceOf p := rfl
@[simp] theorem drawn_presenceOf (s : State) (p : Nat) : s.drawn.presenceOf p = s.presenceOf p := rfl

/-! ### ownTop -/

@[simp] theorem setFc_ownTop (s : State) (x : Fc) : (s.setFc x).ownTop = s.ownTop := rfl
@[simp] theorem setSm_ownTop (s : State) (x : Sm) : (s.setSm x).ownTop = s.ownTop := rfl
@[simp] theorem setSu_ownTop (s : State) (x : Su) : (s.setSu x).ownTop = s.ownTop := rfl
@[simp] theorem setRa_ownTop (s : State) (x : Ra) : (s.setRa x).ownTop = s.ownTop := rfl
@[simp] theorem setCe_ownTop (s : State) (x : Ce) : (s.setCe x).ownTop = s.ownTop := rfl
@[simp] theorem setLc_ownTop (s : State) (x : Lc) : (s.setLc x).ownTop = s.ownTop := rfl
@[simp] theorem setRp_ownTop (s : State) (x : Rp) : (s.setRp x).ownTop = s.ownTop := rfl
@[simp] theorem setNu_ownTop (s : State) (x : Nu) : (s.setNu x).ownTop = s.ownTop := rfl
@[simp] theorem setAp_ownTop (s : State) (x : Ap) : (s.setAp x).ownTop = s.ownTop := rfl
@[simp] theorem drawn_ownTop (s : State) : s.drawn.ownTop = s.ownTop := rfl

/-! ### counter -/

@[simp] theorem setSc_counter (s : State) (x : Sc) (c : Counter) : (s.setSc x).counter c = s.counter c := rfl
@[simp] theorem setFc_counter (s : State) (x : Fc) (c : Counter) : (s.setFc x).counter c = s.counter c := rfl
@[simp] theorem setSm_counter (s : State) (x : Sm) (c : Counter) : (s.setSm x).counter c = s.counter c := rfl
@[simp] theorem setHu_counter (s : State) (x : Hu) (c : Counter) : (s.setHu x).counter c = s.counter c := rfl
@[simp] theorem setSu_counter (s : State) (x : Su) (c : Counter) : (s.setSu x).counter c = s.counter c := rfl
@[simp] theorem setRa_counter (s : State) (x : Ra) (c : Counter) : (s.setRa x).counter c = s.counter c := rfl
@[simp] theorem setCe_counter (s : State) (x : Ce) (c : Counter) : (s.setCe x).counter c = s.counter c := rfl
@[simp] theorem setLc_counter (s : State) (x : Lc) (c : Counter) : (s.setLc x).counter c = s.counter c := rfl
@[simp] theorem setRp_counter (s : State) (x : Rp) (c : Counter) : (s.setRp x).counter c = s.counter c := rfl
@[simp] theorem setNu_counter (s : State) (x : Nu) (c : Counter) : (s.setNu x).counter c = s.counter c := rfl
@[simp] theorem drawn_counter (s : State) (c : Counter) : s.drawn.counter c = s.counter c := rfl

end Sys2Proof.Machine.State
end

