-- ==== Sys2Proof/Laws/Entries.lean ====
section
/-! SUPPORT. Holdings entries: the operations of chapter 5 keep the form of R78, and what they settle. -/

namespace Sys2Proof.Machine

open Sys2Proof.Safety

/-! ## Gap lists -/

theorem gapsOk_cons {lo top : Nat} {g : Range} {gs : List Range} :
    gapsOk lo top (g :: gs) = true ↔ lo ≤ g.lo ∧ g.lo ≤ g.hi ∧ g.hi < top ∧ gapsOk (g.hi + 2) top gs = true := by
  simp [gapsOk, and_assoc]

theorem gapsOk_mono {lo lo' top : Nat} (h : lo ≤ lo') : {gs : List Range} → gapsOk lo' top gs = true →
    gapsOk lo top gs = true
  | [], _ => rfl
  | g :: gs, w => by
    rw [gapsOk_cons] at w ⊢
    exact ⟨Nat.le_trans h w.1, w.2⟩

/-- Every range of the list ends below the top. -/
theorem hi_lt_top {lo top : Nat} : {gs : List Range} → gapsOk lo top gs = true → ∀ g ∈ gs, lo ≤ g.lo ∧ g.lo ≤ g.hi ∧ g.hi < top
  | [], _, g, h => by cases h
  | g :: gs, w, g', h => by
    rw [gapsOk_cons] at w
    rcases List.mem_cons.mp h with rfl | h
    · exact ⟨w.1, w.2.1, w.2.2.1⟩
    · have := hi_lt_top w.2.2.2 g' h
      exact ⟨by omega, this.2⟩

/-- R82: a gap appended above the top. -/
theorem gapsOk_append {lo top a b : Nat} (hlo : lo ≤ top + 1) (ha : top < a) (hab : a ≤ b) : {gs : List Range} →
    gapsOk lo top gs = true → gapsOk lo b (gs ++ rangeOf (top + 1) (a - 1)) = true
  | [], _ => by
    unfold rangeOf
    split
    · rw [List.nil_append, gapsOk_cons]
      exact ⟨hlo, by assumption, by show a - 1 < b; omega, rfl⟩
    · rfl
  | g :: gs, w => by
    rw [gapsOk_cons] at w
    rw [List.cons_append, gapsOk_cons]
    exact ⟨w.1, w.2.1, by omega, gapsOk_append (by omega) ha hab w.2.2.2⟩

theorem gapsOk_without {lo top a b : Nat} {g : Range} {rest : List Range} (h1 : lo ≤ g.lo) (h2 : g.lo ≤ g.hi)
    (h3 : g.hi < top) (hab : a ≤ b) (hr : gapsOk (g.hi + 2) top rest = true) :
    gapsOk lo top (g.without a b ++ rest) = true := by
  unfold Range.without
  split
  · rename_i h
    have key : gapsOk (b + 1) top ((if b < g.hi then [{ lo := b + 1, hi := g.hi : Range }] else []) ++ rest) = true := by
      split
      · rw [List.singleton_append, gapsOk_cons]
        exact ⟨Nat.le_refl _, by show b + 1 ≤ g.hi; omega, h3, hr⟩
      · exact gapsOk_mono (by omega) hr
    rw [List.append_assoc]
    split
    · rw [List.singleton_append, gapsOk_cons]
      exact ⟨h1, by show g.lo ≤ a - 1; omega, by show a - 1 < top; omega, gapsOk_mono (by show a - 1 + 2 ≤ b + 1; omega) key⟩
    · exact gapsOk_mono (by omega) key
  · rw [List.singleton_append, gapsOk_cons]
    exact ⟨h1, h2, h3, hr⟩

/-- R82: the list with a run of one gap settled. -/
theorem gapsOk_flatMap_without {lo top a b : Nat} (hab : a ≤ b) : {gs : List Range} → gapsOk lo top gs = true →
    gapsOk lo top (gs.flatMap fun g => g.without a b) = true
  | [], _ => rfl
  | g :: gs, w => by
    rw [gapsOk_cons] at w
    rw [List.flatMap_cons]
    exact gapsOk_without w.1 w.2.1 w.2.2.1 hab (gapsOk_flatMap_without hab w.2.2.2)

/-- R88: the list with what lies below `floor` cut off. -/
theorem gapsOk_raise {lo top floor : Nat} : {gs : List Range} → gapsOk lo top gs = true →
    gapsOk (max floor lo) top (gs.filterMap fun g =>
      if g.hi < floor then none else if g.lo < floor then some { lo := floor, hi := g.hi } else some g) = true
  | [], _ => rfl
  | g :: gs, w => by
    rw [gapsOk_cons] at w
    have ih := gapsOk_raise (floor := floor) w.2.2.2
    by_cases h1 : g.hi < floor
    · rw [List.filterMap_cons_none (by simp [h1])]
      exact gapsOk_mono (by omega) ih
    · by_cases h2 : g.lo < floor
      · rw [List.filterMap_cons_some (b := { lo := floor, hi := g.hi }) (by simp [h1, h2]), gapsOk_cons]
        exact ⟨by show max floor lo ≤ floor; omega, by show floor ≤ g.hi; omega, w.2.2.1,
          gapsOk_mono (by show g.hi + 2 ≤ max floor (g.hi + 2); omega) ih⟩
      · rw [List.filterMap_cons_some (b := g) (by simp [h1, h2]), gapsOk_cons]
        exact ⟨by omega, w.2.1, w.2.2.1, gapsOk_mono (by omega) ih⟩

/-! ## Entries -/

theorem entryOk_iff {e : Entry} : entryOk e = true ↔
    1 ≤ e.floor ∧ e.floor ≤ e.top + 1 ∧ gapsOk e.floor e.top e.gaps = true ∧ e.gaps.length ≤ Config.maxGaps := by
  simp [entryOk, and_assoc]

theorem entryOk_reset : entryOk Entry.reset = true := rfl

/-- R82: settling a run that R82 admits keeps the form. -/
theorem entryOk_settle {e : Entry} {a b : Nat} (w : entryOk e = true) (hab : a ≤ b) (hr : e.unsettledRun a b = true)
    (ho : e.overflows a b = false) : entryOk (e.settle a b) = true := by
  rw [entryOk_iff] at w
  have hl : (e.settle a b).gaps.length ≤ Config.maxGaps := by simpa [Entry.overflows] using ho
  have hf : e.floor ≤ a := by
    simp [Entry.unsettledRun] at hr
    exact hr.1
  unfold Entry.settle at hl ⊢
  split at hl
  · rename_i h
    rw [if_pos h, entryOk_iff]
    exact ⟨w.1, by show e.floor ≤ b + 1; omega, gapsOk_append w.2.1 h hab w.2.2.1, hl⟩
  · rename_i h
    rw [if_neg h, entryOk_iff]
    exact ⟨w.1, w.2.1, gapsOk_flatMap_without hab w.2.2.1, hl⟩

theorem top_le_settle (e : Entry) {a b : Nat} (hab : a ≤ b) : e.top ≤ (e.settle a b).top := by
  unfold Entry.settle
  split
  · show e.top ≤ b
    omega
  · exact Nat.le_refl _

/-- R88: a floor raise keeps the form. -/
theorem entryOk_raiseFloor {e : Entry} (w : entryOk e = true) (f : Nat) : entryOk (e.raiseFloor f) = true := by
  have w0 := w
  rw [entryOk_iff] at w
  unfold Entry.raiseFloor
  simp only
  split
  · exact w0
  · split
    · rw [entryOk_iff]
      refine ⟨?_, ?_, rfl, Nat.zero_le _⟩
      · show 1 ≤ max e.floor (min f Config.maxSeq); omega
      · show max e.floor (min f Config.maxSeq) ≤ max e.floor (min f Config.maxSeq) - 1 + 1; omega
    · rw [entryOk_iff]
      refine ⟨?_, ?_, gapsOk_mono (by show max e.floor (min f Config.maxSeq) ≤ _; exact Nat.le_max_left ..)
        (gapsOk_raise (floor := max e.floor (min f Config.maxSeq)) w.2.2.1), ?_⟩
      · show 1 ≤ max e.floor (min f Config.maxSeq); omega
      · show max e.floor (min f Config.maxSeq) ≤ e.top + 1; omega
      · exact Nat.le_trans (List.length_filterMap_le ..) w.2.2.2

theorem top_le_raiseFloor (e : Entry) (f : Nat) : e.top ≤ (e.raiseFloor f).top := by
  unfold Entry.raiseFloor
  simp only
  split
  · exact Nat.le_refl _
  · split
    · show e.top ≤ max e.floor (min f Config.maxSeq) - 1; omega
    · exact Nat.le_refl _

theorem gaps_raiseFloor_nil {e : Entry} (h : e.gaps = []) (f : Nat) : (e.raiseFloor f).gaps = [] := by
  unfold Entry.raiseFloor
  simp only
  split
  · exact h
  · split
    · rfl
    · simp [h]

/-- R94: the adopted entry has the form. -/
theorem entryOk_adopted (c : Nat) : entryOk (adoptedEntry c) = true := by
  unfold adoptedEntry
  split
  · rfl
  · rw [entryOk_iff]
    exact ⟨by show 1 ≤ c + 1; omega, Nat.le_refl _, rfl, Nat.zero_le _⟩

theorem gaps_adopted (c : Nat) : (adoptedEntry c).gaps = [] := by unfold adoptedEntry; split <;> rfl

theorem top_adopted (c : Nat) : (adoptedEntry c).top = c := by
  unfold adoptedEntry
  split
  · rename_i h; exact h.symm
  · rfl

/-- R87: an own commit that settles keeps the form, has no gap if there was none, and raises T. -/
theorem commitOwn_spec {e e' : Entry} {n : Nat} (h : e.commitOwn n = some e') (w : entryOk e = true) (g : e.gaps = []) :
    entryOk e' = true ∧ e'.gaps = [] := by
  rw [entryOk_iff] at w
  unfold Entry.commitOwn at h
  split at h
  · cases h
  · split at h
    · cases h
      refine ⟨?_, g⟩
      rw [entryOk_iff]
      refine ⟨w.1, ?_, ?_, w.2.2.2⟩
      · show e.floor ≤ n + 1; omega
      · show gapsOk e.floor n e.gaps = true
        rw [g]; rfl
    · cases h
      refine ⟨?_, rfl⟩
      rw [entryOk_iff]
      exact ⟨by show 1 ≤ n; omega, Nat.le_succ n, rfl, Nat.zero_le _⟩

theorem top_commitOwn {e e' : Entry} {n : Nat} (h : e.commitOwn n = some e') : e.top ≤ e'.top := by
  unfold Entry.commitOwn at h
  split at h
  · cases h
  · split at h <;> · cases h; show e.top ≤ n; omega

/-- R84: what an acceptable number is. -/
theorem acceptance_none {s : State} {o n : Nat} (h : s.acceptance o n = none) :
    o ≠ s.own ∧ (s.entry o).unsettledRun n n = true ∧ (s.entry o).overflows n n = false ∧ (s.entry o).settled n = false
      ∧ s.isPending o n = false := by
  unfold State.acceptance at h
  simp only at h
  split at h
  · cases h
  · rename_i h1
    split at h
    · cases h
    · rename_i h2
      split at h
      · cases h
      · rename_i h3
        split at h
        · cases h
        · split at h
          · cases h
          · rename_i h5
            simp only [Bool.or_eq_true, not_or, Bool.not_eq_true] at h3
            refine ⟨by simpa using h1, ?_, by simpa using h5, h3.1, h3.2⟩
            have hs := h3.1
            simp only [Entry.settled, Entry.inGap] at hs
            simp only [Entry.unsettledRun, Bool.and_eq_true, Bool.or_eq_true, decide_eq_true_eq]
            refine ⟨by omega, ?_⟩
            by_cases ht : (s.entry o).top < n
            · exact .inl ht
            · right
              have a1 : decide ((s.entry o).floor ≤ n) = true := by simp; omega
              have a2 : decide (n ≤ (s.entry o).top) = true := by simp; omega
              rw [a1, a2] at hs
              simpa using hs

end Sys2Proof.Machine
end

