-- ==== Sys2Proof/Laws/Memory.lean ====
section
/-! SUPPORT. The memory of the array: every operation keeps the canonical form, and what one byte reads after each. -/

namespace Sys2Proof.Machine.Memory

/-! ## The canonical form -/

theorem wfFrom_nil (lo : Nat) : wfFrom lo [] = true := rfl

theorem wfFrom_cons {lo k : Nat} {b : Byte} {m : Memory} :
    wfFrom lo ((k, b) :: m) = true ↔
      lo ≤ k ∧ k < Config.arrayBytes ∧ b ≠ 0xFF#8 ∧ wfFrom (k + 1) m = true := by
  simp [wfFrom, and_assoc]

theorem wfFrom_mono {lo lo' : Nat} (h : lo ≤ lo') : {m : Memory} → wfFrom lo' m = true → wfFrom lo m = true
  | [], _ => rfl
  | (k, b) :: m, w => by
    rw [wfFrom_cons] at w ⊢
    exact ⟨Nat.le_trans h w.1, w.2⟩

theorem le_of_mem {lo : Nat} : {m : Memory} → wfFrom lo m = true → ∀ c ∈ m, lo ≤ c.1
  | [], _, c, h => by cases h
  | (k, b) :: m, w, c, h => by
    rw [wfFrom_cons] at w
    rcases List.mem_cons.mp h with rfl | h
    · exact w.1
    · exact Nat.le_trans (Nat.le_succ_of_le w.1) (le_of_mem w.2.2.2 c h)

theorem wfFrom_filter {lo : Nat} (p : Host.Cell → Bool) : {m : Memory} → wfFrom lo m = true →
    wfFrom lo (m.filter p) = true
  | [], _ => rfl
  | (k, b) :: m, w => by
    rw [wfFrom_cons] at w
    have ih := wfFrom_filter p w.2.2.2
    by_cases h : p (k, b)
    · rw [List.filter_cons_of_pos h, wfFrom_cons]
      exact ⟨w.1, w.2.1, w.2.2.1, ih⟩
    · rw [List.filter_cons_of_neg h]
      exact wfFrom_mono (Nat.le_succ_of_le w.1) ih

theorem wfFrom_append {lo mid : Nat} {r : Memory} (h : lo ≤ mid) (hr : wfFrom mid r = true) : {l : Memory} →
    wfFrom lo l = true → (∀ c ∈ l, c.1 < mid) → wfFrom lo (l ++ r) = true
  | [], _, _ => wfFrom_mono h hr
  | (k, b) :: l, w, hl => by
    rw [wfFrom_cons] at w
    rw [List.cons_append, wfFrom_cons]
    have hk : k < mid := hl (k, b) (List.mem_cons_self ..)
    exact ⟨w.1, w.2.1, w.2.2.1, wfFrom_append hk hr w.2.2.2 fun c hc => hl c (List.mem_cons_of_mem _ hc)⟩

theorem wfFrom_cellsFrom : (a : Nat) → (bs : List Byte) → wfFrom a (cellsFrom a bs) = true
  | _, [] => rfl
  | a, b :: bs => by
    unfold cellsFrom
    have ih := wfFrom_cellsFrom (a + 1) bs
    split
    · rename_i h
      rw [wfFrom_cons]
      exact ⟨Nat.le_refl a, h.2, h.1, ih⟩
    · exact wfFrom_mono (Nat.le_succ a) ih

theorem lt_of_mem_cellsFrom : (a : Nat) → (bs : List Byte) → ∀ c ∈ cellsFrom a bs, c.1 < a + bs.length
  | _, [], c, h => by cases h
  | a, b :: bs, c, h => by
    unfold cellsFrom at h
    have ih := lt_of_mem_cellsFrom (a + 1) bs
    simp only [List.length_cons]
    split at h
    · rcases List.mem_cons.mp h with rfl | h
      · exact Nat.lt_add_of_pos_right (Nat.succ_pos _)
      · have := ih c h; omega
    · have := ih c h; omega

/-- Raising the lower end of a form past which nothing is listed. -/
theorem wfFrom_raise {lo mid : Nat} : {m : Memory} → wfFrom lo m = true → (∀ c ∈ m, mid ≤ c.1) → wfFrom mid m = true
  | [], _, _ => rfl
  | (k, b) :: m, w, h => by
    rw [wfFrom_cons] at w ⊢
    exact ⟨h (k, b) (List.mem_cons_self ..), w.2⟩

/-- Writing bytes keeps the canonical form. -/
theorem wf_writeRange {m : Memory} (h : m.wf = true) (a : Nat) (bs : List Byte) : (m.writeRange a bs).wf = true := by
  unfold writeRange wf
  rw [List.append_assoc]
  have h1 := wfFrom_filter (fun c => decide (c.1 < a)) h
  have h2 := wfFrom_filter (fun c => decide (a + bs.length ≤ c.1)) h
  have h3 : wfFrom (a + bs.length) (m.filter fun c => decide (a + bs.length ≤ c.1)) = true :=
    wfFrom_raise h2 (by simp)
  refine wfFrom_append (mid := a) (Nat.zero_le a) ?_ h1 (by simp)
  exact wfFrom_append (mid := a + bs.length) (Nat.le_add_right ..) h3 (wfFrom_cellsFrom a bs)
    (lt_of_mem_cellsFrom a bs)

/-- Erasing bytes keeps the canonical form. -/
theorem wf_eraseRange {m : Memory} (h : m.wf = true) (a n : Nat) : (m.eraseRange a n).wf = true := wfFrom_filter _ h

theorem wfFrom_insert {lo : Nat} {a : Nat} {b : Byte} (ha : a < Config.arrayBytes) : {m : Memory} → lo ≤ a →
    wfFrom lo m = true → wfFrom lo (m.insert a b) = true
  | [], h, _ => by
    unfold insert
    split
    · rfl
    · rename_i hb
      rw [wfFrom_cons]
      exact ⟨h, ha, hb, rfl⟩
  | (k, c) :: m, h, w => by
    have w0 := w
    rw [wfFrom_cons] at w
    unfold insert
    split
    · rename_i hk
      rw [wfFrom_cons]
      exact ⟨w.1, w.2.1, w.2.2.1, wfFrom_insert ha hk w.2.2.2⟩
    · split
      · rename_i _ hk
        subst hk
        split
        · exact wfFrom_mono (Nat.le_succ_of_le w.1) w.2.2.2
        · rename_i hb
          rw [wfFrom_cons]
          exact ⟨h, ha, hb, w.2.2.2⟩
      · rename_i h1 h2
        split
        · exact w0
        · rename_i hb
          rw [wfFrom_cons, wfFrom_cons]
          exact ⟨h, ha, hb, by omega, w.2.1, w.2.2.1, w.2.2.2⟩

/-- Writing one byte keeps the canonical form. -/
theorem wf_write {m : Memory} (h : m.wf = true) (a : Nat) (b : Byte) : (m.write a b).wf = true := by
  unfold write
  split
  · rename_i ha
    exact wfFrom_insert ha (Nat.zero_le a) h
  · exact h

theorem wf_programPage {m : Memory} (h : m.wf = true) (p : PageAddr) (image : List Byte) :
    (m.programPage p image).wf = true := wf_writeRange h ..

theorem wf_markBlock {m : Memory} (h : m.wf = true) (b : Nat) (v : Byte) : (m.markBlock b v).wf = true := wf_write h ..

theorem wf_erasePages {m : Memory} (h : m.wf = true) (b first count : Nat) : (m.erasePages b first count).wf = true :=
  wf_eraseRange h ..

theorem wf_scramblePages {m : Memory} (h : m.wf = true) (b d : Nat) : (m.scramblePages b d).wf = true := wf_writeRange h ..

theorem wf_tearPage {m : Memory} (h : m.wf = true) (p : PageAddr) (d : Nat) : (m.tearPage p d).wf = true :=
  wf_writeRange h ..

theorem wf_markFails {m : Memory} (h : m.wf = true) (b : Nat) (v : Byte) (d : Nat) : (m.markFails b v d).wf = true :=
  wf_markBlock h ..

theorem wf_cutShort {m : Memory} (h : m.wf = true) (d : Nat) (op : Op) : (m.cutShort d op).wf = true := by
  cases op with
  | scanSpareRead p => exact h
  | scanPageRead p => exact h
  | lookupRead who kind p => exact h
  | transfer c => exact h
  | program c =>
    rw [cutShort]
    split
    · exact wf_tearPage h ..
    · exact h
  | scanMark b v =>
    rw [cutShort]
    split
    · exact wf_markBlock h ..
    · exact h
  | mark b v =>
    rw [cutShort]
    split
    · exact wf_markBlock h ..
    · exact h
  | scanErase b =>
    rw [cutShort]
    split
    · exact wf_scramblePages (wf_erasePages h ..) ..
    · exact h
  | erase b =>
    rw [cutShort]
    split
    · exact wf_scramblePages (wf_erasePages h ..) ..
    · exact h

/-! ## What one byte reads -/

theorem read_cons {k a : Nat} {b : Byte} {m : Memory} :
    read ((k, b) :: m) a = if k = a then b else if a < k then 0xFF#8 else m.read a := rfl

/-- Below every listed address a byte reads FFh. -/
theorem read_below {lo a : Nat} : {m : Memory} → wfFrom lo m = true → a < lo → m.read a = 0xFF#8
  | [], _, _ => rfl
  | (k, b) :: m, w, h => by
    rw [wfFrom_cons] at w
    rw [read_cons, if_neg (by omega), if_pos (by omega)]

/-- A filter that keeps address `a` keeps what it reads. -/
theorem read_filter_keep {lo a : Nat} (p : Nat → Bool) (hp : p a = true) : {m : Memory} → wfFrom lo m = true →
    read (m.filter fun c => p c.1) a = m.read a
  | [], _ => rfl
  | (k, b) :: m, w => by
    rw [wfFrom_cons] at w
    have ih := read_filter_keep p hp w.2.2.2
    by_cases h : p k = true
    · rw [List.filter_cons_of_pos (by exact h), read_cons, read_cons, ih]
    · rw [List.filter_cons_of_neg (by exact h), ih, read_cons]
      have hk : k ≠ a := by intro e; subst e; exact h hp
      rw [if_neg hk]
      split
      · rename_i hlt
        exact read_below w.2.2.2 (by omega)
      · rfl

/-- A filter that drops address `a` leaves it reading FFh. -/
theorem read_filter_drop {a : Nat} (p : Nat → Bool) (hp : p a = false) : {m : Memory} →
    read (m.filter fun c => p c.1) a = 0xFF#8
  | [] => rfl
  | (k, b) :: m => by
    have ih := read_filter_drop p hp (m := m)
    by_cases h : p k = true
    · rw [List.filter_cons_of_pos (by exact h), read_cons, ih]
      have hk : k ≠ a := by intro e; subst e; rw [hp] at h; cases h
      rw [if_neg hk]
      split <;> rfl
    · rw [List.filter_cons_of_neg (by exact h), ih]

/-- Reading past the end of what `l` lists. -/
theorem read_append_right {mid a : Nat} {r : Memory} (ha : mid ≤ a) : {l : Memory} → (∀ c ∈ l, c.1 < mid) →
    read (l ++ r) a = r.read a
  | [], _ => rfl
  | (k, b) :: l, h => by
    have hk : k < mid := h (k, b) (List.mem_cons_self ..)
    rw [List.cons_append, read_cons, if_neg (by omega), if_neg (by omega)]
    exact read_append_right ha fun c hc => h c (List.mem_cons_of_mem _ hc)

/-- Reading below everything that `r` lists. -/
theorem read_append_left {mid a : Nat} {r : Memory} (hr : wfFrom mid r = true) (ha : a < mid) : {l : Memory} →
    read (l ++ r) a = l.read a
  | [] => by rw [List.nil_append, read_below hr ha]; rfl
  | (k, b) :: l => by
    rw [List.cons_append, read_cons, read_cons, read_append_left hr ha]

theorem read_cellsFrom : (a : Nat) → (bs : List Byte) → (i : Nat) → i < bs.length → a + i < Config.arrayBytes →
    read (cellsFrom a bs) (a + i) = bs[i]?.getD 0xFF#8
  | _, [], i, h, _ => absurd h (Nat.not_lt_zero i)
  | a, b :: bs, 0, _, ha => by
    unfold cellsFrom
    by_cases hb : b = 0xFF#8
    · rw [if_neg (by simp [hb])]
      rw [read_below (wfFrom_cellsFrom (a + 1) bs) (by omega)]
      simp [hb]
    · rw [if_pos ⟨hb, by omega⟩, read_cons, if_pos (by omega)]
      simp
  | a, b :: bs, i + 1, h, ha => by
    have ih := read_cellsFrom (a + 1) bs i (by simpa using h) (by omega)
    have e : a + (i + 1) = a + 1 + i := by omega
    unfold cellsFrom
    split
    · rw [read_cons, if_neg (by omega), if_neg (by omega), e, ih]
      simp
    · rw [e, ih]
      simp

/-- A byte outside a written range reads as before. -/
theorem read_writeRange_outside {m : Memory} (h : m.wf = true) (a : Nat) (bs : List Byte) {x : Nat}
    (hx : x < a ∨ a + bs.length ≤ x) : (m.writeRange a bs).read x = m.read x := by
  unfold writeRange
  rw [List.append_assoc]
  have h2 : wfFrom (a + bs.length) (m.filter fun c => decide (a + bs.length ≤ c.1)) = true :=
    wfFrom_raise (wfFrom_filter _ h) (by simp)
  have h3 : wfFrom a (cellsFrom a bs ++ m.filter fun c => decide (a + bs.length ≤ c.1)) = true :=
    wfFrom_append (Nat.le_add_right ..) h2 (wfFrom_cellsFrom a bs) (lt_of_mem_cellsFrom a bs)
  rcases hx with hx | hx
  · rw [read_append_left h3 hx]
    exact read_filter_keep (fun k => decide (k < a)) (by simpa using hx) h
  · rw [read_append_right (mid := a) (by omega) (by simp),
      read_append_right (mid := a + bs.length) hx (lt_of_mem_cellsFrom a bs)]
    exact read_filter_keep (fun k => decide (a + bs.length ≤ k)) (by simpa using hx) h

/-- A byte of a written range reads as written. -/
theorem read_writeRange_inside {m : Memory} (h : m.wf = true) (a : Nat) (bs : List Byte) {i : Nat} (hi : i < bs.length)
    (ha : a + i < Config.arrayBytes) : (m.writeRange a bs).read (a + i) = bs[i]?.getD 0xFF#8 := by
  unfold writeRange
  rw [List.append_assoc]
  have h2 : wfFrom (a + bs.length) (m.filter fun c => decide (a + bs.length ≤ c.1)) = true :=
    wfFrom_raise (wfFrom_filter _ h) (by simp)
  rw [read_append_right (mid := a) (Nat.le_add_right ..) (by simp),
    read_append_left h2 (Nat.add_lt_add_left hi a), read_cellsFrom a bs i hi ha]

/-- A byte outside an erased range reads as before. -/
theorem read_eraseRange_outside {m : Memory} (h : m.wf = true) {a n x : Nat} (hx : x < a ∨ a + n ≤ x) :
    (m.eraseRange a n).read x = m.read x :=
  read_filter_keep (fun k => decide (k < a) || decide (a + n ≤ k)) (by simpa using hx) h

/-- A byte of an erased range reads FFh. -/
theorem read_eraseRange_inside {m : Memory} {a n x : Nat} (h1 : a ≤ x) (h2 : x < a + n) :
    (m.eraseRange a n).read x = 0xFF#8 :=
  read_filter_drop (fun k => decide (k < a) || decide (a + n ≤ k)) (by simp; omega)

theorem read_insert {lo a : Nat} {b : Byte} (x : Nat) : {m : Memory} → wfFrom lo m = true →
    (m.insert a b).read x = if a = x then b else m.read x
  | [], _ => by
    unfold insert
    split
    · rename_i hb
      split
      · rw [hb]; rfl
      · rfl
    · rw [read_cons]
      split
      · rfl
      · split <;> rfl
  | (k, c) :: m, w => by
    rw [wfFrom_cons] at w
    have ih := read_insert (a := a) (b := b) x w.2.2.2
    unfold insert
    split
    · rename_i hk
      rw [read_cons, ih, read_cons]
      split
      · rename_i e; rw [if_neg (by omega)]
      · split
        · rename_i e; rw [if_neg (by omega)]
        · rfl
    · split
      · rename_i _ hk
        subst hk
        split
        · rename_i hb
          rw [read_cons]
          split
          · rename_i e; subst e; rw [hb, read_below w.2.2.2 (by omega)]
          · split
            · rename_i hlt; exact read_below w.2.2.2 (by omega)
            · rfl
        · rw [read_cons, read_cons]
          split <;> rfl
      · rename_i h1 h2
        split
        · rename_i hb
          split
          · rename_i e; subst e
            rw [read_cons, if_neg (by omega), if_pos (by omega), hb]
          · rfl
        · rw [read_cons]
          split
          · rfl
          · split
            · rename_i hlt
              rw [read_cons, if_neg (by omega), if_pos (by omega)]
            · rfl

/-- What a byte reads after one byte is written. -/
theorem read_write {m : Memory} (h : m.wf = true) {a : Nat} (ha : a < Config.arrayBytes) (b : Byte) (x : Nat) :
    (m.write a b).read x = if a = x then b else m.read x := by
  unfold write
  rw [if_pos ha]
  exact read_insert x h

/-- A range of bytes reads as its bytes read one by one. -/
theorem readRange_eq {m : Memory} (h : m.wf = true) (a n : Nat) :
    m.readRange a n = (List.range n).map fun i => m.read (a + i) := by
  unfold readRange
  apply List.map_congr_left
  intro i hi
  have hi' : i < n := List.mem_range.mp hi
  exact read_filter_keep (fun k => decide (a ≤ k) && decide (k < a + n)) (by simpa using hi') h

theorem length_readRange (m : Memory) (a n : Nat) : (m.readRange a n).length = n := by simp [readRange]

end Sys2Proof.Machine.Memory
end

