-- ==== Sys2Proof/Laws/Keeps.lean ====
section
/-! SUPPORT. What the operations of the blocks keep, said once: a preorder on states, and a lemma for each operation that it stays
within it. -/

namespace Sys2Proof.Machine

open Sys2Proof.Safety

/-- What every operation of a running station keeps, outside the line, the reset and the scan. -/
structure Keeps (s t : State) : Prop where
  pending : t.pending = s.pending
  sc : t.sc = s.sc
  lc : t.lc = s.lc
  slot : t.ap.slot = s.ap.slot
  submitBuffer : t.ap.submitBuffer = s.ap.submitBuffer
  configures : t.ap.configures = s.ap.configures
  dataOut : t.ap.dataOut = s.ap.dataOut
  matrix : t.hu.matrix = s.hu.matrix
  presence : t.hu.presence = s.hu.presence
  silence : t.hu.silence = s.hu.silence
  busy : s.fc.op.isSome → t.fc.op = s.fc.op ∧ t.fc.mem = s.fc.mem
  idle : s.fc.op = none → ArrayKept s t
  durable : s.hu.durable ≤ t.hu.durable
  ownTop : s.ownTop ≤ t.ownTop
  durableOk : DurableOk s → DurableOk t
  holdingsOk : HoldingsOk s → HoldingsOk t
  attnOk : AttnOk s → AttnOk t
  noticesOk : NoticesOk s → NoticesOk t
  oneOpen : OneOpen s → OneOpen t

namespace Keeps

theorem refl (s : State) : Keeps s s :=
  { pending := rfl, sc := rfl, lc := rfl, slot := rfl, submitBuffer := rfl, configures := rfl, dataOut := rfl, matrix := rfl,
    presence := rfl, silence := rfl, busy := fun _ => ⟨rfl, rfl⟩, idle := fun _ => .inl rfl, durable := Nat.le_refl _,
    ownTop := Nat.le_refl _, durableOk := id, holdingsOk := id, attnOk := id, noticesOk := id, oneOpen := id }

theorem trans {s t u : State} (h : Keeps s t) (k : Keeps t u) : Keeps s u where
  pending := k.pending.trans h.pending
  sc := k.sc.trans h.sc
  lc := k.lc.trans h.lc
  slot := k.slot.trans h.slot
  submitBuffer := k.submitBuffer.trans h.submitBuffer
  configures := k.configures.trans h.configures
  dataOut := k.dataOut.trans h.dataOut
  matrix := k.matrix.trans h.matrix
  presence := k.presence.trans h.presence
  silence := k.silence.trans h.silence
  busy hs := by
    obtain ⟨h1, h2⟩ := h.busy hs
    obtain ⟨k1, k2⟩ := k.busy (h1 ▸ hs)
    exact ⟨k1.trans h1, k2.trans h2⟩
  idle hs := by
    rcases h.idle hs with hm | ⟨b, ho, hm⟩
    · rcases ht : t.fc.op with _ | op
      · rcases k.idle ht with km | ⟨b, ko, km⟩
        · exact .inl (km.trans hm)
        · exact .inr ⟨b, ko, by rw [km, hm]⟩
      · have := k.busy (by rw [ht]; rfl)
        exact .inl (this.2.trans hm)
    · have := k.busy (by rw [ho]; rfl)
      exact .inr ⟨b, this.1.trans ho, this.2.trans hm⟩
  durable := Nat.le_trans h.durable k.durable
  ownTop := Nat.le_trans h.ownTop k.ownTop
  durableOk := k.durableOk ∘ h.durableOk
  holdingsOk := k.holdingsOk ∘ h.holdingsOk
  attnOk := k.attnOk ∘ h.attnOk
  noticesOk := k.noticesOk ∘ h.noticesOk
  oneOpen := k.oneOpen ∘ h.oneOpen

theorem own {s t : State} (h : Keeps s t) : t.own = s.own := congrArg Sc.number h.sc

theorem memoryOk {s t : State} (h : Keeps s t) (w : MemoryOk s) : MemoryOk t := by
  unfold MemoryOk at *
  rcases ho : s.fc.op with _ | op
  · rcases h.idle ho with e | ⟨b, _, e⟩
    · rw [e]; exact w
    · rw [e]; exact Memory.wf_erasePages w ..
  · rw [(h.busy (by rw [ho]; rfl)).2]; exact w

/-! ## Component updates -/

theorem setRp (s : State) (x : Rp) : Keeps s (s.setRp x) := { refl s with }
theorem setRa (s : State) (x : Ra) : Keeps s (s.setRa x) := { refl s with }
theorem setCe (s : State) (x : Ce) : Keeps s (s.setCe x) := { refl s with }
theorem setSu (s : State) (x : Su) : Keeps s (s.setSu x) := { refl s with }
theorem drawn (s : State) : Keeps s s.drawn := { refl s with }

/-- A change of FC that leaves the array and its operation alone. -/
theorem setFc (s : State) {x : Fc} (ho : x.op = s.fc.op) (hm : x.mem = s.fc.mem) : Keeps s (s.setFc x) :=
  { refl s with
    busy := fun _ => ⟨ho, hm⟩
    idle := fun _ => .inl hm }

/-- An operation begins on the free array without a change of its content. -/
theorem setFcOp (s : State) {x : Fc} (hs : s.fc.op = none) (hm : x.mem = s.fc.mem) : Keeps s (s.setFc x) :=
  { refl s with
    busy := fun h => by rw [hs] at h; cases h
    idle := fun _ => .inl hm }

/-- An erase begins on the free array. -/
theorem setFcErase (s : State) {x : Fc} {b : Nat} (hs : s.fc.op = none) (ho : x.op = some (.erase b))
    (hm : x.mem = s.fc.mem.erasePages b 0 1) : Keeps s (s.setFc x) :=
  { refl s with
    busy := fun h => by rw [hs] at h; cases h
    idle := fun _ => .inr ⟨b, ho, hm⟩ }

/-- A change of SM that opens no block. -/
theorem setSm (s : State) {x : Sm} (h : ∀ b, (x.block b).state = .opened → (s.sm.block b).state = .opened) :
    Keeps s (s.setSm x) :=
  { refl s with oneOpen := fun w a b ha hb => w a b (h a ha) (h b hb) }

/-- A change of SM outside the block table. -/
theorem setSmTable (s : State) {x : Sm} (h : x.table = s.sm.table) : Keeps s (s.setSm x) :=
  setSm s fun b hb => by unfold Sm.block at *; rw [h] at hb; exact hb

/-- A change of HU outside the entries, the matrix, presence and D. -/
theorem setHu (s : State) {x : Hu} (he : x.entries = s.hu.entries) (hm : x.matrix = s.hu.matrix)
    (hp : x.presence = s.hu.presence) (hs : x.silence = s.hu.silence) (hd : x.durable = s.hu.durable) :
    Keeps s (s.setHu x) := by
  have e : ∀ o, (s.setHu x).entry o = s.entry o := fun o => by simp [State.entry, he]
  have c : ∀ p o, (s.setHu x).cell p o = s.cell p o := fun p o => by simp only [State.cell, State.row, State.setHu_hu, hm]
  exact { refl s with
    matrix := hm
    presence := hp
    silence := hs
    durable := Nat.le_of_eq hd.symm
    ownTop := by simp only [State.ownTop, State.setHu_own, e]; exact Nat.le_refl _
    durableOk := fun w => by
      simp only [DurableOk, State.ownTop, State.setHu_own, e, c, State.setHu_hu, hd] at w ⊢
      exact w
    holdingsOk := fun w => by
      simp only [HoldingsOk, State.setHu_own, e] at w ⊢
      exact w }

/-- A change of AP outside the slot, the commands handed on and the output. -/
theorem setAp (s : State) {x : Ap} (h1 : x.slot = s.ap.slot) (h2 : x.submitBuffer = s.ap.submitBuffer)
    (h3 : x.configures = s.ap.configures) (h4 : x.dataOut = s.ap.dataOut) : Keeps s (s.setAp x) :=
  { refl s with slot := h1, submitBuffer := h2, configures := h3, dataOut := h4 }

/-- A change of NU that leaves ATTN right and the queue in its places. -/
theorem setNu (s : State) {x : Nu} (ha : AttnOk s → x.attn = x.attnCondition s.noticeThreshold)
    (hq : NoticesOk s → x.queue.length ≤ Config.noticePlaces) : Keeps s (s.setNu x) :=
  { refl s with attnOk := ha, noticesOk := hq }

end Keeps

/-! ## Counters and notices -/

namespace State

theorem raise_keeps (s : State) (c : Counter) (n : Nat) : Keeps s (s.raise c n) := Keeps.setAp s rfl rfl rfl rfl
theorem bump_keeps (s : State) (c : Counter) : Keeps s (s.bump c) := raise_keeps s c 1
theorem orphans_keeps (s : State) (n : Nat) : Keeps s (s.orphans n) := raise_keeps s _ n

end State

/-- Coalescing keeps the number of notices. -/
theorem length_coalesce {n : Notice} : {q r : List Notice} → coalesce n q = some r → r.length = q.length
  | [], r, h => by cases h
  | x :: q, r, h => by
    unfold coalesce at h
    split at h
    · cases h; rfl
    · rcases hc : coalesce n q with _ | r'
      · rw [hc] at h; cases h
      · rw [hc] at h
        cases h
        simp [length_coalesce hc]

theorem Nu.take_attn (nu : Nu) (th d : Nat) (n : Notice) : (nu.take th d n).attn = (nu.take th d n).attnCondition th := by
  unfold Nu.take
  split
  · rfl
  · split <;> rfl

theorem Nu.take_length (nu : Nu) (th d : Nat) (n : Notice) (h : nu.queue.length ≤ Config.noticePlaces) :
    (nu.take th d n).queue.length ≤ Config.noticePlaces := by
  unfold Nu.take
  split
  · rename_i q hq
    show q.length ≤ _
    rw [length_coalesce hq]
    exact h
  · split
    · rename_i hl
      show (nu.queue ++ [n]).length ≤ _
      simp only [List.length_append, List.length_cons, List.length_nil]
      omega
    · exact h

namespace State

theorem notify_keeps (s : State) (n : Notice) : Keeps s (s.notify n) := by
  unfold notify
  split
  · exact Keeps.setNu s (fun _ => Nu.take_attn ..) (fun w => Nu.take_length _ _ _ _ w)
  · exact Keeps.refl s

/-! ## Holdings -/

theorem setReportPending_keeps (s : State) : Keeps s s.setReportPending := Keeps.setHu s rfl rfl rfl rfl rfl
theorem tellRp_keeps (s : State) : Keeps s s.tellRp := Keeps.setRp s _
theorem raiseMark_keeps (s : State) : Keeps s s.raiseMark := Keeps.setFc s rfl rfl

end State

theorem le_foldl_max {b : Nat} : {l : List Nat} → {a : Nat} → a ≤ b → (∀ v ∈ l, v ≤ b) → l.foldl max a ≤ b
  | [], _, h, _ => h
  | v :: l, a, h, hl => by
    rw [List.foldl_cons]
    exact le_foldl_max (Nat.max_le.mpr ⟨h, hl v (List.mem_cons_self ..)⟩) fun w hw => hl w (List.mem_cons_of_mem _ hw)

theorem kthLargest_le {k b : Nat} {l : List Nat} (h : ∀ v ∈ l, v ≤ b) : kthLargest k l ≤ b :=
  le_foldl_max (Nat.zero_le b) fun v hv => h v (List.mem_filter.mp hv).1

namespace State

theorem durableMembers_le {s : State} (w : DurableOk s) : ∀ v ∈ s.durableMembers, v ≤ s.ownTop := by
  intro v hv
  unfold durableMembers at hv
  rcases List.mem_cons.mp hv with rfl | hv
  · exact Nat.le_refl _
  · obtain ⟨p, _, hp⟩ := List.mem_filterMap.mp hv
    rcases hc : s.cell p s.own with _ | c
    · rw [hc] at hp; cases hp
    · rw [hc] at hp
      cases hp
      exact w.2 p c hc

theorem evaluateDurable_keeps (s : State) : Keeps s s.evaluateDurable := by
  unfold evaluateDurable
  split
  · exact Keeps.refl s
  · rename_i c _
    simp only
    split
    · rename_i hlt
      refine Keeps.trans (t := s.setHu { s.hu with durable := max s.hu.durable (kthLargest c.target s.durableMembers) }) ?_
        ((notify_keeps _ _).trans (Keeps.setSmTable _ rfl))
      exact { Keeps.refl s with
        durable := Nat.le_of_lt hlt
        durableOk := fun w => ⟨Nat.max_le.mpr ⟨w.1, kthLargest_le (durableMembers_le w)⟩, w.2⟩ }
    · exact Keeps.refl s

end State

theorem place_setPlace {α : Type} {n : Nat} (v : Vector α n) (d x : α) (i j : Nat) :
    place (setPlace v i x) d j = if i = j ∧ i < n then x else place v d j := by
  unfold place setPlace
  rw [Vector.getElem?_setIfInBounds]
  by_cases h : i = j
  · subst h
    by_cases hi : i < n
    · simp [hi]
    · simp [hi]
  · simp [h]

theorem lineOf_setLine {α : Type} {n : Nat} (v : Vector α n) (d x : α) (o o' : Nat) :
    lineOf (setLine v o x) d o' = if o = o' ∧ 1 ≤ o ∧ o ≤ n then x else lineOf v d o' := by
  cases o with
  | zero => simp [setLine]
  | succ i =>
    cases o' with
    | zero => simp [lineOf]
    | succ j =>
      simp only [setLine, lineOf, place_setPlace, Nat.add_right_cancel_iff]
      have : (i = j ∧ i < n) ↔ (i = j ∧ 1 ≤ i + 1 ∧ i + 1 ≤ n) := by omega
      simp only [this]

theorem Sm.block_setBlock (sm : Sm) (b : Nat) (e : BlockEntry) (a : Nat) :
    (sm.setBlock b e).block a = if b = a ∧ b < 640 then e else sm.block a := place_setPlace ..

namespace State

/-- What changing an entry needs: T_own does not fall, and the new entry has its form. -/
theorem writeEntry_keeps (s : State) (o : Nat) (e : Entry) (ht : o = s.own → s.ownTop ≤ e.top)
    (hf : HoldingsOk s → entryOk e = true ∧ (o = s.own → e.gaps = [])) : Keeps s (s.writeEntry o e) := by
  have he : ∀ o', (s.writeEntry o e).entry o' = if o = o' ∧ 1 ≤ o ∧ o ≤ 24 then e else s.entry o' :=
    fun o' => lineOf_setLine ..
  have hown : (s.writeEntry o e).own = s.own := rfl
  have top : s.ownTop ≤ (s.writeEntry o e).ownTop := by
    unfold ownTop
    rw [he, hown]
    split
    · rename_i h; exact ht h.1
    · exact Nat.le_refl _
  exact { Keeps.refl s with
    ownTop := top
    durableOk := fun w => ⟨Nat.le_trans w.1 top, fun p c hc => Nat.le_trans (w.2 p c hc) top⟩
    holdingsOk := fun w => by
      obtain ⟨h1, h2⟩ := hf w
      refine ⟨fun o' => ?_, ?_⟩
      · rw [he]
        split
        · exact h1
        · exact w.1 o'
      · rw [he, hown]
        split
        · rename_i h; exact h2 h.1
        · exact w.2 }

theorem putEntry_keeps (s : State) (o : Nat) (e : Entry) (ht : o = s.own → s.ownTop ≤ e.top)
    (hf : HoldingsOk s → entryOk e = true ∧ (o = s.own → e.gaps = [])) : Keeps s (s.putEntry o e) := by
  have h1 := writeEntry_keeps s o e ht hf
  have h2 : Keeps s (if s.reported o && e != s.entry o then (s.writeEntry o e).tellRp else s.writeEntry o e) := by
    split
    · exact h1.trans (tellRp_keeps _)
    · exact h1
  unfold putEntry
  simp only
  split
  · exact h2.trans ((raiseMark_keeps _).trans (evaluateDurable_keeps _))
  · exact h2

end State

end Sys2Proof.Machine
end

