-- ==== Sys2Proof/Laws/Store.lean ====
section
/-! SUPPORT. The operations of HU, SM, CE and FC's arbiter stay within Keeps. -/

namespace Sys2Proof.Machine

open Sys2Proof.Safety

namespace State

/-! ## HU -/

theorem entry_own_top (s : State) : (s.entry s.own).top = s.ownTop := rfl

theorem commitPeer_keeps (s : State) (o n : Nat) : Keeps s (s.commitPeer o n) := by
  unfold commitPeer
  split
  · rename_i h
    obtain ⟨h1, h2, h3, _⟩ := acceptance_none h
    have hp := putEntry_keeps s o ((s.entry o).settle n n) (fun e => absurd e h1)
      fun w => ⟨entryOk_settle (w.1 o) (Nat.le_refl n) h2 h3, fun e => absurd e h1⟩
    simp only
    split
    · exact hp.trans (notify_keeps _ _)
    · exact hp
  · exact (orphans_keeps s 1).trans (tellRp_keeps _)

theorem floorRaise_keeps (s : State) (o f : Nat) : Keeps s (s.floorRaise o f) := by
  unfold floorRaise
  split
  · exact Keeps.refl s
  · refine putEntry_keeps s o _ (fun e => ?_) fun w => ⟨entryOk_raiseFloor (w.1 o) f, fun e => ?_⟩
    · subst e; exact top_le_raiseFloor ..
    · subst e; exact gaps_raiseFloor_nil w.2 f

theorem abandon_keeps {s t : State} {o a b : Nat} (h : s.abandon o a b = some t) : Keeps s t := by
  unfold abandon at h
  simp only at h
  split at h
  · rename_i hc
    cases h
    simp only [Bool.and_eq_true, bne_iff_ne, decide_eq_true_eq, Bool.not_eq_true'] at hc
    obtain ⟨⟨⟨⟨h1, h2⟩, h3⟩, _⟩, h5⟩ := hc
    exact (putEntry_keeps s o _ (fun e => absurd e h1)
      fun w => ⟨entryOk_settle (w.1 o) h2 h3 h5, fun e => absurd e h1⟩).trans (notify_keeps _ _)
  · cases h

theorem adopt_keeps (s : State) (r : Pair) : Keeps s (s.adopt r) := by
  unfold adopt
  split
  · rename_i h
    exact putEntry_keeps s s.own _ (fun _ => by rw [top_adopted]; exact Nat.le_of_lt h)
      fun _ => ⟨entryOk_adopted _, fun _ => gaps_adopted _⟩
  · exact Keeps.refl s

theorem noteConflict_keeps (s : State) (p : Nat) (r : Pair) : Keeps s (s.noteConflict p r) := by
  unfold noteConflict
  split
  · exact Keeps.trans (by exact Keeps.setHu s rfl rfl rfl rfl rfl) (notify_keeps _ _)
  · exact Keeps.refl s

/-! ## SM -/

/-- A block gets an entry that is not OPEN unless the block was. -/
theorem putBlock_keeps (s : State) (b : Nat) (e : BlockEntry) (h : e.state = .opened → (s.sm.block b).state = .opened) :
    Keeps s (s.putBlock b e) := by
  refine Keeps.setSm s fun a ha => ?_
  have ha' : ((s.sm.setBlock b e).block a).state = .opened := ha
  rw [Sm.block_setBlock] at ha'
  split at ha'
  · rename_i hb
    obtain ⟨rfl, _⟩ := hb
    exact h ha'
  · exact ha'

theorem setPressure_keeps (s : State) : Keeps s s.setPressure := by
  unfold setPressure
  simp only
  have h1 : Keeps s (s.setSm { s.sm with
      pressure := pressureOf s.sm.freeCount,
      reclaimDue := s.sm.reclaimDue || pressureOf s.sm.freeCount != s.sm.pressure }) := Keeps.setSmTable s rfl
  split
  · exact h1.trans (notify_keeps _ _)
  · split
    · exact h1.trans (notify_keeps _ _)
    · exact h1

end State

theorem Sm.openBlock_none {sm : Sm} (h : sm.openBlock = none) (b : Nat) : (sm.block b).state ≠ .opened := by
  intro hb
  have hlt : b < 640 := by
    by_cases hlt : b < 640
    · exact hlt
    · exfalso
      have hn : sm.table[b]? = none := Vector.getElem?_eq_none (by omega)
      unfold Sm.block place at hb
      rw [hn] at hb
      exact BlockState.noConfusion hb
  have he : sm.block b = sm.table[b] := by unfold Sm.block place; simp [hlt]
  have hm : b ∈ sm.blocksIn (· == .opened) := by
    unfold Sm.blocksIn
    refine List.mem_map.mpr ⟨(sm.table[b], b), List.mem_filter.mpr ⟨?_, ?_⟩, rfl⟩
    · rw [List.mem_zipIdx_iff_getElem?]
      simp [hlt]
    · rw [← he]; simp [hb]
  unfold Sm.openBlock at h
  rw [List.head?_eq_none_iff] at h
  rw [h] at hm
  cases hm

namespace State

/-- R26: a block opened while no block is OPEN. -/
theorem openFree_keeps (s : State) (b : Nat) (h : s.sm.openBlock = none) : Keeps s (s.openFree b) := by
  have no := Sm.openBlock_none h
  have h1 : Keeps s (s.putBlock b { state := .opened, stamp := some (s.sm.stampHigh + 1), pages := 0, summary := [] }) := by
    have hs : ∀ a, ((s.sm.setBlock b { state := .opened, stamp := some (s.sm.stampHigh + 1), pages := 0, summary := [] }).block
        a).state = .opened → b = a := by
      intro a ha
      rw [Sm.block_setBlock] at ha
      split at ha
      · rename_i hb; exact hb.1
      · exact absurd ha (no a)
    exact { Keeps.refl s with oneOpen := fun _ x y hx hy => (hs x hx).symm.trans (hs y hy) }
  unfold openFree
  simp only
  exact Keeps.trans (h1.trans (by exact Keeps.setSmTable _ rfl)) (setPressure_keeps _)

theorem withOpenBlock_keeps (s : State) : Keeps s s.withOpenBlock.1 := by
  unfold withOpenBlock
  split
  · exact Keeps.refl s
  · rename_i h
    split
    · exact Keeps.refl s
    · split
      · exact openFree_keeps s _ h
      · exact Keeps.refl s

theorem smProgramPassed_keeps (s : State) (p : PageAddr) (l : List ListEntry) : Keeps s (s.smProgramPassed p l) := by
  unfold smProgramPassed
  simp only
  refine (putBlock_keeps s p.block _ fun h => ?_).trans (Keeps.setSmTable _ rfl)
  simp only at h
  split at h
  · cases h
  · exact h

theorem smProgramFailed_keeps (s : State) (p : PageAddr) : Keeps s (s.smProgramFailed p) :=
  (putBlock_keeps s p.block _ fun h => by cases h).trans (notify_keeps _ _)

theorem fetchEnds_keeps (s : State) (o n : Nat) (r : LookupOutcome) : Keeps s (s.fetchEnds o n r) :=
  Keeps.setAp s rfl rfl rfl rfl

theorem makeNotHeld_keeps (s : State) (q : Nat) : Keeps s (s.makeNotHeld q) := Keeps.setRp s _

theorem serveEnds_keeps (s : State) (o n : Nat) (r : LookupOutcome) : Keeps s (s.serveEnds o n r) := by
  unfold serveEnds
  split
  · split
    · exact Keeps.setRp s _
    · exact makeNotHeld_keeps s n
  · exact makeNotHeld_keeps s n
  · exact (bump_keeps s _).trans (makeNotHeld_keeps _ n)

theorem setLookup_keeps (s : State) (who : Requester) (l : Option Lookup) : Keeps s (s.setSm (s.sm.setLookup who l)) := by
  cases who <;> exact Keeps.setSmTable s rfl

theorem setStepClaim_keeps (s : State) (who : Requester) (c : Option StepClaim) :
    Keeps s (s.setFc (s.fc.setStepClaim who c)) := by
  cases who <;> exact Keeps.setFc s rfl rfl

theorem lookupEnds_keeps (s : State) (who : Requester) (l : Lookup) (r : LookupOutcome) : Keeps s (s.lookupEnds who l r) := by
  unfold lookupEnds
  cases who
  · exact (setLookup_keeps s _ _).trans (fetchEnds_keeps _ _ _ _)
  · exact (setLookup_keeps s _ _).trans (serveEnds_keeps _ _ _ _)

theorem claimStep_keeps (s : State) (who : Requester) (l : Lookup) (k : ReadKind) (p : PageAddr) :
    Keeps s (s.claimStep who l k p) :=
  (setLookup_keeps s _ _).trans (setStepClaim_keeps _ _ _)

theorem choose_keeps (s : State) (who : Requester) (l : Lookup) : Keeps s (s.choose who l) := by
  unfold choose
  split
  · exact claimStep_keeps ..
  · exact lookupEnds_keeps ..

theorem startLookup_keeps (s : State) (who : Requester) (o n : Nat) : Keeps s (s.startLookup who o n) := choose_keeps ..

theorem passOver_keeps (s : State) (who : Requester) (l : Lookup) (p : PageAddr) : Keeps s (s.passOver who l p) := by
  unfold passOver
  split
  · exact choose_keeps ..
  · exact claimStep_keeps ..

theorem lookupSpare_keeps (s : State) (who : Requester) (l : Lookup) (p : PageAddr) (sp : List Byte) :
    Keeps s (s.lookupSpare who l p sp) := by
  unfold lookupSpare
  split
  · exact claimStep_keeps ..
  · exact passOver_keeps ..

theorem lookupPage_keeps (s : State) (who : Requester) (l : Lookup) (p : PageAddr) (d sp : List Byte) :
    Keeps s (s.lookupPage who l p d sp) := by
  unfold lookupPage
  split
  · exact lookupEnds_keeps ..
  · exact passOver_keeps ..

theorem leaveBlock_keeps (s : State) (b : Nat) (who : Requester) : Keeps s (s.leaveBlock b who) := by
  unfold leaveBlock
  split
  · exact Keeps.refl s
  · split
    · split
      · exact (setStepClaim_keeps s _ _).trans (choose_keeps ..)
      · exact setLookup_keeps ..
      · exact Keeps.refl s
    · exact Keeps.refl s

/-! ## Reclaim -/

theorem foldl_keeps {α : Type} (f : State → α → State) (h : ∀ s x, Keeps s (f s x)) : (l : List α) → (s : State) →
    Keeps s (l.foldl f s)
  | [], s => Keeps.refl s
  | x :: xs, s => (h s x).trans (foldl_keeps f h xs (f s x))

theorem raiseFloors_keeps (s : State) (m : List SummaryLine) : Keeps s (s.raiseFloors m) :=
  foldl_keeps _ (fun s _ => floorRaise_keeps s _ _) m s

theorem select_keeps (s : State) (b : Nat) : Keeps s (s.select b) := by
  unfold select
  simp only
  split
  · exact ((((raiseFloors_keeps s _).trans (putBlock_keeps _ b _ fun h => by cases h)).trans
      (leaveBlock_keeps _ _ _)).trans (leaveBlock_keeps _ _ _)).trans (Keeps.setFc _ rfl rfl)
  · exact ((((raiseFloors_keeps s _).trans (putBlock_keeps _ b _ fun h => by cases h)).trans
      (leaveBlock_keeps _ _ _)).trans (leaveBlock_keeps _ _ _)).trans (Keeps.setFc _ rfl rfl)

theorem reclaimRounds_keeps : (n : Nat) → (s : State) → Keeps s (s.reclaimRounds n)
  | 0, s => Keeps.refl s
  | n + 1, s => by
    unfold reclaimRounds
    split
    · exact (select_keeps s _).trans (reclaimRounds_keeps n _)
    · exact Keeps.refl s

theorem evaluateReclaim_keeps (s : State) : Keeps s s.evaluateReclaim := by
  unfold evaluateReclaim
  split
  · simp only
    split
    · exact (reclaimRounds_keeps _ s).trans (Keeps.setSmTable _ rfl)
    · exact Keeps.setSmTable _ rfl
  · exact Keeps.refl s

theorem eraseApplied_keeps (s : State) (b : Nat) : Keeps s (s.eraseApplied b) :=
  (putBlock_keeps s b BlockEntry.reset fun h => by cases h).trans (setPressure_keeps _)

theorem eraseRefused_keeps (s : State) (b : Nat) : Keeps s (s.eraseRefused b) :=
  Keeps.trans ((putBlock_keeps s b (retiredEntry .worn) fun h => by cases h).trans (by exact Keeps.setFc _ rfl rfl))
    (notify_keeps _ _)

/-! ## CE and SU -/

theorem releaseRef_keeps (s : State) (r : Ref) : Keeps s (s.releaseRef r) := by
  cases r
  · exact Keeps.setRa s _
  · exact Keeps.refl s

theorem moveWaiting_keeps (s : State) : Keeps s s.moveWaiting := by
  unfold moveWaiting
  split
  · exact Keeps.refl s
  · exact (Keeps.setRa s _).trans (Keeps.setCe _ _)

theorem closeFill_keeps (s : State) : Keeps s s.closeFill :=
  Keeps.trans (by exact Keeps.setFc s rfl rfl) (Keeps.setCe _ _)

theorem startFlush_keeps (s : State) : Keeps s s.startFlush := by
  unfold startFlush
  split
  · split
    · exact closeFill_keeps s
    · exact Keeps.setCe s _
  · exact Keeps.refl s

theorem placeHead_keeps (s : State) (ref : Ref) (r : PathRecord) : Keeps s (s.placeHead ref r) :=
  Keeps.trans
    (Keeps.trans (Keeps.trans (Keeps.trans (by exact Keeps.setFc s rfl rfl) (Keeps.setCe _ _)) (releaseRef_keeps _ ref))
      (moveWaiting_keeps _))
    (startFlush_keeps _)

theorem placeRounds_keeps : (n : Nat) → (s : State) → Keeps s (s.placeRounds n)
  | 0, s => Keeps.refl s
  | n + 1, s => by
    unfold placeRounds
    split
    · exact Keeps.refl s
    · split
      · exact Keeps.refl s
      · split
        · exact Keeps.refl s
        · split
          · exact (placeHead_keeps s _ _).trans (placeRounds_keeps n _)
          · exact closeFill_keeps s

theorem claimProgram_keeps (s : State) (b : Nat) : Keeps s (s.claimProgram b) := Keeps.setFc s rfl rfl
theorem setCommitState_keeps (s : State) (r : Bool) : Keeps s (s.setCommitState r) := Keeps.setCe s _

theorem claimIfNeeded_keeps (s : State) : Keeps s s.claimIfNeeded := by
  unfold claimIfNeeded
  split
  · have h := withOpenBlock_keeps s
    split
    · rename_i s1 b e
      rw [e] at h
      exact (h.trans (claimProgram_keeps _ _)).trans (setCommitState_keeps _ _)
    · rename_i s1 e
      rw [e] at h
      exact h.trans (setCommitState_keeps _ _)
  · exact setCommitState_keeps s _

theorem runCommit_keeps (s : State) : Keeps s s.runCommit := (placeRounds_keeps 9 s).trans (claimIfNeeded_keeps _)

theorem commitOwn_keeps (s : State) (n : Nat) : Keeps s (s.commitOwn n) := by
  unfold commitOwn
  split
  · rename_i e h
    refine (putEntry_keeps s s.own e (fun _ => top_commitOwn h) fun w => ?_).trans (Keeps.setSu _ _)
    obtain ⟨h1, h2⟩ := commitOwn_spec h (w.1 s.own) w.2
    exact ⟨h1, fun _ => h2⟩
  · exact (orphans_keeps s 1).trans (Keeps.setSu _ _)

theorem commitRecord_keeps (s : State) (e : ListEntry) : Keeps s (s.commitRecord e) := by
  unfold commitRecord
  split
  · exact commitOwn_keeps s _
  · exact commitPeer_keeps s _ _

theorem programPassed_keeps (s : State) (p : PageAddr) (list : List ListEntry) :
    Keeps s (s.programPassed p list) :=
  (smProgramPassed_keeps s p list).trans (foldl_keeps _ commitRecord_keeps list _)

theorem programFailed_keeps (s : State) (p : PageAddr) : Keeps s (s.programFailed p) :=
  ((smProgramFailed_keeps s p).trans (runCommit_keeps _)).trans (evaluateReclaim_keeps _)

/-! ## FC's arbiter -/

/-- A program fails in FC's registers while the array is free. -/
theorem fcProgramFails_keeps (s : State) (h : s.fc.op = none) : Keeps s s.fcProgramFails :=
  Keeps.trans (by exact Keeps.setFc s h.symm rfl) (bump_keeps _ _)

theorem grantStep_keeps (s : State) (who : Requester) (c : StepClaim) (h : s.fc.op = none) : Keeps s (s.grantStep who c) := by
  unfold grantStep
  simp only
  refine Keeps.trans (t := s.setFc { s.fc.setStepClaim who none with op := some (.lookupRead who c.kind c.page) }) ?_
    (setLookup_keeps ..)
  cases who <;> exact Keeps.setFcOp s h rfl

theorem beginProgram_keeps (s : State) (c : ProgramClaim) (h : s.fc.op = none) : Keeps s (s.beginProgram c) :=
  Keeps.setFcOp s h rfl

theorem beginErase_keeps (s : State) (b : Nat) (h : s.fc.op = none) : Keeps s (s.beginErase b) :=
  Keeps.setFcErase (b := b) s h rfl rfl

theorem grantRounds_keeps : (n : Nat) → (s : State) → Keeps s (s.grantRounds n)
  | 0, s => Keeps.refl s
  | n + 1, s => by
    unfold grantRounds
    split
    · exact Keeps.refl s
    · rename_i hc
      have ho : s.fc.op = none := by
        rcases h : s.fc.op with _ | x
        · rfl
        · rw [h] at hc; simp at hc
      split
      · rename_i c _
        simp only
        have h1 : Keeps s (s.setFc { s.fc with programClaim := none }) := Keeps.setFc s rfl rfl
        split
        · exact h1.trans (Keeps.setFcOp _ ho rfl)
        · split
          · exact ((h1.trans (fcProgramFails_keeps _ ho)).trans (programFailed_keeps _ _)).trans (grantRounds_keeps n _)
          · exact h1.trans (beginProgram_keeps _ c ho)
      · split
        · exact grantStep_keeps s _ _ ho
        · split
          · exact grantStep_keeps s _ _ ho
          · split
            · simp only
              rename_i m rest _
              have h1 : Keeps s (s.setFc { s.fc with markClaims := rest }) := Keeps.setFc s rfl rfl
              split
              · exact (h1.trans (bump_keeps _ _)).trans (grantRounds_keeps n _)
              · exact h1.trans (Keeps.setFcOp _ ho rfl)
            · split
              · split
                · exact Keeps.refl s
                · exact beginErase_keeps s _ ho
              · exact Keeps.refl s

theorem grant_keeps (s : State) : Keeps s s.grant := grantRounds_keeps _ s

theorem completion_keeps (s : State) (f : State → State) (h : ∀ t, Keeps t (f t)) : Keeps s (s.completion f) := by
  unfold completion
  split
  · exact ((Keeps.drawn s).trans (h _)).trans (grant_keeps _)
  · exact (((Keeps.drawn s).trans (grant_keeps _)).trans (h _)).trans (grant_keeps _)

end State

/-- R38: what holds back the erase of block `b`. -/
theorem Sm.lookupIn_iff (sm : Sm) (b : Nat) : sm.lookupIn b = true ↔ ∃ who l, sm.lookup who = some l ∧ l.block = some b := by
  rw [Sm.lookupIn, Bool.or_eq_true]
  constructor
  · rintro (h | h)
    · obtain ⟨l, h1, h2⟩ := Option.bind_eq_some_iff.mp (eq_of_beq h)
      exact ⟨.fetch, l, h1, h2⟩
    · obtain ⟨l, h1, h2⟩ := Option.bind_eq_some_iff.mp (eq_of_beq h)
      exact ⟨.serve, l, h1, h2⟩
  · rintro ⟨who, l, h1, h2⟩
    cases who
    · exact Or.inl (beq_iff_eq.mpr (Option.bind_eq_some_iff.mpr ⟨l, h1, h2⟩))
    · exact Or.inr (beq_iff_eq.mpr (Option.bind_eq_some_iff.mpr ⟨l, h1, h2⟩))

end Sys2Proof.Machine
end

