-- ==== Sys2Proof/Laws/Repair.lean ====
section
/-! SUPPORT. The operations of RP and RA, what ends a command, and what LC hands on stay within Keeps. -/

namespace Sys2Proof.Machine

open Sys2Proof.Safety

namespace State

/-! ## RP -/

theorem putAsk_keeps (s : State) (i : Nat) (e : Option AskEntry) : Keeps s (s.putAsk i e) := Keeps.setRp s _

theorem removeAsk_keeps (s : State) (i o : Nat) : Keeps s (s.removeAsk i o) :=
  ((putAsk_keeps s i none).trans (Keeps.setRp _ _)).trans (tellRp_keeps _)

theorem evaluateAskRounds_keeps : (n i : Nat) → (a : AskEntry) → (u : Nat) → (s : State) →
    Keeps s (s.evaluateAskRounds n i a u)
  | 0, _, _, _, s => Keeps.refl s
  | n + 1, i, a, u, s => by
    unfold evaluateAskRounds
    split
    · exact removeAsk_keeps s i _
    · split
      · exact putAsk_keeps s i _
      · split
        · exact putAsk_keeps s i _
        · simp only
          split
          · rename_i h
            exact (abandon_keeps h).trans (evaluateAskRounds_keeps n i a _ _)
          · exact putAsk_keeps s i _

theorem evaluateAsk_keeps (s : State) (i : Nat) (a : AskEntry) (u : Nat) : Keeps s (s.evaluateAsk i a u) :=
  evaluateAskRounds_keeps ..

theorem advanceAsk_keeps (s : State) (i : Nat) (a : AskEntry) : Keeps s (s.advanceAsk i a) := by
  unfold advanceAsk
  simp only
  split
  · split
    · exact putAsk_keeps s i _
    · exact removeAsk_keeps s i _
  · exact removeAsk_keeps s i _

theorem rerunPlace_keeps (s : State) (i : Nat) : Keeps s (s.rerunPlace i) := by
  unfold rerunPlace
  split
  · exact Keeps.refl s
  · split
    · exact advanceAsk_keeps s i _
    · exact evaluateAsk_keeps s i _ _

theorem createAt_keeps (s : State) (o : Nat) : Keeps s (s.createAt o) := by
  unfold createAt
  split
  · exact Keeps.refl s
  · split
    · exact evaluateAsk_keeps ..
    · exact Keeps.refl s

theorem rerun_keeps (s : State) : Keeps s s.rerun :=
  (foldl_keeps _ rerunPlace_keeps [0, 1, 2, 3] s).trans (foldl_keeps _ createAt_keeps _ _)

theorem settleRepair_keeps (s : State) : Keeps s s.settleRepair := by
  unfold settleRepair
  split
  · simp only
    split
    · exact (rerun_keeps s).trans (Keeps.setRp _ _)
    · exact Keeps.setRp _ _
  · exact Keeps.refl s

theorem skipResponder_keeps (s : State) (i : Nat) (a : AskEntry) (p u : Nat) : Keeps s (s.skipResponder i a p u) :=
  evaluateAsk_keeps ..

theorem askExpires_keeps (s : State) (i : Nat) : Keeps s (s.askExpires i) := by
  unfold askExpires
  split
  · split
    · simp only
      split
      · exact (bump_keeps s _).trans (putAsk_keeps _ _ _)
      · exact (bump_keeps s _).trans (skipResponder_keeps _ _ _ _ _)
    · exact Keeps.refl s
  · exact Keeps.refl s

theorem resendHeard_keeps (s : State) (o n : Nat) : Keeps s (s.resendHeard o n) := by
  unfold resendHeard
  split
  · split
    · split
      · split
        · exact putAsk_keeps ..
        · exact Keeps.refl s
      · exact Keeps.refl s
    · exact Keeps.refl s
  · exact Keeps.refl s

theorem takeRefuse_keeps (s : State) (p t : Nat) (body : List Byte) : Keeps s (s.takeRefuse p t body) := by
  unfold takeRefuse
  simp only
  split
  · exact Keeps.refl s
  · split
    · exact bump_keeps s _
    · split
      · exact bump_keeps s _
      · split
        · split
          · split
            · exact (bump_keeps s _).trans (skipResponder_keeps _ _ _ _ _)
            · exact bump_keeps s _
          · exact bump_keeps s _
        · exact bump_keeps s _

theorem askSent_keeps (s : State) (o t : Nat) : Keeps s (s.askSent o t) := by
  unfold askSent
  simp only
  split
  · split
    · split
      · split
        · exact (bump_keeps s _).trans (putAsk_keeps _ _ _)
        · exact bump_keeps s _
      · exact bump_keeps s _
    · exact bump_keeps s _
  · exact bump_keeps s _

theorem testHead_keeps (s : State) : Keeps s s.testHead := by
  unfold testHead
  split
  · exact Keeps.refl s
  · split
    · exact startLookup_keeps ..
    · exact makeNotHeld_keeps ..

theorem endHead_keeps (s : State) : Keeps s s.endHead := (Keeps.setRp s _).trans (testHead_keeps _)

theorem makeBusy_keeps (s : State) (r : BusyRefusal) : Keeps s (s.makeBusy r) := by
  unfold makeBusy
  split
  · exact Keeps.setRp s _
  · exact Keeps.refl s

theorem takeAsk_keeps (s : State) (p t : Nat) (body : List Byte) : Keeps s (s.takeAsk p t body) := by
  unfold takeAsk
  simp only
  split
  · exact Keeps.refl s
  · split
    · exact bump_keeps s _
    · split
      · exact Keeps.refl s
      · split
        · exact makeBusy_keeps s _
        · split
          · exact (Keeps.setRp s _).trans (testHead_keeps _)
          · exact Keeps.setRp s _

theorem refusalChosen_keeps (s : State) (r : RefuseReason) : Keeps s (s.refusalChosen r) := by
  cases r
  · exact Keeps.setRp s _
  · exact endHead_keeps s

theorem resendChosen_keeps (s : State) (r : ServeRecord) : Keeps s (s.resendChosen r) := by
  unfold resendChosen
  simp only
  split
  · exact Keeps.setRp s _
  · split
    · exact Keeps.setRp s _
    · split
      · exact ((Keeps.setRp s _).trans (Keeps.setRp _ _)).trans (testHead_keeps _)
      · exact ((Keeps.setRp s _).trans (bump_keeps _ _)).trans (endHead_keeps _)

/-! ## The end of a command, and RA -/

theorem settleAll_keeps (s : State) : Keeps s s.settleAll :=
  ((evaluateReclaim_keeps s).trans (grant_keeps _)).trans (settleRepair_keeps _)

theorem putSlot_keeps (s : State) (i : Nat) (x : Slot) : Keeps s (s.putSlot i x) := Keeps.setRa s _

theorem enqueueSlot_keeps (s : State) (i : Nat) : Keeps s (s.enqueueSlot i) := by
  unfold enqueueSlot
  split
  · exact (Keeps.setCe s _).trans (runCommit_keeps _)
  · exact Keeps.setRa s _

theorem finishSlot_keeps (s : State) (i : Nat) (d : SlotData) : Keeps s (s.finishSlot i d) := by
  unfold finishSlot
  split
  · exact (putSlot_keeps s i _).trans (enqueueSlot_keeps _ i)
  · exact ((putSlot_keeps s i _).trans (bump_keeps _ _)).trans (tellRp_keeps _)

theorem storeSegment_keeps (s : State) (i : Nat) (d : SlotData) (g : Segment) : Keeps s (s.storeSegment i d g) := by
  unfold storeSegment
  simp only
  split
  · exact finishSlot_keeps ..
  · exact putSlot_keeps ..

theorem allocateSlot_keeps (s : State) (g : Segment) : Keeps s (s.allocateSlot g) := by
  unfold allocateSlot
  split
  · exact bump_keeps s _
  · exact (tellRp_keeps s).trans (storeSegment_keeps _ _ _ _)

theorem matchSegment_keeps (s : State) (g : Segment) : Keeps s (s.matchSegment g) := by
  unfold matchSegment
  split
  · split
    · split
      · exact bump_keeps s _
      · split
        · exact Keeps.refl s
        · exact storeSegment_keeps ..
    · exact Keeps.refl s
  · split
    · exact allocateSlot_keeps ..
    · exact bump_keeps s _
    · exact bump_keeps s _
    · exact bump_keeps s _
    · exact Keeps.refl s
    · exact Keeps.refl s

theorem takeSegment_keeps (s : State) (body : List Byte) : Keeps s (s.takeSegment body) := by
  unfold takeSegment
  simp only
  split
  · exact settleAll_keeps s
  · split
    · exact (bump_keeps s _).trans (settleAll_keeps _)
    · split
      · exact ((matchSegment_keeps s _).trans (settleAll_keeps _)).trans (resendHeard_keeps _ _ _)
      · exact (matchSegment_keeps s _).trans (settleAll_keeps _)

theorem slotExpires_keeps (s : State) (i : Nat) : Keeps s (s.slotExpires i) := by
  unfold slotExpires
  split
  · exact ((putSlot_keeps s i _).trans (bump_keeps _ _)).trans (tellRp_keeps _)
  · exact Keeps.refl s

/-! ## The transmit selector -/

theorem chooseOwnSeg_keeps {s : State} {c : Choice} (h : s.chooseOwnSeg = some c) : Keeps s c.2 := by
  unfold chooseOwnSeg at h
  obtain ⟨⟨i, r, next⟩, _, rfl⟩ := Option.map_eq_some_iff.mp h
  exact Keeps.setSu s _

theorem chooseRefuse_keeps {s : State} {c : Choice} (h : s.chooseRefuse = some c) : Keeps s c.2 := by
  unfold chooseRefuse at h
  obtain ⟨⟨a, o, n, r⟩, _, rfl⟩ := Option.map_eq_some_iff.mp h
  exact refusalChosen_keeps s r

theorem chooseReport_keeps (s : State) : Keeps s s.chooseReport.2 := Keeps.setHu s rfl rfl rfl rfl rfl
theorem chooseHail_keeps (s : State) : Keeps s s.chooseHail.2 := Keeps.setHu s rfl rfl rfl rfl rfl

theorem chooseResend_keeps {s : State} {c : Choice} (h : s.chooseResend = some c) : Keeps s c.2 := by
  unfold chooseResend at h
  obtain ⟨r, _, rfl⟩ := Option.map_eq_some_iff.mp h
  exact resendChosen_keeps s r

theorem chooseAsk_keeps {s : State} {c : Choice} (h : s.chooseAsk = some c) : Keeps s c.2 := by
  unfold chooseAsk at h
  obtain ⟨⟨i, a, p⟩, _, rfl⟩ := Option.map_eq_some_iff.mp h
  exact putAsk_keeps ..

theorem orElse_cases {α : Type} {x y : Option α} {c : α} (h : (x.orElse fun _ => y) = some c) : x = some c ∨ y = some c := by
  cases x
  · exact .inr h
  · exact .inl h

theorem chooseByLine_keeps {s : State} {c : Choice} (h : s.chooseByLine = some c) : Keeps s c.2 := by
  unfold chooseByLine at h
  rcases orElse_cases h with h | h
  · rcases orElse_cases h with h | h
    · rcases orElse_cases h with h | h
      · rcases orElse_cases h with h | h
        · rcases orElse_cases h with h | h
          · rcases orElse_cases h with h | h
            · exact chooseRefuse_keeps h
            · split at h
              · cases h; exact chooseReport_keeps s
              · cases h
          · split at h
            · cases h; exact chooseHail_keeps s
            · cases h
        · exact chooseResend_keeps h
      · exact chooseOwnSeg_keeps h
    · exact chooseAsk_keeps h
  · split at h
    · cases h; exact chooseReport_keeps s
    · cases h

theorem chooseBurst_keeps {s : State} {c : Choice} (h : s.chooseBurst = some c) : Keeps s c.2 := by
  unfold chooseBurst at h
  split at h
  · rcases orElse_cases h with h | h
    · exact chooseOwnSeg_keeps h
    · exact chooseByLine_keeps h
  · exact chooseByLine_keeps h

end State

end Sys2Proof.Machine
end

