-- ==== Sys2Proof/Laws/Path.lean ====
section
/-! SUPPORT. What follows a command's own effects leaves the commit path alone: an evaluation of reclaim and a re-run of the ask list
always, a grant where no program claim waits over a free array. -/

namespace Sys2Proof.Machine

open Sys2Proof.Safety

/-- The submit entries, the slots, the commit queue, the fill register and the array register are as they were, and no program claim
has come to wait over a free array. -/
structure KeepsPath (s t : State) : Prop where
  su : t.su = s.su
  ra : t.ra = s.ra
  ce : t.ce = s.ce
  fill : t.fc.fill = s.fc.fill
  array : t.fc.array = s.fc.array
  noClaim : NoClaim s → NoClaim t

namespace KeepsPath

theorem refl (s : State) : KeepsPath s s :=
  { su := rfl, ra := rfl, ce := rfl, fill := rfl, array := rfl, noClaim := id }

theorem trans {s t u : State} (h : KeepsPath s t) (k : KeepsPath t u) : KeepsPath s u where
  su := k.su.trans h.su
  ra := k.ra.trans h.ra
  ce := k.ce.trans h.ce
  fill := k.fill.trans h.fill
  array := k.array.trans h.array
  noClaim := k.noClaim ∘ h.noClaim

/-! ## Component updates -/

theorem setSm (s : State) (x : Sm) : KeepsPath s (s.setSm x) := { refl s with }
theorem setHu (s : State) (x : Hu) : KeepsPath s (s.setHu x) := { refl s with }
theorem setRp (s : State) (x : Rp) : KeepsPath s (s.setRp x) := { refl s with }
theorem setNu (s : State) (x : Nu) : KeepsPath s (s.setNu x) := { refl s with }
theorem setAp (s : State) (x : Ap) : KeepsPath s (s.setAp x) := { refl s with }

/-- A change of FC outside both registers that raises no program claim. -/
theorem setFc (s : State) {x : Fc} (hf : x.fill = s.fc.fill) (ha : x.array = s.fc.array) (ho : s.fc.op.isSome → x.op.isSome)
    (hc : s.fc.programClaim = none → x.programClaim = none) : KeepsPath s (s.setFc x) :=
  { refl s with
    fill := hf
    array := ha
    noClaim := fun w => w.imp ho hc }

/-- An operation other than CE's begins. -/
theorem setFcOp (s : State) {x : Fc} (hf : x.fill = s.fc.fill) (ha : x.array = s.fc.array) (ho : x.op.isSome) :
    KeepsPath s (s.setFc x) :=
  { refl s with
    fill := hf
    array := ha
    noClaim := fun _ => .inl ho }

end KeepsPath

namespace State

theorem foldl_keepsPath {α : Type} (f : State → α → State) (h : ∀ s x, KeepsPath s (f s x)) : (l : List α) → (s : State) →
    KeepsPath s (l.foldl f s)
  | [], s => KeepsPath.refl s
  | x :: xs, s => (h s x).trans (foldl_keepsPath f h xs (f s x))

theorem bump_keepsPath (s : State) (c : Counter) : KeepsPath s (s.bump c) := KeepsPath.setAp s _
theorem tellRp_keepsPath (s : State) : KeepsPath s s.tellRp := KeepsPath.setRp s _

theorem notify_keepsPath (s : State) (n : Notice) : KeepsPath s (s.notify n) := by
  unfold notify
  split
  · exact KeepsPath.setNu s _
  · exact KeepsPath.refl s

/-! ## Holdings -/

theorem evaluateDurable_keepsPath (s : State) : KeepsPath s s.evaluateDurable := by
  unfold evaluateDurable
  split
  · exact KeepsPath.refl s
  · simp only
    split
    · exact ((KeepsPath.setHu s _).trans (notify_keepsPath _ _)).trans (KeepsPath.setSm _ _)
    · exact KeepsPath.refl s

theorem raiseMark_keepsPath (s : State) : KeepsPath s s.raiseMark :=
  KeepsPath.setFc s rfl rfl id fun h => by rw [h]; rfl

theorem putEntry_keepsPath (s : State) (o : Nat) (e : Entry) : KeepsPath s (s.putEntry o e) := by
  have h : KeepsPath s (if s.reported o && e != s.entry o then (s.writeEntry o e).tellRp else s.writeEntry o e) := by
    split
    · exact (KeepsPath.setHu s _).trans (tellRp_keepsPath _)
    · exact KeepsPath.setHu s _
  unfold putEntry
  simp only
  split
  · exact (h.trans (raiseMark_keepsPath _)).trans (evaluateDurable_keepsPath _)
  · exact h

theorem floorRaise_keepsPath (s : State) (o f : Nat) : KeepsPath s (s.floorRaise o f) := by
  unfold floorRaise
  split
  · exact KeepsPath.refl s
  · exact putEntry_keepsPath ..

theorem abandon_keepsPath {s t : State} {o a b : Nat} (h : s.abandon o a b = some t) : KeepsPath s t := by
  unfold abandon at h
  simp only at h
  split at h
  · cases h
    exact (putEntry_keepsPath ..).trans (notify_keepsPath _ _)
  · cases h

/-! ## Lookups and reclaim -/

theorem setStepClaim_keepsPath (s : State) (who : Requester) (c : Option StepClaim) :
    KeepsPath s (s.setFc (s.fc.setStepClaim who c)) := by
  cases who <;> exact KeepsPath.setFc s rfl rfl id id

theorem serveEnds_keepsPath (s : State) (o n : Nat) (r : LookupOutcome) : KeepsPath s (s.serveEnds o n r) := by
  unfold serveEnds
  split
  · split
    · exact KeepsPath.setRp s _
    · exact KeepsPath.setRp s _
  · exact KeepsPath.setRp s _
  · exact (bump_keepsPath s _).trans (KeepsPath.setRp _ _)

theorem lookupEnds_keepsPath (s : State) (who : Requester) (l : Lookup) (r : LookupOutcome) :
    KeepsPath s (s.lookupEnds who l r) := by
  unfold lookupEnds
  cases who
  · exact (KeepsPath.setSm s _).trans (KeepsPath.setAp _ _)
  · exact (KeepsPath.setSm s _).trans (serveEnds_keepsPath ..)

theorem choose_keepsPath (s : State) (who : Requester) (l : Lookup) : KeepsPath s (s.choose who l) := by
  unfold choose
  split
  · exact (KeepsPath.setSm s _).trans (setStepClaim_keepsPath _ _ _)
  · exact lookupEnds_keepsPath ..

theorem leaveBlock_keepsPath (s : State) (b : Nat) (who : Requester) : KeepsPath s (s.leaveBlock b who) := by
  unfold leaveBlock
  split
  · exact KeepsPath.refl s
  · split
    · split
      · exact (setStepClaim_keepsPath s _ _).trans (choose_keepsPath ..)
      · exact KeepsPath.setSm s _
      · exact KeepsPath.refl s
    · exact KeepsPath.refl s

theorem select_keepsPath (s : State) (b : Nat) : KeepsPath s (s.select b) := by
  have floors : KeepsPath s (s.raiseFloors (s.sm.block b).summary) := foldl_keepsPath _ (fun s _ => floorRaise_keepsPath s _ _) _ s
  have left : ∀ e : BlockEntry, KeepsPath s
      ((((s.raiseFloors (s.sm.block b).summary).putBlock b e).leaveBlock b .fetch).leaveBlock b .serve) := fun e =>
    ((floors.trans (KeepsPath.setSm _ _)).trans (leaveBlock_keepsPath _ _ _)).trans (leaveBlock_keepsPath _ _ _)
  unfold select
  simp only
  split
  · exact (left _).trans (KeepsPath.setFc _ rfl rfl id id)
  · exact (left _).trans (KeepsPath.setFc _ rfl rfl id id)

theorem reclaimRounds_keepsPath : (n : Nat) → (s : State) → KeepsPath s (s.reclaimRounds n)
  | 0, s => KeepsPath.refl s
  | n + 1, s => by
    unfold reclaimRounds
    split
    · exact (select_keepsPath s _).trans (reclaimRounds_keepsPath n _)
    · exact KeepsPath.refl s

theorem evaluateReclaim_keepsPath (s : State) : KeepsPath s s.evaluateReclaim := by
  unfold evaluateReclaim
  split
  · simp only
    split
    · exact (reclaimRounds_keepsPath _ s).trans (KeepsPath.setSm _ _)
    · exact KeepsPath.setSm _ _
  · exact KeepsPath.refl s

/-! ## The grant -/

theorem grantStep_keepsPath (s : State) (who : Requester) (c : StepClaim) : KeepsPath s (s.grantStep who c) := by
  have h : KeepsPath s (s.setFc { s.fc.setStepClaim who none with op := some (.lookupRead who c.kind c.page) }) := by
    cases who <;> exact KeepsPath.setFcOp s rfl rfl rfl
  exact h.trans (KeepsPath.setSm _ _)

theorem grantRounds_keepsPath : (n : Nat) → {s : State} → NoClaim s → KeepsPath s (s.grantRounds n)
  | 0, s, _ => KeepsPath.refl s
  | n + 1, s, h => by
    unfold grantRounds
    split
    · exact KeepsPath.refl s
    · rename_i hop
      have free : s.fc.programClaim = none := by
        refine h.resolve_left fun w => hop ?_
        rw [w, Bool.or_true]
      rw [free]
      simp only
      split
      · exact grantStep_keepsPath s _ _
      · split
        · exact grantStep_keepsPath s _ _
        · split
          · rename_i m rest _
            have h1 : KeepsPath s (s.setFc { s.fc with markClaims := rest }) := KeepsPath.setFc s rfl rfl id id
            split
            · have h2 := h1.trans (bump_keepsPath _ .markFailures)
              exact h2.trans (grantRounds_keepsPath n (h2.noClaim h))
            · exact h1.trans (KeepsPath.setFcOp _ rfl rfl rfl)
          · split
            · split
              · exact KeepsPath.refl s
              · exact KeepsPath.setFcOp s rfl rfl rfl
            · exact KeepsPath.refl s

theorem grant_keepsPath {s : State} (h : NoClaim s) : KeepsPath s s.grant := grantRounds_keepsPath _ h

/-! ## The ask list -/

theorem removeAsk_keepsPath (s : State) (i o : Nat) : KeepsPath s (s.removeAsk i o) :=
  ((KeepsPath.setRp s _).trans (KeepsPath.setRp _ _)).trans (tellRp_keepsPath _)

theorem evaluateAskRounds_keepsPath : (n i : Nat) → (a : AskEntry) → (u : Nat) → (s : State) →
    KeepsPath s (s.evaluateAskRounds n i a u)
  | 0, _, _, _, s => KeepsPath.refl s
  | n + 1, i, a, u, s => by
    unfold evaluateAskRounds
    split
    · exact removeAsk_keepsPath s i _
    · split
      · exact KeepsPath.setRp s _
      · split
        · exact KeepsPath.setRp s _
        · simp only
          split
          · rename_i h
            exact (abandon_keepsPath h).trans (evaluateAskRounds_keepsPath n i a _ _)
          · exact KeepsPath.setRp s _

theorem rerunPlace_keepsPath (s : State) (i : Nat) : KeepsPath s (s.rerunPlace i) := by
  unfold rerunPlace
  split
  · exact KeepsPath.refl s
  · split
    · unfold advanceAsk
      simp only
      split
      · split
        · exact KeepsPath.setRp s _
        · exact removeAsk_keepsPath s i _
      · exact removeAsk_keepsPath s i _
    · exact evaluateAskRounds_keepsPath ..

theorem createAt_keepsPath (s : State) (o : Nat) : KeepsPath s (s.createAt o) := by
  unfold createAt
  split
  · exact KeepsPath.refl s
  · split
    · exact evaluateAskRounds_keepsPath ..
    · exact KeepsPath.refl s

theorem settleRepair_keepsPath (s : State) : KeepsPath s s.settleRepair := by
  have rerun : KeepsPath s s.rerun :=
    (foldl_keepsPath _ rerunPlace_keepsPath [0, 1, 2, 3] s).trans (foldl_keepsPath _ createAt_keepsPath _ _)
  unfold settleRepair
  split
  · simp only
    split
    · exact rerun.trans (KeepsPath.setRp _ _)
    · exact KeepsPath.setRp _ _
  · exact KeepsPath.refl s

/-! ## The end of a command -/

/-- What ends a command leaves the commit path alone where no program claim waits over a free array. -/
theorem settleAll_keepsPath {s : State} (h : NoClaim s) : KeepsPath s s.settleAll := by
  have reclaim := evaluateReclaim_keepsPath s
  exact (reclaim.trans (grant_keepsPath (reclaim.noClaim h))).trans (settleRepair_keepsPath _)

end State

end Sys2Proof.Machine
end

