-- ==== Sys2Proof/Laws/Scan.lean ====
section
/-! SUPPORT. The block table that the end of the scan rebuilds: the entry of each block, and its counts, read off the classes. -/

namespace Sys2Proof.Laws

open Sys2Proof.Machine

/-- A fold of block writes, in block order from `k` on: block `b` has the entry of its class, or keeps its own. -/
theorem fold_setBlock_block (f : ScanClass × Nat → BlockEntry) (b : Nat) (hb : b < 640) :
    (l : List ScanClass) → (k : Nat) → (sm : Sm) →
      ((l.zipIdx k).foldl (fun m x => m.setBlock x.2 (f x)) sm).block b
        = if h : k ≤ b ∧ b - k < l.length then f (l[b - k], b) else sm.block b
  | [], k, sm => by simp
  | c :: l, k, sm => by
    rw [List.zipIdx_cons, List.foldl_cons, fold_setBlock_block f b hb l (k + 1)]
    have hset : (sm.setBlock k (f (c, k))).block b = if k = b then f (c, k) else sm.block b := by
      unfold Sm.setBlock Sm.block
      simp only [place_setPlace]
      split <;> rename_i h1 <;> split <;> rename_i h2 <;> simp_all
    by_cases hkb : k = b
    · subst hkb
      rw [dif_neg (fun h => absurd h.1 (Nat.not_succ_le_self k)), dif_pos ⟨Nat.le_refl k, by simp⟩, hset, if_pos rfl]
      simp
    · by_cases hlt : k + 1 ≤ b
      · have e : b - k = (b - (k + 1)) + 1 := by omega
        simp only [e, List.getElem_cons_succ, List.length_cons]
        by_cases h : b - (k + 1) < l.length
        · rw [dif_pos ⟨hlt, h⟩, dif_pos ⟨by omega, by omega⟩]
        · rw [dif_neg (fun x => h x.2), dif_neg (fun x => h (by omega)), hset, if_neg hkb]
      · rw [dif_neg (fun x => hlt x.1), dif_neg (fun x => hlt (by omega)), hset, if_neg hkb]

/-- The newest written block of the classes, as a test on block numbers. -/
def isNewest (classes : List ScanClass) (b : Nat) : Bool := (newestWritten classes.zipIdx).map Prod.snd == some b

/-- R47: the table is that of the classes, block by block. -/
theorem rebuilt_block (sm : Sm) {classes : List ScanClass} (h : classes.length = 640) (b : Nat) (hb : b < 640) :
    (sm.rebuilt classes.zipIdx).block b = (classes[b]'(h ▸ hb)).entry (isNewest classes b) := by
  have key := fold_setBlock_block (fun x => x.1.entry (isNewest classes x.2)) b hb classes 0 sm
  rw [dif_pos ⟨Nat.zero_le _, by omega⟩] at key
  have same : (sm.rebuilt classes.zipIdx).table
      = (classes.zipIdx.foldl (fun m x => m.setBlock x.2 (x.1.entry (isNewest classes x.2))) sm).table := by
    unfold Sm.rebuilt isNewest
    cases newestWritten classes.zipIdx <;> rfl
  have block_eq : ∀ m m' : Sm, m.table = m'.table → m.block b = m'.block b := by
    intro m m' e
    unfold Sm.block
    rw [e]
  rw [block_eq _ _ same, key]
  rfl

/-- The entries of the classes of all 640 blocks. -/
def tableOf (classes : List ScanClass) (h : classes.length = 640) : Vector BlockEntry 640 :=
  ⟨(classes.zipIdx.map fun x => x.1.entry (isNewest classes x.2)).toArray, by simp [h]⟩

/-- R47: the table is that of the classes, as one. -/
theorem rebuilt_table (sm : Sm) {classes : List ScanClass} (h : classes.length = 640) :
    (sm.rebuilt classes.zipIdx).table = tableOf classes h := by
  apply Vector.toList_inj.mp
  show _ = classes.zipIdx.map fun x => x.1.entry (isNewest classes x.2)
  apply List.ext_getElem
  · simp [h]
  · intro b h1 h2
    have hb : b < 640 := by simpa using h1
    have key := rebuilt_block sm h b hb
    unfold Sm.block place at key
    simp only [Vector.getElem?_eq_getElem hb, Option.getD_some] at key
    simp [key]

/-- R24: a count of blocks after the scan is a count over the classes, for states of which OPEN and SEALED count alike. -/
theorem rebuilt_count (sm : Sm) {classes : List ScanClass} (h : classes.length = 640) (p : BlockState → Bool)
    (hp : p .opened = p .sealed) :
    (sm.rebuilt classes.zipIdx).count p = classes.countP fun c => p (c.entry false).state := by
  unfold Sm.count
  rw [rebuilt_table sm h]
  show List.countP _ (classes.zipIdx.map fun x => x.1.entry (isNewest classes x.2)) = _
  rw [List.countP_map]
  have fst : classes = classes.zipIdx.map Prod.fst := (List.zipIdx_map_fst 0 classes).symm
  conv => rhs; rw [fst, List.countP_map]
  apply List.countP_congr
  intro x _
  obtain ⟨c, b⟩ := x
  cases c with
  | written st pages torn summary =>
    simp only [Function.comp, ScanClass.entry]
    split <;> simp [hp]
  | _ => rfl

end Sys2Proof.Laws
end

