-- ==== Sys2Proof/Tests/Slice0.lean ====
section
/-! SUPPORT. Tests: what WellFormed refuses, the spec's worked values, one step of each command on a small state, and for every
statement with hypotheses a concrete case that meets them, clause by clause. -/

namespace Sys2Proof.Tests

open Sys2Proof.Machine Sys2Proof.Safety

-- One theorem at a time: each kernel evaluation would otherwise hold a thread while it waits for those before it.
set_option Elab.async false

/-! ## WellFormed refuses an ill-formed term, one for each check -/

theorem test_wf_refuses_stray_bits :
    Instr.wellFormed (.carrierEnd { bytes := [], strayBits := 8, codeFault := false }) = false := by decide
theorem test_wf_refuses_station_0 : Instr.wellFormed (.silenceTimerExpiry 0) = false := by decide
theorem test_wf_refuses_station_25 : Instr.wellFormed (.silenceTimerExpiry 25) = false := by decide
theorem test_wf_refuses_slot_8 : Instr.wellFormed (.slotTimerExpiry 8) = false := by decide
theorem test_wf_refuses_place_4 : Instr.wellFormed (.askTimerExpiry 4) = false := by decide
theorem test_wf_refuses_known_identifier : Instr.wellFormed (.unknownCommand 0x03 []) = false := by decide
theorem test_wf_refuses_response_identifier : Instr.wellFormed (.unknownCommand 0x80 []) = false := by decide
theorem test_wf_takes_unknown_identifier : Instr.wellFormed (.unknownCommand 0x0A []) = true := by decide

/-! ## Small states -/

/-- The outcome is a next state that passes `p`. -/
def nextIs (o : Host.Outcome State Fault Refusal) (p : State → Bool) : Bool :=
  match o with
  | .next t => p t
  | _ => false

def settings3 : Settings :=
  { groupSize := 3, target := 2, reportInterval := 100, askTimeout := 20, reassemblyTimeout := 20, flushDelay := 5,
    noticeThreshold := 4, noticeDelay := 10, arrivalNotices := true }

/-- Station 2 of a group of 3 in station state `st`, its store empty. -/
def station (st : StationState) : State :=
  { State.reset with
    sc := { phase := .running st .none, supplyFell := false, resetCause := .power, number := 2, settings := some settings3,
            listening := false, scan := none },
    hu := { Hu.reset with presence := setLine Hu.reset.presence 2 .present } }

def active : State := station .active

/-- Station 2 in AWAIT-CONFIG. -/
def awaiting : State :=
  let s := station .awaitConfig
  s.setSc { s.sc with settings := none }

/-- The array carries `op`. -/
def carrying (s : State) (op : Op) : State := s.setFc { s.fc with op := some op }

def withLc (s : State) (st : LcState) : State := s.setLc { s.lc with state := st, hasReference := true }

def pageAt (b p : Nat) : PageAddr := { block := b, page := p }

def recordOf (n : Nat) (bytes : List Byte) : OwnRecord := { seq := n, check := crc32 bytes, payload := bytes }

def heardWhole (bytes : List Byte) : CarrierPeriod := { bytes := bytes, strayBits := 0, codeFault := false }

/-- A completion, whichever way its open order falls (log 11). -/
theorem nextIs_completion {o : Host.Outcome State Fault Refusal} {s : State} {f : State → State} {p : State → Bool}
    (h : o = .next ((s.completion f).settleRepair)) (h1 : p ((f s.drawn).grant).settleRepair = true)
    (h2 : p ((f s.drawn.grant).grant).settleRepair = true) : nextIs o p = true := by
  rw [h]
  unfold State.completion
  split
  · exact h1
  · exact h2

/-! ## The spec's own values -/

/-- R213. -/
theorem test_crc_check_value :
    crc32 [0x31#8, 0x32#8, 0x33#8, 0x34#8, 0x35#8, 0x36#8, 0x37#8, 0x38#8, 0x39#8] = 0xFC891918#32 := by decide +kernel

set_option maxRecDepth 20000 in
/-- What a torn page's cleared bytes rest on (log 7): their check does not match their data. -/
theorem test_cleared_page_does_not_look_whole : looksWhole (List.replicate 3168 0x00#8) = false := by decide +kernel

/-- R26's example: after 637 block 638 opens; after 638 block 3. -/
theorem test_next_free_example :
    let sm : Sm := { Sm.reset with table := Vector.replicate 640 (retiredEntry .worn) }
    let free := ((sm.setBlock 3 BlockEntry.reset).setBlock 200 BlockEntry.reset)
    ({ free.setBlock 638 BlockEntry.reset with lastOpened := 637 } : Sm).nextFree = some 638
      ∧ ({ free with lastOpened := 638 } : Sm).nextFree = some 3 := by decide +kernel

/-- R49's example. -/
theorem test_peer_entry_example :
    peerRebuilt [10, 11, 12, 20, 25, 26, 27, 28, 29, 30]
      = { floor := 10, top := 30, gaps := [{ lo := 13, hi := 19 }, { lo := 21, hi := 24 }] } := by decide

/-- R82, R86, R88, R90: Table 5-7. -/
theorem test_entry_through_claims :
    let e0 : Entry := { floor := 1, top := 9, gaps := [{ lo := 5, hi := 5 }] }
    let e1 := e0.settle 12 12
    let e2 := e1.settle 10 10
    let e3 := e2.raiseFloor 7
    e1 = { floor := 1, top := 12, gaps := [{ lo := 5, hi := 5 }, { lo := 10, hi := 11 }] }
      ∧ e2 = { floor := 1, top := 12, gaps := [{ lo := 5, hi := 5 }, { lo := 11, hi := 11 }] }
      ∧ e3 = { floor := 7, top := 12, gaps := [{ lo := 11, hi := 11 }] } ∧ e3.frontier = 10
      ∧ e3.settle 11 11 = { floor := 7, top := 12, gaps := [] } := by decide

/-- R165: Table 9-1, in a group of 7: the table names origin 7. -/
theorem test_missing_set_example :
    let s := station .active
    let t := (s.setSc { s.sc with number := 4, settings := some { settings3 with groupSize := 7 } }).setHu { s.hu with
      entries := setLine s.hu.entries 7
        { floor := 100, top := 130, gaps := [{ lo := 104, hi := 106 }, { lo := 120, hi := 120 }] },
      matrix := setLine (setLine s.hu.matrix 2 (some (List.replicate 7 { floor := 90, frontier := 140 })))
        5 (some (List.replicate 7 { floor := 110, frontier := 125 })) }
    let u := t.setFc { t.fc with fill := { t.fc.fill with
      list := [{ origin := 7, seq := 105, offset := 0 }, { origin := 7, seq := 133, offset := 40 }] } }
    u.missingRuns 7 = [{ lo := 104, hi := 104 }, { lo := 106, hi := 106 }, { lo := 120, hi := 120 }, { lo := 131, hi := 132 },
      { lo := 134, hi := 140 }] := by decide +kernel

/-- Table 6-5. -/
theorem test_segmentation_examples :
    [1, 240, 241, 300, 1000, 1920].map (fun n => (segmentCount n, segmentLength n (segmentCount n) (segmentCount n - 1)))
      = [(1, 1), (1, 240), (2, 1), (2, 60), (5, 40), (8, 240)] := by decide

/-- R62: ranks of stations 1 to 4 under L = 2 and under L = 0 (section 4.10). -/
theorem test_ranks_of_the_example :
    [1, 2, 3, 4].map (fun a => rankOf a 2 4) = [2, 3, 0, 1] ∧ [1, 2, 3, 4].map (fun a => rankOf a 0 4) = [0, 1, 2, 3] := by
  decide

/-! ## The machine and reset -/

/-- StepTakesTheFrontCommand: both clauses. -/
theorem witness_step :
    (∃ c rest, ({ active with pending := [.ownSlotStart, .burstSent] } : State).pending = c :: rest)
      ∧ active.pending = []
      ∧ nextIs (step { active with pending := [.reportTimerExpiry, .burstSent] }) (fun t => t.pending == [.burstSent]) = true := by
  refine ⟨⟨_, _, rfl⟩, rfl, ?_⟩
  decide +kernel

/-- OutcomesOfACommand: a fault, and a next state. -/
theorem witness_outcomes :
    let c : ProgramClaim := { target := pageAt 640 0, stamp := 1, ownTop := 0 }
    exec .transferEnd (carrying active (.transfer c)) = .fault (.noSuchPage (pageAt 640 0))
      ∧ exec (.programDone .pass) (carrying active (.program { c with target := pageAt 639 48 }))
          = .fault (.noSuchPage (pageAt 639 48))
      ∧ exec .burstSent active = .next active := ⟨rfl, rfl, rfl⟩

/-- POWER_ON_RESET and PIN_RESET: the reset of a running part; the supply level is remembered (R40). -/
theorem test_resets :
    nextIs (exec .powerOnReset active) (fun t => t.sc.phase == .held .power && t.sc.supplyFell && t.station == none) = true
      ∧ nextIs (exec .pinReset active) (fun t => t.sc.phase == .held .pin && !t.sc.supplyFell) = true
      ∧ nextIs (exec .pinReset State.reset) (fun t => t.sc.phase == .held .pin && t.sc.supplyFell) = true := by decide +kernel

/-- ResetCutsAnOperationShort: each operation in flight, at the first and the last page. -/
theorem witness_reset_cuts :
    let c : ProgramClaim := { target := pageAt 639 47, stamp := 1, ownTop := 0 }
    let s := active.setFc { active.fc with mem := Memory.markBlock [] 639 0x3C#8 }
    (∀ op ∈ [Op.scanSpareRead (pageAt 0 0), .scanPageRead (pageAt 0 0), .lookupRead .fetch .page (pageAt 639 47), .transfer c,
        .program c, .mark 639 0x3C#8, .scanMark 0 0x3C#8, .erase 0, .scanErase 639], MemoryOk (carrying s op))
      ∧ MemoryOk s ∧ s.fc.op = none ∧ c.target.valid = true ∧ s.fc.mem ≠ [] := by
  refine ⟨fun op _ => ?_, ?_, rfl, ?_, ?_⟩
  · show Memory.wf (Memory.markBlock [] 639 0x3C#8) = true
    decide +kernel
  · show Memory.wf (Memory.markBlock [] 639 0x3C#8) = true
    decide +kernel
  · decide +kernel
  · decide +kernel

/-- ReleaseLatchesTheStraps: held, with the straps at the ends of their range; and running. -/
theorem witness_release :
    State.reset.sc.phase = .held .power
      ∧ (∀ n ∈ [1#5, 24#5], nextIs (exec (.resetRelease n) State.reset) (fun t =>
          t.station == some .scanning && t.sc.number == n.toNat && t.sc.resetCause == .power) = true)
      ∧ (∀ n ∈ [0#5, 25#5, 31#5], nextIs (exec (.resetRelease n) State.reset) (fun t =>
          t.sc.phase == .running .halted .badStraps && t.fc.op == none) = true)
      ∧ active.sc.phase = .running .active .none := by decide +kernel

/-! ## The store scan -/

/-- Station 2 scans page (b, p) of the array content `m`. -/
def scanning (m : Memory) (b p : Nat) (step : ScanStep) (op : Op) : State :=
  let s := station .scanning
  let scan : Scan := { Scan.first with block := b, page := p, step := step, stamp := 7 }
  carrying ((s.setSc { s.sc with settings := none, scan := some scan }).setFc { s.fc with mem := m }) op

/-- A page of one listed record under stamp 7, as its spare shows it; its check is that of erased data. -/
def goodSpare : List Byte := spareArea [{ origin := 1, seq := 1, offset := 0 }] 7 0 0x6B1CA1BD#32

/-- The memory in which page (b, p) has the spare `spare`. -/
def spareMemory (b p : Nat) (spare : List Byte) : Memory := cellsFrom (pageAt b p).spareBase spare

/-- How block `b`'s scan goes on. -/
def classified (o : Host.Outcome State Fault Refusal) (c : ScanClass) : Bool :=
  nextIs o fun t => (t.sc.scan.map Scan.classes) == some [c]

/-- ScanJudgesTheSpare: each clause, at blocks 0 and 639 and pages 0 and 47. -/
theorem witness_scan_spare :
    let at0 := fun (m : Memory) (step : ScanMode) => scanning m 0 0 (.spare step) (.scanSpareRead (pageAt 0 0))
    let spareOf := fun (m : Memory) => m.spareOf (pageAt 0 0)
    let dirty : Memory := [((pageAt 0 0).spareBase + 1, 0x00#8)]
    (pageAt 0 0).valid = true ∧ (pageAt 639 47).valid = true
      ∧ classified (exec .scanSpareReadDone (at0 (Memory.markBlock [] 0 0x3C#8) .first)) (.retired .worn) = true
      ∧ classified (exec .scanSpareReadDone (at0 (Memory.markBlock [] 0 0x00#8) .first)) (.retired .factory) = true
      ∧ nextIs (exec .scanSpareReadDone (at0 [] .first)) (fun t => t.fc.op == some (.scanPageRead (pageAt 0 0))) = true
      ∧ (spareMark goodSpare = 0xFF#8 ∧ spareGood goodSpare = true ∧ spareOf (spareMemory 0 0 goodSpare) = goodSpare)
      ∧ (spareMark (spareOf dirty) = 0xFF#8 ∧ allErased (spareOf dirty) = false ∧ spareGood (spareOf dirty) = false)
      ∧ nextIs (exec .scanSpareReadDone (at0 dirty .first)) (fun t => t.fc.op == some (.scanErase 0)) = true
      ∧ nextIs (exec .scanSpareReadDone (at0 dirty .freeTest)) (fun t => t.fc.op == some (.scanErase 0)) = true
      ∧ nextIs (exec .scanSpareReadDone (at0 (spareMemory 0 0 goodSpare) .walk))
          (fun t => t.fc.op == some (.scanPageRead (pageAt 0 0))) = true
      ∧ classified (exec .scanSpareReadDone (at0 dirty .walk)) (.written 7 0 true []) = true := by decide +kernel

set_option maxRecDepth 20000 in
theorem crc_of_erased_data : crc32 (erasedBytes 3072) = 0x6B1CA1BD#32 := by decide +kernel

theorem data_of_erased_page (p : PageAddr) : Memory.dataOf [] p = erasedBytes 3072 := by
  show (List.range 3072).map (fun _ => 0xFF#8) = List.replicate 3072 0xFF#8
  rw [List.map_const', List.length_range]

/-- ScanJudgesThePage: erased, matched and neither. -/
theorem witness_scan_page (p : PageAddr) :
    let data := Memory.dataOf [] p
    let badSpare := spareArea [{ origin := 1, seq := 1, offset := 0 }] 7 0 0x00000000#32
    allErased data = true ∧ allErased (erasedBytes 96) = true
      ∧ (allErased goodSpare = false ∧ crc32 data = sparePageCheck goodSpare)
      ∧ (allErased badSpare = false ∧ crc32 data ≠ sparePageCheck badSpare) := by
  simp only [data_of_erased_page, crc_of_erased_data]
  decide +kernel

/-- ScanJudgesThePage: the free test below page 47 and at page 47, and the end of a walk. -/
theorem test_scan_page :
    let read := fun (m : Memory) (p : Nat) (mode : ScanMode) =>
      exec .scanPageReadDone (scanning m 0 p (.page mode (erasedBytes 96)) (.scanPageRead (pageAt 0 p)))
    (pageAt 0 0).valid = true ∧ (pageAt 0 47).valid = true ∧ (pageAt 639 47).valid = true
      ∧ nextIs (read [] 46 .freeTest) (fun t => t.fc.op == some (.scanSpareRead (pageAt 0 47))) = true
      ∧ classified (read [] 47 .freeTest) .free = true
      ∧ classified (read [] 5 .walk) (.written 7 5 false []) = true := by decide +kernel

/-- ScanErasesAndMarks: the erase and the mark program of blocks 0 and 638, the flag clear and set. -/
theorem witness_scan_erase :
    let s := fun b => scanning [] b 0 .erase (.scanErase b)
    let flagged := (s 0).setFc ((s 0).fc.setMarkFlag (pageAt 0 0))
    let m := fun b => scanning [] b 0 .mark (.scanMark b 0x3C#8)
    classified (exec (.scanEraseDone .pass) (s 0)) .free = true
      ∧ classified (exec (.scanEraseDone .pass) (s 638)) .free = true
      ∧ (s 0).fc.markFlag (pageAt 0 0) = false ∧ flagged.fc.markFlag (pageAt 0 0) = true
      ∧ nextIs (exec (.scanEraseDone .fail) (s 0)) (fun t =>
          t.fc.op == some (.scanMark 0 0x3C#8) && t.counter .eraseFailures == 1) = true
      ∧ classified (exec (.scanEraseDone .fail) flagged) (.retired .worn) = true
      ∧ nextIs (exec (.scanMarkDone .pass) (m 638)) (fun t =>
          (t.sc.scan.map Scan.classes) == some [.retired .worn] && t.fc.mem == [((pageAt 638 0).spareBase, 0x3C#8)]) = true
      ∧ nextIs (exec (.scanMarkDone .fail) (m 0)) (fun t =>
          (t.sc.scan.map Scan.classes) == some [.retired .worn] && t.counter .markFailures == 1) = true := by decide +kernel

/-- ScanEnds: the scan of an erased store is at the erase of block 639, its own origin among the found sets. -/
theorem witness_scan_ends :
    let s := scanning [] 639 0 .erase (.scanErase 639)
    let scan : Scan := { Scan.first with block := 639, step := .erase, classes := List.replicate 639 .free,
                                         found := setLine Scan.first.found 2 [3, 4], ownTop := 4 }
    let t := s.setSc { s.sc with scan := some scan }
    t.fc.op = some (.scanErase 639) ∧ t.sc.scan = some scan ∧ scan.block = 639 ∧ t.fc.programClaim = none
      ∧ t.fc.fetchClaim = none ∧ t.fc.serveClaim = none ∧ t.fc.markClaims = [] ∧ t.fc.eraseClaim = none
      ∧ t.rp.rerunDue = false ∧ 6 ≤ (t.sm.rebuilt (ScanClass.free :: scan.classes).reverse.zipIdx).freeCount := by
  refine ⟨rfl, rfl, rfl, rfl, rfl, rfl, rfl, rfl, rfl, ?_⟩
  rw [Sm.freeCount, Laws.rebuilt_count _ (by decide +kernel) _ rfl]
  decide +kernel

/-- Station 2 at the end of the scan of blocks with these classes, the last of them block 639, which was erased. -/
def scanEnding (classes : List ScanClass) : State :=
  let s := scanning [] 639 0 .erase (.scanErase 639)
  s.setSc { s.sc with scan := some { Scan.first with block := 639, step := .erase, classes := classes } }

theorem scan_ending_rests (classes : List ScanClass) : AtRest (scanEnding classes) := by
  refine ⟨rfl, rfl, rfl, rfl, rfl, rfl, rfl, rfl, rfl, rfl, rfl, rfl, rfl, rfl, rfl, rfl, rfl, rfl, rfl, rfl, fun op h => ?_⟩
  cases h
  rfl

/-- `free` blocks FREE, `written` blocks written full under stamp 5, and the others worn, the erased block 639 among the FREE. -/
def storeOf (free written : Nat) : List ScanClass :=
  List.replicate (640 - free - written) (.retired .worn)
    ++ List.replicate written (.written 5 48 false [{ origin := 1, lowest := 1, highest := 9 }]) ++ List.replicate free .free

/-- ScanEnds: FREE counts and RETIRED counts on both sides of each limit. -/
theorem witness_scan_ends_levels :
    (∀ c, (scanEnding c).fc.op = some (.scanErase 639) ∧ AtRest (scanEnding c))
      ∧ (∀ f ∈ [1, 2, 5, 6], ∀ w ∈ [7, 2, 1], (Sm.reset.rebuilt (storeOf f w).zipIdx).freeCount = f)
      ∧ (Sm.reset.rebuilt (storeOf 1 7).zipIdx).retiredCount = 632 ∧ (Sm.reset.rebuilt (storeOf 1 6).zipIdx).retiredCount = 633 := by
  refine ⟨fun c => ⟨rfl, scan_ending_rests c⟩, fun f hf w hw => ?_, ?_, ?_⟩
  · have h : (storeOf f w).length = 640 := by
      revert f w
      decide +kernel
    unfold Sm.freeCount
    rw [Laws.rebuilt_count _ h _ rfl]
    revert f w
    decide +kernel
  all_goals
    unfold Sm.retiredCount
    rw [Laws.rebuilt_count _ (by decide +kernel) _ rfl]
    decide +kernel

/-- What an evaluation selects rests on the table, the newest page's block, the level, the own number and D. -/
theorem selection_congr {s t : State} (table : s.sm.table = t.sm.table)
    (newest : s.sm.newestPage.map PageAddr.block = t.sm.newestPage.map PageAddr.block) (level : s.sm.pressure = t.sm.pressure)
    (own : s.own = t.own) (durable : s.hu.durable = t.hu.durable) : s.selection = t.selection := by
  unfold State.selection State.eligible Sm.newestFlag Sm.count Sm.reclaimCandidate Sm.block
  simp only [table, newest, level, own, durable]

/-- Station 2 under the level TIGHT over the table of the classes, its newest page in block `b`. -/
def overTable (classes : List ScanClass) (h : classes.length = 640) (b : Nat) : State :=
  active.setSm { Sm.reset with table := Laws.tableOf classes h, newestPage := some (pageAt b 0), pressure := .tight }

theorem selection_rebuilt {classes : List ScanClass} (h : classes.length = 640) {stamp b : Nat}
    (newest : newestWritten classes.zipIdx = some (stamp, b)) :
    (active.setSm { Sm.reset.rebuilt classes.zipIdx with pressure := .tight }).selection = (overTable classes h b).selection := by
  refine selection_congr (Laws.rebuilt_table _ h) ?_ rfl rfl rfl
  show (Sm.rebuilt _ _).newestPage.map _ = _
  unfold Sm.rebuilt
  rw [newest]
  rfl

theorem full_store_length : (storeOf 1 7).length = 640 := by decide +kernel

/-- ScanEnds: of seven full blocks of one stamp reclaim takes the lowest. -/
theorem witness_scan_ends_selects :
    (active.setSm { Sm.reset.rebuilt (storeOf 1 7).zipIdx with pressure := .tight }).selection = some 632 := by
  have newest : newestWritten (storeOf 1 7).zipIdx = some (5, 638) := by decide +kernel
  exact (selection_rebuilt full_store_length newest).trans (by decide +kernel)

/-- StoreRebuilt, the table: 640 classes in which each clause has a block; the newest written block is torn, whole or full. -/
theorem witness_block_table :
    let classes := fun (pages : Nat) (torn : Bool) =>
      [ScanClass.free, .retired .factory, .retired .worn, .written 5 48 false [], .written 6 pages torn []]
        ++ List.replicate 635 ScanClass.free
    (∀ pages torn, (classes pages torn).length = 640) ∧ (classes 47 false)[0]? = some .free
      ∧ (classes 47 false)[2]? = some (.retired .worn)
      ∧ (classes 47 false)[3]? = some (.written 5 48 false [])
      ∧ (classes 47 false)[4]? = some (.written 6 47 false []) ∧ (classes 48 false)[4]? = some (.written 6 48 false [])
      ∧ (classes 3 true)[4]? = some (.written 6 3 true [])
      ∧ ∀ (b : Nat) st pages torn summary,
          (List.replicate 640 ScanClass.free)[b]? ≠ some (ScanClass.written st pages torn summary) := by
  refine ⟨fun _ _ => ?_, rfl, rfl, rfl, rfl, rfl, rfl, fun b st pages torn summary h => ?_⟩
  · rw [List.length_append, List.length_replicate]; rfl
  · rw [List.getElem?_replicate] at h
    split at h
    · cases h
    · cases h

/-- StoreRebuilt, the entries: the mark found and not found, at its largest value, and a peer's walk stopped by a seventh gap. -/
theorem witness_holdings_rebuilt :
    ([61, 62, 64] : List Nat).Pairwise (· < ·) ∧ ownRebuilt 64 [61, 62, 64] = { floor := 64, top := 64, gaps := [] }
      ∧ ownRebuilt 66 [61, 62, 64] = { floor := 67, top := 66, gaps := [] }
      ∧ ownRebuilt 4294967295 [] = { floor := 4294967295, top := 4294967295, gaps := [] }
      ∧ ([1, 3, 5, 7, 9, 11, 13, 15] : List Nat).Pairwise (· < ·) ∧ (0 : Nat) ∉ [1, 3, 5, 7, 9, 11, 13, 15]
      ∧ (peerRebuilt [1, 3, 5, 7, 9, 11, 13, 15]).floor = 3 ∧ (peerRebuilt [1, 3, 5, 7, 9, 11, 13, 15]).gaps.length = 6
      ∧ peerRebuilt [] = Entry.reset := by decide

/-! ## The station line -/

def seekingWith (tr : Tracked) (quietLimit : Bool) : State :=
  active.setLc { active.lc with state := .seeking, tracked := tr, quietLimit := quietLimit }

/-- LineEventsOfTheController: each clause. -/
theorem witness_line_events :
    nextIs (exec .carrierBegin (withLc active .deferring)) (fun t => t.lc.state == .hearing) = true
      ∧ nextIs (exec .carrierBegin (seekingWith .quiet true)) (fun t => t.lc.tracked == .fromStart) = true
      ∧ nextIs (exec .mismatchDetected (withLc active .sending)) (fun t =>
          t.lc.state == .jamming && t.counter .collisions == 1 && t.lineOut == jamBytes) = true
      ∧ nextIs (exec (.jamEnd true) (withLc active .jamming)) (fun t => t.lc.state == .trailing) = true
      ∧ nextIs (exec (.jamEnd false) (withLc active .jamming)) (fun t => t.lc.state == .deferring) = true
      ∧ nextIs (exec .quietLimitExpiry (seekingWith .quiet true)) (fun t => t.lc.state == .deferring) = true
      ∧ nextIs (exec .quietLimitExpiry (seekingWith .fromStart true)) (fun t =>
          t.lc.state == .seeking && !t.lc.quietLimit) = true
      ∧ (seekingWith .inProgress true).lc.tracked ≠ .quiet := by decide +kernel

/-- A REPORT of station 1 to the group of 3 with station 2's own frontier at `c`. -/
def reportFrom1 (c : Nat) : List Byte :=
  burstBytes .report 1 3 0 (pairBytes [{ floor := 1, frontier := 4 }, { floor := 1, frontier := c }, { floor := 1, frontier := 0 }])

/-- CarrierEndsUnheard: trailing, tracked from within, a bad and a foreign period. -/
theorem witness_unheard :
    nextIs (exec (.carrierEnd (heardWhole [])) (withLc active .trailing)) (fun t => t.lc.state == .deferring) = true
      ∧ nextIs (exec (.carrierEnd (heardWhole [])) (seekingWith .inProgress true)) (fun t => t.lc.state == .deferring) = true
      ∧ classify 2 3 (heardWhole (preamble ++ List.replicate 12 0x00#8)) = .bad
      ∧ classify 2 3 { heardWhole (reportFrom1 0) with strayBits := 1 } = .bad
      ∧ classify 2 3 (heardWhole (burstBytes .refuse 1 4 0 (List.replicate 8 0x00#8))) = .foreign
      ∧ nextIs (exec (.carrierEnd (heardWhole (burstBytes .refuse 1 4 0 (List.replicate 8 0x00#8)))) (withLc active .hearing))
          (fun t => t.counter .foreignBursts == 1 && t.lc.lastSender == 0) = true := by decide +kernel

/-- GoodBurstIsHandedOn and ReportReplacesTheRow: a REPORT heard in HEARING and from SEEKING, at and above T_own. -/
theorem witness_good_burst :
    let pairs : List Pair := [{ floor := 1, frontier := 4 }, { floor := 1, frontier := 0 }, { floor := 1, frontier := 0 }]
    let one : Burst := { kind := .report, sender := 1, target := 0, body := pairBytes pairs }
    let joining := withLc (station .joining) .hearing
    classify 2 3 (heardWhole (reportFrom1 0)) = .good one
      ∧ pairsOf 3 one.body = pairs
      ∧ active.own = 2 ∧ active.groupSize = 3
      ∧ nextIs (exec (.carrierEnd (heardWhole (reportFrom1 0))) (withLc active .hearing)) (fun t =>
          t.lc.lastSender == 1 && t.presenceOf 1 == .present && t.cell 1 1 == some { floor := 1, frontier := 4 }) = true
      ∧ nextIs (exec (.carrierEnd (heardWhole (reportFrom1 0))) (seekingWith .fromStart true)) (fun t => t.lc.lastSender == 1) = true
      ∧ nextIs (exec (.carrierEnd (heardWhole (reportFrom1 0))) (seekingWith .fromStart false)) (fun t => t.lc.lastSender == 0) = true
      ∧ nextIs (exec (.carrierEnd (heardWhole (reportFrom1 9))) (withLc active .hearing)) (fun t =>
          t.cell 1 2 == some { floor := 1, frontier := 0 } && t.hu.conflictNoted == [1]) = true
      ∧ nextIs (exec (.carrierEnd (heardWhole (reportFrom1 9))) joining) (fun t =>
          t.cell 1 2 == some { floor := 1, frontier := 9 } && t.ownTop == 9) = true := by decide +kernel

/-- GoodBurstIsHandedOn, an ASK and a REFUSE of station 1 to station 2: the serve queue and the ask list. -/
theorem witness_ask_handed_on :
    let bytes := fun (kind : BurstKind) (body : List Byte) => heardWhole (burstBytes kind 1 3 2 body)
    let ask := askBytes { origin := 2, count := 1, first := 5 }
    let refuse := refuseBytes 3 .busy 1
    let asking := (active.putAsk 3 (some { origin := 3, first := 1, count := 1, tries := 0, skip := [],
                                           state := .asked 1 false true })).setPresence 1 .present true
    classify 2 3 (bytes .ask ask) = .good { kind := .ask, sender := 1, target := 2, body := ask }
      ∧ classify 2 3 (bytes .refuse refuse) = .good { kind := .refuse, sender := 1, target := 2, body := refuse }
      ∧ nextIs (exec (.carrierEnd (bytes .ask ask)) (withLc active .hearing)) (fun t =>
          t.rp.jobs == [{ asker := 1, origin := 2, first := 5, count := 1, next := 5 }]
            && t.rp.notHeld == some { number := 5, older := 0 }) = true
      ∧ asking.presenceOf 1 = .present ∧ (asking.takeRefuse 1 2 refuse).rp.rerunDue = false
      ∧ nextIs (exec (.carrierEnd (bytes .refuse refuse)) (withLc asking .hearing)) (fun t =>
          t.counter .refusalsReceived == 1 && t.rp == asking.rp) = true := by decide +kernel

/-- ReportReplacesTheRow: a malformed body, and a HAIL. -/
theorem witness_report_malformed :
    let bad := burstBytes .report 1 3 0 (pairBytes (List.replicate 3 { floor := 0, frontier := 0 }))
    let hail := burstBytes .hail 3 3 0 (pairBytes (List.replicate 3 { floor := 1, frontier := 0 }))
    nextIs (exec (.carrierEnd (heardWhole bad)) (withLc active .hearing)) (fun t =>
        t.counter .badBursts == 1 && t.counter .goodBursts == 1 && t.row 1 == none) = true
      ∧ nextIs (exec (.carrierEnd (heardWhole hail)) (withLc active .hearing)) (fun t =>
          t.hu.reportPending && (t.row 3).isSome) = true := by decide +kernel

/-- ReportReplacesTheRow: the adopted own entry, below and at the largest number; OWN-CONFLICT once; and a report heard in SEEKING. -/
theorem witness_report_adopts :
    let joining := withLc (station .joining) .hearing
    let hears := fun (s : State) (c : Nat) => exec (.carrierEnd (heardWhole (reportFrom1 c))) s
    let noted := (withLc active .hearing).setHu { active.hu with conflictNoted := [1] }
    nextIs (hears joining 9) (fun t => t.entry 2 == { floor := 10, top := 9, gaps := [] }) = true
      ∧ nextIs (hears joining 4294967295) (fun t => t.entry 2 == { floor := 4294967295, top := 4294967295, gaps := [] }) = true
      ∧ nextIs (hears (withLc active .hearing) 9) (fun t => t.nu.queue == [.peerPresent 1, .ownConflict 1 9]) = true
      ∧ nextIs (hears noted 9) (fun t => t.nu.queue == [.peerPresent 1] && t.hu.conflictNoted == [1]) = true
      ∧ nextIs (hears (seekingWith .fromStart false) 9) (fun t => (t.row 1).isSome && t.hu.conflictNoted == [1]) = true := by decide +kernel

/-- BurstsAreReadAsComposed: a body of each kind in the smallest and the largest group. -/
theorem witness_bodies_suit :
    let g := segmentBytes (cutSegment 1 1 0x00000000#32 (List.replicate 240 0x00#8) false 0)
    bodySuits .hail 24 (List.replicate 192 0x00#8) = true ∧ bodySuits .report 2 (List.replicate 16 0x00#8) = true
      ∧ bodySuits .seg 3 g = true ∧ bodySuits .ask 3 (List.replicate 8 0x00#8) = true
      ∧ bodySuits .refuse 3 (List.replicate 8 0x00#8) = true := by decide +kernel

/-- BodiesAreReadAsWritten: a first, a middle and a last segment of the longest record, and the ends of the other ranges. -/
theorem witness_bodies_read :
    let cut := cutSegment 24 4294967295 0x00000000#32 (List.replicate 1920 0x00#8)
    (∀ i ∈ [0, 3, 7], (cut true i).consistent 24 = true) ∧ (cut true 0).seq < 2 ^ 32
      ∧ (cutSegment 1 0 0x00000000#32 [0x00#8] false 0).consistent 1 = true
      ∧ (∀ p ∈ [({ floor := 1, frontier := 0 } : Pair), { floor := 4294967295, frontier := 4294967295 }],
          p.floor < 2 ^ 32 ∧ p.frontier < 2 ^ 32)
      ∧ ({ origin := 65535, count := 65535, first := 4294967295 } : AskBody).origin < 2 ^ 16 := by decide +kernel

/-- Station 2 ACTIVE in DEFERRING with own record 1 SENDING, of one segment. -/
def sendingOwn : State :=
  (withLc active .deferring).setSu { entries := setPlace Su.reset.entries 0 (.sending (recordOf 1 [0x41#8]) 1 0) }

def askedOf (o p : Nat) (due timer : Bool) : AskEntry :=
  { origin := o, first := 1, count := 1, tries := 0, skip := [], state := .asked p due timer }

/-- What the own slot sends in state `s`. -/
def sends (s : State) (item : BurstItem) : Bool :=
  nextIs (exec .ownSlotStart s) fun t => t.lc.state == .sending && (t.lc.chosen.map ChosenBurst.item) == some item

/-- OwnSlotSendsByTheOrder: nothing to send, the chosen burst again, each line in its turn, and a fairness count of 4. -/
theorem witness_own_slot :
    let idle := withLc active .deferring
    let busy := sendingOwn.setHu { sendingOwn.hu with line2 := true }
    let refusing := busy.setRp { busy.rp with busy := [{ asker := 1, origin := 3, number := 7 }] }
    let resend := sendingOwn.setRp { sendingOwn.rp with
      buffer := some { origin := 3, seq := 5, check := 0x00000000#32, payload := [0x00#8], next := 0 } }
    let chosen := idle.setLc { idle.lc with chosen := some { item := .report, bytes := [], contested := false } }
    idle.lc.chosen = none ∧ idle.su.offer = none ∧ idle.dueRefusal = none ∧ idle.resendOffer = none ∧ idle.dueAsk = none
      ∧ nextIs (exec .ownSlotStart idle) (fun t => t.lc.state == .deferring && t.lc.slotCount == some 1) = true
      ∧ sends chosen .report = true ∧ sends refusing .refuse = true ∧ sends busy .report = true
      ∧ sends (sendingOwn.setHu { sendingOwn.hu with line3 := true }) .hail = true
      ∧ sends resend .resend = true ∧ sends (resend.setLc { resend.lc with fairness := 4 }) (.ownSeg 1 true) = true
      ∧ sends sendingOwn (.ownSeg 1 true) = true
      ∧ sends (idle.putAsk 2 (some (askedOf 3 1 true false))) (.ask 3 1) = true
      ∧ sends (idle.setHu { idle.hu with reportPending := true }) .report = true := by decide +kernel

set_option maxRecDepth 20000 in
/-- OwnSlotSendsByTheOrder, its owners: an own record's next segment, a BUSY before a NOT-HELD, the NOT-HELD with its job and the next
job tested, a report, the HAIL, and the last segment of a resend with a number and a job behind it. -/
theorem witness_own_slot_owners :
    let idle := withLc active .deferring
    let out := exec .ownSlotStart
    let two : OwnRecord := recordOf 1 (List.replicate 241 0x41#8)
    let own := idle.setSu { entries := setPlace Su.reset.entries 7 (.sending two 2 0) }
    let job : ServeJob := { asker := 1, origin := 3, first := 5, count := 2, next := 5 }
    let refusing := idle.setRp { idle.rp with
      jobs := [job, { job with first := 8 }], busy := [{ asker := 3, origin := 1, number := 7 }], notHeld := some { number := 5, older := 1 } }
    let refused := refusing.setRp { refusing.rp with busy := [], notHeld := some { number := 5, older := 0 } }
    let record : ServeRecord := { origin := 3, seq := 5, check := 0x00000000#32, payload := List.replicate 241 0x00#8, next := 1 }
    let resend := idle.setRp { idle.rp with jobs := [job], buffer := some record }
    let last := idle.setRp { idle.rp with jobs := [{ job with next := 6 }], buffer := some { record with seq := 6 } }
    let report := idle.setHu { idle.hu with line2 := true, reportTimer := true, reportPending := true }
    (Quiet idle ∧ NoClaim idle) ∧ nextIs (out own) (fun t => place t.su.entries .free 7 == .sending two 2 1) = true
      ∧ nextIs (out refusing) (fun t => t.rp.busy == [] && t.rp.jobs.length == 2 && t.rp.notHeld == some { number := 5, older := 0 }) = true
      ∧ nextIs (out refused) (fun t =>
          t.rp.jobs == [{ job with first := 8 }] && t.rp.notHeld == some { number := 5, older := 0 }) = true
      ∧ nextIs (out report) (fun t => !t.hu.line2 && !t.hu.reportTimer && !t.hu.reportPending) = true
      ∧ nextIs (out (idle.setHu { idle.hu with line3 := true })) (fun t => !t.hu.line3) = true
      ∧ nextIs (out (resend.setRp { resend.rp with buffer := some { record with next := 0 } })) (fun t =>
          t.rp.jobs == [job] && t.rp.buffer == some record) = true
      ∧ nextIs (out resend) (fun t => t.rp.jobs == [{ job with next := 6 }] && t.rp.notHeld == some { number := 6, older := 0 }) = true
      ∧ nextIs (out last) (fun t => t.rp.jobs == [] && t.counter .jobsCompleted == 1) = true := by
  refine ⟨⟨⟨rfl, rfl⟩, Or.inr rfl⟩, ?_⟩
  decide +kernel

/-- BurstSentIsReported: each kind of item, and an ASK whose entry waits for it, has another responder or is gone. -/
theorem witness_burst_sent :
    let sent := fun (s : State) (item : BurstItem) =>
      exec .burstSent (s.setLc { s.lc with state := .sending, chosen := some { item := item, bytes := [], contested := true } })
    let asking := sendingOwn.putAsk 3 (some (askedOf 3 1 false false))
    let unchanged := fun (s : State) (t : State) => t.ask 3 == s.ask 3 && t.counter .asksSent == 1
    let dueAgain := sendingOwn.putAsk 3 (some (askedOf 3 1 true false))
    nextIs (sent active .report) (fun t => t.hu.reportTimer && t.hu.spacingTimer && t.lc.chosen == none) = true
      ∧ nextIs (sent (station .joining) .hail) (fun t => t.sc.listening) = true
      ∧ nextIs (sent sendingOwn (.ownSeg 1 true)) (fun t => place t.su.entries (.queued (recordOf 9 [])) 0 == .free) = true
      ∧ nextIs (sent active .resend) (fun t => t.lc.fairness == 1) = true
      ∧ nextIs (sent active .refuse) (fun t => t.lc.fairness == 0 && t.lc.lastSender == 2) = true
      ∧ asking.askPlace 3 = some 3 ∧ asking.ask 3 = some (askedOf 3 1 false false)
      ∧ nextIs (sent asking (.ask 3 1)) (fun t =>
          t.ask 3 == some (askedOf 3 1 false true) && t.counter .asksSent == 1) = true
      ∧ nextIs (sent dueAgain (.ask 3 1)) (unchanged dueAgain) = true ∧ nextIs (sent asking (.ask 3 3)) (unchanged asking) = true
      ∧ nextIs (sent active (.ask 3 1)) (unchanged active) = true := by decide +kernel

/-- RanksAreDistinct: the ends of the ranges, and a slot counted and not. -/
theorem witness_ranks :
    let s := withLc active .deferring
    let later := s.setLc { s.lc with slotCount := some 4 }
    rankOf 24 24 24 = 23 ∧ rankOf 1 24 24 = 0 ∧ rankOf 1 1 2 = 1
      ∧ s.nextSlot = 1 ∧ later.nextSlot = 7 ∧ 4 % s.groupSize = rankOf s.own s.lc.lastSender s.groupSize := by decide

/-! ## Holdings, reports and durability -/

/-- A peer's entry with one gap, and one with six. -/
def gapped : Entry := { floor := 1, top := 9, gaps := [{ lo := 5, hi := 5 }] }
def sixGaps : Entry := peerRebuilt [3, 5, 7, 9, 11, 13, 15]

def holding (s : State) (o : Nat) (e : Entry) : State := s.setHu { s.hu with entries := setLine s.hu.entries o e }

/-- EntriesSettleRaiseAndCommit, settling: above T, next to T, inside a gap and at its ends; with a seventh range; at an empty entry. -/
theorem witness_settling :
    let gap : Entry := { floor := 1, top := 9, gaps := [{ lo := 4, hi := 6 }] }
    entryOk gap = true ∧ entryOk sixGaps = true ∧ entryOk Entry.reset = true
      ∧ (∀ n ∈ [4, 5, 6, 10, 12], gap.floor ≤ n ∧ gap.settled n = false)
      ∧ (sixGaps.settle 17 17).gaps.length = 7 ∧ (gap.settle 5 5).gaps.length = 2 ∧ (gap.settle 4 6).gaps = []
      ∧ Entry.reset.settled 1 = false := by decide

/-- AcceptanceTest: every cause, and none, at the ends of the ranges. -/
theorem witness_acceptance :
    let s := holding (holding active 1 { gapped with floor := 2 }) 3 sixGaps
    entryOk (s.entry 1) = true ∧ entryOk (s.entry 3) = true
      ∧ s.acceptance 2 1 = some .ownOrigin ∧ s.acceptance 1 1 = some .belowFloor ∧ s.acceptance 1 9 = some .duplicate
      ∧ s.acceptance 1 5 = none ∧ s.acceptance 1 10 = none ∧ s.acceptance 1 4105 = none
      ∧ s.acceptance 1 4106 = some .span ∧ s.acceptance 3 16 = none ∧ s.acceptance 3 17 = some .gapsFull
      ∧ s.acceptance 3 4 = none := by decide +kernel

/-- EntriesSettleRaiseAndCommit, the floor raise: below, inside and above the entry, and at the largest number; the three cases of an
own commit. -/
theorem witness_floor_raise :
    entryOk gapped = true ∧ gapped.raiseFloor 1 = gapped
      ∧ gapped.raiseFloor 5 = { floor := 5, top := 9, gaps := [{ lo := 5, hi := 5 }] }
      ∧ gapped.raiseFloor 4294967296 = { floor := 4294967295, top := 4294967294, gaps := [] }
      ∧ ({ floor := 1, top := 9, gaps := [] } : Entry).commitOwn 10 = some { floor := 1, top := 10, gaps := [] }
      ∧ ({ floor := 1, top := 9, gaps := [] } : Entry).commitOwn 9 = none
      ∧ ({ floor := 1, top := 9, gaps := [] } : Entry).commitOwn 11 = some { floor := 11, top := 11, gaps := [] } := by decide

/-- EntriesSettleRaiseAndCommit, its abandonment: taken, cut at F, and declined for a pending number, a settled one and a seventh range. -/
theorem witness_abandon :
    let s := holding (holding active 1 { gapped with floor := 4 }) 3 sixGaps
    let pending := s.setFc { s.fc with fill := { s.fc.fill with list := [{ origin := 1, seq := 5, offset := 0 }] } }
    (s.abandon 1 2 5) = none ∧ ((s.abandon 1 10 12).map fun t => t.entry 1) = some { floor := 4, top := 12, gaps := [{ lo := 5, hi := 5 }] }
      ∧ ((s.abandon 1 5 5).map fun t => (t.entry 1, t.nu.queue, t.hu.reportPending))
          = some ({ floor := 4, top := 9, gaps := [] }, [.lost 1 5 5], true)
      ∧ (s.abandon 1 4 4) = none ∧ (pending.abandon 1 5 5) = none ∧ (s.abandon 3 17 17) = none ∧ (s.abandon 3 16 16).isSome = true
      ∧ (s.abandon 1 1 3) = none := by decide +kernel

/-- HoldingsAndNoticeTimers: each timer runs; stations 1 and 24. -/
theorem witness_holdings_timers :
    let s := (active.setPresence 1 .present true).setPresence 24 .present true
    nextIs (exec (.silenceTimerExpiry 1) s) (fun t => t.presenceOf 1 == .silent && t.nu.queue == [.peerSilent 1] && t.nu.attn) = true
      ∧ nextIs (exec (.silenceTimerExpiry 24) s) (fun t => t.presenceOf 24 == .silent) = true
      ∧ nextIs (exec .reportTimerExpiry (active.setHu { active.hu with reportTimer := true })) (fun t => t.hu.line2) = true
      ∧ nextIs (exec .spacingTimerExpiry (active.setHu { active.hu with spacingTimer := true, reportPending := true }))
          (fun t => t.hu.line7) = true
      ∧ nextIs (exec .noticeDelayTimerExpiry (active.setNu { Nu.reset with queue := [.durable 1], delayTimer := .running }))
          (fun t => t.nu.attn && t.nu.delayTimer == .expired) = true := by decide +kernel

/-- DurableFrontierRises: fewer members than K, and K of them with D to rise and to stay. -/
theorem witness_durable :
    let s := holding active 2 { floor := 1, top := 9, gaps := [] }
    let t := s.putRow 1 (List.replicate 3 { floor := 1, frontier := 6 })
    s.sc.settings = some settings3 ∧ 1 ≤ settings3.target ∧ s.durableMembers = [9] ∧ s.evaluateDurable.hu.durable = 0
      ∧ t.durableMembers = [9, 6] ∧ t.evaluateDurable.hu.durable = 6 ∧ t.evaluateDurable.nu.queue = [.durable 6]
      ∧ t.evaluateDurable.evaluateDurable.nu.queue = [.durable 6] := by decide +kernel

/-- R186: Table 10-1. -/
theorem test_durable_table :
    let base := holding (active.setSc { active.sc with settings := some { settings3 with groupSize := 5, target := 3 } }) 2
      { floor := 1, top := 50, gaps := [] }
    let row := fun (s : State) (p c : Nat) => (s.putRow p (List.replicate 5 { floor := 1, frontier := c })).evaluateDurable
    let s0 := row (row (row base 1 48) 3 50) 5 45
    let s1 := holding (row s0 3 40) 2 { floor := 1, top := 51, gaps := [] }
    let s2 := row s1.evaluateDurable 1 51
    s0.hu.durable = 48 ∧ s1.evaluateDurable.hu.durable = 48 ∧ s2.durableMembers = [51, 51, 40, 45] ∧ s2.hu.durable = 48
      ∧ (row s2 3 51).hu.durable = 51 := by decide +kernel

/-! ## Own records -/

def handed (s : State) (n : Nat) : State :=
  s.setAp { s.ap with submitBuffer := some { length := n, payload := List.replicate (min n 1920) 0x41#8, owed := true } }

def answers (o : Host.Outcome State Fault Refusal) (st : Status) : Bool :=
  nextIs o fun t => match t.ap.slot with
    | .ready r => r.status == st
    | _ => false

/-- SubmitAnswered: each test fails, and none (witness_submit_accepted). -/
theorem witness_submit_refused :
    let full := active.setSu { entries := Vector.replicate 8 (.sending (recordOf 1 [0x41#8]) 1 0) }
    answers (exec .submitTaken (handed awaiting 5)) .notReady = true
      ∧ answers (exec .submitTaken (handed active 0)) .badLength = true
      ∧ answers (exec .submitTaken (handed active 1921)) .badLength = true
      ∧ answers (exec .submitTaken (handed (holding active 2 { floor := 1, top := 4294967295, gaps := [] }) 1)) .exhausted = true
      ∧ answers (exec .submitTaken (handed (active.setSm { active.sm with pressure := .tight }) 1)) .full = true
      ∧ answers (exec .submitTaken (handed full 1920)) .busy = true
      ∧ answers (exec .submitTaken (handed (active.setCe { active.ce with queue := List.replicate 12 (.slot 0) }) 1)) .busy = true := by
  decide +kernel

/-- SubmitAccepted: the first entry in use, a record of 1 byte, the last number but one. -/
theorem witness_submit_accepted :
    let s := (holding active 2 { floor := 1, top := 4294967293, gaps := [] }).setSu
      { entries := setPlace Su.reset.entries 0 (.sending (recordOf 1 [0x41#8]) 1 0) }
    s.ownTop + s.su.queued + 1 ≤ 4294967295 ∧ s.sm.pressure ≠ .tight ∧ s.ce.queue.length < 12
      ∧ place s.su.entries .free 1 = .free ∧ place s.su.entries .free 0 ≠ .free
      ∧ nextIs (exec .submitTaken (handed s 1)) (fun t =>
          t.isPending 2 4294967294 && t.ap.slot == .ready { status := .ok, data := [0xFF#8, 0xFF#8, 0xFF#8, 0xFE#8], armsReset := false }
            && t.fc.fill.list == [{ origin := 2, seq := 4294967294, offset := 0 }] && t.ce.flushTimer) = true := by decide +kernel

/-- ReferenceJoins, by a SUBMIT: behind a CLOSED register, alone with room, alone without room by the list and by the bytes, and
with a flush delay of 0. -/
theorem witness_reference_joins :
    let fill := fun (st : FillState) (list : List ListEntry) (n : Nat) =>
      active.setFc { active.fc with fill := { state := st, list := list, data := List.replicate n 0x00#8 } }
    let busy := fun (s : State) => s.setFc { s.fc with array := { s.fc.array with state := .programming } }
    let eight := List.replicate 8 { origin := 1, seq := 1, offset := 0 }
    let submits := fun (s : State) => exec .submitTaken (handed s 1)
    nextIs (submits (busy (fill .closed [] 0))) (fun t => t.ce.queue == [.entry 0] && t.fc.fill.list == []) = true
      ∧ nextIs (submits (fill .empty [] 0)) (fun t => t.fc.fill.list.length == 1 && t.ce.flushTimer && t.fc.fill.state == .opened) = true
      ∧ nextIs (submits (busy (fill .opened eight 0))) (fun t => t.ce.queue == [.entry 0] && t.fc.fill.state == .closed) = true
      ∧ nextIs (submits (busy (fill .opened [] 3060))) (fun t => t.ce.queue == [.entry 0] && t.fc.fill.state == .closed) = true
      ∧ nextIs (submits (fill .opened [] 3056)) (fun t => t.ce.queue == [] && t.fc.fill.data.length == 3072) = true
      ∧ nextIs (submits (busy (let s := active.setSc { active.sc with settings := some { settings3 with flushDelay := 0 } }
          s.setFc { s.fc with fill := FillReg.reset }))) (fun t => t.fc.fill.state == .closed && !t.ce.flushTimer) = true := by
  decide +kernel

/-- SegmentsTileTheRecord: the lengths of Table 6-5. -/
theorem witness_segments :
    (∀ n ∈ [1, 240, 241, 1920], List.replicate n 0x41#8 ≠ []) ∧ segmentCount 241 = 2 ∧ 0 + 1 < segmentCount 241
      ∧ 1 + 1 = segmentCount 241 := by decide +kernel

/-! ## Reassembly -/

/-- A SEG of station 1's record 1 of `n` bytes. -/
def segFrom1 (n index : Nat) : CarrierPeriod :=
  let payload := List.replicate n 0x41#8
  heardWhole (burstBytes .seg 1 3 0 (segmentBytes (cutSegment 1 1 (crc32 payload) payload false index)))

/-- A SEG with one byte, its record check wrong or its origin `o`. -/
def shortSeg (o : Nat) (check : Check) : CarrierPeriod :=
  heardWhole (burstBytes .seg 1 3 0 (segmentBytes (cutSegment o 1 check [0x41#8] false 0)))

set_option maxRecDepth 20000 in
/-- SegmentTakesASlot: own origin, inconsistent, refused, dropped for want of a slot, first of two, whole, and whole with a wrong
check. -/
theorem witness_segment :
    let s := withLc active .hearing
    let seeking := seekingWith .fromStart true
    let hears := fun (s : State) (p : CarrierPeriod) => exec (.carrierEnd p) s
    let d : SlotData := { origin := 3, seq := 9, count := 2, length := 241, check := 0x00000000#32, parts := [] }
    let full := s.setRa { s.ra with slots := Vector.replicate 8 (.filling d) }
    let one := s.putSlot 0 (.filling d)
    nextIs (hears s (shortSeg 2 0x00000000#32)) (fun t => t.counter .mismatch == 0 && t.counter .goodBursts == 1) = true
      ∧ nextIs (hears s (shortSeg 4 0x00000000#32)) (fun t => t.counter .mismatch == 1) = true
      ∧ nextIs (hears (holding s 1 { floor := 2, top := 1, gaps := [] }) (segFrom1 1 0)) (fun t => t.counter .refused == 1) = true
      ∧ nextIs (hears (holding s 1 { floor := 1, top := 1, gaps := [] }) (segFrom1 1 0)) (fun t => t.counter .refused == 0) = true
      ∧ nextIs (hears full (segFrom1 241 0)) (fun t => t.counter .noSlot == 1 && t.ra == full.ra) = true
      ∧ nextIs (hears seeking (segFrom1 241 0)) (fun t => t.isPending 1 1) = true
      ∧ nextIs (hears seeking (shortSeg 4 0x00000000#32)) (fun t => t.counter .mismatch == 1 && t.ra == seeking.ra) = true
      ∧ nextIs (hears one (segFrom1 241 1)) (fun t => t.isPending 1 1 && t.fc.fill.list == []) = true
      ∧ nextIs (hears one (segFrom1 1 0)) (fun t =>
          t.counter .checkFailures == 0 && t.fc.fill.list == [{ origin := 1, seq := 1, offset := 0 }]) = true
      ∧ nextIs (hears s (shortSeg 1 0x00000000#32)) (fun t => t.counter .checkFailures == 1) = true := by decide +kernel

set_option maxRecDepth 20000 in
/-- SegmentTakesASlot where the slot of the record exists: disagreeing, repeated, stored, last with a wrong and with a right check;
and a COMPLETE slot that joins the wait list, of a full queue and behind another. -/
theorem witness_segment_meets_slot :
    let s := withLc active .hearing
    let payload := List.replicate 241 0x41#8
    let part := fun (i : Nat) (check : Check) => (cutSegment 1 1 check payload false i)
    let hears := fun (s : State) (g : Segment) =>
      exec (.carrierEnd (heardWhole (burstBytes .seg 1 3 0 (segmentBytes g)))) s
    let c := crc32 payload
    let d : SlotData := { origin := 1, seq := 1, count := 2, length := 241, check := c, parts := [(0, List.replicate 240 0x41#8)] }
    let held := fun (d : SlotData) => s.putSlot 7 (.filling d)
    let full := fun (s : State) => s.setCe { s.ce with queue := List.replicate 12 (.entry 0) }
    let waits := (held d).setRa { (held d).ra with waitList := [3] }
    let long := { d with count := 3, length := 500, check := 0x00000000#32 }
    s.slotOf 1 1 = none ∧ (held d).slotOf 1 1 = some 7
      ∧ nextIs (hears (held { d with check := 0x00000000#32 }) (part 1 c)) (fun t =>
          t.counter .mismatch == 1 && place t.ra.slots .free 7 == .filling { d with check := 0x00000000#32 }) = true
      ∧ nextIs (hears (held d) (part 0 c)) (fun t => t.counter .mismatch == 0 && place t.ra.slots .free 7 == .filling d) = true
      ∧ nextIs (hears (held long) (cutSegment 1 1 0x00000000#32 (List.replicate 500 0x41#8) false 2)) (fun t =>
          (match place t.ra.slots .free 7 with | .filling e => e.parts.map Prod.fst == [0, 2] | _ => false)) = true
      ∧ nextIs (hears (held { d with check := 0x00000000#32 }) (part 1 0x00000000#32)) (fun t =>
          place t.ra.slots .free 7 == .free && t.counter .checkFailures == 1) = true
      ∧ nextIs (hears (held d) (part 1 c)) (fun t => place t.ra.slots .free 7 == .free && t.fc.fill.list.length == 1) = true
      ∧ nextIs (hears (full (held d)) (part 1 c)) (fun t => t.ra.waitList == [7] && t.ce.queue.length == 12) = true
      ∧ nextIs (hears waits (part 1 c)) (fun t => t.ra.waitList == [3, 7] && t.ce.queue.isEmpty) = true := by decide +kernel

/-- SlotAndAskTimers: slots 0 and 7, and an ask timer at its first and at its third try. -/
theorem witness_slot_ask_timers :
    let d : SlotData := { origin := 3, seq := 9, count := 2, length := 241, check := 0x00000000#32, parts := [] }
    let s := (active.putSlot 7 (.filling d)).putAsk 3 (some (askedOf 3 1 false true))
    let third := s.putAsk 3 (some { askedOf 3 1 false true with tries := 2 })
    s.rp.rerunDue = false ∧ s.ask 3 = some (askedOf 3 1 false true)
      ∧ nextIs (exec (.slotTimerExpiry 7) s) (fun t => place t.ra.slots (.filling d) 7 == .free && t.counter .expired == 1) = true
      ∧ nextIs (exec (.askTimerExpiry 3) s) (fun t =>
          t.ask 3 == some { askedOf 3 1 true false with tries := 1 } && t.counter .askTimeouts == 1) = true
      ∧ nextIs (exec (.askTimerExpiry 3) third) (fun t => t.ask 3 == none && t.rp.rotation == 1) = true := by decide +kernel

/-! ## The commit path and the array -/

/-- Station 2 with block 0 OPEN under stamp 1, no page programmed. -/
def opened (s : State) : State :=
  s.setSm { s.sm.setBlock 0 { state := .opened, stamp := some 1, pages := 0, summary := [] } with
    stampHigh := 1, lastOpened := 0 }

def claim0 : ProgramClaim := { target := pageAt 0 0, stamp := 1, ownTop := 1 }

/-- A fill register with own record 1. -/
def filled (s : State) (st : FillState) : State :=
  let fill := FillReg.reset.put { origin := 2, seq := 1, check := crc32 [0x41#8], payload := [0x41#8] }
  s.setFc { s.fc with fill := { fill with state := st } }

/-- PlacementAndFlushTimer, its flush timer: the array register IDLE, a block FREE or none. -/
theorem witness_flush :
    let s := (filled active .opened).setCe { Ce.reset with flushTimer := true, state := .filling }
    let worn := s.setSm { s.sm with table := Vector.replicate 640 (retiredEntry .worn) }
    s.fc.array.state = .idle
      ∧ nextIs (exec .flushTimerExpiry s) (fun t =>
          t.fc.op == some (.transfer claim0) && t.ce.state == .programming && t.fc.fill.state == .closed) = true
      ∧ nextIs (exec .flushTimerExpiry worn) (fun t => t.ce.state == .stalled && t.fc.op == none) = true := by decide +kernel

/-- PlacementAndFlushTimer, its placement: a slot's record with a slot that waits, the last of the queue with the flush timer started,
with a delay of 0, and a head that does not fit; the queue empty and the register CLOSED. -/
theorem witness_placement :
    let d : SlotData := { origin := 1, seq := 1, count := 1, length := 1, check := crc32 [0x41#8], parts := [(0, [0x41#8])] }
    let s := (active.putSlot 7 (.complete d)).setCe { Ce.reset with queue := [.slot 7] }
    let r : PathRecord := { origin := 1, seq := 1, check := crc32 [0x41#8], payload := [0x41#8] }
    let waits := s.setRa { s.ra with waitList := [2, 4] }
    let at0 := s.setSc { s.sc with settings := some { settings3 with flushDelay := 0 } }
    let full := s.setFc { s.fc with fill := { state := .opened, list := List.replicate 8 { origin := 3, seq := 1, offset := 0 }, data := [] } }
    s.refRecord (.slot 7) = some r
      ∧ (waits.placeHead (.slot 7) r).ce.queue = [.slot 2] ∧ (waits.placeHead (.slot 7) r).ra.waitList = [4]
      ∧ (s.placeRounds 9).ce.flushTimer = true ∧ (s.placeRounds 9).fc.fill.list.length = 1
      ∧ (at0.placeRounds 9).fc.fill.state = .closed ∧ (full.placeRounds 9).fc.fill.state = .closed
      ∧ (full.placeRounds 9).ce.queue = [.slot 7] ∧ ((s.placeRounds 9).placeRounds 9).fc.fill.list.length = 1 := by decide +kernel

/-- TransferEnds: the target's flag clear, and set. -/
theorem witness_transfer :
    let s := carrying (filled (opened active) .closed) (.transfer claim0)
    let flagged := s.setFc (s.fc.setProgFlag (pageAt 0 0))
    claim0.target.valid = true ∧ s.fc.progFlag claim0.target = false ∧ flagged.fc.progFlag claim0.target = true
      ∧ nextIs (exec .transferEnd s) (fun t => t.fc.op == some (.program claim0) && t.fc.fill == FillReg.reset) = true
      ∧ nextIs (exec .transferEnd flagged) (fun t =>
          (t.sm.block 0).state == .retiring && t.counter .programFailures == 1) = true := by
  refine ⟨by decide +kernel, by decide +kernel, by decide +kernel, by decide +kernel, ?_⟩
  exact nextIs_completion rfl (by decide +kernel) (by decide +kernel)

/-- TransferEnds: a record waits at the head of the queue. -/
theorem witness_transfer_queue :
    let s := carrying (filled (opened active) .closed) (.transfer claim0)
    let d : SlotData := { origin := 1, seq := 1, count := 1, length := 1, check := crc32 [0x41#8], parts := [(0, [0x41#8])] }
    let waits := (s.putSlot 0 (.complete d)).setCe { s.ce with queue := [.slot 0] }
    nextIs (exec .transferEnd waits) (fun t => t.fc.fill.list == [{ origin := 1, seq := 1, offset := 0 }] && t.ce.queue == []) = true := by
  decide +kernel

/-- Station 2 while the image with own record 1 is programmed into page (0, p). -/
def programming (p : Nat) : State :=
  let s := filled (opened active) .closed
  let s1 := s.setFc { s.fc with
    fill := FillReg.reset,
    array := { state := .programming, image := some { data := s.fc.fill.data, list := s.fc.fill.list },
               target := some (pageAt 0 p) } }
  carrying (s1.setSu { entries := setPlace Su.reset.entries 0 (.queued (recordOf 1 [0x41#8])) })
    (.program { claim0 with target := pageAt 0 p })

/-- ProgramPasses and ProgramFails: into the first and the last page of the block. -/
theorem witness_program :
    (pageAt 0 47).valid = true ∧ (programming 0).fc.array.image.isSome = true
      ∧ ((programming 47).sm.block 0).state = .opened ∧ (programming 0).own = 2 ∧ (programming 0).storeRuns = true := by
  decide +kernel

theorem test_program_passes :
    nextIs (exec (.programDone .pass) (programming 0)) (fun t =>
        t.ownTop == 1 && (t.sm.block 0).pages == 1 && t.sm.newestPage == some (pageAt 0 0)
          && place t.su.entries .free 0 == .sending (recordOf 1 [0x41#8]) 1 0) = true :=
  nextIs_completion rfl (by decide +kernel) (by decide +kernel)

theorem test_program_fails :
    nextIs (exec (.programDone .fail) (programming 47)) (fun t =>
        (t.sm.block 0).state == .retiring && t.nu.queue == [.blockRetired 0 .program] && t.ownTop == 0
          && t.counter .programFailures == 1) = true :=
  nextIs_completion rfl (by decide +kernel) (by decide +kernel)

/-- ProgramPasses, the commit of a record: of a peer, acceptable and refused; of the station, next, above and at or below T_own. -/
theorem witness_commit_record :
    let s := (holding active 1 gapped).setSu { entries := setPlace Su.reset.entries 0 (.queued (recordOf 1 [0x41#8])) }
    let commits := fun (s : State) (o n : Nat) => s.commitRecord { origin := o, seq := n, offset := 0 }
    let above := s.setSu { entries := setPlace Su.reset.entries 0 (.queued (recordOf 3 [0x41#8])) }
    (commits s 1 5).entry 1 = { floor := 1, top := 9, gaps := [] } ∧ (commits s 1 5).nu.queue = [.arrived 1 5]
      ∧ (commits s 1 9).counter .orphaned = 1 ∧ (commits s 1 9).rp.rerunDue = true
      ∧ (commits s 2 1).ownTop = 1 ∧ place (commits s 2 1).su.entries .free 0 = .sending (recordOf 1 [0x41#8]) 1 0
      ∧ (commits above 2 3).entry 2 = { floor := 3, top := 3, gaps := [] }
      ∧ (commits (commits s 2 1) 2 1).counter .orphaned = 1
      ∧ (let t := commits (holding s 2 { floor := 1, top := 1, gaps := [] }) 2 1
         t.counter .orphaned = 1 ∧ place t.su.entries .free 0 = .free) := by decide +kernel

def erasing (b : Nat) : State :=
  carrying (active.setSm (active.sm.setBlock b { state := .erasing, stamp := some 1, pages := 48, summary := [] })) (.erase b)

/-- MarkAndEraseEnd: both outcomes, blocks 0 and 639. -/
theorem witness_mark :
    let marking := fun b => carrying active (.mark b 0x3C#8)
    (marking 0).fc.array.image = none ∧ (erasing 639).fc.array.image = none
      ∧ nextIs (exec (.markProgramDone .pass) (marking 639)) (fun t =>
          t.fc.mem == [((pageAt 639 0).spareBase, 0x3C#8)] && t.fc.op == none) = true
      ∧ nextIs (exec (.markProgramDone .fail) (marking 0)) (fun t => t.counter .markFailures == 1) = true := by decide +kernel

theorem witness_erase_passes :
    nextIs (exec (.eraseDone .pass) (erasing 639)) (fun t => (t.sm.block 639) == BlockEntry.reset) = true :=
  nextIs_completion rfl (by decide +kernel) (by decide +kernel)

/-- MarkAndEraseEnd, an erase that fails: the mark program of 3Ch begins at once, or waits behind another mark claim. -/
theorem witness_erase_fails :
    let behind := (erasing 639).setFc { (erasing 639).fc with markClaims := [{ block := 0, value := 0x0F#8 }] }
    (erasing 0).fc.markFlag (pageAt 0 0) = false ∧ behind.fc.markFlag (pageAt 639 0) = false
      ∧ nextIs (exec (.eraseDone .fail) (erasing 0)) (fun t =>
          (t.sm.block 0).state == .retired .worn && t.nu.queue == [.blockRetired 0 .erase]
            && t.fc.op == some (.mark 0 0x3C#8) && t.fc.markFlag (pageAt 0 0)) = true
      ∧ nextIs (exec (.eraseDone .fail) behind) (fun t =>
          t.fc.op == some (.mark 0 0x0F#8) && t.fc.markClaims == [{ block := 639, value := 0x3C#8 }]) = true := by
  refine ⟨by decide +kernel, by decide +kernel, ?_, ?_⟩
  all_goals exact nextIs_completion rfl (by decide +kernel) (by decide +kernel)

/-- MarkAndEraseEnd: the erase of the one block not worn ends while CE is STALLED over a kept image: the re-drive goes on. -/
theorem witness_erase_resumes :
    let worn := active.setSm { active.sm with table := Vector.replicate 640 (retiredEntry .worn) }
    let s := (worn.setSm (worn.sm.setBlock 639 { state := .erasing, stamp := some 1, pages := 48, summary := [] })).setFc
      { worn.fc with op := some (.erase 639),
                     array := { state := .idle, image := some { data := [], list := [{ origin := 1, seq := 1, offset := 0 }] },
                                target := none } }
    s.fc.array.image.isSome = true ∧ s.fc.programClaim = none ∧ s.storeRuns = true ∧ s.sm.stampHigh ≠ 4294967294
      ∧ s.fc.progFlag (pageAt 639 0) = false ∧ (s.sm.block 639).state = .erasing
      ∧ s.sm.count (fun x => x == .opened || x == .free) = 0
      ∧ nextIs (exec (.eraseDone .pass) s) (fun t =>
          (t.sm.block 639).state == .opened && t.sm.stampHigh == 1 && t.ce.state == .programming && t.fc.programBusy) = true := by
  refine ⟨by decide +kernel, by decide +kernel, by decide +kernel, by decide +kernel, by decide +kernel, by decide +kernel,
    by decide +kernel, ?_⟩
  exact nextIs_completion rfl (by decide +kernel) (by decide +kernel)

/-- Station 2 ACTIVE under level `p` with `free` blocks FREE and the others worn. -/
def freeBlocks (free : Nat) (p : Pressure) : State :=
  let worn : Sm := { active.sm with table := Vector.replicate 640 (retiredEntry .worn), pressure := p }
  active.setSm ((List.range free).foldl (fun sm b => sm.setBlock b BlockEntry.reset) worn)

/-- PressureFollowsTheFreeCount: from 6 FREE blocks to 5, from 2 to 1 and from 1 to 2; a block OPEN, the stamps used up, none FREE. -/
theorem witness_pressure :
    let used := (freeBlocks 6 .normal).setSm { (freeBlocks 6 .normal).sm with stampHigh := 4294967294 }
    let erasing1 := (freeBlocks 1 .tight).setSm ((freeBlocks 1 .tight).sm.setBlock 639
      { state := .erasing, stamp := some 1, pages := 48, summary := [] })
    (freeBlocks 6 .normal).sm.freeCount = 6 ∧ ((freeBlocks 6 .normal).openFree 5).sm.pressure = .low
      ∧ ((freeBlocks 6 .normal).openFree 5).nu.queue = [] ∧ ((freeBlocks 2 .low).openFree 1).sm.pressure = .tight
      ∧ ((freeBlocks 2 .low).openFree 1).nu.queue = [.storeFull] ∧ ((freeBlocks 2 .low).openFree 1).sm.reclaimDue = true
      ∧ (erasing1.eraseApplied 639).sm.pressure = .low ∧ (erasing1.eraseApplied 639).nu.queue = [.storeOk]
      ∧ (freeBlocks 6 .normal).withOpenBlock.2 = some 0 ∧ used.withOpenBlock.2 = none ∧ (opened used).withOpenBlock.2 = some 0
      ∧ (freeBlocks 0 .tight).withOpenBlock.2 = none := by decide +kernel

/-- ArbiterGrantsAndArrayOperations, the order: with a claim of each class, and then without the lowest of them, one after another;
a refused mark program gives way to the next claim, and the erase of a block waits for the lookup that stands in it. -/
theorem witness_grant :
    let read := fun (b : Nat) => some ({ kind := .spare, page := pageAt b 0 } : StepClaim)
    let all := active.setFc { active.fc with
      programClaim := some { target := pageAt 0 0, stamp := 1, ownTop := 0 }, fetchClaim := read 1, serveClaim := read 2,
      markClaims := [{ block := 4, value := 0x3C#8 }, { block := 3, value := 0x0F#8 }], eraseClaim := some 639 }
    let f := all.setFc { all.fc with programClaim := none }
    let v := f.setFc { f.fc with fetchClaim := none }
    let m := v.setFc { v.fc with serveClaim := none }
    let e := m.setFc { m.fc with markClaims := [] }
    let flagged := m.setFc (m.fc.setMarkFlag (pageAt 4 0))
    let l : Lookup := { origin := 1, seq := 1, block := some 639, page := 0, offset := 0, bound := none, damaged := false,
                        step := .leaving }
    let stands := e.setSm { e.sm with serveLookup := some l }
    let kept := all.setFc { all.fc with array := { all.fc.array with image := some { data := [], list := [] } } }
    let refused := kept.setFc (kept.fc.setProgFlag (pageAt 0 0))
    all.grant.fc.op = some (.transfer { target := pageAt 0 0, stamp := 1, ownTop := 0 })
      ∧ kept.grant.fc.op = some (.program { target := pageAt 0 0, stamp := 1, ownTop := 0 })
      ∧ (refused.grantRounds 1).counter .programFailures = 1
      ∧ f.grant.fc.op = some (.lookupRead .fetch .spare (pageAt 1 0)) ∧ v.grant.fc.op = some (.lookupRead .serve .spare (pageAt 2 0))
      ∧ m.grant.fc.op = some (.mark 4 0x3C#8) ∧ m.grant.fc.markClaims = [{ block := 3, value := 0x0F#8 }]
      ∧ flagged.grant.fc.op = some (.mark 3 0x0F#8) ∧ flagged.grant.counter .markFailures = 1
      ∧ e.grant.fc.op = some (.erase 639) ∧ e.grant.fc.eraseClaim = none
      ∧ stands.grant.fc.op = none ∧ stands.grant.fc.eraseClaim = some 639
      ∧ nextIs (exec (.markProgramDone .pass) (carrying m (.mark 5 0x3C#8))) (fun t => t.fc.op == some (.mark 4 0x3C#8)) = true := by
  decide +kernel

/-- ArbiterGrantsAndArrayOperations, the array. -/
theorem witness_array :
    Memory.wf (Memory.markBlock [] 639 0x3C#8) = true ∧ (pageAt 639 47).valid = true ∧ (List.replicate 3168 0x00#8).length = 3168
      ∧ Memory.wf [] = true := by decide +kernel

/-- PlacedRecordReadsBack: the longest and the shortest record, behind nothing and at the end of the page. -/
theorem witness_placed :
    let r : PathRecord := { origin := 24, seq := 4294967295, check := crc32 [0x41#8], payload := [0x41#8] }
    let long : PathRecord := { r with payload := List.replicate 1920 0x41#8 }
    let late : FillReg := { FillReg.reset with data := List.replicate 3056 0x00#8 }
    r.check = crc32 r.payload ∧ late.data.length + recordSpan r.payload.length + 0 ≤ 3072
      ∧ 0 + recordSpan long.payload.length + 1140 ≤ 3072 ∧ long.payload.length ≤ 1920 := by decide +kernel

/-! ## Lookups and reclaim -/

/-- A fetch of (1, 1) whose read of page (5, p) runs, over the memory `m`. -/
def lookingUp (m : Memory) (p : Nat) (kind : ReadKind) : State :=
  let s := (holding active 1 { floor := 1, top := 1, gaps := [] }).setFc { active.fc with mem := m }
  let l : Lookup := { origin := 1, seq := 1, block := some 5, page := p, offset := 0, bound := some (7, 5), damaged := false,
                      step := .running }
  carrying ((s.setSm { s.sm with fetchLookup := some l }).setAp { s.ap with fetch := .looking 1 1 })
    (.lookupRead .fetch kind (pageAt 5 p))

/-- Record (1, 1), of one byte, at the start of page (5, p) with the check of the whole page. -/
def onePage : List Byte := recordBytes 1 1 (crc32 [0x41#8]) [0x41#8]

set_option maxRecDepth 20000 in
theorem good_copy :
    let data := paddedData onePage
    verifyCopy 1 1 0 data (spareArea [{ origin := 1, seq := 1, offset := 0 }] 7 0 (crc32 data)) = some [0x41#8] := by
  decide +kernel

/-- LookupReadsEnd: the record listed, not listed below a page 1, and a copy that fails its check. -/
theorem witness_lookup :
    let listed := cellsFrom (pageAt 5 1).spareBase goodSpare
    (pageAt 5 1).valid = true ∧ ((lookingUp listed 1 .spare).sm.lookup .fetch).map Lookup.step = some .running
      ∧ (lookingUp listed 1 .spare).fc.programClaim = none
      ∧ spareReadable (listed.spareOf (pageAt 5 1)) = true ∧ spareReadable (Memory.spareOf [] (pageAt 5 1)) = false
      ∧ (spareList (listed.spareOf (pageAt 5 1))).find? (fun e => e.origin == 1 && e.seq == 1)
          = some { origin := 1, seq := 1, offset := 0 }
      ∧ verifyCopy 1 1 0 (List.replicate 16 0xFF#8) (erasedBytes 96) = none := by decide +kernel

theorem test_lookup_spare_listed :
    nextIs (exec .lookupSpareReadDone (lookingUp (cellsFrom (pageAt 5 1).spareBase goodSpare) 1 .spare)) (fun t =>
      t.fc.op == some (.lookupRead .fetch .page (pageAt 5 1))) = true :=
  nextIs_completion rfl (by decide +kernel) (by decide +kernel)

theorem test_lookup_spare_passes_over :
    nextIs (exec .lookupSpareReadDone (lookingUp [] 1 .spare)) (fun t =>
      t.fc.op == some (.lookupRead .fetch .spare (pageAt 5 0))) = true :=
  nextIs_completion rfl (by decide +kernel) (by decide +kernel)

set_option maxRecDepth 20000 in
/-- LOOKUP_PAGE_READ_DONE: a damaged copy on page 0 with no further block: the fetch ends DAMAGED. -/
theorem test_lookup_page_damaged :
    nextIs (exec .lookupPageReadDone (lookingUp [((pageAt 5 0).base, 0x01#8)] 0 .page)) (fun t =>
      t.ap.fetch == .done 1 1 .damaged && t.fc.op == none) = true :=
  nextIs_completion rfl (by decide +kernel) (by decide +kernel)

/-- Block `b` SEALED under stamp `st` with its first page, which may hold record (1, 1). -/
def sealedBlock (s : State) (b st : Nat) : State :=
  s.setSm (s.sm.setBlock b { state := .sealed, stamp := some st, pages := 1,
                             summary := [{ origin := 1, lowest := 1, highest := 1 }] })

/-- LookupReadsEnd at page 0: the next candidate, below the bound; and a lookup that is leaving its block. -/
theorem witness_lookup_next :
    let s := sealedBlock (lookingUp [] 0 .spare) 639 6
    let leaving := s.setSm { s.sm with fetchLookup := s.sm.fetchLookup.map fun l => { l with step := .leaving } }
    let alone := (lookingUp [] 0 .spare).setSm { (lookingUp [] 0 .spare).sm with
      fetchLookup := (lookingUp [] 0 .spare).sm.fetchLookup.map fun l => { l with step := .leaving, damaged := true } }
    NoRefusal s ∧ s.sm.candidate 1 1 (some (7, 5)) = some (6, 639)
      ∧ nextIs (exec .lookupSpareReadDone s) (fun t => t.fc.op == some (.lookupRead .fetch .spare (pageAt 639 0))) = true
      ∧ nextIs (exec .lookupSpareReadDone leaving) (fun t => t.fc.op == some (.lookupRead .fetch .spare (pageAt 639 0))) = true
      ∧ nextIs (exec .lookupSpareReadDone alone) (fun t => t.ap.fetch == .done 1 1 .damaged && t.sm.fetchLookup == none) = true := by
  intro s leaving alone
  refine ⟨fun c (hc : none = some c) _ => (nomatch hc), by decide +kernel, ?_, ?_, ?_⟩
  all_goals exact nextIs_completion rfl (by decide +kernel) (by decide +kernel)

/-- LookupReadsEnd, a lookup that leaves an ERASING block whose erase waits: its next read begins before the erase, whichever way the
open order falls (log 11), and with no further block the erase begins. -/
theorem witness_lookup_before_erase :
    let erased := (lookingUp [] 0 .spare).setFc { (lookingUp [] 0 .spare).fc with eraseClaim := some 5 }
    let leaving := erased.setSm { erased.sm with fetchLookup := erased.sm.fetchLookup.map fun l => { l with step := .leaving } }
    let further := sealedBlock leaving 639 6
    (further.sm.candidate 1 1 (some (7, 5))).isSome = true
      ∧ nextIs (exec .lookupSpareReadDone further) (fun t =>
          t.fc.op == some (.lookupRead .fetch .spare (pageAt 639 0)) && t.fc.eraseClaim == some 5) = true
      ∧ nextIs (exec .lookupSpareReadDone leaving) (fun t =>
          t.ap.fetch == .done 1 1 .lost && t.fc.op == some (.erase 5)) = true := by
  refine ⟨by decide +kernel, ?_, ?_⟩
  all_goals exact nextIs_completion rfl (by decide +kernel) (by decide +kernel)

/-- BlocksAreChosenAndReclaimed, its choices: two blocks of one stamp; a bound; no candidate; a selected block and each
thing that prevents it. -/
theorem witness_age :
    let line : SummaryLine := { origin := 2, lowest := 1, highest := 9 }
    let e : BlockEntry := { state := .sealed, stamp := some 3, pages := 48, summary := [line] }
    let sm := (Sm.reset.setBlock 0 e).setBlock 639 e
    let s := (active.setSm { sm with pressure := .low }).setHu { active.hu with durable := 9 }
    sm.candidate 2 9 none = some (3, 639) ∧ sm.candidate 2 1 (some (3, 639)) = some (3, 0) ∧ sm.candidate 2 1 (some (3, 0)) = none
      ∧ sm.candidate 2 10 none = none ∧ s.selection = some 0
      ∧ (s.setHu { s.hu with durable := 8 }).selection = none
      ∧ (s.setSm { s.sm with newestPage := some (pageAt 0 0) }).selection = none
      ∧ (s.setSm { s.sm with pressure := .normal }).selection = none
      ∧ (s.setSm (s.sm.setBlock 7 { e with state := .erasing })).selection = none := by decide +kernel

/-- Station 2 ACTIVE under LOW with block 5 in state `st`, holding (1, 3..5), and block 6 SEALED with (1, 4..6). -/
def reclaiming (st : BlockState) : State :=
  let e : BlockEntry := { state := st, stamp := some 3, pages := 48, summary := [{ origin := 1, lowest := 3, highest := 5 }] }
  let other : BlockEntry := { state := .sealed, stamp := some 4, pages := 7, summary := [{ origin := 1, lowest := 4, highest := 6 }] }
  holding (active.setSm { (active.sm.setBlock 5 e).setBlock 6 other with pressure := .low }) 1 gapped

/-- A lookup of (1, n) that stands in block 5. -/
def lookupIn5 (n : Nat) (step : LookupStep) : Lookup :=
  { origin := 1, seq := n, block := some 5, page := 9, offset := 0, bound := none, damaged := true, step := step }

/-- BlocksAreChosenAndReclaimed, a SEALED and a RETIRING block selected: the block, its claim, the floor of its summary. -/
theorem witness_selected :
    let erased := (reclaiming .sealed).select 5
    let marked := (reclaiming .retiring).select 5
    (reclaiming .sealed).selection = some 5 ∧ (reclaiming .retiring).selection = some 5
      ∧ (erased.sm.block 5).state = .erasing ∧ erased.fc.eraseClaim = some 5 ∧ erased.fc.markClaims = []
      ∧ marked.sm.block 5 = retiredEntry .worn ∧ marked.fc.markClaims = [{ block := 5, value := 0x3C#8 }]
      ∧ marked.fc.eraseClaim = none ∧ erased.entry 1 = { floor := 6, top := 9, gaps := [] } ∧ marked.entry 1 = erased.entry 1
      ∧ (reclaiming .sealed).originLimit = 3 := by decide +kernel

/-- BlocksAreChosenAndReclaimed, the lookups that stand in the selected block: a waiting one goes to the next block that covers its
number or ends, a running one is marked, a leaving one stays as it is. -/
theorem witness_lookup_leaves :
    let reading := fun (who : Requester) (l : Lookup) =>
      let s := (reclaiming .retiring).setSm ((reclaiming .retiring).sm.setLookup who (some l))
      (s.setFc (s.fc.setStepClaim who (some { kind := .page, page := pageAt 5 9 }))).select 5
    let moved := { lookupIn5 4 .waiting with block := some 6, page := 6, bound := some (4, 6) }
    (reading .fetch (lookupIn5 4 .waiting)).sm.fetchLookup = some moved
      ∧ (reading .fetch (lookupIn5 4 .waiting)).fc.fetchClaim = some { kind := .spare, page := pageAt 6 6 }
      ∧ (reading .fetch (lookupIn5 3 .waiting)).ap.fetch = .done 1 3 .notHeld
      ∧ (reading .fetch (lookupIn5 9 .waiting)).ap.fetch = .done 1 9 .damaged
      ∧ (reading .serve (lookupIn5 3 .waiting)).rp.notHeld = some { number := 3, older := 0 }
      ∧ (reading .serve (lookupIn5 3 .waiting)).counter .damagedReads = 1
      ∧ (reading .serve (lookupIn5 3 .waiting)).fc.serveClaim = none
      ∧ (reading .fetch (lookupIn5 3 .running)).sm.fetchLookup = some (lookupIn5 3 .leaving)
      ∧ (reading .serve (lookupIn5 3 .leaving)).sm.serveLookup = some (lookupIn5 3 .leaving) := by decide +kernel

/-- BlocksAreChosenAndReclaimed, the evaluation: a RETIRING block and then the SEALED one, nothing where none is due, and the duty
alone where the store does not run. -/
theorem witness_evaluation :
    let due := (reclaiming .retiring).setSm { (reclaiming .retiring).sm with reclaimDue := true }
    let halted := due.setSc { due.sc with phase := .running .halted .none }
    (due.reclaimRounds 0).sm.block 5 = due.sm.block 5 ∧ due.selection = some 5 ∧ (due.select 5).selection = some 6
      ∧ ((due.select 5).select 6).selection = none
      ∧ due.evaluateReclaim.fc.eraseClaim = some 6 ∧ due.evaluateReclaim.fc.markClaims = [{ block := 5, value := 0x3C#8 }]
      ∧ due.evaluateReclaim.sm.reclaimDue = false ∧ (reclaiming .retiring).sm.reclaimDue = false
      ∧ halted.storeRuns = false ∧ halted.evaluateReclaim.sm.block 5 = due.sm.block 5 := by decide +kernel

/-! ## Repair and notices -/

/-- MissingSet: peer origins 1 and 3 of the group, with a gap and a row above T. -/
theorem witness_missing :
    let s := (holding active 1 gapped).putRow 3 (List.replicate 3 { floor := 1, frontier := 11 })
    entryOk (s.entry 1) = true ∧ entryOk (s.entry 3) = true ∧ s.groupSize = 3 ∧ s.own = 2
      ∧ s.missingRuns 1 = [{ lo := 5, hi := 5 }, { lo := 10, hi := 11 }] ∧ s.missingRuns 3 = [{ lo := 1, hi := 11 }]
      ∧ s.missingRuns 2 = [] := by decide +kernel

/-- An entry to be evaluated for origin `o`. -/
def freshAsk (o : Nat) (skip : List Nat) : AskEntry :=
  { origin := o, first := 0, count := 0, tries := 0, skip := skip, state := .waiting }

/-- AskEntryEvaluated: station 2 of a group of 4 misses (1, 5) and (1, 10..11): asked of the origin, of another candidate (up to its
frontier), WAITING for one that is not PRESENT, abandoned up to a row that covers more and on from there, declined, and removed. -/
theorem witness_ask_evaluated :
    let s0 := holding active 1 gapped
    let s1 := s0.setSc { s0.sc with settings := some { settings3 with groupSize := 4 } }
    let row := fun (s : State) (p f c : Nat) => s.putRow p (List.replicate 4 { floor := f, frontier := c })
    let present := fun (s : State) (p : Nat) => s.setPresence p .present true
    let s := row (row s1 1 1 11) 3 1 10
    let eval := fun (s : State) (skip : List Nat) (u : Nat) => (s.evaluateAsk 3 (freshAsk 1 skip) u)
    let asked := fun (skip : List Nat) (first count p : Nat) =>
      some { freshAsk 1 skip with first := first, count := count, state := .asked p true false }
    let declined := row (holding s1 1 sixGaps) 1 17 17
    s.missingRuns 1 = [{ lo := 5, hi := 5 }, { lo := 10, hi := 11 }] ∧ entryOk (s.entry 1) = true
      ∧ (eval (present (present s 1) 3) [] 1).ask 3 = asked [] 5 1 1
      ∧ (eval (present s 3) [] 6).ask 3 = asked [] 10 1 3
      ∧ (eval (present (present s 1) 3) [1] 6).ask 3 = asked [1] 10 1 3
      ∧ (eval s [] 10).ask 3 = some { freshAsk 1 [] with first := 10, count := 2 }
      ∧ (let t := eval s [1, 3] 1
         t.ask 3 = none ∧ t.entry 1 = { floor := 1, top := 11, gaps := [] } ∧ t.nu.queue = [.lost 1 5 5, .lost 1 10 11])
      ∧ (let t := eval (row (row s1 1 6 11) 3 6 10) [] 5
         t.ask 3 = some { freshAsk 1 [] with first := 10, count := 2 } ∧ t.nu.queue = [.lost 1 5 5])
      ∧ (eval declined [1] 17).ask 3 = some { freshAsk 1 [1] with first := 17, count := 1 }
      ∧ (eval s [] 12).ask 3 = none ∧ (eval s [] 12).rp.rotation = 2 := by decide +kernel

/-- AskAndRefuseTaken, its ASK: not for the station, malformed, overlapping, BUSY and its repetition, queued, and NOT-HELD at once. -/
theorem witness_ask :
    let ask := fun (o n first : Nat) => askBytes { origin := o, count := n, first := first }
    let job : ServeJob := { asker := 1, origin := 3, first := 1, count := 8, next := 4 }
    let full := active.setRp { active.rp with jobs := List.replicate 4 job }
    let once := full.takeAsk 3 2 (ask 3 1 1)
    (askOf (ask 3 8 1) = { origin := 3, count := 8, first := 1 })
      ∧ (active.takeAsk 1 3 (ask 3 8 1)).rp = active.rp
      ∧ (∀ body ∈ [ask 0 1 1, ask 4 1 1, ask 3 0 1, ask 3 9 1, ask 3 1 0, ask 3 2 4294967295],
          (active.takeAsk 1 2 body).counter .badBursts = 1)
      ∧ (full.takeAsk 1 2 (ask 3 1 8)).rp = full.rp ∧ (full.takeAsk 1 2 (ask 3 1 3)).rp.busy.length = 1
      ∧ once.rp.busy = [{ asker := 3, origin := 3, number := 1 }] ∧ (once.takeAsk 3 2 (ask 3 1 1)).rp = once.rp
      ∧ (active.takeAsk 1 2 (ask 3 8 4294967288)).rp.notHeld = some { number := 4294967288, older := 0 } := by decide +kernel

/-- AskAndRefuseTaken, a new head job whose first number is settled: looked up in the block that covers it, or NOT-HELD due without
one; a job behind another leaves the serving as it is. -/
theorem witness_ask_head :
    let body := askBytes { origin := 1, count := 2, first := 3 }
    let s := reclaiming .sealed
    let none1 := holding active 1 gapped
    let behind := s.setRp { s.rp with jobs := [{ asker := 3, origin := 3, first := 1, count := 8, next := 4 }] }
    (s.entry 1).settled 3 = true ∧ s.sm.candidate 1 3 none = some (3, 5) ∧ none1.sm.candidate 1 3 none = none
      ∧ (s.takeAsk 1 2 body).sm.serveLookup
          = some { lookupIn5 3 .waiting with page := 47, bound := some (3, 5), damaged := false }
      ∧ (s.takeAsk 1 2 body).fc.serveClaim = some { kind := .spare, page := pageAt 5 47 } ∧ (s.takeAsk 1 2 body).rp.notHeld = none
      ∧ (none1.takeAsk 1 2 body).rp.notHeld = some { number := 3, older := 0 } ∧ (none1.takeAsk 1 2 body).sm.serveLookup = none
      ∧ (behind.takeAsk 1 2 body).rp.jobs.length = 2 ∧ (behind.takeAsk 1 2 body).sm.serveLookup = none := by decide +kernel

set_option maxRecDepth 20000 in
/-- AskAndRefuseTaken, a SEG of (1, 1) heard while (1, 1..2) is asked for with a running timer: stored, it moves the entry on to 2; of
another record, it leaves the entry as it is. -/
theorem witness_ask_timer_runs :
    let row := active.putRow 3 (List.replicate 3 { floor := 1, frontier := 2 })
    let a : AskEntry := { origin := 1, first := 1, count := 2, tries := 1, skip := [], state := .asked 3 false true }
    let s := withLc (row.putAsk 0 (some a)) .hearing
    s.missingRuns 1 = [{ lo := 1, hi := 2 }] ∧ entryOk (s.entry 1) = true ∧ s.ask 0 = some a ∧ s.ask 1 = none ∧ s.ask 2 = none
      ∧ s.ask 3 = none ∧ (s.sm.reclaimDue || s.rp.rerunDue || s.fc.programClaim.isSome) = false
      ∧ nextIs (exec (.carrierEnd (segFrom1 241 0)) s) (fun t =>
          t.ask 0 == some { a with first := 2, count := 1 } && t.missingRuns 1 == [{ lo := 2, hi := 2 }]) = true
      ∧ nextIs (exec (.carrierEnd (shortSeg 2 0x00000000#32)) s) (fun t => t.ask 0 == some a) = true := by decide +kernel

/-- AskAndRefuseTaken, its REFUSE: for another station, of an unknown reason, BUSY, and NOT-HELD of another station, of the responder
and below the entry's range. -/
theorem witness_refuse :
    let s := (holding active 1 gapped).putAsk 3 (some { askedOf 1 3 false true with first := 5, tries := 2 })
    let takes := fun (sender target : Nat) (body : List Byte) => s.takeRefuse sender target body
    (takes 3 1 (refuseBytes 1 .notHeld 5)).counter .refusalsReceived = 0
      ∧ (takes 3 2 (List.replicate 8 0x00#8)).counter .badBursts = 1
      ∧ (takes 3 2 (refuseBytes 1 .busy 5)).counter .refusalsReceived = 1
      ∧ (takes 3 2 (refuseBytes 1 .busy 5)).ask 3 = s.ask 3 ∧ (takes 1 2 (refuseBytes 1 .notHeld 5)).ask 3 = s.ask 3
      ∧ (takes 3 2 (refuseBytes 1 .notHeld 4294967295)).ask 3 = none
      ∧ ((takes 3 2 (refuseBytes 1 .notHeld 0)).entry 1).gaps = [] := by decide +kernel

/-- NoticeTaken: coalesced, joined behind a notice and into an empty queue, and dropped from a full queue. -/
theorem witness_notice :
    let full : Nu := { Nu.reset with queue := List.replicate 32 (.lost 1 1 1) }
    (Nu.reset.take 4 10 (.durable 3)).delayTimer = .running ∧ (Nu.reset.take 4 0 (.durable 3)).attn = true
      ∧ ((Nu.reset.take 4 10 (.durable 3)).take 4 10 (.durable 9)).queue = [.durable 9]
      ∧ ((Nu.reset.take 4 10 (.arrived 1 9)).take 4 10 (.arrived 3 7)).queue = [.arrived 1 9, .arrived 3 7]
      ∧ (full.take 4 10 .storeFull).overflow = true ∧ (full.take 4 10 .storeFull).queue.length = 32
      ∧ (∀ x, x ∈ full.queue → Notice.storeFull.partner x = false) := by
  refine ⟨by decide, by decide, by decide, by decide, by decide, by decide, fun x hx => ?_⟩
  rw [(List.mem_replicate.mp hx).2]
  rfl

/-! ## The attach port -/

/-- NoticesRead: the smallest and the largest maximum, over two notices. -/
theorem witness_notices_read :
    let s := active.setNu { Nu.reset with queue := [.durable 3, .storeFull], overflow := true, delayTimer := .running, attn := true }
    active.storeRuns = true
      ∧ nextIs (exec (.notices (frame [0x01#8])) s) (fun t =>
          t.nu.queue == [.storeFull] && t.nu.attn && !t.nu.overflow && t.nu.delayTimer == .running
            && t.ap.slot == .ready { status := .ok, data := [0x01#8, 0x01#8, 0x00#8, 0x00#8, 0x00#8, 0x00#8, 0x00#8, 0x03#8, 0x00#8,
              0x00#8, 0x00#8, 0x00#8], armsReset := false }) = true
      ∧ nextIs (exec (.notices (frame [0x20#8])) s) (fun t =>
          t.nu.queue == [] && !t.nu.attn && t.nu.delayTimer == .stopped) = true := by decide +kernel

/-- TransactionsSpelledAndRefused, its first part: no whole byte, stray bits, and identifiers at both sides of each range. -/
theorem witness_transactions :
    let bits := fun (bytes : List Byte) => bytes.flatMap fun b => (List.range 8).map fun i => b.getLsbD (7 - i)
    let stray := List.replicate 7 true
    transactionOf stray = none ∧ (active.chipSelectRises []).pending = []
      ∧ transactionOf (bits [0x80#8, 0x12#8, 0x34#8] ++ stray) = some (.responseRead 2)
      ∧ (active.chipSelectRises (bits [0x01#8, 0x00#8, 0x00#8])).pending = [.status (frame [])]
      ∧ commandOf 0x09#8 [] = .restart []
      ∧ ∀ id ∈ [0x00#8, 0x0A#8, 0x7F#8, 0x81#8, 0xFF#8], commandOf id [] = .unknownCommand id [] := by decide +kernel

/-- TransactionsSpelledAndRefused, its refusals: a frame for each test. -/
theorem witness_frames_refused :
    let halted := State.reset.setSc { State.reset.sc with phase := .running .halted .badStraps }
    active.station = some .active ∧ halted.station = some .halted
      ∧ answers (exec (.unknownCommand 0x0A []) active) .unknownCommand = true
      ∧ answers (exec (.status [0x00#8]) active) .badFrame = true ∧ answers (exec (.submit [0x00#8, 0x02#8, 0x41#8]) active) .badFrame = true
      ∧ answers (exec (.status (frame [0x00#8])) active) .badFrame = true
      ∧ answers (exec (.configure (frame [])) active) .badFrame = true ∧ answers (exec (.fetch (frame [0x01#8])) active) .badFrame = true
      ∧ answers (exec (.notices (frame [0x00#8])) active) .badFrame = true
      ∧ answers (exec (.notices (frame [0x21#8])) active) .badFrame = true
      ∧ answers (exec (.counters (frame [0x02#8])) active) .badFrame = true
      ∧ answers (exec (.configure (frame (List.replicate 10 0x00#8))) active) .refusedState = true
      ∧ answers (exec (.configure (frame (List.replicate 10 0x00#8))) halted) .notReady = true
      ∧ answers (exec (.submit (frame [])) halted) .notReady = true
      ∧ answers (exec (.fetch (frame (List.replicate 5 0x00#8))) halted) .notReady = true
      ∧ answers (exec (.fetchResult (frame [])) halted) .notReady = true
      ∧ answers (exec (.holdings (frame [0x01#8])) halted) .notReady = true
      ∧ answers (exec (.notices (frame [0x20#8])) halted) .notReady = true
      ∧ answers (exec (.counters (frame [0x01#8])) (station .scanning)) .notReady = true := by decide +kernel

/-- QueriesAnswered: STATUS, HOLDINGS at the ends of its range, COUNTERS without and with the clear flag. -/
theorem witness_queries :
    let s := active.bump .collisions
    s.sc.phase = .running .active .none
      ∧ nextIs (exec (.status (frame [])) s) (fun t => t.ap.slot == .ready { status := .ok, armsReset := false, data :=
          [0x03#8, 0x00#8, 0x00#8, 0x02#8, 0x03#8, 0x02#8, 0x00#8, 0x00#8, 0x02#8, 0x80#8, 0x00#8, 0x00#8] ++ List.replicate 10 0x00#8 })
          = true
      ∧ answers (exec (.holdings (frame [0x00#8])) s) .badOrigin = true ∧ answers (exec (.holdings (frame [0x04#8])) s) .badOrigin = true
      ∧ answers (exec (.holdings (frame [0x03#8])) s) .ok = true
      ∧ answers (exec (.holdings (frame [0x18#8])) awaiting) .ok = true
      ∧ nextIs (exec (.counters (frame [0x00#8])) s) (fun t => t.counter .collisions == 1) = true
      ∧ nextIs (exec (.counters (frame [0x01#8])) s) (fun t => t.counter .collisions == 0) = true := by decide +kernel

/-- A CONFIGURE for a group of `n` with the last number of its range in every other place. -/
def configBytes (n : Nat) : List Byte :=
  [BitVec.ofNat 8 n, 0x02#8, 0x03#8, 0xE8#8, 0xFF#8, 0x64#8, 0x14#8, 0x20#8, 0x64#8, 0x01#8]

/-- ConfigureAndSubmitHandedOn: the buffer free and in use. -/
theorem witness_handed_on :
    awaiting.station = some .awaitConfig ∧ (configBytes 2).length = 10
      ∧ nextIs (exec (.configure (frame (configBytes 2))) awaiting) (fun t =>
          t.ap.configures == [{ params := configBytes 2, owed := true }] && t.ap.slot == .awaiting) = true
      ∧ nextIs (exec (.submit (frame [0x41#8])) active) (fun t => t.ap.slot == .awaiting && t.ap.submitBuffer.isSome) = true
      ∧ answers (exec (.submit (frame [0x41#8])) (handed active 1)) .busy = true := by decide +kernel

/-- ConfigureTaken: settings out of range, in range at the ends, and not in AWAIT-CONFIG. -/
theorem witness_configure_taken :
    let given := fun (s : State) (n : Nat) => s.setAp { s.ap with configures := [{ params := configBytes n, owed := true }] }
    (settingsOf (configBytes 1)).all (fun c => c.inRange 2 == false) = true
      ∧ (settingsOf (configBytes 2)).any (fun c => c.inRange 2) = true ∧ (settingsOf (configBytes 24)).any (fun c => c.inRange 2) = true
      ∧ awaiting.own = 2
      ∧ answers (exec (.configureTaken false) (given awaiting 25)) .badConfig = true
      ∧ answers (exec (.configureTaken false) (given active 24)) .refusedState = true
      ∧ nextIs (exec (.configureTaken true) (given awaiting 24)) (fun t =>
          t.station == some .joining && t.groupSize == 24 && t.lc.state == .seeking && t.lc.tracked == .inProgress && t.hu.line3) = true := by
  decide +kernel

/-- ConfigureTaken, the entries, with K = 1: origin 1 kept and the nine numbers of origins 4 and 24 orphans; under LOW a block that
only the new D makes eligible is taken, raises a floor and sets the report-pending flag. -/
theorem witness_configure_entries :
    let given := fun (s : State) => s.setAp { s.ap with configures := [{ params := (configBytes 3).set 1 0x01#8, owed := true }] }
    let s := given (holding (holding (holding awaiting 1 gapped) 4 gapped) 24 { floor := 3, top := 3, gaps := [] })
    let e : BlockEntry := { state := .sealed, stamp := some 3, pages := 48,
                            summary := [{ origin := 1, lowest := 3, highest := 5 }, { origin := 2, lowest := 1, highest := 1 }] }
    let low := (holding s 2 { floor := 1, top := 1, gaps := [] }).setSm { s.sm.setBlock 5 e with pressure := .low }
    entryOk (s.entry 4) = true ∧ entryOk (s.entry 24) = true ∧ s.selection = none ∧ low.selection = none
      ∧ (low.setHu { low.hu with durable := 1 }).selection = some 5
      ∧ nextIs (exec (.configureTaken false) s) (fun t =>
          t.counter .orphaned == 9 && t.entry 1 == gapped && t.entry 4 == Entry.reset && !t.hu.reportPending) = true
      ∧ nextIs (exec (.configureTaken false) low) (fun t =>
          t.hu.durable == 1 && (t.entry 1).floor == 6 && t.hu.reportPending) = true := by decide +kernel

/-- ListenIntervalEnds. -/
theorem witness_listen :
    let s := (station .joining).setSc { (station .joining).sc with listening := true }
    s.station = some .joining ∧ s.sc.listening = true
      ∧ nextIs (exec .listenIntervalEnd s) (fun t => t.station == some .active) = true := by decide +kernel

/-- ListenIntervalEnds: what no station holds is abandoned, and what a PRESENT one holds is asked for. -/
theorem witness_listen_missing :
    let s := (station .joining).setSc { (station .joining).sc with listening := true }
    let gap := holding s 1 gapped
    let known := gap.putRow 1 (List.replicate 3 { floor := 1, frontier := 9 })
    nextIs (exec .listenIntervalEnd gap) (fun t => t.nu.queue == [.lost 1 5 5] && t.hu.reportPending && (t.ask 0).isNone) = true
      ∧ nextIs (exec .listenIntervalEnd (known.setPresence 1 .present true)) (fun t =>
          (t.ask 0) == some { freshAsk 1 [] with first := 5, count := 1, state := .asked 1 true false }) = true := by decide +kernel

/-- FetchAndItsResult: each answer of FETCH, with and without a block that covers the number, and of FETCH-RESULT. -/
theorem witness_fetch :
    let fetch := fun (o n : Nat) => Instr.fetch (frame (toBytes 1 o ++ toBytes 4 n))
    let s := holding active 1 { floor := 1, top := 1, gaps := [] }
    let stored := s.setSm (s.sm.setBlock 639
      { state := .sealed, stamp := some 3, pages := 48, summary := [{ origin := 1, lowest := 1, highest := 1 }] })
    let looking := s.setAp { s.ap with fetch := .looking 1 1 }
    let done := fun (r : FetchOutcome) => s.setAp { s.ap with fetch := .done 1 1 r }
    s.storeRuns = true ∧ (s.sm.reclaimDue = false ∧ s.rp.rerunDue = false) ∧ s.fc.programClaim = none
      ∧ stored.sm.candidate 1 1 none = some (3, 639) ∧ s.sm.candidate 1 1 none = none
      ∧ answers (exec (fetch 0 1) s) .badOrigin = true ∧ answers (exec (fetch 4 1) s) .badOrigin = true
      ∧ answers (exec (fetch 1 2) s) .notHeld = true ∧ answers (exec (fetch 1 1) looking) .busy = true
      ∧ nextIs (exec (fetch 1 1) s) (fun t => t.ap.fetch == .done 1 1 .lost) = true
      ∧ nextIs (exec (fetch 1 1) stored) (fun t =>
          t.ap.fetch == .looking 1 1 && t.fc.op == some (.lookupRead .fetch .spare (pageAt 639 47)) && t.fc.fetchClaim == none) = true
      ∧ nextIs (exec (fetch 1 1) (carrying stored (.erase 0))) (fun t =>
          t.fc.op == some (.erase 0) && t.fc.fetchClaim == some { kind := .spare, page := pageAt 639 47 }) = true
      ∧ answers (exec (.fetchResult (frame [])) s) .notHeld = true ∧ answers (exec (.fetchResult (frame [])) looking) .pending = true
      ∧ answers (exec (.fetchResult (frame [])) (done (.ok [0x41#8]))) .ok = true
      ∧ answers (exec (.fetchResult (frame [])) (done .lost)) .lost = true
      ∧ answers (exec (.fetchResult (frame [])) (done .damaged)) .damaged = true
      ∧ answers (exec (.fetchResult (frame [])) (done .notHeld)) .notHeld = true := by decide +kernel

/-- RestartAndResponseRead: the slot EMPTY, AWAITING, READY, and READY with the OK of a RESTART. -/
theorem witness_response :
    let with' := fun (r : ResponseSlot) => active.setAp { active.ap with slot := r }
    let out := fun (r : ResponseSlot) (n : Nat) (bytes : List Byte) =>
      nextIs (exec (.responseRead n) (with' r)) (fun t => t.ap.dataOut == bytes)
    active.station = some .active
      ∧ nextIs (exec (.restart (frame [])) active) (fun t =>
          t.ap.slot == .ready { status := .ok, data := [], armsReset := true } && t.station == some .active) = true
      ∧ out .empty 4 [0x23#8, 0x00#8, 0x00#8, 0xFF#8] = true ∧ out .awaiting 2 [0x02#8, 0x00#8] = true
      ∧ out (.ready { status := .ok, data := [0x41#8], armsReset := false }) 4 [0x00#8, 0x00#8, 0x01#8, 0x41#8] = true
      ∧ nextIs (exec (.responseRead 1) (with' (.ready { status := .ok, data := [], armsReset := true }))) (fun t =>
          t.sc.phase == .held .command && t.ap.dataOut == [0x00#8]) = true := by decide +kernel

/-! ## Invariants -/

/-- The commands waiting do not enter the invariants; the first step from reset releases the part. -/
def released : State := { State.reset with pending := [.resetRelease 2#5] }

theorem witness_invariants_step : ∃ t, step released = .next t ∧ t.station = some .scanning := ⟨_, rfl, rfl⟩

/-- MemoryStaysCanonical, AttnAndTheNoticeQueueAreKept, AtMostOneBlockIsOpen, NothingStaysOwed. -/
theorem witness_invariants_plain : MemoryOk released ∧ AttnOk released ∧ NoticesOk released ∧ OneOpen released ∧ Quiet released := by
  refine ⟨rfl, rfl, Nat.zero_le _, fun a b ha _ => ?_, rfl, rfl⟩
  have : (released.sm.block a).state = .free := by
    show (place (Vector.replicate 640 BlockEntry.reset) BlockEntry.reset a).state = .free
    unfold place
    rw [Vector.getElem?_replicate]
    split <;> rfl
  rw [this] at ha
  cases ha

/-- The premise of the invariants of the rest: the start, the scan and the settings. -/
theorem witness_invariants_start : StartOk released ∧ ScanOk released ∧ SettingsOk released := by
  refine ⟨⟨fun _ => ?_, fun h => ?_⟩, ?_, ?_⟩
  rotate_left
  · cases h
  · intro _ h; cases h
  · intro _ h; cases h
  exact ⟨rfl, rfl, rfl, rfl, rfl, rfl, rfl, rfl, rfl, rfl, rfl, rfl, rfl, rfl, rfl, rfl, rfl, rfl, rfl, rfl,
    fun _ h => by cases h⟩

/-- HoldingsKeepTheirForm and DurableStaysBelowTheTop. -/
theorem witness_invariants_holdings : HoldingsOk released ∧ DurableOk released := by
  have h : ∀ o, released.entry o = Entry.reset := by
    intro o
    show lineOf (Vector.replicate 24 Entry.reset) Entry.reset o = Entry.reset
    cases o with
    | zero => rfl
    | succ i =>
      show place _ _ i = _
      unfold place
      rw [Vector.getElem?_replicate]
      split <;> rfl
  refine ⟨⟨fun o => by rw [h]; rfl, by rw [h]; rfl⟩, Nat.zero_le _, fun p c hc => ?_⟩
  have : released.row p = none := by
    show lineOf (Vector.replicate 24 none) none p = none
    cases p with
    | zero => rfl
    | succ i =>
      show place _ _ i = _
      unfold place
      rw [Vector.getElem?_replicate]
      split <;> rfl
  unfold State.cell at hc
  rw [this] at hc
  cases hc

/-- Nothing is pending in a state whose commit path is as a reset leaves it. -/
theorem released_pending (o : Nat) : released.pendingOf o = [] := by
  unfold State.pendingOf
  by_cases h : (o == released.own) = true
  · rw [if_pos h]; rfl
  · rw [if_neg h]; rfl

/-- PendingIsNeverSettled. -/
theorem witness_pending : PendingOk released := by
  refine ⟨fun o n hn => ?_, by decide +kernel, by decide +kernel, fun i hi => ?_, fun i d hd => ?_, fun c hc => ?_, fun _ => ?_, fun st h => ?_⟩
  · rw [released_pending] at hn
    cases hn
  · cases hi
  · have : place released.ra.slots .free i = .free := by
      show place (Vector.replicate 8 Slot.free) .free i = .free
      unfold place
      rw [Vector.getElem?_replicate]
      split <;> rfl
    rw [this] at hd
    cases hd
  · cases hc
  · decide +kernel
  · cases h

/-- DurableFrontierRises and OnlyFlashOperationsChangeTheArray: a command at a running station that raises D. -/
theorem witness_frontiers :
    active.storeRuns = true ∧ active.sc.scan = none
      ∧ nextIs (exec (.carrierEnd (heardWhole (reportFrom1 9))) (withLc (station .joining) .hearing)) (fun t =>
          t.storeRuns && t.hu.durable == 9 && t.ownTop == 9) = true := by decide +kernel

end Sys2Proof.Tests
end

/-! The acceptance test (R84): the seventh range of R82, told from where the number lies. -/

namespace Sys2Proof.Machine

open Sys2Proof.Safety

/-! ## One number settled in a gap list (R82) -/

theorem Range.without_of_outside {g : Range} {n : Nat} (h : n < g.lo ∨ g.hi < n) : g.without n n = [g] :=
  if_neg (by omega)

/-- Of a gap that holds `n`, settling `n` leaves the part below it and the part above it, each where there is one. -/
theorem Range.length_without_of_inside {g : Range} {n : Nat} (hlo : g.lo ≤ n) (hhi : n ≤ g.hi) :
    (g.without n n).length = (if g.lo < n then 1 else 0) + (if n < g.hi then 1 else 0) := by
  rw [Range.without, if_pos ⟨hlo, hhi⟩, List.length_append]
  congr 1 <;> split <;> rfl

theorem flatMap_without_of_lt {lo top n : Nat} (hn : n < lo) : {gs : List Range} → gapsOk lo top gs = true →
    (gs.flatMap fun g => g.without n n) = gs
  | [], _ => rfl
  | g :: gs, w => by
    obtain ⟨hlo, hg, -, hrest⟩ := gapsOk_cons.mp w
    rw [List.flatMap_cons, Range.without_of_outside (.inl (Nat.lt_of_lt_of_le hn hlo)),
      flatMap_without_of_lt (by omega) hrest, List.singleton_append]

/-- Settling one number adds at most one range, and adds one just where the number lies strictly inside a gap: the ranges are
apart, so at most one of them holds the number. -/
theorem length_flatMap_without {lo top n : Nat} : {gs : List Range} → gapsOk lo top gs = true →
    (gs.flatMap fun g => g.without n n).length ≤ gs.length + 1
      ∧ (gs.length < (gs.flatMap fun g => g.without n n).length ↔ ∃ g, g ∈ gs ∧ g.lo < n ∧ n < g.hi)
  | [], _ => ⟨Nat.zero_le _, fun h => absurd h (Nat.lt_irrefl 0), fun ⟨_, hg, _⟩ => absurd hg List.not_mem_nil⟩
  | g :: gs, w => by
    obtain ⟨-, hg, -, hrest⟩ := gapsOk_cons.mp w
    obtain ⟨ihle, ihlt⟩ := length_flatMap_without (n := n) hrest
    simp only [List.flatMap_cons, List.length_append, List.length_cons, List.mem_cons, or_and_right, exists_or, exists_eq_left]
    by_cases inside : g.lo ≤ n ∧ n ≤ g.hi
    · have rest_kept := flatMap_without_of_lt (show n < g.hi + 2 by omega) hrest
      have not_in_rest : ¬ ∃ g', g' ∈ gs ∧ g'.lo < n ∧ n < g'.hi := by rw [← ihlt, rest_kept]; omega
      rw [rest_kept, Range.length_without_of_inside inside.1 inside.2, or_iff_left not_in_rest]
      split <;> split <;> omega
    · rw [Range.without_of_outside (by omega), ← ihlt, List.length_singleton]
      omega

/-! ## The seventh range -/

theorem Entry.overflows_iff {e : Entry} {a b : Nat} : e.overflows a b = true ↔ 6 < (e.settle a b).gaps.length :=
  decide_eq_true_iff

theorem Entry.gaps_settle_of_above {e : Entry} {a b : Nat} (h : e.top < a) :
    (e.settle a b).gaps = e.gaps ++ rangeOf (e.top + 1) (a - 1) := by
  rw [Entry.settle, if_pos h]

theorem Entry.gaps_settle_of_not_above {e : Entry} {a b : Nat} (h : ¬ e.top < a) :
    (e.settle a b).gaps = e.gaps.flatMap fun g => g.without a b := by
  rw [Entry.settle, if_neg h]

theorem length_rangeOf (a b : Nat) : (rangeOf a b).length = if a ≤ b then 1 else 0 := by
  unfold rangeOf
  split <;> rfl

/-- R82, R84: settling `n` alone would hold a seventh range just where six are held and `n` lies strictly inside a gap or leaves
a gap above T. -/
theorem Entry.overflows_self_iff {e : Entry} (w : entryOk e = true) (n : Nat) :
    e.overflows n n = true ↔
      ((∃ g, g ∈ e.gaps ∧ g.lo < n ∧ n < g.hi) ∨ e.top + 1 < n) ∧ e.gaps.length = 6 := by
  obtain ⟨-, -, hgaps, hlen : e.gaps.length ≤ 6⟩ := entryOk_iff.mp w
  rw [Entry.overflows_iff]
  by_cases above : e.top < n
  · have not_inside : ¬ ∃ g, g ∈ e.gaps ∧ g.lo < n ∧ n < g.hi := by
      rintro ⟨g, hg, -, hhi⟩
      have := (hi_lt_top hgaps g hg).2.2
      omega
    rw [Entry.gaps_settle_of_above above, or_iff_right not_inside, List.length_append, length_rangeOf]
    split <;> omega
  · obtain ⟨hle, hlt⟩ := length_flatMap_without (n := n) hgaps
    rw [Entry.gaps_settle_of_not_above above, or_iff_left (show ¬ e.top + 1 < n by omega), ← hlt]
    omega

end Sys2Proof.Machine

namespace Sys2Proof.Proofs

open Sys2Proof.Machine Sys2Proof.Safety

/-- Settles O21: the model's tests stand in R84's order, and the last one, a seventh range, is `Entry.overflows_self_iff`. -/
theorem acceptanceTest : Obligations.AcceptanceTest := by
  intro s o n w
  have duplicate : ((s.entry o).settled n || s.isPending o n) = true ↔ (s.entry o).settled n = true ∨ s.isPending o n = true :=
    Bool.or_eq_true_iff
  have seventh := Entry.overflows_self_iff w n
  exact ite_congr (propext beq_iff_eq) (fun _ => rfl) fun _ =>
    ite_congr rfl (fun _ => rfl) fun _ =>
    ite_congr (propext duplicate) (fun _ => rfl) fun _ =>
    ite_congr rfl (fun _ => rfl) fun _ =>
    ite_congr (propext seventh) (fun _ => rfl) fun _ => rfl

end Sys2Proof.Proofs

/-! SUBMIT_TAKEN (R108): the answer is the first test that fails. -/

namespace Sys2Proof.Machine

/-- A table has no first place that passes just where none of its places passes. -/
theorem firstPlace_eq_none_iff {α : Type} {n : Nat} {v : Vector α n} {p : α → Bool} (d : α) :
    firstPlace v p = none ↔ ∀ i, i < n → p (place v d i) = false := by
  have place_eq : ∀ i (hi : i < n), place v d i = v[i] := fun i hi => by simp [place, hi]
  rw [firstPlace, List.findIdx?_eq_none_iff]
  constructor
  · intro none_passes i hi
    rw [place_eq i hi]
    exact none_passes _ (Vector.mem_toList_iff.mpr (Vector.getElem_mem hi))
  · intro none_passes x hx
    obtain ⟨i, hi, rfl⟩ := Vector.getElem_of_mem (Vector.mem_toList_iff.mp hx)
    rw [← place_eq i hi]
    exact none_passes i hi

/-- R109: no submit entry is FREE. -/
theorem Su.firstFree_isNone_iff (su : Su) :
    (firstPlace su.entries (· == .free)).isNone = true ↔ ∀ i, i < 8 → place su.entries .free i ≠ .free := by
  simp [firstPlace_eq_none_iff SubmitEntry.free]

namespace State

/-- R197: an answer is a change of the response slot alone, and only while the slot awaits it. -/
theorem answer_eq (s : State) (owed : Bool) (st : Status) (data : List Byte) :
    s.answer owed st data = s.setAp { s.ap with
      slot := if owed then .ready { status := st, data := data, armsReset := false } else s.ap.slot } := by
  cases owed <;> rfl

/-- The tests of R108 are made on what SU, HU, SM and CE hold: taking the SUBMIT out of its buffer changes none of them. -/
theorem submitRefusal_setAp (s : State) (x : Ap) (length : Nat) : (s.setAp x).submitRefusal length = s.submitRefusal length := rfl

theorem acceptSubmit_keeps (s : State) (i : Nat) (payload : List Byte) : Keeps s (s.acceptSubmit i payload) :=
  (((Keeps.setSu s _).trans (Keeps.setCe _ _)).trans (runCommit_keeps _)).trans (settleAll_keeps _)

/-! ## The tests of R108, in order -/

variable {s : State} {length : Nat}

theorem submitRefusal_of_not_active (h : s.station ≠ some .active) : s.submitRefusal length = some .notReady :=
  if_pos (bne_iff_ne.mpr h)

/-- R108 at an ACTIVE station: what the remaining four tests answer. -/
theorem submitRefusal_of_active (h : s.station = some .active) : s.submitRefusal length =
    if length = 0 ∨ 1920 < length then some .badLength
    else if 4294967295 < s.ownTop + s.su.queued + 1 then some .exhausted
    else if s.sm.pressure = .tight then some .full
    else if (firstPlace s.su.entries (· == .free)).isNone ∨ 12 ≤ s.ce.queue.length then some .busy
    else none :=
  if_neg (by simp [h])

end State

/-! ## SUBMIT_TAKEN -/

section
variable {s : State} {h : HandedSubmit} (hs : s.ap.submitBuffer = some h)
include hs

/-- R108: a SUBMIT that fails a test is answered with that test's status; besides the payload buffer and the slot all is kept. -/
theorem exec_submitTaken_refused {st : Status} (refused : s.submitRefusal h.length = some st) :
    exec .submitTaken s = .next { s with ap := { s.ap with
      submitBuffer := none,
      slot := if h.owed then .ready { status := st, data := [], armsReset := false } else s.ap.slot } } := by
  show execSubmitTaken s = _
  simp only [execSubmitTaken, hs, State.submitRefusal_setAp, refused, State.answer_eq]
  rfl

/-- R109: a SUBMIT that passes every test enters a FREE entry and is answered OK with its number. -/
theorem exec_submitTaken_accepted {i : Nat} (accepted : s.submitRefusal h.length = none)
    (free : firstPlace s.su.entries (· == .free) = some i) :
    exec .submitTaken s =
      .next (((s.setAp { s.ap with submitBuffer := none }).acceptSubmit i h.payload).answer h.owed .ok (toBytes 4 s.nextNumber)) := by
  show execSubmitTaken s = _
  simp only [execSubmitTaken, hs, State.submitRefusal_setAp, accepted, State.setAp_su, free]
  rfl

end

end Sys2Proof.Machine

namespace Sys2Proof.Proofs

open Sys2Proof.Machine Sys2Proof.Safety

/-- Settles O24: the tests in R108's order are `State.submitRefusal_of_active`; the slot of an accepted SUBMIT comes from its
answer alone, since placement and what ends the command keep it (`State.acceptSubmit_keeps`). -/
theorem submitAnswered : Obligations.SubmitAnswered := by
  intro s h hs
  have refused {st : Status} := exec_submitTaken_refused hs (st := st)
  refine ⟨fun inactive => refused (State.submitRefusal_of_not_active inactive), fun active => ?_⟩
  have tests := State.submitRefusal_of_active (length := h.length) active
  refine ⟨fun badLength => refused (tests.trans (if_pos badLength)), fun one_le le_max => ?_⟩
  rw [if_neg (by omega)] at tests
  refine ⟨fun exhausted => refused (tests.trans (if_pos exhausted)), fun numbered => ?_⟩
  rw [if_neg (by omega)] at tests
  refine ⟨fun tight => refused (tests.trans (if_pos tight)), fun not_tight => ?_⟩
  rw [if_neg not_tight] at tests
  refine ⟨fun busy => refused (tests.trans (if_pos (busy.imp_left (Su.firstFree_isNone_iff _).mpr))), fun ⟨i, hi, free⟩ room => ?_⟩
  have has_free : ¬ (firstPlace s.su.entries (· == .free)).isNone = true :=
    fun none_free => (Su.firstFree_isNone_iff s.su).mp none_free i hi free
  rw [if_neg (not_or.mpr ⟨has_free, by omega⟩)] at tests
  obtain ⟨j, hj⟩ := Option.ne_none_iff_exists'.mp (mt Option.isNone_iff_eq_none.mpr has_free)
  refine ⟨_, exec_submitTaken_accepted hs tests hj, ?_⟩
  rw [State.answer_eq, State.setAp_ap, (State.acceptSubmit_keeps _ j h.payload).slot]
  rfl

end Sys2Proof.Proofs

/-! The segments of a record (R113, R114). -/

namespace Sys2Proof.Machine

/-- R113: n is the least number of segments of 240 bytes that hold the record. -/
theorem segmentCount_bounds {L : Nat} (h : 0 < L) : 240 * (segmentCount L - 1) < L ∧ L ≤ 240 * segmentCount L := by
  have count_eq : segmentCount L = (L + 239) / 240 := rfl
  omega

/-- R113: a segment carries 240 bytes, or what the segments before it leave of the record. -/
theorem segmentLength_eq_min {L i : Nat} (hi : i < segmentCount L) :
    segmentLength L (segmentCount L) i = min 240 (L - 240 * i) := by
  have count_eq : segmentCount L = (L + 239) / 240 := rfl
  have length_eq : segmentLength L (segmentCount L) i =
    if i + 1 < segmentCount L then 240 else L - 240 * (segmentCount L - 1) := rfl
  rw [length_eq]
  split <;> omega

/-- Pieces of `k` members, in order, are the list as far as they reach. -/
theorem flatMap_range_take_drop {α : Type} (k : Nat) (l : List α) :
    (n : Nat) → ((List.range n).flatMap fun i => (l.drop (k * i)).take k) = l.take (k * n)
  | 0 => rfl
  | n + 1 => by
    rw [List.range_succ, List.flatMap_append, flatMap_range_take_drop k l n, List.flatMap_singleton, Nat.mul_succ, List.take_add]

section
variable {origin seq : Nat} {check : Check} {payload : List Byte} {resend : Bool} {i : Nat}

theorem cutSegment_payloadLength (hi : i < segmentCount payload.length) :
    (cutSegment origin seq check payload resend i).payloadLength = min 240 (payload.length - 240 * i) :=
  segmentLength_eq_min hi

/-- R113: segment `i` carries the record's bytes from 240 i on. -/
theorem cutSegment_payload (hi : i < segmentCount payload.length) :
    (cutSegment origin seq check payload resend i).payload = (payload.drop (240 * i)).take 240 := by
  show (payload.drop (240 * i)).take (segmentLength payload.length (segmentCount payload.length) i) = _
  rw [segmentLength_eq_min hi, ← List.length_drop, ← List.take_eq_take_min]

end

end Sys2Proof.Machine

namespace Sys2Proof.Proofs

open Sys2Proof.Machine Sys2Proof.Safety

/-- Settles O26: the lengths are `segmentLength_eq_min` between the bounds of `segmentCount_bounds`, and the pieces of 240 bytes
joined reach the record's end. -/
theorem segmentsTileTheRecord : Obligations.SegmentsTileTheRecord := by
  intro origin seq check payload resend nonempty n cut
  obtain ⟨below, above⟩ := segmentCount_bounds (List.length_pos_iff.mpr nonempty)
  refine ⟨below, above, fun i hi => ?_, ?_⟩
  · have bytes : (cut i).payload = _ := cutSegment_payload hi
    have carried : (cut i).payloadLength = _ := cutSegment_payloadLength hi
    have carried_length : (cut i).payloadLength = (cut i).payload.length := by
      rw [bytes, carried, List.length_take, List.length_drop]
    refine ⟨bytes, carried_length, ?_, ?_, ?_, ?_, rfl, rfl, rfl, rfl, rfl, rfl, rfl⟩ <;> omega
  · calc ((List.range n).flatMap fun i => (cut i).payload)
        = (List.range n).flatMap fun i => (payload.drop (240 * i)).take 240 :=
          congrArg List.flatten (List.map_congr_left fun i hi => cutSegment_payload (List.mem_range.mp hi))
      _ = payload.take (240 * n) := flatMap_range_take_drop 240 payload n
      _ = payload := List.take_of_length_le above

end Sys2Proof.Proofs

/-! Every step keeps ATTN at its condition (R194) and the notice queue within its places (R188). NU and the notice threshold are
touched by a reset, by the acceptance of a CONFIGURE and by what hands NU a notice, drains it or ends its delay; everything else that
a command does leaves both alone or stays within Keeps. -/

namespace Sys2Proof.Machine

open Sys2Proof.Safety

/-- The two invariants of NU go over from `s` to `t`. -/
structure KeepsNotices (s t : State) : Prop where
  attnOk : AttnOk s → AttnOk t
  noticesOk : NoticesOk s → NoticesOk t

theorem Keeps.notices {s t : State} (h : Keeps s t) : KeepsNotices s t := ⟨h.attnOk, h.noticesOk⟩

namespace KeepsNotices

/-- What leaves NU and the notice threshold as they are. -/
theorem of_eq {s t : State} (hnu : t.nu = s.nu) (hth : t.noticeThreshold = s.noticeThreshold) : KeepsNotices s t where
  attnOk w := by unfold AttnOk at *; rw [hnu, hth]; exact w
  noticesOk w := by unfold NoticesOk at *; rw [hnu]; exact w

theorem refl (s : State) : KeepsNotices s s := of_eq rfl rfl

theorem trans {s t u : State} (h : KeepsNotices s t) (k : KeepsNotices t u) : KeepsNotices s u where
  attnOk := k.attnOk ∘ h.attnOk
  noticesOk := k.noticesOk ∘ h.noticesOk

/-- What `Keeps` says of the operations that follow. -/
theorem andThen {s t u : State} (h : KeepsNotices s t) (k : Keeps t u) : KeepsNotices s u := h.trans k.notices

/-! ## Component updates -/

theorem setFc (s : State) (x : Fc) : KeepsNotices s (s.setFc x) := of_eq rfl rfl
theorem setSm (s : State) (x : Sm) : KeepsNotices s (s.setSm x) := of_eq rfl rfl
theorem setHu (s : State) (x : Hu) : KeepsNotices s (s.setHu x) := of_eq rfl rfl
theorem setSu (s : State) (x : Su) : KeepsNotices s (s.setSu x) := of_eq rfl rfl
theorem setLc (s : State) (x : Lc) : KeepsNotices s (s.setLc x) := of_eq rfl rfl
theorem setAp (s : State) (x : Ap) : KeepsNotices s (s.setAp x) := of_eq rfl rfl

end KeepsNotices

/-- The invariants go over to the next state, if the command has one. -/
def OutcomeKeepsNotices (s : State) : Host.Outcome State Fault Refusal → Prop
  | .next t => KeepsNotices s t
  | .fault _ => True
  | .refused _ => True

/-! ## The notice unit -/

/-- R194: ATTN set anew is what its condition says: ATTN does not enter its own condition. -/
theorem Nu.setAttn_attn (nu : Nu) (th : Nat) : (nu.setAttn th).attn = (nu.setAttn th).attnCondition th := rfl

theorem Nu.delayExpired_attn {nu : Nu} {th : Nat} (h : nu.attn = nu.attnCondition th) :
    (nu.delayExpired th).attn = (nu.delayExpired th).attnCondition th := by
  unfold Nu.delayExpired
  split
  · exact Nu.setAttn_attn ..
  · exact h

theorem Nu.delayExpired_queue (nu : Nu) (th : Nat) : (nu.delayExpired th).queue = nu.queue := by
  unfold Nu.delayExpired
  split <;> rfl

theorem Nu.drain_length_le (nu : Nu) (th d m : Nat) : (nu.drain th d m).queue.length ≤ nu.queue.length :=
  (List.drop_sublist m nu.queue).length_le

theorem execNoticeDelayTimerExpiry_keepsNotices (s : State) : OutcomeKeepsNotices s (execNoticeDelayTimerExpiry s) :=
  (Keeps.setNu s Nu.delayExpired_attn fun w => by rw [Nu.delayExpired_queue]; exact w).notices

namespace State

/-! ## Presence and reports -/

theorem heard_keepsNotices (s : State) (p : Nat) : KeepsNotices s (s.heard p) := by
  have set : KeepsNotices s (s.setPresence p .present true) := .setHu ..
  unfold heard
  simp only
  split
  · exact set
  · exact set.andThen ((notify_keeps _ _).trans (tellRp_keeps _))

theorem fallsSilent_keepsNotices (s : State) (p : Nat) : KeepsNotices s (s.fallsSilent p) := by
  have set : KeepsNotices s (s.setPresence p .silent false) := .setHu ..
  unfold fallsSilent
  split
  · exact set.andThen ((notify_keeps _ _).trans (tellRp_keeps _))
  · exact .refl s

theorem putRow_keepsNotices (s : State) (p : Nat) (pairs : List Pair) : KeepsNotices s (s.putRow p pairs) := .setHu ..

theorem takeReport_keepsNotices (s : State) (isHail : Bool) (p : Nat) (body : List Byte) :
    KeepsNotices s (s.takeReport isHail p body) := by
  have told {t : State} (stored : KeepsNotices s t) :
      KeepsNotices s (if isHail then t.setReportPending else t).tellRp.evaluateDurable := by
    refine KeepsNotices.andThen ?_ ((tellRp_keeps _).trans (evaluateDurable_keeps _))
    split
    · exact stored.andThen (setReportPending_keeps t)
    · exact stored
  unfold takeReport
  simp only
  split
  · refine told ?_
    split
    · exact (noteConflict_keeps s p _).notices.trans (putRow_keepsNotices ..)
    · exact (adopt_keeps s _).notices.trans (putRow_keepsNotices ..)
  · exact (bump_keeps s _).notices

/-! ## The line -/

theorem takeReference_keepsNotices (s : State) (l : Nat) : KeepsNotices s (s.takeReference l) := .setLc ..

theorem handOn_keepsNotices (s : State) (b : Burst) : KeepsNotices s (s.handOn b) := by
  have heard : KeepsNotices s ((s.bump .goodBursts).heard b.sender) :=
    (bump_keeps s _).notices.trans (heard_keepsNotices ..)
  unfold handOn
  simp only
  split
  case h_1 => exact (heard.trans (takeReport_keepsNotices ..)).andThen (settleAll_keeps _)
  case h_2 => exact (heard.trans (takeReport_keepsNotices ..)).andThen (settleAll_keeps _)
  case h_3 => exact heard.andThen (takeSegment_keeps ..)
  case h_4 => exact heard.andThen ((takeAsk_keeps ..).trans (settleAll_keeps _))
  case h_5 => exact heard.andThen ((takeRefuse_keeps ..).trans (settleAll_keeps _))

theorem endPeriod_keepsNotices (s : State) (late : Bool) (p : CarrierPeriod) : KeepsNotices s (s.endPeriod late p) := by
  unfold endPeriod
  split
  · exact (takeReference_keepsNotices s 0).andThen (bump_keeps ..)
  · exact (takeReference_keepsNotices s 0).andThen (bump_keeps ..)
  · exact (takeReference_keepsNotices s _).trans (handOn_keepsNotices ..)

theorem reportSent_keepsNotices (s : State) (item : BurstItem) : KeepsNotices s (s.reportSent item) := by
  cases item with
  | refuse => exact .refl s
  | report => exact .setHu ..
  | hail => exact (KeepsNotices.setHu s _).trans (.of_eq rfl rfl)
  | resend => exact .refl s
  | ownSeg n last =>
    cases last
    · exact .refl s
    · exact .setSu ..
  | ask origin target => exact (askSent_keeps s origin target).notices

end State

theorem execCarrierBegin_keepsNotices (s : State) : OutcomeKeepsNotices s (execCarrierBegin s) := by
  unfold execCarrierBegin
  simp only
  split
  · exact .setLc ..
  · split
    · exact .setLc ..
    · exact .refl s
  · exact .refl s

theorem execCarrierEnd_keepsNotices (period : CarrierPeriod) (s : State) :
    OutcomeKeepsNotices s (execCarrierEnd period s) := by
  have rx : KeepsNotices s (s.setLc { s.lc with rx := period }) := .setLc ..
  unfold execCarrierEnd
  simp only
  split
  · exact rx.trans (State.endPeriod_keepsNotices ..)
  · exact rx.trans (State.takeReference_keepsNotices ..)
  · split
    · exact rx.trans (State.endPeriod_keepsNotices ..)
    · exact rx.trans (State.takeReference_keepsNotices ..)
    · exact .refl s
  · exact .refl s

theorem execOwnSlotStart_keepsNotices (s : State) : OutcomeKeepsNotices s (execOwnSlotStart s) := by
  have counted : KeepsNotices s (s.setLc { s.lc with slotCount := some s.nextSlot }) := .setLc ..
  unfold execOwnSlotStart
  simp only
  split
  · split
    · exact counted.trans (.setLc ..)
    · split
      · rename_i chosen
        exact ((counted.andThen (State.chooseBurst_keeps chosen)).trans (.setLc ..)).andThen (State.settleAll_keeps _)
      · exact counted
  · exact .refl s

theorem execMismatchDetected_keepsNotices (s : State) : OutcomeKeepsNotices s (execMismatchDetected s) := by
  unfold execMismatchDetected
  split
  · exact (KeepsNotices.setLc s _).andThen (State.bump_keeps ..)
  · exact .refl s

theorem execBurstSent_keepsNotices (s : State) : OutcomeKeepsNotices s (execBurstSent s) := by
  unfold execBurstSent
  split
  · have counted := (State.takeReference_keepsNotices s s.own).andThen (State.bump_keeps _ .burstsSent)
    exact (counted.trans (.setLc ..)).trans (State.reportSent_keepsNotices ..)
  · exact .refl s

theorem execJamEnd_keepsNotices (carrierRemains : Bool) (s : State) :
    OutcomeKeepsNotices s (execJamEnd carrierRemains s) := by
  unfold execJamEnd
  split
  · split
    · exact .setLc ..
    · exact State.takeReference_keepsNotices ..
  · exact .refl s

theorem execQuietLimitExpiry_keepsNotices (s : State) : OutcomeKeepsNotices s (execQuietLimitExpiry s) := by
  unfold execQuietLimitExpiry
  split
  · split
    · exact .refl s
    · split
      · exact State.takeReference_keepsNotices ..
      · exact .setLc ..
  · exact .refl s

/-! ## The timers -/

theorem execReportTimerExpiry_keepsNotices (s : State) : OutcomeKeepsNotices s (execReportTimerExpiry s) := by
  unfold execReportTimerExpiry
  split
  · exact .setHu ..
  · exact .refl s

theorem execSpacingTimerExpiry_keepsNotices (s : State) : OutcomeKeepsNotices s (execSpacingTimerExpiry s) :=
  KeepsNotices.setHu s _

theorem execSilenceTimerExpiry_keepsNotices (peer : Nat) (s : State) :
    OutcomeKeepsNotices s (execSilenceTimerExpiry peer s) :=
  (State.fallsSilent_keepsNotices s peer).andThen (State.settleRepair_keeps _)

theorem execSlotTimerExpiry_keepsNotices (slot : Nat) (s : State) : OutcomeKeepsNotices s (execSlotTimerExpiry slot s) :=
  ((State.slotExpires_keeps s slot).trans (State.settleRepair_keeps _)).notices

theorem execFlushTimerExpiry_keepsNotices (s : State) : OutcomeKeepsNotices s (execFlushTimerExpiry s) := by
  unfold execFlushTimerExpiry
  split
  · exact (((State.closeFill_keeps s).trans (State.claimIfNeeded_keeps _)).trans (State.settleAll_keeps _)).notices
  · exact .refl s

theorem execAskTimerExpiry_keepsNotices (place : Nat) (s : State) : OutcomeKeepsNotices s (execAskTimerExpiry place s) :=
  ((State.askExpires_keeps s place).trans (State.settleRepair_keeps _)).notices

theorem execListenIntervalEnd_keepsNotices (s : State) : OutcomeKeepsNotices s (execListenIntervalEnd s) := by
  unfold execListenIntervalEnd
  split
  · have active : KeepsNotices s s.becomeActive := .of_eq rfl rfl
    exact active.andThen (State.settleRepair_keeps _)
  · exact .refl s

/-! ## The array outside the scan -/

namespace State

theorem fcMarkDone_keepsNotices (s : State) (b : Nat) (value : Byte) (o : FlashOutcome) :
    KeepsNotices s (s.fcMarkDone b value o) := by
  cases o with
  | pass => exact .setFc ..
  | fail => exact (KeepsNotices.setFc s _).andThen ((Keeps.drawn _).trans (bump_keeps ..))

theorem fcEraseDone_keepsNotices (s : State) (b : Nat) (o : FlashOutcome) : KeepsNotices s (s.fcEraseDone b o) := by
  cases o with
  | pass => exact .setFc ..
  | fail => exact (KeepsNotices.setFc s _).andThen ((Keeps.drawn _).trans (bump_keeps ..))

theorem fcProgramFails_keepsNotices (s : State) : KeepsNotices s s.fcProgramFails :=
  (KeepsNotices.setFc s _).andThen (bump_keeps ..)

theorem fcProgramTears_keepsNotices (s : State) (c : ProgramClaim) : KeepsNotices s (s.fcProgramTears c) :=
  ((KeepsNotices.setFc s _).andThen (Keeps.drawn _)).trans (fcProgramFails_keepsNotices _)

theorem lookupGoesOn_keeps (s : State) (who : Requester) (use : Lookup → State → State)
    (h : ∀ l, Keeps s (use l s)) : Keeps s (s.lookupGoesOn who use) := by
  unfold lookupGoesOn
  split
  · exact Keeps.refl s
  · split
    · exact choose_keeps ..
    · exact h _
    · exact Keeps.refl s

theorem lookupSpareReadEnds_keepsNotices (s : State) (who : Requester) (p : PageAddr) :
    KeepsNotices s (s.lookupSpareReadEnds who p) :=
  (KeepsNotices.setFc s _).andThen ((completion_keeps _ _ fun t =>
    lookupGoesOn_keeps t who _ fun l => lookupSpare_keeps t who l p _).trans (settleRepair_keeps _))

theorem lookupPageReadEnds_keepsNotices (s : State) (who : Requester) (p : PageAddr) :
    KeepsNotices s (s.lookupPageReadEnds who p) :=
  (KeepsNotices.setFc s _).andThen ((completion_keeps _ _ fun t =>
    lookupGoesOn_keeps t who _ fun l => lookupPage_keeps t who l p _ _).trans (settleRepair_keeps _))

theorem completion_programFailed_keeps (s : State) (p : PageAddr) :
    Keeps s (s.completion fun t => t.programFailed p).settleRepair :=
  (completion_keeps s _ fun t => programFailed_keeps t p).trans (settleRepair_keeps _)

theorem transferEnds_keepsNotices (s : State) (c : ProgramClaim) : KeepsNotices s (s.transferEnds c) := by
  have transferred : KeepsNotices s s.fcTransferred := .setFc ..
  unfold transferEnds
  split
  · exact (transferred.trans (fcProgramFails_keepsNotices _)).andThen (completion_programFailed_keeps ..)
  · exact (transferred.trans (.setFc ..)).andThen ((runCommit_keeps _).trans (settleAll_keeps _))

theorem programEndsPass_keepsNotices (s : State) (c : ProgramClaim) : KeepsNotices s (s.programEndsPass c) :=
  (KeepsNotices.setFc s _).andThen ((completion_keeps _ _ fun t =>
    ((programPassed_keeps t _ _).trans (runCommit_keeps _)).trans (evaluateReclaim_keeps _)).trans (settleRepair_keeps _))

theorem programEndsFail_keepsNotices (s : State) (c : ProgramClaim) : KeepsNotices s (s.programEndsFail c) :=
  (fcProgramTears_keepsNotices s c).andThen (completion_programFailed_keeps ..)

theorem eraseOutcome_keeps (s : State) (b : Nat) (o : FlashOutcome) : Keeps s (s.eraseOutcome b o) := by
  cases o with
  | pass => exact ((eraseApplied_keeps s b).trans (runCommit_keeps _)).trans (evaluateReclaim_keeps _)
  | fail => exact (eraseRefused_keeps s b).trans (evaluateReclaim_keeps _)

end State

theorem execLookupSpareReadDone_keepsNotices (s : State) : OutcomeKeepsNotices s (execLookupSpareReadDone s) := by
  unfold execLookupSpareReadDone
  split
  · split
    · exact State.lookupSpareReadEnds_keepsNotices ..
    · trivial
  · exact .refl s

theorem execLookupPageReadDone_keepsNotices (s : State) : OutcomeKeepsNotices s (execLookupPageReadDone s) := by
  unfold execLookupPageReadDone
  split
  · split
    · exact State.lookupPageReadEnds_keepsNotices ..
    · trivial
  · exact .refl s

theorem execTransferEnd_keepsNotices (s : State) : OutcomeKeepsNotices s (execTransferEnd s) := by
  unfold execTransferEnd
  split
  · split
    · exact State.transferEnds_keepsNotices ..
    · trivial
  · exact .refl s

theorem execProgramDone_keepsNotices (o : FlashOutcome) (s : State) : OutcomeKeepsNotices s (execProgramDone o s) := by
  unfold execProgramDone
  split
  · split
    · cases o with
      | pass => exact State.programEndsPass_keepsNotices ..
      | fail => exact State.programEndsFail_keepsNotices ..
    · trivial
  · exact .refl s

theorem execMarkProgramDone_keepsNotices (o : FlashOutcome) (s : State) :
    OutcomeKeepsNotices s (execMarkProgramDone o s) := by
  unfold execMarkProgramDone
  split
  · split
    · exact (State.fcMarkDone_keepsNotices ..).andThen ((State.grant_keeps _).trans (State.settleRepair_keeps _))
    · trivial
  · exact .refl s

theorem execEraseDone_keepsNotices (o : FlashOutcome) (s : State) : OutcomeKeepsNotices s (execEraseDone o s) := by
  unfold execEraseDone
  split
  · split
    · exact (State.fcEraseDone_keepsNotices ..).andThen
        ((State.completion_keeps _ _ fun t => State.eraseOutcome_keeps t _ o).trans (State.settleRepair_keeps _))
    · trivial
  · exact .refl s

/-! ## The store scan -/

namespace State

theorem scanIssue_keepsNotices (s : State) (scan : Scan) (op : Op) : KeepsNotices s (s.scanIssue scan op) := .of_eq rfl rfl

theorem scanSpare_keepsNotices (s : State) (scan : Scan) (mode : ScanMode) (page : Nat) :
    KeepsNotices s (s.scanSpare scan mode page) := scanIssue_keepsNotices ..

theorem scanPage_keepsNotices (s : State) (scan : Scan) (mode : ScanMode) (spare : List Byte) :
    KeepsNotices s (s.scanPage scan mode spare) := scanIssue_keepsNotices ..

theorem scanErase_keepsNotices (s : State) (scan : Scan) : KeepsNotices s (s.scanErase scan) :=
  (scanIssue_keepsNotices ..).trans (.setFc ..)

theorem rebuildHoldings_keepsNotices (s : State) (scan : Scan) : KeepsNotices s (s.rebuildHoldings scan) :=
  (KeepsNotices.setHu s _).andThen (orphans_keeps ..)

theorem afterScan_keepsNotices (s : State) : KeepsNotices s s.afterScan := .of_eq rfl rfl

theorem scanEnds_keepsNotices (s : State) (scan : Scan) : KeepsNotices s (s.scanEnds scan) := by
  have rebuilt : KeepsNotices s
      ((s.setSm { s.sm.rebuilt scan.classes.reverse.zipIdx with reclaimDue := true }).rebuildHoldings scan) :=
    (KeepsNotices.setSm s _).trans (rebuildHoldings_keepsNotices ..)
  exact (rebuilt.trans (afterScan_keepsNotices _)).andThen ((setPressure_keeps _).trans (settleAll_keeps _))

theorem scanBlockDone_keepsNotices (s : State) (scan : Scan) (c : ScanClass) : KeepsNotices s (s.scanBlockDone scan c) := by
  unfold scanBlockDone
  simp only
  split
  · exact scanSpare_keepsNotices ..
  · exact scanEnds_keepsNotices ..

theorem scanSpareRead_keepsNotices (s : State) (scan : Scan) (mode : ScanMode) (spare : List Byte) :
    KeepsNotices s (s.scanSpareRead scan mode spare) := by
  cases mode with
  | first =>
    unfold scanSpareRead
    simp only
    split
    · exact scanBlockDone_keepsNotices ..
    · split
      · exact scanBlockDone_keepsNotices ..
      · split
        · exact scanPage_keepsNotices ..
        · exact scanErase_keepsNotices ..
  | freeTest =>
    unfold scanSpareRead
    simp only
    split
    · exact scanPage_keepsNotices ..
    · exact scanErase_keepsNotices ..
  | walk =>
    unfold scanSpareRead
    simp only
    split
    · exact scanPage_keepsNotices ..
    · exact scanBlockDone_keepsNotices ..

theorem scanNextFree_keepsNotices (s : State) (scan : Scan) : KeepsNotices s (s.scanNextFree scan) := by
  unfold scanNextFree
  split
  · exact scanBlockDone_keepsNotices ..
  · exact scanSpare_keepsNotices ..

theorem scanNextWalk_keepsNotices (s : State) (scan : Scan) : KeepsNotices s (s.scanNextWalk scan) := by
  unfold scanNextWalk
  split
  · exact scanBlockDone_keepsNotices ..
  · exact scanSpare_keepsNotices ..

theorem scanPageRead_keepsNotices (s : State) (scan : Scan) (mode : ScanMode) (spare data : List Byte) :
    KeepsNotices s (s.scanPageRead scan mode spare data) := by
  cases mode with
  | first =>
    unfold scanPageRead
    simp only
    split
    · exact scanNextFree_keepsNotices ..
    · split
      · exact scanNextWalk_keepsNotices ..
      · exact scanErase_keepsNotices ..
  | freeTest =>
    unfold scanPageRead
    simp only
    split
    · exact scanNextFree_keepsNotices ..
    · exact scanErase_keepsNotices ..
  | walk =>
    unfold scanPageRead
    simp only
    split
    · exact scanBlockDone_keepsNotices ..
    · split
      · exact scanNextWalk_keepsNotices ..
      · exact scanBlockDone_keepsNotices ..

theorem scanErased_keepsNotices (s : State) (scan : Scan) (o : FlashOutcome) : KeepsNotices s (s.scanErased scan o) := by
  cases o with
  | pass => exact scanBlockDone_keepsNotices ..
  | fail =>
    unfold scanErased
    simp only
    split
    · exact (bump_keeps ..).notices.trans (scanBlockDone_keepsNotices ..)
    · exact (KeepsNotices.setFc s _).trans (scanIssue_keepsNotices ..)

end State

theorem execScanSpareReadDone_keepsNotices (s : State) : OutcomeKeepsNotices s (execScanSpareReadDone s) := by
  unfold execScanSpareReadDone
  split
  · split
    · split
      · exact (KeepsNotices.setFc s _).trans (State.scanSpareRead_keepsNotices ..)
      · trivial
    · exact .refl s
  · exact .refl s

theorem execScanPageReadDone_keepsNotices (s : State) : OutcomeKeepsNotices s (execScanPageReadDone s) := by
  unfold execScanPageReadDone
  split
  · split
    · split
      · exact (KeepsNotices.setFc s _).trans (State.scanPageRead_keepsNotices ..)
      · trivial
    · exact .refl s
  · exact .refl s

theorem execScanEraseDone_keepsNotices (o : FlashOutcome) (s : State) :
    OutcomeKeepsNotices s (execScanEraseDone o s) := by
  unfold execScanEraseDone
  split
  · split
    · exact (State.fcEraseDone_keepsNotices ..).trans (State.scanErased_keepsNotices ..)
    · trivial
  · exact .refl s

theorem execScanMarkDone_keepsNotices (o : FlashOutcome) (s : State) : OutcomeKeepsNotices s (execScanMarkDone o s) := by
  unfold execScanMarkDone
  split
  · split
    · exact (State.fcMarkDone_keepsNotices ..).trans (State.scanBlockDone_keepsNotices ..)
    · trivial
  · exact .refl s

/-! ## Reset and CONFIGURE -/

namespace State

/-- R188: a reset empties the queue and deasserts ATTN. -/
theorem beginReset_keepsNotices (s : State) (kind : ResetKind) : KeepsNotices s (s.beginReset kind) :=
  ⟨fun _ => rfl, fun _ => Nat.zero_le _⟩

theorem release_keepsNotices (s : State) (kind : ResetKind) (n : Nat) : KeepsNotices s (s.release kind n) := by
  unfold release
  simp only
  split
  · exact .of_eq rfl rfl
  · exact .of_eq rfl rfl

theorem answer_keepsNotices (s : State) (owed : Bool) (st : Status) (data : List Byte) :
    KeepsNotices s (s.answer owed st data) := by
  rw [answer_eq]
  exact .setAp ..

/-- R195: the acceptance of a CONFIGURE gives the notice threshold a value, so ATTN is set anew under it with the queue as it is. -/
theorem accept_keepsNotices (s : State) (c : Settings) (carrier : Bool) : KeepsNotices s (s.accept c carrier) := by
  unfold accept
  simp only
  refine KeepsNotices.andThen ?configured ((evaluateDurable_keeps _).trans (settleAll_keeps _))
  case configured => exact ⟨fun _ => Nu.setAttn_attn s.nu c.noticeThreshold, id⟩

end State

theorem execResetRelease_keepsNotices (straps : BitVec 5) (s : State) :
    OutcomeKeepsNotices s (execResetRelease straps s) := by
  unfold execResetRelease
  split
  · exact State.release_keepsNotices ..
  · exact .refl s

theorem execConfigureTaken_keepsNotices (carrier : Bool) (s : State) :
    OutcomeKeepsNotices s (execConfigureTaken carrier s) := by
  unfold execConfigureTaken
  split
  · exact .refl s
  · have taken := KeepsNotices.setAp s
    simp only
    split
    · split
      · exact ((taken _).trans (State.accept_keepsNotices ..)).trans (State.answer_keepsNotices ..)
      · exact (taken _).trans (State.answer_keepsNotices ..)
    · exact (taken _).trans (State.answer_keepsNotices ..)

/-! ## The attach port -/

namespace State

theorem respond_keepsNotices (s : State) (st : Status) (data : List Byte) : KeepsNotices s (s.respond st data) :=
  answer_keepsNotices ..

/-- R198: of the frames only one that its owner takes reaches more than the attach port. -/
theorem takeFrame_keepsNotices (s : State) (rest : List Byte) (fits : List Byte → Bool)
    (refused : StationState → Option Status) {owner : List Byte → State → State}
    (h : ∀ params t, KeepsNotices t (owner params t)) : KeepsNotices s (s.takeFrame rest fits refused owner) := by
  have taken : KeepsNotices s (s.frameTaken rest) := .setAp ..
  unfold takeFrame
  simp only
  split
  · exact .refl s
  · split
    · exact taken.trans (respond_keepsNotices ..)
    · split
      · exact taken.trans (respond_keepsNotices ..)
      · exact taken.trans (h ..)

theorem takeCounters_keepsNotices (s : State) (clear : Bool) : KeepsNotices s (s.takeCounters clear) := by
  unfold takeCounters
  simp only
  split
  · exact (respond_keepsNotices ..).trans (.setAp ..)
  · exact respond_keepsNotices ..

theorem handSubmit_keepsNotices (s : State) (params : List Byte) : KeepsNotices s (s.handSubmit params) := by
  unfold handSubmit
  split
  · exact respond_keepsNotices ..
  · exact .setAp ..

theorem takeFetch_keepsNotices (s : State) (o n : Nat) : KeepsNotices s (s.takeFetch o n) := by
  unfold takeFetch
  split
  · exact respond_keepsNotices ..
  · split
    · exact respond_keepsNotices ..
    · split
      · exact ((KeepsNotices.setAp s _).andThen ((startLookup_keeps ..).trans (settleAll_keeps _))).trans
          (respond_keepsNotices ..)
      · exact respond_keepsNotices ..

theorem takeFetchResult_keepsNotices (s : State) : KeepsNotices s s.takeFetchResult := by
  unfold takeFetchResult
  split
  · exact respond_keepsNotices ..
  · exact respond_keepsNotices ..
  · exact (respond_keepsNotices ..).trans (.setAp ..)

theorem takeNotices_keepsNotices (s : State) (m : Nat) : KeepsNotices s (s.takeNotices m) := by
  have drained : Keeps s (s.setNu (s.nu.drain s.noticeThreshold s.noticeDelay m)) :=
    Keeps.setNu s (fun _ => Nu.setAttn_attn ..) fun w => Nat.le_trans (Nu.drain_length_le ..) w
  exact drained.notices.trans (respond_keepsNotices ..)

end State

theorem execResponseRead_keepsNotices (clocks : Nat) (s : State) : OutcomeKeepsNotices s (execResponseRead clocks s) := by
  unfold execResponseRead
  split
  · exact .refl s
  · refine KeepsNotices.trans (t := if s.ap.slot.reading.armsReset then s.beginReset .command else s) ?_ (.setAp ..)
    split
    · exact State.beginReset_keepsNotices ..
    · exact .refl s

theorem execSubmitTaken_keepsNotices (s : State) : OutcomeKeepsNotices s (execSubmitTaken s) := by
  unfold execSubmitTaken
  split
  · exact .refl s
  · have taken := KeepsNotices.setAp s
    simp only
    split
    · exact (taken _).trans (State.answer_keepsNotices ..)
    · exact ((taken _).andThen (State.acceptSubmit_keeps ..)).trans (State.answer_keepsNotices ..)
    · exact (taken _).trans (State.answer_keepsNotices ..)

theorem execHoldings_keepsNotices (rest : List Byte) (s : State) : OutcomeKeepsNotices s (execHoldings rest s) :=
  State.takeFrame_keepsNotices s rest _ _ fun params t => by
    split
    · exact State.respond_keepsNotices ..
    · exact State.respond_keepsNotices ..

theorem execUnknownCommand_keepsNotices (id : Byte) (rest : List Byte) (s : State) :
    OutcomeKeepsNotices s (execUnknownCommand id rest s) := by
  unfold execUnknownCommand
  split
  · exact .refl s
  · split
    · exact .refl s
    · exact (KeepsNotices.setAp s _).trans (State.respond_keepsNotices ..)

/-! ## Every command, and a step -/

theorem exec_keepsNotices (c : Instr) (s : State) : OutcomeKeepsNotices s (exec c s) := by
  cases c with
  | powerOnReset => exact State.beginReset_keepsNotices s _
  | pinReset => exact State.beginReset_keepsNotices s _
  | resetRelease straps => exact execResetRelease_keepsNotices straps s
  | scanSpareReadDone => exact execScanSpareReadDone_keepsNotices s
  | scanPageReadDone => exact execScanPageReadDone_keepsNotices s
  | scanEraseDone outcome => exact execScanEraseDone_keepsNotices outcome s
  | scanMarkDone outcome => exact execScanMarkDone_keepsNotices outcome s
  | lookupSpareReadDone => exact execLookupSpareReadDone_keepsNotices s
  | lookupPageReadDone => exact execLookupPageReadDone_keepsNotices s
  | transferEnd => exact execTransferEnd_keepsNotices s
  | programDone outcome => exact execProgramDone_keepsNotices outcome s
  | markProgramDone outcome => exact execMarkProgramDone_keepsNotices outcome s
  | eraseDone outcome => exact execEraseDone_keepsNotices outcome s
  | carrierBegin => exact execCarrierBegin_keepsNotices s
  | carrierEnd period => exact execCarrierEnd_keepsNotices period s
  | ownSlotStart => exact execOwnSlotStart_keepsNotices s
  | mismatchDetected => exact execMismatchDetected_keepsNotices s
  | burstSent => exact execBurstSent_keepsNotices s
  | jamEnd carrierRemains => exact execJamEnd_keepsNotices carrierRemains s
  | quietLimitExpiry => exact execQuietLimitExpiry_keepsNotices s
  | reportTimerExpiry => exact execReportTimerExpiry_keepsNotices s
  | spacingTimerExpiry => exact execSpacingTimerExpiry_keepsNotices s
  | silenceTimerExpiry peer => exact execSilenceTimerExpiry_keepsNotices peer s
  | slotTimerExpiry slot => exact execSlotTimerExpiry_keepsNotices slot s
  | flushTimerExpiry => exact execFlushTimerExpiry_keepsNotices s
  | askTimerExpiry place => exact execAskTimerExpiry_keepsNotices place s
  | noticeDelayTimerExpiry => exact execNoticeDelayTimerExpiry_keepsNotices s
  | listenIntervalEnd => exact execListenIntervalEnd_keepsNotices s
  | responseRead clocks => exact execResponseRead_keepsNotices clocks s
  | status rest => exact State.takeFrame_keepsNotices s rest _ _ fun _ t => t.respond_keepsNotices ..
  | configure rest => exact State.takeFrame_keepsNotices s rest _ _ fun _ t => .setAp t _
  | configureTaken carrier => exact execConfigureTaken_keepsNotices carrier s
  | submit rest => exact State.takeFrame_keepsNotices s rest _ _ fun params t => t.handSubmit_keepsNotices params
  | submitTaken => exact execSubmitTaken_keepsNotices s
  | fetch rest => exact State.takeFrame_keepsNotices s rest _ _ fun _ t => t.takeFetch_keepsNotices ..
  | fetchResult rest => exact State.takeFrame_keepsNotices s rest _ _ fun _ t => t.takeFetchResult_keepsNotices
  | holdings rest => exact execHoldings_keepsNotices rest s
  | notices rest => exact State.takeFrame_keepsNotices s rest _ _ fun _ t => t.takeNotices_keepsNotices _
  | counters rest => exact State.takeFrame_keepsNotices s rest _ _ fun _ t => t.takeCounters_keepsNotices _
  | restart rest => exact State.takeFrame_keepsNotices s rest _ _ fun _ t => .setAp t _
  | unknownCommand id rest => exact execUnknownCommand_keepsNotices id rest s

/-- The waiting commands do not enter the invariants, so taking the front one changes neither. -/
theorem step_keepsNotices {s t : State} (h : step s = .next t) : KeepsNotices s t := by
  unfold step at h
  split at h
  · cases h
    exact .refl s
  · rename_i c rest _
    have kept := exec_keepsNotices c { s with pending := rest }
    rw [h] at kept
    exact (KeepsNotices.of_eq rfl rfl : KeepsNotices s { s with pending := rest }).trans kept

end Sys2Proof.Machine

namespace Sys2Proof.Proofs

open Sys2Proof.Machine Sys2Proof.Safety

/-- Settles O52: the case analysis over the commands is `exec_keepsNotices`. -/
theorem attnAndTheNoticeQueueAreKept : Obligations.AttnAndTheNoticeQueueAreKept :=
  ⟨fun _ _ attnOk h => (step_keepsNotices h).attnOk attnOk, fun _ _ noticesOk h => (step_keepsNotices h).noticesOk noticesOk⟩

end Sys2Proof.Proofs

/-! What each command does, said once. A command either stays within moves of a running station (an operation of the blocks, a change
of the line controller or of the attach port, presence, a report), or is one of the few that reset, release, scan, complete a flash
operation, take a CONFIGURE, or move the station state. Every invariant is then a short case analysis over these. -/

namespace Sys2Proof.Machine

open Sys2Proof.Safety

/-- A preorder that holds of every operation of the blocks that a command of a running station calls. -/
structure Running (K : State → State → Prop) : Prop where
  refl : ∀ s, K s s
  trans : ∀ {s t u}, K s t → K t u → K s u
  bump : ∀ s c, K s (s.bump c)
  notify : ∀ s n, K s (s.notify n)
  tellRp : ∀ s, K s s.tellRp
  settleAll : ∀ s, K s s.settleAll
  settleRepair : ∀ s, K s s.settleRepair
  takeSegment : ∀ s body, K s (s.takeSegment body)
  takeAsk : ∀ s p o body, K s (s.takeAsk p o body)
  takeRefuse : ∀ s p o body, K s (s.takeRefuse p o body)
  chooseBurst : ∀ {s c}, s.chooseBurst = some c → K s c.2
  askSent : ∀ s o p, K s (s.askSent o p)
  slotExpires : ∀ s i, K s (s.slotExpires i)
  askExpires : ∀ s i, K s (s.askExpires i)
  flush : ∀ s, K s s.closeFill.claimIfNeeded
  acceptSubmit : ∀ s i payload length, s.submitRefusal length = none → firstPlace s.su.entries (· == .free) = some i →
    K s (s.acceptSubmit i payload)
  startLookup : ∀ s who o n, K s (s.startLookup who o n)
  reportTimers : ∀ s x, x = { s.hu with reportTimer := x.reportTimer, spacingTimer := x.spacingTimer, line2 := x.line2 } →
    K s (s.setHu x)
  release : ∀ s n, K s (s.setSu (s.su.release n))
  drain : ∀ s m, K s (s.setNu (s.nu.drain s.noticeThreshold s.noticeDelay m))
  delayExpired : ∀ s, K s (s.setNu (s.nu.delayExpired s.noticeThreshold))

/-- What a command of a running station is made of. -/
inductive Moves (K : State → State → Prop) : State → State → Prop
  | op {s t : State} : K s t → Moves K s t
  | line (s : State) (x : Lc) : Moves K s (s.setLc x)
  | port (s : State) (x : Ap) : Moves K s (s.setAp x)
  | presence (s : State) (p : Nat) (x : Presence) (timer : Bool) : Moves K s (s.setPresence p x timer)
  | report (s : State) (isHail : Bool) (p : Nat) (body : List Byte) : Moves K s (s.takeReport isHail p body)
  | trans {s t u : State} : Moves K s t → Moves K t u → Moves K s u

/-- The scan's working state `scan'` that `scan` leads to at the end of an operation: nothing joins the found sets, or the records of
a good page do. -/
def Scan.leadsTo (scan scan' : Scan) : Prop :=
  scan'.found = scan.found
    ∨ ∃ mode spare, scan.step = .page mode spare ∧ allErased spare = false ∧ scan'.found = (scan.takeGood spare).found

/-- The spare that goes with a page read of the scan has been read as erased or good. -/
def ScanStep.readable (step : ScanStep) : Prop :=
  ∀ mode spare, step = .page mode spare → (allErased spare || spareGood spare) = true

/-- What an operation of the scan leaves before the scan goes on: the array free, its content in canonical form, the read register
and the one-time flags, a counter and a draw. -/
structure ScanOpEnds (s u : State) : Prop where
  same : u = { s with fc := u.fc, ap := u.ap, fresh := u.fresh }
  port : u.ap = { s.ap with counters := u.ap.counters }
  fc : u.fc = { s.fc with mem := u.fc.mem, op := none, read := u.fc.read, markFlags := u.fc.markFlags }
  mem : s.fc.mem.wf = true → u.fc.mem.wf = true

/-- The scan goes on from `u` with its next operation. -/
structure ScanGoesOn (u t : State) (scan : Scan) (op : Op) : Prop where
  same : t = { u with sc := { u.sc with scan := some scan }, fc := t.fc }
  fc : t.fc = { u.fc with mem := t.fc.mem, op := some op, progFlags := t.fc.progFlags, markFlags := t.fc.markFlags }
  scans : scanOp op = true
  mem : u.fc.mem.wf = true → t.fc.mem.wf = true

/-- The commands that end an operation of the array that changes its content, begin a reset, or belong to the scan. -/
def changesArray : Instr → Prop
  | .powerOnReset | .pinReset | .responseRead _ | .scanSpareReadDone | .scanPageReadDone | .scanEraseDone _ | .scanMarkDone _
  | .programDone _ | .markProgramDone _ | .eraseDone _ => True
  | _ => False

/-- What a completion of the scan makes of `s`: nothing without its operation, the next operation, or the end of the scan. -/
inductive ScanEffect (s : State) (c : Instr) : State → Prop
  | idle : ScanEffect s c s
  | goesOn {u t : State} {scan scan' : Scan} {op : Op} : changesArray c → s.sc.scan = some scan →
      (∃ now, s.fc.op = some now ∧ scanOp now = true) → ScanOpEnds s u → scan.leadsTo scan' → scan'.step.readable →
      ScanGoesOn u t scan' op → ScanEffect s c t
  | ends {u : State} {scan scan' : Scan} : changesArray c → s.sc.scan = some scan →
      (∃ now, s.fc.op = some now ∧ scanOp now = true) → ScanOpEnds s u → scan.leadsTo scan' → ScanEffect s c (u.scanEnds scan')

/-- What command `c` makes of `s`. -/
inductive Effect (K : State → State → Prop) (s : State) : Instr → State → Prop
  | moves {c : Instr} {t : State} : Moves K s t → Effect K s c t
  | reset {c : Instr} (kind : ResetKind) (out : List Byte) : changesArray c →
      Effect K s c ((s.beginReset kind).setAp { Ap.reset with dataOut := out })
  | release (straps : BitVec 5) {kind : ResetKind} : s.sc.phase = .held kind →
      Effect K s (.resetRelease straps) (s.release kind straps.toNat)
  | scan {c : Instr} {t : State} : ScanEffect s c t → Effect K s c t
  | spareRead {who : Requester} {p : PageAddr} : s.fc.op = some (.lookupRead who .spare p) →
      Effect K s .lookupSpareReadDone (s.lookupSpareReadEnds who p)
  | pageRead {who : Requester} {p : PageAddr} : s.fc.op = some (.lookupRead who .page p) →
      Effect K s .lookupPageReadDone (s.lookupPageReadEnds who p)
  | transferEnd {c : ProgramClaim} : s.fc.op = some (.transfer c) → Effect K s .transferEnd (s.transferEnds c)
  | programPass {c : ProgramClaim} : s.fc.op = some (.program c) → Effect K s (.programDone .pass) (s.programEndsPass c)
  | programFail {c : ProgramClaim} : s.fc.op = some (.program c) → Effect K s (.programDone .fail) (s.programEndsFail c)
  | markDone {b : Nat} {v : Byte} {o : FlashOutcome} : s.fc.op = some (.mark b v) →
      Effect K s (.markProgramDone o) ((s.fcMarkDone b v o).grant).settleRepair
  | eraseDone {b : Nat} {o : FlashOutcome} : s.fc.op = some (.erase b) →
      Effect K s (.eraseDone o) ((s.fcEraseDone b o).completion fun t => t.eraseOutcome b o).settleRepair
  | hailSent {u : State} : s.lc.state = .sending → Moves K s u →
      Effect K s .burstSent (u.setSc { u.sc with listening := true })
  | listenEnd : s.station = some .joining → Effect K s .listenIntervalEnd s.becomeActive.settleRepair
  | configured {carrier : Bool} {c : Settings} {x : Ap} {t : State} : s.ap.configures ≠ [] → s.station = some .awaitConfig →
      c.inRange s.own = true → Moves K ((s.setAp x).accept c carrier) t → Effect K s (.configureTaken carrier) t

/-- The next state of `r`, if it has one, satisfies `P`. -/
def OutcomeSat (P : State → Prop) : Host.Outcome State Fault Refusal → Prop
  | .next t => P t
  | .fault _ => True
  | .refused _ => True

theorem OutcomeSat.imp {P Q : State → Prop} {r : Host.Outcome State Fault Refusal} (h : OutcomeSat P r) (k : ∀ t, P t → Q t) :
    OutcomeSat Q r := by
  cases r with
  | next t => exact k t h
  | fault _ => trivial
  | refused _ => trivial

theorem OutcomeSat.next {P : State → Prop} {r : Host.Outcome State Fault Refusal} {t : State} (h : OutcomeSat P r)
    (e : r = .next t) : P t := by
  rw [e] at h
  exact h

namespace Scan

theorem leadsTo_same {scan scan' : Scan} (h : scan'.found = scan.found) : scan.leadsTo scan' := .inl h

end Scan

theorem ScanStep.readable_spare (mode : ScanMode) : (ScanStep.spare mode).readable := fun _ _ e => by cases e
theorem ScanStep.readable_erase : ScanStep.erase.readable := fun _ _ e => by cases e
theorem ScanStep.readable_mark : ScanStep.mark.readable := fun _ _ e => by cases e

theorem ScanStep.readable_page (mode : ScanMode) {spare : List Byte} (h : (allErased spare || spareGood spare) = true) :
    (ScanStep.page mode spare).readable := fun _ _ e => by cases e; exact h

namespace State

/-! ## The operations of the scan end, and it goes on -/

theorem setFc_scanOpEnds (s : State) {mem : Memory} (read : ReadReg) (h : s.fc.mem.wf = true → mem.wf = true) :
    ScanOpEnds s (s.setFc { s.fc with mem := mem, op := none, read := read }) := ⟨rfl, rfl, rfl, h⟩

theorem fcSpareRead_scanOpEnds (s : State) (p : PageAddr) : ScanOpEnds s (s.fcSpareRead p) := setFc_scanOpEnds s _ id
theorem fcPageRead_scanOpEnds (s : State) (p : PageAddr) : ScanOpEnds s (s.fcPageRead p) := setFc_scanOpEnds s _ id

end State

/-- A counter joins what the end of an operation of the scan leaves. -/
theorem ScanOpEnds.bump {s u : State} (h : ScanOpEnds s u) (k : Counter) : ScanOpEnds s (u.bump k) where
  same := by
    conv => lhs; rw [State.bump, State.raise, State.setAp, h.same]
    rfl
  port := by
    conv => lhs; rw [State.bump, State.raise, State.setAp_ap, h.port]
    rfl
  fc := h.fc
  mem := h.mem

theorem ScanOpEnds.drawn {s u : State} (h : ScanOpEnds s u) : ScanOpEnds s u.drawn where
  same := by
    conv => lhs; rw [State.drawn, h.same]
    rfl
  port := h.port
  fc := h.fc
  mem := h.mem

namespace State

theorem fcEraseDone_scanOpEnds (s : State) (b : Nat) (o : FlashOutcome) : ScanOpEnds s (s.fcEraseDone b o) := by
  cases o with
  | pass => exact setFc_scanOpEnds s _ fun w => Memory.wf_erasePages w ..
  | fail => exact ((setFc_scanOpEnds s _ fun w => Memory.wf_scramblePages (Memory.wf_erasePages w ..) ..).drawn).bump _

theorem fcMarkDone_scanOpEnds (s : State) (b : Nat) (v : Byte) (o : FlashOutcome) : ScanOpEnds s (s.fcMarkDone b v o) := by
  cases o with
  | pass => exact setFc_scanOpEnds s _ fun w => Memory.wf_markBlock w ..
  | fail => exact ((setFc_scanOpEnds s _ fun w => Memory.wf_markFails w ..).drawn).bump _

theorem scanSpare_goesOn (s : State) (scan : Scan) (mode : ScanMode) (page : Nat) :
    ScanGoesOn s (s.scanSpare scan mode page) { scan with page := page, step := .spare mode }
      (.scanSpareRead { block := scan.block, page := page }) := ⟨rfl, rfl, rfl, id⟩

theorem scanPage_goesOn (s : State) (scan : Scan) (mode : ScanMode) (spare : List Byte) :
    ScanGoesOn s (s.scanPage scan mode spare) { scan with step := .page mode spare }
      (.scanPageRead { block := scan.block, page := scan.page }) := ⟨rfl, rfl, rfl, id⟩

theorem scanErase_goesOn (s : State) (scan : Scan) :
    ScanGoesOn s (s.scanErase scan) { scan with step := .erase } (.scanErase scan.block) :=
  ⟨rfl, rfl, rfl, fun w => Memory.wf_erasePages w ..⟩

section
variable {c : Instr} {s u : State} {scan : Scan}

/-- The scan of `s` has ended an operation and stands at `u`. -/
structure ScanStands (c : Instr) (s u : State) (scan : Scan) : Prop where
  changes : changesArray c
  scanning : s.sc.scan = some scan
  op : ∃ now, s.fc.op = some now ∧ scanOp now = true
  ends : ScanOpEnds s u

theorem ScanStands.goesOn (h : ScanStands c s u scan) {scan' : Scan} {t : State} {op : Op} (lead : scan.leadsTo scan')
    (read : scan'.step.readable) (go : ScanGoesOn u t scan' op) : ScanEffect s c t :=
  ScanEffect.goesOn h.changes h.scanning h.op h.ends lead read go

theorem ScanStands.spare (h : ScanStands c s u scan) {scan' : Scan} (lead : scan.leadsTo scan') (mode : ScanMode) (page : Nat) :
    ScanEffect s c (u.scanSpare scan' mode page) :=
  h.goesOn (scan' := { scan' with page := page, step := .spare mode }) lead (ScanStep.readable_spare mode) (scanSpare_goesOn ..)

theorem ScanStands.erase (h : ScanStands c s u scan) : ScanEffect s c (u.scanErase scan) :=
  h.goesOn (scan' := { scan with step := .erase }) (.inl rfl) ScanStep.readable_erase (scanErase_goesOn ..)

theorem ScanStands.page (h : ScanStands c s u scan) (mode : ScanMode) {spare : List Byte}
    (read : (allErased spare || spareGood spare) = true) : ScanEffect s c (u.scanPage scan mode spare) :=
  h.goesOn (scan' := { scan with step := .page mode spare }) (.inl rfl) (ScanStep.readable_page mode read) (scanPage_goesOn ..)

theorem ScanStands.blockDone (h : ScanStands c s u scan) {scan' : Scan} (lead : scan.leadsTo scan') (k : ScanClass) :
    ScanEffect s c (u.scanBlockDone scan' k) := by
  unfold scanBlockDone
  simp only
  split
  · exact h.spare (scan' := { scan' with classes := k :: scan'.classes, block := scan'.block + 1, stamp := 0, summary := [] })
      lead .first 0
  · exact .ends h.changes h.scanning h.op h.ends lead

theorem ScanStands.spareRead (h : ScanStands c s u scan) (mode : ScanMode) (spare : List Byte) :
    ScanEffect s c (u.scanSpareRead scan mode spare) := by
  cases mode with
  | first =>
    unfold scanSpareRead
    simp only
    split
    · exact h.blockDone (.inl rfl) _
    · split
      · exact h.blockDone (.inl rfl) _
      · split
        · exact h.page .first ‹_›
        · exact h.erase
  | freeTest =>
    unfold scanSpareRead
    simp only
    split
    · exact h.page .freeTest (by rw [‹allErased spare = true›, Bool.true_or])
    · exact h.erase
  | walk =>
    unfold scanSpareRead
    simp only
    split
    · rename_i judged
      refine h.page .walk ?_
      rw [Bool.or_eq_true] at judged ⊢
      exact judged.imp id fun good => (Bool.and_eq_true_iff.mp good).1
    · exact h.blockDone (.inl rfl) _

theorem ScanStands.nextFree (h : ScanStands c s u scan) : ScanEffect s c (u.scanNextFree scan) := by
  unfold scanNextFree
  split
  · exact h.blockDone (.inl rfl) _
  · exact h.spare (.inl rfl) ..

theorem ScanStands.nextWalk (h : ScanStands c s u scan) {scan' : Scan} (lead : scan.leadsTo scan') :
    ScanEffect s c (u.scanNextWalk scan') := by
  unfold scanNextWalk
  split
  · exact h.blockDone lead _
  · exact h.spare lead ..

theorem ScanStands.pageRead (h : ScanStands c s u scan) {mode : ScanMode} {spare : List Byte}
    (step : scan.step = .page mode spare) (data : List Byte) : ScanEffect s c (u.scanPageRead scan mode spare data) := by
  have good (hg : (!allErased spare && crc32 data == sparePageCheck spare) = true) (stamp : Nat) :
      scan.leadsTo { scan.takeGood spare with stamp := stamp } := by
    rw [Bool.and_eq_true, Bool.not_eq_true'] at hg
    exact .inr ⟨mode, spare, step, hg.1, rfl⟩
  cases mode with
  | first =>
    unfold scanPageRead
    simp only
    split
    · exact h.nextFree
    · split
      · exact h.nextWalk (good ‹_› _)
      · exact h.erase
  | freeTest =>
    unfold scanPageRead
    simp only
    split
    · exact h.nextFree
    · exact h.erase
  | walk =>
    unfold scanPageRead
    simp only
    split
    · exact h.blockDone (.inl rfl) _
    · split
      · exact h.nextWalk (good ‹_› (scan.takeGood spare).stamp)
      · exact h.blockDone (.inl rfl) _

end

end State

/-- R5, R45: after the erase has failed the scan's own mark flag is set, or the block is given up. -/
theorem State.ScanStands.erased {c : Instr} {s u : State} {scan : Scan}
    (h : State.ScanStands c s u scan) (o : FlashOutcome) : ScanEffect s c (u.scanErased scan o) := by
  cases o with
  | pass => exact h.blockDone (.inl rfl) _
  | fail =>
    unfold State.scanErased
    simp only
    split
    · exact State.ScanStands.blockDone ⟨h.changes, h.scanning, h.op, h.ends.bump _⟩ (.inl rfl) _
    · exact h.goesOn (.inl rfl) ScanStep.readable_mark
        (scan' := { scan with step := .mark }) (op := .scanMark scan.block 0x3C#8) ⟨rfl, rfl, rfl, id⟩

section
variable {K : State → State → Prop}

theorem Effect.idle (run : Running K) (c : Instr) (s : State) : Effect K s c s := .moves (.op (run.refl s))

/-! ## The scan -/

theorem execScanSpareReadDone_effect (s : State) :
    OutcomeSat (ScanEffect s .scanSpareReadDone)  (execScanSpareReadDone s) := by
  unfold execScanSpareReadDone
  split
  · rename_i p scan op scanning
    split
    · split
      · exact State.ScanStands.spareRead (c := .scanSpareReadDone) ⟨trivial, scanning, ⟨_, op, rfl⟩, s.fcSpareRead_scanOpEnds p⟩ ..
      · trivial
    · exact .idle
  · exact .idle

theorem execScanPageReadDone_effect (s : State) :
    OutcomeSat (ScanEffect s .scanPageReadDone)  (execScanPageReadDone s) := by
  unfold execScanPageReadDone
  split
  · rename_i p scan op scanning
    split
    · rename_i mode spare step
      split
      · exact State.ScanStands.pageRead (c := .scanPageReadDone) ⟨trivial, scanning, ⟨_, op, rfl⟩, s.fcPageRead_scanOpEnds p⟩ step _
      · trivial
    · exact .idle
  · exact .idle

theorem execScanEraseDone_effect (o : FlashOutcome) (s : State) :
    OutcomeSat (ScanEffect s (.scanEraseDone o))  (execScanEraseDone o s) := by
  unfold execScanEraseDone
  split
  · rename_i b scan op scanning
    split
    · exact State.ScanStands.erased (c := .scanEraseDone o) ⟨trivial, scanning, ⟨_, op, rfl⟩, s.fcEraseDone_scanOpEnds b o⟩ o
    · trivial
  · exact .idle

theorem execScanMarkDone_effect (o : FlashOutcome) (s : State) :
    OutcomeSat (ScanEffect s (.scanMarkDone o))  (execScanMarkDone o s) := by
  unfold execScanMarkDone
  split
  · rename_i b v scan op scanning
    split
    · exact State.ScanStands.blockDone (c := .scanMarkDone o) ⟨trivial, scanning, ⟨_, op, rfl⟩, s.fcMarkDone_scanOpEnds b v o⟩ (.inl rfl) _
    · trivial
  · exact .idle

/-! ## The array outside the scan -/

theorem execLookupSpareReadDone_effect (run : Running K) (s : State) :
    OutcomeSat (Effect K s .lookupSpareReadDone)  (execLookupSpareReadDone s) := by
  unfold execLookupSpareReadDone
  split
  · split
    · exact .spareRead ‹_›
    · trivial
  · exact .idle run _ s

theorem execLookupPageReadDone_effect (run : Running K) (s : State) :
    OutcomeSat (Effect K s .lookupPageReadDone)  (execLookupPageReadDone s) := by
  unfold execLookupPageReadDone
  split
  · split
    · exact .pageRead ‹_›
    · trivial
  · exact .idle run _ s

theorem execTransferEnd_effect (run : Running K) (s : State) : OutcomeSat (Effect K s .transferEnd)  (execTransferEnd s) := by
  unfold execTransferEnd
  split
  · split
    · exact .transferEnd ‹_›
    · trivial
  · exact .idle run _ s

theorem execProgramDone_effect (run : Running K) (o : FlashOutcome) (s : State) :
    OutcomeSat (Effect K s (.programDone o))  (execProgramDone o s) := by
  unfold execProgramDone
  split
  · split
    · cases o with
      | pass => exact .programPass ‹_›
      | fail => exact .programFail ‹_›
    · trivial
  · exact .idle run _ s

theorem execMarkProgramDone_effect (run : Running K) (o : FlashOutcome) (s : State) :
    OutcomeSat (Effect K s (.markProgramDone o))  (execMarkProgramDone o s) := by
  unfold execMarkProgramDone
  split
  · split
    · exact .markDone ‹_›
    · trivial
  · exact .idle run _ s

theorem execEraseDone_effect (run : Running K) (o : FlashOutcome) (s : State) :
    OutcomeSat (Effect K s (.eraseDone o))  (execEraseDone o s) := by
  unfold execEraseDone
  split
  · split
    · exact .eraseDone ‹_›
    · trivial
  · exact .idle run _ s

/-! ## The line -/

theorem State.heard_moves (run : Running K) (s : State) (p : Nat) : Moves K s (s.heard p) := by
  unfold State.heard
  simp only
  split
  · exact .presence ..
  · exact (Moves.presence ..).trans (.op (run.trans (run.notify ..) (run.tellRp _)))

theorem State.handOn_moves (run : Running K) (s : State) (b : Burst) : Moves K s (s.handOn b) := by
  have heard : Moves K s ((s.bump .goodBursts).heard b.sender) := (Moves.op (run.bump ..)).trans (State.heard_moves run ..)
  unfold State.handOn
  simp only
  split
  case h_1 => exact (heard.trans (.report ..)).trans (.op (run.settleAll _))
  case h_2 => exact (heard.trans (.report ..)).trans (.op (run.settleAll _))
  case h_3 => exact heard.trans (.op (run.takeSegment ..))
  case h_4 => exact heard.trans (.op (run.trans (run.takeAsk ..) (run.settleAll _)))
  case h_5 => exact heard.trans (.op (run.trans (run.takeRefuse ..) (run.settleAll _)))

theorem State.endPeriod_moves (run : Running K) (s : State) (late : Bool) (p : CarrierPeriod) :
    Moves K s (s.endPeriod late p) := by
  unfold State.endPeriod
  split
  · exact (Moves.line ..).trans (.op (run.bump ..))
  · exact (Moves.line ..).trans (.op (run.bump ..))
  · exact (Moves.line ..).trans (State.handOn_moves run ..)

theorem execCarrierBegin_effect (run : Running K) (s : State) : OutcomeSat (Effect K s .carrierBegin)  (execCarrierBegin s) := by
  unfold execCarrierBegin
  simp only
  split
  · exact .moves (.line ..)
  · split
    · exact .moves (.line ..)
    · exact .idle run _ s
  · exact .idle run _ s

theorem execCarrierEnd_effect (run : Running K) (p : CarrierPeriod) (s : State) :
    OutcomeSat (Effect K s (.carrierEnd p))  (execCarrierEnd p s) := by
  have rx : Moves K s (s.setLc { s.lc with rx := p }) := .line ..
  unfold execCarrierEnd
  simp only
  split
  · exact .moves (rx.trans (State.endPeriod_moves run ..))
  · exact .moves (rx.trans (.line ..))
  · split
    · exact .moves (rx.trans (State.endPeriod_moves run ..))
    · exact .moves (rx.trans (.line ..))
    · exact .idle run _ s
  · exact .idle run _ s

theorem execOwnSlotStart_effect (run : Running K) (s : State) : OutcomeSat (Effect K s .ownSlotStart)  (execOwnSlotStart s) := by
  have counted : Moves K s (s.setLc { s.lc with slotCount := some s.nextSlot }) := .line ..
  unfold execOwnSlotStart
  simp only
  split
  · split
    · exact .moves (counted.trans (.line ..))
    · split
      · rename_i chosen
        exact .moves (((counted.trans (.op (run.chooseBurst chosen))).trans (.line ..)).trans (.op (run.settleAll _)))
      · exact .moves counted
  · exact .idle run _ s

theorem execMismatchDetected_effect (run : Running K) (s : State) :
    OutcomeSat (Effect K s .mismatchDetected)  (execMismatchDetected s) := by
  unfold execMismatchDetected
  split
  · exact .moves ((Moves.line ..).trans (.op (run.bump ..)))
  · exact .idle run _ s

theorem execBurstSent_effect (run : Running K) (s : State) : OutcomeSat (Effect K s .burstSent)  (execBurstSent s) := by
  unfold execBurstSent
  split
  · rename_i c sending _
    have sent : Moves K s (((s.takeReference s.own).bump .burstsSent).setLc
        { ((s.takeReference s.own).bump .burstsSent).lc with
          chosen := none, fairness := fairnessAfter s.lc.fairness c }) :=
      ((Moves.line ..).trans (.op (run.bump ..))).trans (.line ..)
    simp only
    cases c.item with
    | refuse => exact .moves sent
    | report => exact .moves (sent.trans (.op (run.reportTimers _ (Hu.reportSent s.hu) rfl)))
    | hail => exact .hailSent sending (sent.trans (.op (run.reportTimers _ (Hu.reportSent s.hu) rfl)))
    | resend => exact .moves sent
    | ownSeg n last =>
      cases last
      · exact .moves sent
      · exact .moves (sent.trans (.op (run.release ..)))
    | ask origin target => exact .moves (sent.trans (.op (run.askSent ..)))
  · exact .idle run _ s

theorem execJamEnd_effect (run : Running K) (remains : Bool) (s : State) : OutcomeSat (Effect K s (.jamEnd remains))  (execJamEnd remains s) := by
  unfold execJamEnd
  split
  · split
    · exact .moves (.line ..)
    · exact .moves (.line ..)
  · exact .idle run _ s

theorem execQuietLimitExpiry_effect (run : Running K) (s : State) :
    OutcomeSat (Effect K s .quietLimitExpiry)  (execQuietLimitExpiry s) := by
  unfold execQuietLimitExpiry
  split
  · split
    · exact .idle run _ s
    · split
      · exact .moves (.line ..)
      · exact .moves (.line ..)
  · exact .idle run _ s

/-! ## The timers -/

theorem execReportTimerExpiry_effect (run : Running K) (s : State) :
    OutcomeSat (Effect K s .reportTimerExpiry)  (execReportTimerExpiry s) := by
  unfold execReportTimerExpiry
  split
  · exact .moves (.op (run.reportTimers _ _ rfl))
  · exact .idle run _ s

theorem execSilenceTimerExpiry_effect (run : Running K) (p : Nat) (s : State) :
    OutcomeSat (Effect K s (.silenceTimerExpiry p))  (execSilenceTimerExpiry p s) := by
  have settled : Moves K (s.fallsSilent p) (s.fallsSilent p).settleRepair := .op (run.settleRepair _)
  refine .moves (Moves.trans ?_ settled)
  unfold State.fallsSilent
  split
  · exact (Moves.presence ..).trans (.op (run.trans (run.notify ..) (run.tellRp _)))
  · exact .op (run.refl s)

theorem execFlushTimerExpiry_effect (run : Running K) (s : State) :
    OutcomeSat (Effect K s .flushTimerExpiry)  (execFlushTimerExpiry s) := by
  unfold execFlushTimerExpiry
  split
  · exact .moves (.op (run.trans (run.flush s) (run.settleAll _)))
  · exact .idle run _ s

theorem execListenIntervalEnd_effect (run : Running K) (s : State) :
    OutcomeSat (Effect K s .listenIntervalEnd)  (execListenIntervalEnd s) := by
  unfold execListenIntervalEnd
  split
  · rename_i joining
    exact .listenEnd (eq_of_beq (Bool.and_eq_true_iff.mp joining).1)
  · exact .idle run _ s

/-! ## Reset and CONFIGURE -/

theorem State.answer_moves (run : Running K) (s : State) (owed : Bool) (st : Status) (data : List Byte) :
    Moves K s (s.answer owed st data) := by
  unfold State.answer
  split
  · exact .port ..
  · exact .op (run.refl s)

theorem execResetRelease_effect (run : Running K) (straps : BitVec 5) (s : State) :
    OutcomeSat (Effect K s (.resetRelease straps))  (execResetRelease straps s) := by
  unfold execResetRelease
  split
  · exact .release straps ‹_›
  · exact .idle run _ s

theorem execConfigureTaken_effect (run : Running K) (carrier : Bool) (s : State) :
    OutcomeSat (Effect K s (.configureTaken carrier))  (execConfigureTaken carrier s) := by
  unfold execConfigureTaken
  split
  · exact .idle run _ s
  · rename_i h rest handed
    simp only
    split
    · rename_i awaits
      split
      · rename_i c valid
        exact .configured (by rw [handed]; exact List.cons_ne_nil _ _) (eq_of_beq awaits)
          (Option.filter_eq_some_iff.mp valid).2 (State.answer_moves run ..)
      · exact .moves ((Moves.port ..).trans (State.answer_moves run ..))
    · exact .moves ((Moves.port ..).trans (State.answer_moves run ..))

/-! ## The attach port -/

theorem State.respond_moves (run : Running K) (s : State) (st : Status) (data : List Byte) :
    Moves K s (s.respond st data) := State.answer_moves run ..

theorem State.takeFrame_moves (run : Running K) (s : State) (rest : List Byte) (fits : List Byte → Bool)
    (refused : StationState → Option Status) {owner : List Byte → State → State} (h : ∀ params t, Moves K t (owner params t)) :
    Moves K s (s.takeFrame rest fits refused owner) := by
  have taken : Moves K s (s.frameTaken rest) := .port ..
  unfold State.takeFrame
  simp only
  split
  · exact .op (run.refl s)
  · split
    · exact taken.trans (State.respond_moves run ..)
    · split
      · exact taken.trans (State.respond_moves run ..)
      · exact taken.trans (h ..)

theorem State.takeCounters_moves (run : Running K) (s : State) (clear : Bool) : Moves K s (s.takeCounters clear) := by
  unfold State.takeCounters
  simp only
  split
  · exact (State.respond_moves run ..).trans (.port ..)
  · exact State.respond_moves run ..

theorem State.handSubmit_moves (run : Running K) (s : State) (params : List Byte) : Moves K s (s.handSubmit params) := by
  unfold State.handSubmit
  split
  · exact State.respond_moves run ..
  · exact .port ..

theorem State.takeFetch_moves (run : Running K) (s : State) (o n : Nat) : Moves K s (s.takeFetch o n) := by
  unfold State.takeFetch
  split
  · exact State.respond_moves run ..
  · split
    · exact State.respond_moves run ..
    · split
      · exact ((Moves.port ..).trans (.op (run.trans (run.startLookup ..) (run.settleAll _)))).trans
          (State.respond_moves run ..)
      · exact State.respond_moves run ..

theorem State.takeFetchResult_moves (run : Running K) (s : State) : Moves K s s.takeFetchResult := by
  unfold State.takeFetchResult
  split
  · exact State.respond_moves run ..
  · exact State.respond_moves run ..
  · exact (State.respond_moves run ..).trans (.port ..)

theorem State.takeNotices_moves (run : Running K) (s : State) (m : Nat) : Moves K s (s.takeNotices m) :=
  (Moves.op (run.drain s m)).trans (State.respond_moves run ..)

theorem execResponseRead_effect (run : Running K) (clocks : Nat) (s : State) :
    OutcomeSat (Effect K s (.responseRead clocks))  (execResponseRead clocks s) := by
  unfold execResponseRead
  split
  · exact .idle run _ s
  · simp only
    split
    · exact .reset .command _ trivial
    · exact .moves (.port ..)

theorem execSubmitTaken_effect (run : Running K) (s : State) : OutcomeSat (Effect K s .submitTaken)  (execSubmitTaken s) := by
  unfold execSubmitTaken
  split
  · exact .idle run _ s
  · simp only
    split
    · exact .moves ((Moves.port ..).trans (State.answer_moves run ..))
    · rename_i accepted place
      exact .moves (((Moves.port ..).trans (.op (run.acceptSubmit _ _ _ _ accepted place))).trans (State.answer_moves run ..))
    · exact .moves ((Moves.port ..).trans (State.answer_moves run ..))

theorem execHoldings_effect (run : Running K) (rest : List Byte) (s : State) :
    OutcomeSat (Effect K s (.holdings rest))  (execHoldings rest s) :=
  .moves (State.takeFrame_moves run s rest _ _ fun params t => by
    split
    · exact State.respond_moves run ..
    · exact State.respond_moves run ..)

theorem execUnknownCommand_effect (run : Running K) (id : Byte) (rest : List Byte) (s : State) :
    OutcomeSat (Effect K s (.unknownCommand id rest))  (execUnknownCommand id rest s) := by
  unfold execUnknownCommand
  split
  · exact .idle run _ s
  · split
    · exact .idle run _ s
    · exact .moves ((Moves.port ..).trans (State.respond_moves run ..))

/-! ## Every command -/

theorem exec_outcomeSat (run : Running K) (c : Instr) (s : State) : OutcomeSat (Effect K s c) (exec c s) := by
  cases c with
  | powerOnReset => exact .reset .power [] trivial
  | pinReset => exact .reset .pin [] trivial
  | resetRelease straps => exact execResetRelease_effect run straps s
  | scanSpareReadDone => exact (execScanSpareReadDone_effect s).imp fun _ => .scan
  | scanPageReadDone => exact (execScanPageReadDone_effect s).imp fun _ => .scan
  | scanEraseDone outcome => exact (execScanEraseDone_effect outcome s).imp fun _ => .scan
  | scanMarkDone outcome => exact (execScanMarkDone_effect outcome s).imp fun _ => .scan
  | lookupSpareReadDone => exact execLookupSpareReadDone_effect run s
  | lookupPageReadDone => exact execLookupPageReadDone_effect run s
  | transferEnd => exact execTransferEnd_effect run s
  | programDone outcome => exact execProgramDone_effect run outcome s
  | markProgramDone outcome => exact execMarkProgramDone_effect run outcome s
  | eraseDone outcome => exact execEraseDone_effect run outcome s
  | carrierBegin => exact execCarrierBegin_effect run s
  | carrierEnd period => exact execCarrierEnd_effect run period s
  | ownSlotStart => exact execOwnSlotStart_effect run s
  | mismatchDetected => exact execMismatchDetected_effect run s
  | burstSent => exact execBurstSent_effect run s
  | jamEnd carrierRemains => exact execJamEnd_effect run carrierRemains s
  | quietLimitExpiry => exact execQuietLimitExpiry_effect run s
  | reportTimerExpiry => exact execReportTimerExpiry_effect run s
  | spacingTimerExpiry => exact .moves (.op (run.reportTimers _ _ rfl))
  | silenceTimerExpiry peer => exact execSilenceTimerExpiry_effect run peer s
  | slotTimerExpiry slot => exact .moves (.op (run.trans (run.slotExpires ..) (run.settleRepair _)))
  | flushTimerExpiry => exact execFlushTimerExpiry_effect run s
  | askTimerExpiry place => exact .moves (.op (run.trans (run.askExpires ..) (run.settleRepair _)))
  | noticeDelayTimerExpiry => exact .moves (.op (run.delayExpired s))
  | listenIntervalEnd => exact execListenIntervalEnd_effect run s
  | responseRead clocks => exact execResponseRead_effect run clocks s
  | status rest => exact .moves (State.takeFrame_moves run s rest _ _ fun _ t => t.respond_moves run ..)
  | configure rest => exact .moves (State.takeFrame_moves run s rest _ _ fun _ t => .port ..)
  | configureTaken carrier => exact execConfigureTaken_effect run carrier s
  | submit rest => exact .moves (State.takeFrame_moves run s rest _ _ fun params t => t.handSubmit_moves run params)
  | submitTaken => exact execSubmitTaken_effect run s
  | fetch rest => exact .moves (State.takeFrame_moves run s rest _ _ fun _ t => t.takeFetch_moves run ..)
  | fetchResult rest => exact .moves (State.takeFrame_moves run s rest _ _ fun _ t => t.takeFetchResult_moves run)
  | holdings rest => exact execHoldings_effect run rest s
  | notices rest => exact .moves (State.takeFrame_moves run s rest _ _ fun _ t => t.takeNotices_moves run _)
  | counters rest => exact .moves (State.takeFrame_moves run s rest _ _ fun _ t => t.takeCounters_moves run _)
  | restart rest => exact .moves (State.takeFrame_moves run s rest _ _ fun _ t => .port ..)
  | unknownCommand id rest => exact execUnknownCommand_effect run id rest s

theorem exec_effect (run : Running K) {c : Instr} {s t : State} (h : exec c s = .next t) : Effect K s c t :=
  (exec_outcomeSat run c s).next h

end

/-- The operations of the blocks stay within `Keeps`. -/
theorem Keeps.running : Running Keeps where
  refl := Keeps.refl
  trans := Keeps.trans
  bump := State.bump_keeps
  notify := State.notify_keeps
  tellRp := State.tellRp_keeps
  settleAll := State.settleAll_keeps
  settleRepair := State.settleRepair_keeps
  takeSegment := State.takeSegment_keeps
  takeAsk := State.takeAsk_keeps
  takeRefuse := State.takeRefuse_keeps
  chooseBurst := State.chooseBurst_keeps
  askSent := State.askSent_keeps
  slotExpires := State.slotExpires_keeps
  askExpires := State.askExpires_keeps
  flush s := (State.closeFill_keeps s).trans (State.claimIfNeeded_keeps _)
  acceptSubmit s i payload _ _ _ := State.acceptSubmit_keeps s i payload
  startLookup := State.startLookup_keeps
  reportTimers s x e := by rw [e]; exact Keeps.setHu s rfl rfl rfl rfl rfl
  release s n := Keeps.setSu s _
  drain s m := Keeps.setNu s (fun _ => Nu.setAttn_attn ..) fun w => Nat.le_trans (Nu.drain_length_le ..) w
  delayExpired s := Keeps.setNu s Nu.delayExpired_attn fun w => by rw [Nu.delayExpired_queue]; exact w

end Sys2Proof.Machine

/-! The invariants of the array, the block table and the settings over what a command does. -/

namespace Sys2Proof.Machine

open Sys2Proof.Safety

/-! ## The array and the block table -/

/-- The array changes only as an erase begins on it while it is free, and no second block opens. -/
structure KeepsStore (s t : State) : Prop where
  busy : s.fc.op.isSome → t.fc.op = s.fc.op ∧ t.fc.mem = s.fc.mem
  idle : s.fc.op = none → ArrayKept s t
  oneOpen : OneOpen s → OneOpen t

theorem Keeps.store {s t : State} (h : Keeps s t) : KeepsStore s t := ⟨h.busy, h.idle, h.oneOpen⟩

namespace KeepsStore

theorem of_eq {s t : State} (hfc : t.fc = s.fc) (hsm : t.sm = s.sm) : KeepsStore s t where
  busy _ := by rw [hfc]; exact ⟨rfl, rfl⟩
  idle _ := .inl (by rw [hfc])
  oneOpen w := by unfold OneOpen at *; rw [hsm]; exact w

theorem arrayKept {s t : State} (h : KeepsStore s t) : ArrayKept s t := by
  rcases ho : s.fc.op with _ | op
  · exact h.idle ho
  · exact .inl (h.busy (by rw [ho]; rfl)).2

theorem memoryOk {s t : State} (h : KeepsStore s t) (w : MemoryOk s) : MemoryOk t := by
  unfold MemoryOk at *
  rcases h.arrayKept with e | ⟨b, -, e⟩
  · rw [e]; exact w
  · rw [e]; exact Memory.wf_erasePages w ..

theorem trans {s t u : State} (h : KeepsStore s t) (k : KeepsStore t u) : KeepsStore s u where
  busy hs := by
    obtain ⟨h1, h2⟩ := h.busy hs
    obtain ⟨k1, k2⟩ := k.busy (h1 ▸ hs)
    exact ⟨k1.trans h1, k2.trans h2⟩
  idle hs := by
    rcases h.idle hs with hm | ⟨b, ho, hm⟩
    · rcases k.arrayKept with km | ⟨b, ko, km⟩
      · exact .inl (km.trans hm)
      · exact .inr ⟨b, ko, by rw [km, hm]⟩
    · obtain ⟨k1, k2⟩ := k.busy (by rw [ho]; rfl)
      exact .inr ⟨b, k1.trans ho, k2.trans hm⟩
  oneOpen := k.oneOpen ∘ h.oneOpen

end KeepsStore

/-! ## A report (R93 to R95) -/

/-- R93: a report from `p` that is taken stores the row `pairs`; what comes before and after it stays within `Keeps`. -/
inductive ReportTaken (s : State) (p : Nat) (t : State) : Prop
  | bad : Keeps s t → ReportTaken s p t
  | stored (u : State) (pairs : List Pair) : Keeps s u → Keeps (u.putRow p pairs) t →
      (SettingsOk s → ∀ c, 1 ≤ s.own → pairs[s.own - 1]? = some c → c.frontier ≤ u.ownTop) → ReportTaken s p t

theorem length_pairsOf (n : Nat) (body : List Byte) : (pairsOf n body).length = n := by
  unfold pairsOf
  rw [List.length_map, List.length_range]

theorem pairAt_of_getElem? {pairs : List Pair} {o : Nat} {c : Pair} (h : pairs[o - 1]? = some c) : pairAt pairs o = c := by
  unfold pairAt
  rw [h]
  rfl

/-- With settings a station of number 1 or more has a line in the tables (Table 3-5); without them there is no pair. -/
theorem own_le_of_settingsOk {s : State} (w : SettingsOk s) : s.groupSize = 0 ∨ (s.own ≤ s.groupSize ∧ s.groupSize ≤ 24) := by
  unfold State.groupSize
  rcases h : s.sc.settings with _ | c
  · exact .inl rfl
  · have range := w c h
    simp only [Settings.inRange, Bool.and_eq_true, decide_eq_true_eq] at range
    exact .inr (by simp only [Option.map_some, Option.getD_some]; omega)

namespace State

theorem entry_writeEntry (s : State) (o : Nat) (e : Entry) (p : Nat) :
    (s.writeEntry o e).entry p = if o = p ∧ 1 ≤ o ∧ o ≤ 24 then e else s.entry p := lineOf_setLine ..

theorem notify_hu (s : State) (n : Notice) : (s.notify n).hu = s.hu := by
  unfold notify
  split <;> rfl

theorem notify_sc (s : State) (n : Notice) : (s.notify n).sc = s.sc := by
  unfold notify
  split <;> rfl

theorem evaluateDurable_entries (s : State) : s.evaluateDurable.hu.entries = s.hu.entries := by
  unfold evaluateDurable
  split
  · rfl
  · simp only
    split
    · show (State.notify _ _).hu.entries = _
      rw [notify_hu]
      rfl
    · rfl

theorem entry_evaluateDurable (s : State) (o : Nat) : s.evaluateDurable.entry o = s.entry o := by
  unfold entry
  rw [evaluateDurable_entries]

theorem entry_putEntry (s : State) (o : Nat) (e : Entry) (p : Nat) :
    (s.putEntry o e).entry p = if o = p ∧ 1 ≤ o ∧ o ≤ 24 then e else s.entry p := by
  rw [← entry_writeEntry]
  have told : (if s.reported o && e != s.entry o then (s.writeEntry o e).tellRp else s.writeEntry o e).entry p
      = (s.writeEntry o e).entry p := by
    split <;> rfl
  unfold putEntry
  simp only
  split
  · rw [entry_evaluateDurable]
    exact told
  · exact told

/-- R94: after an adoption T_own is at least the reported frontier. -/
theorem frontier_le_ownTop_adopt (s : State) (r : Pair) (h1 : 1 ≤ s.own) (h2 : s.own ≤ 24) : r.frontier ≤ (s.adopt r).ownTop := by
  have own : (s.adopt r).own = s.own := (adopt_keeps s r).own
  unfold ownTop
  rw [own]
  unfold adopt
  split
  · rw [entry_putEntry, if_pos ⟨rfl, h1, h2⟩]
    exact Nat.le_of_eq (top_adopted r.frontier).symm
  · exact Nat.le_of_not_lt ‹_›

theorem takeReport_taken (s : State) (isHail : Bool) (p : Nat) (body : List Byte) :
    ReportTaken s p (s.takeReport isHail p body) := by
  have told (t : State) : Keeps t (if isHail then t.setReportPending else t).tellRp.evaluateDurable := by
    refine Keeps.trans ?_ ((tellRp_keeps _).trans (evaluateDurable_keeps _))
    split
    · exact setReportPending_keeps t
    · exact .refl t
  have at_own {c : Pair} (w : SettingsOk s) (h1 : 1 ≤ s.own) {pairs : List Pair} (hl : pairs.length = s.groupSize)
      (h : pairs[s.own - 1]? = some c) : s.own ≤ 24 := by
    obtain ⟨hlt, -⟩ := List.getElem?_eq_some_iff.mp h
    rcases own_le_of_settingsOk w with h0 | h0 <;> omega
  unfold takeReport
  simp only
  split
  · by_cases active : (s.station == some .active) = true
    · simp only [if_pos active]
      refine .stored (s.noteConflict p (pairAt (pairsOf s.groupSize body) s.own)) _ (noteConflict_keeps ..) (told _) ?_
      intro w c h1 h
      refine Nat.le_trans ?_ (noteConflict_keeps ..).ownTop
      split at h
      · obtain ⟨hlt, e⟩ := List.getElem?_eq_some_iff.mp h
        rw [List.getElem_set_self] at e
        rw [← e]
        exact Nat.le_refl _
      · rename_i low
        rw [pairAt_of_getElem? h] at low
        exact Nat.le_of_not_lt low
    · simp only [if_neg active]
      refine .stored (s.adopt (pairAt (pairsOf s.groupSize body) s.own)) _ (adopt_keeps ..) (told _) ?_
      intro w c h1 h
      have := frontier_le_ownTop_adopt s (pairAt (pairsOf s.groupSize body) s.own) h1 (at_own w h1 (length_pairsOf ..) h)
      rwa [pairAt_of_getElem? h] at this ⊢
  · exact .bad (bump_keeps ..)

theorem takeReport_keepsStore (s : State) (isHail : Bool) (p : Nat) (body : List Byte) :
    KeepsStore s (s.takeReport isHail p body) := by
  obtain kept | ⟨u, pairs, before, after, -⟩ := s.takeReport_taken isHail p body
  · exact kept.store
  · exact (before.store.trans (.of_eq rfl rfl : KeepsStore u (u.putRow p pairs))).trans after.store

/-! ## The own frontiers in the matrix (R186) -/

theorem cell_putRow (s : State) (p : Nat) (pairs : List Pair) (q o : Nat) :
    (s.putRow p pairs).cell q o
      = if p = q ∧ 1 ≤ p ∧ p ≤ 24 then (match o with | 0 => none | i + 1 => pairs[i]?) else s.cell q o := by
  have row : (s.putRow p pairs).row q = if p = q ∧ 1 ≤ p ∧ p ≤ 24 then some pairs else s.row q := lineOf_setLine ..
  unfold cell
  rw [row]
  cases o with
  | zero => split <;> split <;> simp_all
  | succ i =>
    by_cases h : p = q ∧ 1 ≤ p ∧ p ≤ 24
    · rw [if_pos h, if_pos h]
    · rw [if_neg h, if_neg h]

theorem takeReport_durableOk {s : State} (isHail : Bool) (p : Nat) (body : List Byte) (settings : SettingsOk s) (w : DurableOk s) :
    DurableOk (s.takeReport isHail p body) := by
  obtain kept | ⟨u, pairs, before, after, low⟩ := s.takeReport_taken isHail p body
  · exact kept.durableOk w
  · refine after.durableOk ?_
    obtain ⟨wd, wc⟩ := before.durableOk w
    refine ⟨wd, fun q c h => ?_⟩
    have own : (u.putRow p pairs).own = s.own := before.own
    rw [own, cell_putRow] at h
    show c.frontier ≤ u.ownTop
    split at h
    · rcases ho : s.own with _ | i
      · rw [ho] at h; cases h
      · rw [ho] at h
        exact low settings c (by omega) (by rw [ho]; exact h)
    · exact wc q c (by rw [before.own]; exact h)

theorem takeReport_holdingsOk {s : State} (isHail : Bool) (p : Nat) (body : List Byte) (w : HoldingsOk s) :
    HoldingsOk (s.takeReport isHail p body) := by
  obtain kept | ⟨u, pairs, before, after, -⟩ := s.takeReport_taken isHail p body
  · exact kept.holdingsOk w
  · exact after.holdingsOk (before.holdingsOk w)

theorem takeReport_sc (s : State) (isHail : Bool) (p : Nat) (body : List Byte) : (s.takeReport isHail p body).sc = s.sc := by
  obtain kept | ⟨u, pairs, before, after, -⟩ := s.takeReport_taken isHail p body
  · exact kept.sc
  · exact after.sc.trans before.sc

theorem takeReport_pending (s : State) (isHail : Bool) (p : Nat) (body : List Byte) :
    (s.takeReport isHail p body).pending = s.pending := by
  obtain kept | ⟨u, pairs, before, after, -⟩ := s.takeReport_taken isHail p body
  · exact kept.pending
  · exact after.pending.trans before.pending

end State

/-! ## The moves of a running station -/

namespace Moves

variable {s t : State}

theorem sc (h : Moves Keeps s t) : t.sc = s.sc := by
  induction h with
  | op h => exact h.sc
  | report s isHail p body => exact s.takeReport_sc isHail p body
  | trans _ _ ih1 ih2 => exact ih2.trans ih1
  | _ => rfl

theorem pending (h : Moves Keeps s t) : t.pending = s.pending := by
  induction h with
  | op h => exact h.pending
  | report s isHail p body => exact s.takeReport_pending isHail p body
  | trans _ _ ih1 ih2 => exact ih2.trans ih1
  | _ => rfl

theorem own (h : Moves Keeps s t) : t.own = s.own := congrArg Sc.number h.sc

theorem settingsOk (h : Moves Keeps s t) (w : SettingsOk s) : SettingsOk t := by
  unfold SettingsOk at *
  rw [h.own, h.sc]
  exact w

theorem store (h : Moves Keeps s t) : KeepsStore s t := by
  induction h with
  | op h => exact h.store
  | report s isHail p body => exact s.takeReport_keepsStore isHail p body
  | trans _ _ ih1 ih2 => exact ih1.trans ih2
  | line => exact .of_eq rfl rfl
  | port => exact .of_eq rfl rfl
  | presence => exact .of_eq rfl rfl

theorem holdingsOk (h : Moves Keeps s t) : HoldingsOk s → HoldingsOk t := by
  induction h with
  | op h => exact h.holdingsOk
  | report s isHail p body => exact State.takeReport_holdingsOk isHail p body
  | trans _ _ ih1 ih2 => exact ih2 ∘ ih1
  | _ => exact id

theorem durableOk (h : Moves Keeps s t) (settings : SettingsOk s) : DurableOk s → DurableOk t := by
  induction h with
  | op h => exact h.durableOk
  | report s isHail p body => exact State.takeReport_durableOk isHail p body settings
  | trans h _ ih1 ih2 => exact ih2 (h.settingsOk settings) ∘ ih1 settings
  | _ => exact id

end Moves

/-! ## Completions outside the scan -/

/-- FC has ended the operation in flight: the array is free. -/
structure OpEnds (s u : State) : Prop where
  same : u = { s with fc := u.fc, ap := u.ap, fresh := u.fresh }
  port : u.ap = { s.ap with counters := u.ap.counters }
  op : u.fc.op = none
  mem : s.fc.mem.wf = true → u.fc.mem.wf = true

namespace OpEnds

variable {s u : State}

theorem setFc (s : State) {x : Fc} (ho : x.op = none) (hm : s.fc.mem.wf = true → x.mem.wf = true) : OpEnds s (s.setFc x) :=
  ⟨rfl, rfl, ho, hm⟩

theorem setFc' (h : OpEnds s u) {x : Fc} (ho : x.op = none) (hm : x.mem = u.fc.mem) : OpEnds s (u.setFc x) where
  same := by
    conv => lhs; rw [State.setFc, h.same]
    rfl
  port := h.port
  op := ho
  mem w := by
    show x.mem.wf = true
    rw [hm]
    exact h.mem w

theorem bump (h : OpEnds s u) (k : Counter) : OpEnds s (u.bump k) where
  same := by
    conv => lhs; rw [State.bump, State.raise, State.setAp, h.same]
    rfl
  port := by
    conv => lhs; rw [State.bump, State.raise, State.setAp_ap, h.port]
    rfl
  op := h.op
  mem := h.mem

theorem drawn (h : OpEnds s u) : OpEnds s u.drawn where
  same := by
    conv => lhs; rw [State.drawn, h.same]
    rfl
  port := h.port
  op := h.op
  mem := h.mem

theorem sc (h : OpEnds s u) : u.sc = s.sc := by rw [h.same]
theorem sm (h : OpEnds s u) : u.sm = s.sm := by rw [h.same]
theorem hu (h : OpEnds s u) : u.hu = s.hu := by rw [h.same]
theorem pending (h : OpEnds s u) : u.pending = s.pending := by rw [h.same]
theorem own (h : OpEnds s u) : u.own = s.own := congrArg Sc.number h.sc

theorem entry (h : OpEnds s u) (o : Nat) : u.entry o = s.entry o := by
  unfold State.entry
  rw [h.hu]

theorem cell (h : OpEnds s u) (p o : Nat) : u.cell p o = s.cell p o := by
  unfold State.cell State.row
  rw [h.hu]

theorem ownTop (h : OpEnds s u) : u.ownTop = s.ownTop := by
  unfold State.ownTop
  rw [h.own, h.entry]

theorem oneOpen (h : OpEnds s u) (w : OneOpen s) : OneOpen u := by
  unfold OneOpen at *
  rw [h.sm]
  exact w

theorem holdingsOk (h : OpEnds s u) (w : HoldingsOk s) : HoldingsOk u := by
  obtain ⟨we, wg⟩ := w
  exact ⟨fun o => by rw [h.entry]; exact we o, by rw [h.own, h.entry]; exact wg⟩

theorem durableOk (h : OpEnds s u) (w : DurableOk s) : DurableOk u := by
  obtain ⟨wd, wc⟩ := w
  refine ⟨by rw [h.hu, h.ownTop]; exact wd, fun p c hc => ?_⟩
  rw [h.own, h.cell] at hc
  rw [h.ownTop]
  exact wc p c hc

end OpEnds

/-- A completion outside the scan: the operation ends, and what follows stays within `Keeps`. -/
def Completes (s t : State) : Prop := ∃ u, OpEnds s u ∧ Keeps u t

/-- A completion that leaves the array as it is but for an erase that begins. -/
def CompletesQuietly (s t : State) : Prop := ∃ u, OpEnds s u ∧ u.fc.mem = s.fc.mem ∧ Keeps u t

theorem CompletesQuietly.completes {s t : State} (h : CompletesQuietly s t) : Completes s t :=
  h.elim fun u ⟨ends, _, kept⟩ => ⟨u, ends, kept⟩

theorem CompletesQuietly.arrayKept {s t : State} (h : CompletesQuietly s t) : ArrayKept s t := by
  obtain ⟨u, ends, mem, kept⟩ := h
  have := kept.store.arrayKept
  unfold ArrayKept at *
  rwa [mem] at this

namespace State

theorem fcProgramFails_opEnds {s u : State} (h : OpEnds s u) : OpEnds s u.fcProgramFails :=
  (h.setFc' (x := { u.fc with op := none, array := { u.fc.array with state := .idle, target := none } }) rfl rfl).bump _

theorem lookupSpareReadEnds_completes (s : State) (who : Requester) (p : PageAddr) :
    CompletesQuietly s (s.lookupSpareReadEnds who p) :=
  ⟨s.fcSpareRead p, .setFc s rfl id, rfl, (completion_keeps _ _ fun t =>
    lookupGoesOn_keeps t who _ fun l => lookupSpare_keeps t who l p _).trans (settleRepair_keeps _)⟩

theorem lookupPageReadEnds_completes (s : State) (who : Requester) (p : PageAddr) :
    CompletesQuietly s (s.lookupPageReadEnds who p) :=
  ⟨s.fcPageRead p, .setFc s rfl id, rfl, (completion_keeps _ _ fun t =>
    lookupGoesOn_keeps t who _ fun l => lookupPage_keeps t who l p _ _).trans (settleRepair_keeps _)⟩

theorem transferEnds_completes (s : State) (c : ProgramClaim) : CompletesQuietly s (s.transferEnds c) := by
  have transferred : OpEnds s s.fcTransferred := .setFc s rfl id
  unfold transferEnds
  split
  · exact ⟨_, fcProgramFails_opEnds transferred, rfl, completion_programFailed_keeps ..⟩
  · exact ⟨_, transferred, rfl, ((beginProgram_keeps _ c rfl).trans (runCommit_keeps _)).trans (settleAll_keeps _)⟩

theorem programEndsPass_completes (s : State) (c : ProgramClaim) : Completes s (s.programEndsPass c) :=
  ⟨s.fcProgramPasses c, .setFc s rfl fun w => Memory.wf_programPage w .., (completion_keeps _ _ fun t =>
    ((programPassed_keeps t _ _).trans (runCommit_keeps _)).trans (evaluateReclaim_keeps _)).trans (settleRepair_keeps _)⟩

theorem fcProgramTears_opEnds (s : State) (c : ProgramClaim) : OpEnds s (s.fcProgramTears c) where
  same := rfl
  port := rfl
  op := rfl
  mem w := Memory.wf_tearPage w ..

theorem programEndsFail_completes (s : State) (c : ProgramClaim) : Completes s (s.programEndsFail c) :=
  ⟨_, s.fcProgramTears_opEnds c, completion_programFailed_keeps ..⟩

theorem fcMarkDone_opEnds (s : State) (b : Nat) (v : Byte) (o : FlashOutcome) : OpEnds s (s.fcMarkDone b v o) := by
  have ends := s.fcMarkDone_scanOpEnds b v o
  exact ⟨ends.same, ends.port, by rw [ends.fc], ends.mem⟩

theorem fcEraseDone_opEnds (s : State) (b : Nat) (o : FlashOutcome) : OpEnds s (s.fcEraseDone b o) := by
  have ends := s.fcEraseDone_scanOpEnds b o
  exact ⟨ends.same, ends.port, by rw [ends.fc], ends.mem⟩

theorem markEnds_completes (s : State) (b : Nat) (v : Byte) (o : FlashOutcome) :
    Completes s ((s.fcMarkDone b v o).grant).settleRepair :=
  ⟨_, s.fcMarkDone_opEnds b v o, (grant_keeps _).trans (settleRepair_keeps _)⟩

theorem eraseEnds_completes (s : State) (b : Nat) (o : FlashOutcome) :
    Completes s ((s.fcEraseDone b o).completion fun t => t.eraseOutcome b o).settleRepair :=
  ⟨_, s.fcEraseDone_opEnds b o, (completion_keeps _ _ fun t => eraseOutcome_keeps t b o).trans (settleRepair_keeps _)⟩

end State

/-- The courses a command can take over `Keeps`: the completions outside the scan taken together. -/
inductive Course (s : State) : Instr → State → Prop
  | moves {c : Instr} {t : State} : Moves Keeps s t → Course s c t
  | reset {c : Instr} (kind : ResetKind) (out : List Byte) : changesArray c →
      Course s c ((s.beginReset kind).setAp { Ap.reset with dataOut := out })
  | release (straps : BitVec 5) {kind : ResetKind} : s.sc.phase = .held kind →
      Course s (.resetRelease straps) (s.release kind straps.toNat)
  | scan {c : Instr} {t : State} : ScanEffect s c t → Course s c t
  | completes {c : Instr} {t : State} : Completes s t → changesArray c ∨ ArrayKept s t → Course s c t
  | hailSent {u : State} : s.lc.state = .sending → Moves Keeps s u →
      Course s .burstSent (u.setSc { u.sc with listening := true })
  | listenEnd : s.station = some .joining → Course s .listenIntervalEnd s.becomeActive.settleRepair
  | configured {carrier : Bool} {c : Settings} {x : Ap} {t : State} : s.ap.configures ≠ [] → s.station = some .awaitConfig →
      c.inRange s.own = true → Moves Keeps ((s.setAp x).accept c carrier) t → Course s (.configureTaken carrier) t

theorem CompletesQuietly.course {s t : State} (h : CompletesQuietly s t) (c : Instr) : Course s c t :=
  .completes h.completes (.inr h.arrayKept)

theorem Effect.course {s t : State} {c : Instr} (h : Effect Keeps s c t) : Course s c t := by
  cases h with
  | moves h => exact .moves h
  | reset kind out h => exact .reset kind out h
  | release straps h => exact .release straps h
  | scan h => exact .scan h
  | spareRead => exact (State.lookupSpareReadEnds_completes ..).course _
  | pageRead => exact (State.lookupPageReadEnds_completes ..).course _
  | transferEnd => exact (State.transferEnds_completes ..).course _
  | programPass => exact .completes (State.programEndsPass_completes ..) (.inl trivial)
  | programFail => exact .completes (State.programEndsFail_completes ..) (.inl trivial)
  | markDone => exact .completes (State.markEnds_completes ..) (.inl trivial)
  | eraseDone => exact .completes (State.eraseEnds_completes ..) (.inl trivial)
  | hailSent h1 h2 => exact .hailSent h1 h2
  | listenEnd h => exact .listenEnd h
  | configured h1 h2 h3 h4 => exact .configured h1 h2 h3 h4

theorem exec_course {c : Instr} {s t : State} (h : exec c s = .next t) : Course s c t := (exec_effect Keeps.running h).course

end Sys2Proof.Machine

/-! The blocks at rest while the part is held in reset or SCANNING (R40, R51, R75). -/

namespace Sys2Proof.Machine

open Sys2Proof.Safety

/-! ## States at rest -/

/-- The station is held in reset or SCANNING. -/
def State.starting (s : State) : Prop := s.station = none ∨ s.station = some .scanning

/-- Nothing that was handed on waits in the attach port. -/
structure PortIdle (x : Ap) : Prop where
  submitBuffer : x.submitBuffer = none
  configures : x.configures = []
  fetch : x.fetch = .idle

theorem atRest_port {s : State} (w : AtRest s) : PortIdle s.ap := by
  obtain ⟨-, -, -, -, -, -, -, -, h1, h2, h3, -⟩ := w
  exact ⟨h1, h2, h3⟩

theorem atRest_setAp {s : State} (w : AtRest s) {x : Ap} (p : PortIdle x) : AtRest (s.setAp x) := by
  obtain ⟨h1, h2, h3, h4, h5, h6, h7, h8, -, -, -, rest⟩ := w
  exact ⟨h1, h2, h3, h4, h5, h6, h7, h8, p.submitBuffer, p.configures, p.fetch, rest⟩

theorem atRest_beginReset (s : State) (k : ResetKind) : AtRest (s.beginReset k) :=
  ⟨rfl, rfl, rfl, rfl, rfl, rfl, rfl, rfl, rfl, rfl, rfl, rfl, rfl, rfl, rfl, rfl, rfl, rfl, rfl, rfl, fun _ h => by cases h⟩

/-- A reset leaves every block at rest, whatever the response read that ended in it shifted out. -/
theorem atRest_afterReset (s : State) (k : ResetKind) (out : List Byte) :
    AtRest ((s.beginReset k).setAp { Ap.reset with dataOut := out }) :=
  atRest_setAp (atRest_beginReset s k) ⟨rfl, rfl, rfl⟩

theorem atRest_release {s : State} (w : AtRest s) (k : ResetKind) (n : Nat) : AtRest (s.release k n) := by
  obtain ⟨h1, h2, h3, h4, h5, h6, h7, h8, h9, h10, h11, h12, h13, h14, h15, h16, h17, h18, h19, h20, h21⟩ := w
  unfold State.release
  simp only
  split
  · refine ⟨h1, ?_, h3, h4, h5, h6, h7, h8, h9, h10, h11, h12, h13, h14, h15, h16, h17, h18, h19, h20, ?_⟩
    · show ({ s.hu with presence := _ } : Hu) = _
      rw [h2]
      rfl
    · intro op e
      cases e
      rfl
  · exact ⟨h1, h2, h3, h4, h5, h6, h7, h8, h9, h10, h11, h12, h13, h14, h15, h16, h17, h18, h19, h20, h21⟩

/-- R51: the scan's own operations leave the other blocks at rest. -/
theorem atRest_scanGoesOn {s u t : State} {scan : Scan} {op : Op} (w : AtRest s) (ends : ScanOpEnds s u)
    (goes : ScanGoesOn u t scan op) : AtRest t := by
  obtain ⟨h1, h2, h3, h4, h5, h6, h7, h8, h9, h10, h11, h12, h13, h14, h15, h16, h17, h18, h19, h20, -⟩ := w
  rw [goes.same, goes.fc, ends.same, ends.port, ends.fc]
  exact ⟨h1, h2, h3, h4, h5, h6, h7, h8, h9, h10, h11, h12, h13, h14, h15, h16, h17, h18, h19, h20,
    fun op e => by cases e; exact goes.scans⟩

/-! ## Commands on a station at rest -/

section
variable {s : State}

theorem atRest_respond (w : AtRest s) (st : Status) (data : List Byte) : AtRest (s.respond st data) :=
  atRest_setAp w ⟨(atRest_port w).1, (atRest_port w).2, (atRest_port w).3⟩

theorem atRest_frameTaken (w : AtRest s) (rest : List Byte) : AtRest (s.frameTaken rest) := by
  refine atRest_setAp w ⟨?_, ?_, (atRest_port w).3⟩
  · rw [(atRest_port w).1]; rfl
  · rw [(atRest_port w).2]; rfl

/-- R198, Table 11-4: of the frames that a SCANNING station takes each leaves it at rest. -/
theorem atRest_takeFrame (w : AtRest s) (starting : s.starting) (rest : List Byte) (fits : List Byte → Bool)
    (refused : StationState → Option Status) {owner : List Byte → State → State}
    (h : refused .scanning = none → ∀ params t, AtRest t → AtRest (owner params t)) :
    AtRest (s.takeFrame rest fits refused owner) := by
  have taken := atRest_frameTaken w rest
  unfold State.takeFrame
  simp only
  split
  · exact w
  · rename_i st hst
    split
    · exact atRest_respond taken ..
    · split
      · exact atRest_respond taken ..
      · rename_i h0
        rcases starting with e | e
        · rw [e] at hst; cases hst
        · rw [e] at hst
          cases hst
          exact h h0 _ _ taken

/-- A command that a station at rest does not meet, or that changes only its attach port. -/
def RestsUnder (s : State) (r : Host.Outcome State Fault Refusal) : Prop := AtRest s → OutcomeSat AtRest r

theorem settleRepair_of_settled {s : State} (h : s.rp.rerunDue = false) : s.settleRepair = s := by
  unfold State.settleRepair
  rw [h]
  rfl

theorem op_atRest (w : AtRest s) {op : Op} (h : s.fc.op = some op) : scanOp op = true := by
  obtain ⟨-, -, -, -, -, -, -, -, -, -, -, -, -, -, -, -, -, -, -, -, scans⟩ := w
  exact scans op h

theorem rp_atRest (w : AtRest s) : s.rp = Rp.reset := by
  obtain ⟨-, -, -, -, -, -, h, -⟩ := w
  exact h

theorem hu_atRest (w : AtRest s) : s.hu = { Hu.reset with presence := s.hu.presence } := by
  obtain ⟨-, h, -⟩ := w
  exact h

theorem lc_atRest (w : AtRest s) : s.lc = Lc.reset := by
  obtain ⟨-, -, -, -, -, h, -⟩ := w
  exact h

/-- The completions outside the scan find no operation of theirs in flight. -/
theorem completions_atRest (w : AtRest s) :
    execLookupSpareReadDone s = .next s ∧ execLookupPageReadDone s = .next s ∧ execTransferEnd s = .next s
      ∧ (∀ o, execProgramDone o s = .next s) ∧ (∀ o, execMarkProgramDone o s = .next s)
      ∧ ∀ o, execEraseDone o s = .next s := by
  unfold execLookupSpareReadDone execLookupPageReadDone execTransferEnd execProgramDone execMarkProgramDone execEraseDone
  rcases h : s.fc.op with _ | op
  · exact ⟨rfl, rfl, rfl, fun _ => rfl, fun _ => rfl, fun _ => rfl⟩
  · have scans := op_atRest w h
    cases op with
    | scanSpareRead | scanPageRead | scanErase | scanMark =>
      exact ⟨rfl, rfl, rfl, fun _ => rfl, fun _ => rfl, fun _ => rfl⟩
    | lookupRead | transfer | program | mark | erase => cases scans

/-- R75: the line controller is DORMANT. -/
theorem lineEvents_atRest (w : AtRest s) :
    execCarrierBegin s = .next s ∧ (∀ p, execCarrierEnd p s = .next s) ∧ execOwnSlotStart s = .next s
      ∧ execMismatchDetected s = .next s ∧ execBurstSent s = .next s ∧ (∀ r, execJamEnd r s = .next s)
      ∧ execQuietLimitExpiry s = .next s := by
  have dormant : s.lc.state = .dormant := by rw [lc_atRest w]; rfl
  unfold execCarrierBegin execCarrierEnd execOwnSlotStart execMismatchDetected execBurstSent execJamEnd execQuietLimitExpiry
  simp only [dormant, implies_true, and_self]

theorem place_replicate {α : Type} (n : Nat) (x : α) (i : Nat) : place (Vector.replicate n x) x i = x := by
  unfold place
  rw [Vector.getElem?_replicate]
  split <;> rfl

theorem lineOf_replicate {α : Type} (n : Nat) (x : α) (o : Nat) : lineOf (Vector.replicate n x) x o = x := by
  cases o with
  | zero => rfl
  | succ i => exact place_replicate n x i

/-- No timer of a station at rest runs. -/
theorem timers_atRest (w : AtRest s) :
    execReportTimerExpiry s = .next s ∧ execSpacingTimerExpiry s = .next s ∧ (∀ p, execSilenceTimerExpiry p s = .next s)
      ∧ (∀ i, execSlotTimerExpiry i s = .next s) ∧ execFlushTimerExpiry s = .next s ∧ (∀ i, execAskTimerExpiry i s = .next s)
      ∧ execNoticeDelayTimerExpiry s = .next s := by
  have settled : s.settleRepair = s := settleRepair_of_settled (by rw [rp_atRest w]; rfl)
  obtain ⟨-, hu, -, ra, ce, -, rp, nu, -⟩ := w
  have spacing : s.hu.spacingTimer = false := by rw [hu]; rfl
  refine ⟨?report, ?spacing, fun p => ?silence, fun i => ?slot, ?flush, fun i => ?ask, ?notice⟩
  case report => unfold execReportTimerExpiry; rw [hu]; rfl
  case spacing =>
    unfold execSpacingTimerExpiry
    rw [← spacing]
    rfl
  case silence =>
    have stopped : lineOf s.hu.silence false p = false := by rw [hu]; exact lineOf_replicate ..
    unfold execSilenceTimerExpiry State.fallsSilent
    rw [stopped]
    exact congrArg _ settled
  case slot =>
    have free : place s.ra.slots .free i = .free := by rw [ra]; exact place_replicate ..
    unfold execSlotTimerExpiry State.slotExpires
    rw [free]
    exact congrArg _ settled
  case flush => unfold execFlushTimerExpiry; rw [ce]; rfl
  case ask =>
    have none_asked : s.ask i = none := by unfold State.ask; rw [rp]; exact place_replicate ..
    unfold execAskTimerExpiry State.askExpires
    rw [none_asked]
    exact congrArg _ settled
  case notice =>
    have stopped : s.nu.delayExpired s.noticeThreshold = s.nu := by rw [nu]; rfl
    unfold execNoticeDelayTimerExpiry
    rw [stopped]
    rfl

theorem handedOn_atRest (w : AtRest s) (starting : s.starting) (carrier : Bool) :
    execConfigureTaken carrier s = .next s ∧ execSubmitTaken s = .next s ∧ execListenIntervalEnd s = .next s := by
  obtain ⟨submit, configures, -⟩ := atRest_port w
  unfold execConfigureTaken execSubmitTaken execListenIntervalEnd
  rw [submit, configures]
  refine ⟨rfl, rfl, ?_⟩
  rcases starting with e | e <;> rw [e] <;> rfl

theorem responseRead_atRest (w : AtRest s) (clocks : Nat) : OutcomeSat AtRest (execResponseRead clocks s) := by
  unfold execResponseRead
  split
  · exact w
  · have port := atRest_port w
    simp only
    split
    · exact atRest_setAp (atRest_beginReset s _) ⟨rfl, rfl, rfl⟩
    · exact atRest_setAp w ⟨port.1, port.2, port.3⟩

theorem unknownCommand_atRest (w : AtRest s) (id : Byte) (rest : List Byte) :
    OutcomeSat AtRest (execUnknownCommand id rest s) := by
  unfold execUnknownCommand
  split
  · exact w
  · split
    · exact w
    · exact atRest_respond (atRest_frameTaken w rest) ..

theorem resetRelease_atRest (w : AtRest s) (straps : BitVec 5) : OutcomeSat AtRest (execResetRelease straps s) := by
  unfold execResetRelease
  split
  · exact atRest_release w ..
  · exact w

/-- A completion of the scan leaves the other blocks at rest, or the scan has ended. -/
theorem scanEffect_atRest (w : AtRest s) {c : Instr} {t : State} (h : ScanEffect s c t) :
    AtRest t ∨ ∃ u scan, t = State.scanEnds u scan := by
  cases h with
  | idle => exact .inl w
  | goesOn _ _ _ ends _ _ goes => exact .inl (atRest_scanGoesOn w ends goes)
  | ends => exact .inr ⟨_, _, rfl⟩

/-- R51, R75: a command leaves a station that is held in reset or SCANNING at rest, unless it ends the scan. -/
theorem exec_atRest (w : AtRest s) (starting : s.starting) (c : Instr) :
    OutcomeSat (fun t => AtRest t ∨ ∃ u scan, t = State.scanEnds u scan) (exec c s) := by
  have idle {r : Host.Outcome State Fault Refusal} (h : r = .next s) :
      OutcomeSat (fun t => AtRest t ∨ ∃ u scan, t = State.scanEnds u scan) r := by rw [h]; exact .inl w
  have rests {r : Host.Outcome State Fault Refusal} (h : OutcomeSat AtRest r) :
      OutcomeSat (fun t => AtRest t ∨ ∃ u scan, t = State.scanEnds u scan) r := h.imp fun _ => .inl
  have frame (rest : List Byte) (fits : List Byte → Bool) (refused : StationState → Option Status)
      {owner : List Byte → State → State} (h : refused .scanning = none → ∀ params t, AtRest t → AtRest (owner params t)) :
      OutcomeSat (fun t => AtRest t ∨ ∃ u scan, t = State.scanEnds u scan) (.next (s.takeFrame rest fits refused owner)) :=
    .inl (atRest_takeFrame w starting rest fits refused h)
  obtain ⟨spareRead, pageRead, transfer, program, mark, erase⟩ := completions_atRest w
  obtain ⟨begins, ends, slot, mismatch, sent, jam, quiet⟩ := lineEvents_atRest w
  obtain ⟨report, spacing, silence, slotTimer, flush, ask, notice⟩ := timers_atRest w
  obtain ⟨configured, submitted, listened⟩ := handedOn_atRest w starting true
  cases c with
  | powerOnReset => exact .inl (atRest_beginReset s _)
  | pinReset => exact .inl (atRest_beginReset s _)
  | resetRelease straps => exact rests (resetRelease_atRest w straps)
  | scanSpareReadDone => exact (execScanSpareReadDone_effect s).imp fun _ => scanEffect_atRest w
  | scanPageReadDone => exact (execScanPageReadDone_effect s).imp fun _ => scanEffect_atRest w
  | scanEraseDone outcome => exact (execScanEraseDone_effect outcome s).imp fun _ => scanEffect_atRest w
  | scanMarkDone outcome => exact (execScanMarkDone_effect outcome s).imp fun _ => scanEffect_atRest w
  | lookupSpareReadDone => exact idle spareRead
  | lookupPageReadDone => exact idle pageRead
  | transferEnd => exact idle transfer
  | programDone outcome => exact idle (program outcome)
  | markProgramDone outcome => exact idle (mark outcome)
  | eraseDone outcome => exact idle (erase outcome)
  | carrierBegin => exact idle begins
  | carrierEnd period => exact idle (ends period)
  | ownSlotStart => exact idle slot
  | mismatchDetected => exact idle mismatch
  | burstSent => exact idle sent
  | jamEnd carrierRemains => exact idle (jam carrierRemains)
  | quietLimitExpiry => exact idle quiet
  | reportTimerExpiry => exact idle report
  | spacingTimerExpiry => exact idle spacing
  | silenceTimerExpiry peer => exact idle (silence peer)
  | slotTimerExpiry i => exact idle (slotTimer i)
  | flushTimerExpiry => exact idle flush
  | askTimerExpiry i => exact idle (ask i)
  | noticeDelayTimerExpiry => exact idle notice
  | listenIntervalEnd => exact idle listened
  | responseRead clocks => exact rests (responseRead_atRest w clocks)
  | status rest => exact frame rest _ _ fun _ _ _ wt => atRest_respond wt ..
  | configure rest => exact frame rest _ _ fun h => by cases h
  | configureTaken carrier => exact idle (handedOn_atRest w starting carrier).1
  | submit rest => exact frame rest _ _ fun h => by cases h
  | submitTaken => exact idle submitted
  | fetch rest => exact frame rest _ _ fun h => by cases h
  | fetchResult rest => exact frame rest _ _ fun h => by cases h
  | holdings rest => exact frame rest _ _ fun h => by cases h
  | notices rest => exact frame rest _ _ fun h => by cases h
  | counters rest => exact frame rest _ _ fun h => by cases h
  | restart rest =>
    exact frame rest _ _ fun _ _ _ wt => atRest_setAp wt ⟨(atRest_port wt).1, (atRest_port wt).2, (atRest_port wt).3⟩
  | unknownCommand id rest => exact rests (unknownCommand_atRest w id rest)

end

/-! ## The station state over a command -/

/-- The scan has left SCANNING. -/
theorem State.scanEnds_sc (u : State) (scan : Scan) : ∃ halt, (u.scanEnds scan).sc = { u.sc with phase := halt, scan := none }
    ∧ (halt = .running .halted .storeUnusable ∨ halt = .running .awaitConfig .none) := by
  unfold State.scanEnds
  simp only
  rw [((State.setPressure_keeps _).trans (State.settleAll_keeps _)).sc]
  refine ⟨_, rfl, ?_⟩
  split
  · exact .inl rfl
  · exact .inr rfl

theorem State.accept_sc (s : State) (c : Settings) (carrier : Bool) :
    (s.accept c carrier).sc = { s.sc with settings := some c, phase := .running .joining .none } := by
  unfold State.accept
  simp only
  rw [((State.evaluateDurable_keeps _).trans (State.settleAll_keeps _)).sc]
  rfl

theorem Completes.sc {s t : State} (h : Completes s t) : t.sc = s.sc := by
  obtain ⟨u, ends, kept⟩ := h
  rw [kept.sc, ends.sc]

/-- R40, R51: what a command of a station that is neither held in reset nor SCANNING leaves of its phase. -/
theorem Course.leaves_start {s t : State} {c : Instr} (h : Course s c t) (running : ¬ s.starting) (scan : s.sc.scan = none) :
    (∃ k out, t = (s.beginReset k).setAp { Ap.reset with dataOut := out }) ∨ (¬ t.starting ∧ t.sc.scan = none) := by
  have same_phase {t : State} (ep : t.sc.phase = s.sc.phase) (es : t.sc.scan = s.sc.scan) :
      ¬ t.starting ∧ t.sc.scan = none := by
    unfold State.starting State.station at *
    rw [ep, es]
    exact ⟨running, scan⟩
  have same {t : State} (e : t.sc = s.sc) : ¬ t.starting ∧ t.sc.scan = none := same_phase (by rw [e]) (by rw [e])
  have not_starting {t : State} {st : StationState} {halt : HaltCause} (e : t.sc.phase = .running st halt)
      (hst : st ≠ .scanning) : ¬ t.starting := by
    unfold State.starting State.station
    rw [e]
    simp [hst]
  cases h with
  | moves h => exact .inr (same h.sc)
  | reset k out => exact .inl ⟨k, out, rfl⟩
  | release straps held => exact absurd (.inl (by unfold State.station; rw [held])) running
  | scan h =>
    cases h with
    | idle => exact .inr (same rfl)
    | goesOn _ scanning => rw [scan] at scanning; cases scanning
    | ends _ scanning => rw [scan] at scanning; cases scanning
  | completes h => exact .inr (same h.sc)
  | hailSent _ moved =>
    exact .inr (same_phase (congrArg Sc.phase moved.sc :) (congrArg Sc.scan moved.sc :))
  | listenEnd =>
    have e := (State.settleRepair_keeps s.becomeActive).sc
    refine .inr ⟨not_starting (st := .active) (halt := .none) (by rw [e]; rfl) (by decide), by rw [e]; exact scan⟩
  | configured _ _ _ moved =>
    have e : t.sc = _ := moved.sc.trans (State.accept_sc ..)
    exact .inr ⟨not_starting (st := .joining) (halt := .none) (by rw [e]) (by decide), by rw [e]; exact scan⟩

/-- R51: only a SCANNING station scans, over a command. -/
theorem Course.scans_scanning {s t : State} {c : Instr} (h : Course s c t)
    (w : s.sc.scan.isSome → s.station = some .scanning) : t.sc.scan.isSome → t.station = some .scanning := by
  have same {t : State} (ep : t.sc.phase = s.sc.phase) (es : t.sc.scan = s.sc.scan) :
      t.sc.scan.isSome → t.station = some .scanning := by
    unfold State.station at *
    rw [ep, es]
    exact w
  have without {st : State} (st_scan : st.sc.scan = none) : st.sc.scan.isSome → st.station = some .scanning := fun e => by
    rw [st_scan] at e; cases e
  have idle {st : StationState} (hst : s.station = some st) (ne : st ≠ .scanning) : s.sc.scan = none := by
    rcases e : s.sc.scan with _ | scan
    · rfl
    · rw [w (by rw [e]; rfl)] at hst
      exact absurd (Option.some.inj hst).symm ne
  cases h with
  | moves h => exact same (by rw [h.sc]) (by rw [h.sc])
  | reset k out => exact without rfl
  | release straps held =>
    unfold State.release
    simp only
    split
    · exact fun _ => rfl
    · refine without (?_ : s.sc.scan = none)
      rcases e : s.sc.scan with _ | scan
      · rfl
      · have := w (by rw [e]; rfl)
        unfold State.station at this
        rw [held] at this
        cases this
  | scan h =>
    cases h with
    | idle => exact w
    | goesOn _ scanning _ ends _ _ goes =>
      have scans := w (by rw [scanning]; rfl)
      intro _
      unfold State.station at *
      rw [goes.same, ends.same]
      exact scans
    | @ends u scan scan' _ _ _ _ _ =>
      obtain ⟨halt, e, -⟩ := u.scanEnds_sc scan'
      exact without (by rw [e])
  | completes h => exact same (by rw [h.sc]) (by rw [h.sc])
  | hailSent _ moved => exact same (congrArg Sc.phase moved.sc :) (congrArg Sc.scan moved.sc :)
  | listenEnd joining =>
    have e := (State.settleRepair_keeps s.becomeActive).sc
    exact without (by rw [e]; exact idle joining (by decide))
  | configured _ awaits _ moved =>
    have e : t.sc = _ := moved.sc.trans (State.accept_sc ..)
    exact without (by rw [e]; exact idle awaits (by decide))

theorem exec_startOk {c : Instr} {s t : State} (w : StartOk s) (h : exec c s = .next t) : StartOk t := by
  obtain ⟨rests, scans⟩ := w
  have course := exec_course h
  refine ⟨fun starting' => ?_, course.scans_scanning scans⟩
  by_cases starting : s.starting
  · rcases (exec_atRest (rests starting) starting c).next h with rested | ⟨u, scan, rfl⟩
    · exact rested
    · obtain ⟨halt, e, he⟩ := u.scanEnds_sc scan
      unfold State.station at starting'
      rw [e] at starting'
      rcases he with rfl | rfl <;> simp at starting'
  · have scan : s.sc.scan = none := by
      rcases e : s.sc.scan with _ | scan
      · rfl
      · exact absurd (.inr (scans (by rw [e]; rfl))) starting
    rcases course.leaves_start starting scan with ⟨k, out, rfl⟩ | ⟨left, scanned⟩
    · exact atRest_afterReset s k out
    · exact absurd starting' left

/-- An invariant that does not read the waiting commands and that every command keeps, every step keeps. -/
theorem step_keeps {P : State → Prop} (h : ∀ s rest, P s → P { s with pending := rest })
    (k : ∀ c s t, P s → exec c s = .next t → P t) {s t : State} (w : P s) (e : step s = .next t) : P t := by
  unfold step at e
  split at e
  · cases e
    exact w
  · exact k _ _ _ (h s _ w) e

end Sys2Proof.Machine

namespace Sys2Proof.Proofs

open Sys2Proof.Machine Sys2Proof.Safety

/-- Settles O53: `exec_startOk` over a step. -/
theorem blocksRestDuringTheScan : Obligations.BlocksRestDuringTheScan :=
  fun _ _ w h => step_keeps (P := StartOk) (fun _ _ w => w) (fun _ _ _ => exec_startOk) w h

end Sys2Proof.Proofs

/-! What the scan rebuilds (R47 to R49): the found sets, the own entry and the peers' entries, and the newest block. -/

namespace Sys2Proof.Machine

open Sys2Proof.Safety

/-! ## Found sets (R48) -/

theorem mem_insertRising {x a : Nat} : {l : List Nat} → (a ∈ insertRising x l ↔ a = x ∨ a ∈ l)
  | [] => by simp [insertRising]
  | y :: l => by
    unfold insertRising
    split
    · simp only [List.mem_cons]
    · split
      · rename_i e
        rw [e, List.mem_cons, ← or_assoc, or_self]
      · rw [List.mem_cons, List.mem_cons, mem_insertRising (l := l), or_left_comm]

theorem insertRising_rising {x : Nat} : {l : List Nat} → l.Pairwise (· < ·) → (insertRising x l).Pairwise (· < ·)
  | [], _ => List.pairwise_singleton ..
  | y :: l, h => by
    obtain ⟨hy, hl⟩ := List.pairwise_cons.mp h
    unfold insertRising
    split
    · rename_i hlt
      refine List.pairwise_cons.mpr ⟨fun a ha => ?_, h⟩
      rcases List.mem_cons.mp ha with rfl | ha
      · exact hlt
      · exact Nat.lt_trans hlt (hy a ha)
    · split
      · exact h
      · refine List.pairwise_cons.mpr ⟨fun a ha => ?_, insertRising_rising hl⟩
        rcases mem_insertRising.mp ha with rfl | ha
        · omega
        · exact hy a ha

/-- A found set: rising, without the number 0. -/
def foundSet (found : List Nat) : Prop := found.Pairwise (· < ·) ∧ 0 ∉ found

/-- The found sets after the records of a record list have joined them. -/
def foundAfter (found : Vector (List Nat) 24) (list : List ListEntry) : Vector (List Nat) 24 :=
  list.foldl (fun v e => setLine v e.origin (insertRising e.seq (lineOf v [] e.origin))) found

theorem takeGood_found (scan : Scan) (spare : List Byte) :
    (scan.takeGood spare).found = foundAfter scan.found (spareList spare) := rfl

theorem mem_foundAfter {o n : Nat} (h1 : 1 ≤ o) (h2 : o ≤ 24) : (list : List ListEntry) → (found : Vector (List Nat) 24) →
    (n ∈ lineOf (foundAfter found list) [] o ↔ n ∈ lineOf found [] o ∨ ∃ e, e ∈ list ∧ e.origin = o ∧ e.seq = n)
  | [], found => by simp [foundAfter]
  | e :: list, found => by
    show n ∈ lineOf (foundAfter (setLine found e.origin _) list) [] o ↔ _
    rw [mem_foundAfter h1 h2 list, lineOf_setLine]
    by_cases ho : e.origin = o
    · rw [if_pos ⟨ho, by omega, by omega⟩, mem_insertRising, ho]
      simp only [List.mem_cons, or_and_right, exists_or, exists_eq_left, ho, true_and]
      rw [eq_comm (a := n), or_comm (a := e.seq = n), or_assoc]
    · rw [if_neg (fun h => ho h.1)]
      simp only [List.mem_cons, or_and_right, exists_or, exists_eq_left, ho, false_and, false_or]

theorem foundSet_foundAfter {o : Nat} : (list : List ListEntry) → (∀ e ∈ list, 1 ≤ e.seq) → (found : Vector (List Nat) 24) →
    (∀ o, foundSet (lineOf found [] o)) → foundSet (lineOf (foundAfter found list) [] o)
  | [], _, _, w => w o
  | e :: list, h, found, w => by
    refine foundSet_foundAfter list (fun x hx => h x (List.mem_cons_of_mem _ hx)) _ fun o' => ?_
    rw [lineOf_setLine]
    split
    · obtain ⟨rising, zero⟩ := w e.origin
      refine ⟨insertRising_rising rising, fun h0 => ?_⟩
      rcases mem_insertRising.mp h0 with h0 | h0
      · have := h e (List.mem_cons_self ..)
        omega
      · exact zero h0
    · exact w o'

theorem seq_pos_of_spareGood {spare : List Byte} (h : spareGood spare = true) : ∀ e ∈ spareList spare, 1 ≤ e.seq := by
  unfold spareGood at h
  simp only [Bool.and_eq_true, List.all_eq_true, decide_eq_true_eq] at h
  obtain ⟨⟨⟨-, h⟩, -⟩, -⟩ := h
  exact h

/-- R46, R48: the found sets stay found sets as the scan goes on. -/
theorem Scan.leadsTo_foundSet {scan scan' : Scan} (h : scan.leadsTo scan') (read : scan.step.readable)
    (w : ∀ o, foundSet (lineOf scan.found [] o)) (o : Nat) : foundSet (lineOf scan'.found [] o) := by
  rcases h with e | ⟨mode, spare, step, written, e⟩
  · rw [e]; exact w o
  · rw [e, takeGood_found]
    refine foundSet_foundAfter _ (seq_pos_of_spareGood ?_) _ w
    have := read mode spare step
    rwa [written, Bool.false_or] at this

/-! ## A peer's entry (R49) -/

theorem Entry.inGap_cons (f t : Nat) (g : Range) (gs : List Range) (n : Nat) :
    ({ floor := f, top := t, gaps := g :: gs } : Entry).inGap n = true ↔
      (g.lo ≤ n ∧ n ≤ g.hi) ∨ ({ floor := f, top := t, gaps := gs } : Entry).inGap n = true := by
  simp [Entry.inGap]

/-- No number below the first gap lies in a gap. -/
theorem inGap_of_gapsOk {lo top n : Nat} {gs : List Range} (h : gapsOk lo top gs = true) {e : Entry} (he : e.gaps = gs)
    (hn : e.inGap n = true) : lo ≤ n ∧ n < top := by
  unfold Entry.inGap at hn
  rw [he] at hn
  obtain ⟨g, hg, hb⟩ := List.any_eq_true.mp hn
  simp only [Bool.and_eq_true, decide_eq_true_eq] at hb
  have := hi_lt_top h g hg
  omega

theorem Entry.settled_iff {e : Entry} {n : Nat} : e.settled n = true ↔ e.floor ≤ n ∧ n ≤ e.top ∧ e.inGap n = false := by
  unfold Entry.settled
  simp only [Bool.and_eq_true, decide_eq_true_eq, Bool.not_eq_true', and_assoc]

/-- The walk of R49 has come down to `lo` from `top` with `gaps`: exactly the found numbers from `lo` on lie in no gap. -/
structure Walked (found : List Nat) (top lo : Nat) (gaps : List Range) : Prop where
  le_top : lo ≤ top
  lo_found : lo ∈ found
  gaps_ok : gapsOk (lo + 1) top gaps = true
  few : gaps.length ≤ 6
  settled : ∀ n, lo ≤ n → n ≤ top → (({ floor := lo, top := top, gaps := gaps } : Entry).inGap n = false ↔ n ∈ found)

theorem Entry.inGap_floor (f f' t : Nat) (gs : List Range) (n : Nat) :
    ({ floor := f, top := t, gaps := gs } : Entry).inGap n = ({ floor := f', top := t, gaps := gs } : Entry).inGap n := rfl

/-- R49: the walk keeps its form, and stops above a found number only with six gaps and no number found just below. -/
theorem walkDown_walked {found : List Nat} {top : Nat} : (xs : List Nat) → (lo : Nat) → (gaps : List Range) →
    Walked found top lo gaps → (∀ n, n ∈ xs ↔ n ∈ found ∧ n < lo) → xs.Pairwise (· > ·) →
    Walked found top (walkDown lo gaps xs).1 (walkDown lo gaps xs).2
      ∧ ∀ n, n ∈ found → n < (walkDown lo gaps xs).1 →
          (walkDown lo gaps xs).2.length = 6 ∧ (walkDown lo gaps xs).1 - 1 ∉ found
  | [], lo, gaps, w, below, _ => ⟨w, fun n hn hlt => absurd ((below n).mpr ⟨hn, hlt⟩) List.not_mem_nil⟩
  | x :: xs, lo, gaps, w, below, falling => by
    obtain ⟨hx, falling'⟩ := List.pairwise_cons.mp falling
    obtain ⟨x_found, x_lt⟩ := (below x).mp (List.mem_cons_self ..)
    have largest {n : Nat} (hn : n ∈ found) (hlt : n < lo) : n ≤ x := by
      rcases List.mem_cons.mp ((below n).mpr ⟨hn, hlt⟩) with rfl | h
      · exact Nat.le_refl _
      · exact Nat.le_of_lt (hx n h)
    have below' (n : Nat) : n ∈ xs ↔ n ∈ found ∧ n < x := by
      refine ⟨fun h => ⟨((below n).mp (List.mem_cons_of_mem _ h)).1, hx n h⟩, fun ⟨h, hlt⟩ => ?_⟩
      rcases List.mem_cons.mp ((below n).mpr ⟨h, by omega⟩) with rfl | h
      · omega
      · exact h
    have above_gap {n : Nat} (hn : ({ floor := lo, top := top, gaps := gaps } : Entry).inGap n = true) : lo + 1 ≤ n :=
      (inGap_of_gapsOk w.gaps_ok rfl hn).1
    unfold walkDown
    by_cases next : x + 1 = lo
    · rw [if_pos next]
      refine walkDown_walked xs x gaps ⟨by have := w.le_top; omega, x_found, gapsOk_mono (by omega) w.gaps_ok, w.few,
        fun n h1 h2 => ?_⟩ below' falling'
      by_cases hn : n = x
      · subst hn
        refine iff_of_true (Bool.eq_false_iff.mpr fun h => ?_) x_found
        have := above_gap h
        omega
      · exact w.settled n (by omega) h2
    · rw [if_neg next]
      by_cases room : gaps.length < Config.maxGaps
      · rw [if_pos room]
        have le_top := w.le_top
        refine walkDown_walked xs x _ ⟨by omega, x_found, ?_, room, fun n h1 h2 => ?_⟩ below' falling'
        · rw [gapsOk_cons]
          refine ⟨Nat.le_refl _, by show x + 1 ≤ lo - 1; omega, by show lo - 1 < top; omega, ?_⟩
          have e : lo - 1 + 2 = lo + 1 := by omega
          show gapsOk (lo - 1 + 2) top gaps = true
          rw [e]
          exact w.gaps_ok
        · rw [← Bool.not_eq_true, Entry.inGap_cons]
          show ¬ ((x + 1 ≤ n ∧ n ≤ lo - 1) ∨ _) ↔ _
          by_cases low : n < lo
          · have outside : ¬ ({ floor := x, top := top, gaps := gaps } : Entry).inGap n = true := fun h => by
              have := above_gap h
              omega
            rw [or_iff_left outside]
            constructor
            · intro h
              have : n = x := by omega
              exact this ▸ x_found
            · intro h
              have := largest h low
              omega
          · have outside : ¬ (x + 1 ≤ n ∧ n ≤ lo - 1) := by omega
            rw [or_iff_right outside, Bool.not_eq_true]
            exact w.settled n (by omega) h2
      · rw [if_neg room]
        have full : gaps.length = 6 := Nat.le_antisymm w.few (Nat.le_of_not_lt room)
        refine ⟨w, fun n hn hlt => ⟨full, fun h => ?_⟩⟩
        have := largest h (by show lo - 1 < lo; omega)
        show False
        have := largest hn hlt
        simp only at *
        omega

/-- R49: a peer's rebuilt entry: where the walk from the largest found number has come to. -/
theorem peerRebuilt_walked {found : List Nat} (w : foundSet found) (ne : found ≠ []) :
    Walked found (peerRebuilt found).top (peerRebuilt found).floor (peerRebuilt found).gaps
      ∧ (∀ n, n ∈ found → n ≤ (peerRebuilt found).top) ∧ (peerRebuilt found).top ∈ found
      ∧ ∀ n, n ∈ found → n < (peerRebuilt found).floor →
          (peerRebuilt found).gaps.length = 6 ∧ (peerRebuilt found).floor - 1 ∉ found := by
  obtain ⟨rising, zero⟩ := w
  have falling : found.reverse.Pairwise (· > ·) := List.pairwise_reverse.mpr rising
  have mem (n : Nat) : n ∈ found ↔ n ∈ found.reverse := List.mem_reverse.symm
  unfold peerRebuilt
  rcases h : found.reverse with _ | ⟨t, xs⟩
  · exact absurd (List.reverse_eq_nil_iff.mp h) ne
  · rw [h] at falling
    obtain ⟨ht, falling'⟩ := List.pairwise_cons.mp falling
    have t_found : t ∈ found := (mem t).mpr (by rw [h]; exact List.mem_cons_self ..)
    have largest (n : Nat) (hn : n ∈ found) : n ≤ t := by
      rcases List.mem_cons.mp (h ▸ (mem n).mp hn) with rfl | hx
      · exact Nat.le_refl _
      · exact Nat.le_of_lt (ht n hx)
    have start : Walked found t t [] := ⟨Nat.le_refl _, t_found, rfl, Nat.zero_le _, fun n h1 h2 => by
      have : n = t := Nat.le_antisymm h2 h1
      exact iff_of_true rfl (this ▸ t_found)⟩
    have below (n : Nat) : n ∈ xs ↔ n ∈ found ∧ n < t := by
      refine ⟨fun hx => ⟨(mem n).mpr (by rw [h]; exact List.mem_cons_of_mem _ hx), ht n hx⟩, fun ⟨hn, hlt⟩ => ?_⟩
      rcases List.mem_cons.mp (h ▸ (mem n).mp hn) with rfl | hx
      · omega
      · exact hx
    obtain ⟨walked, stops⟩ := walkDown_walked xs t [] start below falling'
    exact ⟨walked, largest, t_found, stops⟩

theorem Walked.entryOk {found : List Nat} {e : Entry} (zero : 0 ∉ found) (w : Walked found e.top e.floor e.gaps) :
    entryOk e = true := by
  have pos : e.floor ≠ 0 := fun h => zero (h ▸ w.lo_found)
  have := w.le_top
  exact entryOk_iff.mpr ⟨by omega, by omega, gapsOk_mono (Nat.le_succ _) w.gaps_ok, w.few⟩

theorem entryOk_peerRebuilt {found : List Nat} (w : foundSet found) : entryOk (peerRebuilt found) = true := by
  by_cases ne : found = []
  · rw [ne]; rfl
  · exact (peerRebuilt_walked w ne).1.entryOk w.2

/-! ## The own entry (R48) -/

/-- R48: from `lo` down to where the run of found numbers ends. -/
theorem runDown_run {found : List Nat} : (xs : List Nat) → (lo : Nat) → lo ∈ found →
    (∀ n, n ∈ xs ↔ n ∈ found ∧ n < lo) → xs.Pairwise (· > ·) →
    runDown lo xs ≤ lo ∧ runDown lo xs ∈ found ∧ (∀ n, runDown lo xs ≤ n → n ≤ lo → n ∈ found)
      ∧ (0 ∉ found → runDown lo xs - 1 ∉ found)
  | [], lo, hlo, below, _ => by
    refine ⟨Nat.le_refl _, hlo, fun n h1 h2 => (Nat.le_antisymm h2 h1) ▸ hlo, fun zero h => ?_⟩
    have pos : lo ≠ 0 := fun e => zero (e ▸ hlo)
    have h' : lo - 1 ∈ found := h
    exact absurd ((below (lo - 1)).mpr ⟨h', by omega⟩) List.not_mem_nil
  | x :: xs, lo, hlo, below, falling => by
    obtain ⟨hx, falling'⟩ := List.pairwise_cons.mp falling
    obtain ⟨x_found, x_lt⟩ := (below x).mp (List.mem_cons_self ..)
    unfold runDown
    split
    · rename_i next
      have below' (n : Nat) : n ∈ xs ↔ n ∈ found ∧ n < x := by
        refine ⟨fun h => ⟨((below n).mp (List.mem_cons_of_mem _ h)).1, hx n h⟩, fun ⟨h, hlt⟩ => ?_⟩
        rcases List.mem_cons.mp ((below n).mpr ⟨h, by omega⟩) with rfl | h
        · omega
        · exact h
      obtain ⟨h1, h2, h3, h4⟩ := runDown_run xs x x_found below' falling'
      refine ⟨by omega, h2, fun n hn hle => ?_, h4⟩
      by_cases e : n ≤ x
      · exact h3 n hn e
      · have : n = lo := by omega
        exact this ▸ hlo
    · rename_i gap
      refine ⟨Nat.le_refl _, hlo, fun n h1 h2 => (Nat.le_antisymm h2 h1) ▸ hlo, fun zero h => ?_⟩
      have pos : lo ≠ 0 := fun e => zero (e ▸ hlo)
      rcases List.mem_cons.mp ((below (lo - 1)).mpr ⟨h, by omega⟩) with e | hm
      · omega
      · have := hx _ hm
        omega

theorem ownRebuilt_top (mark : Nat) (found : List Nat) : (ownRebuilt mark found).top = mark := by
  unfold ownRebuilt
  split
  · split <;> rfl
  · rfl

theorem ownRebuilt_gaps (mark : Nat) (found : List Nat) : (ownRebuilt mark found).gaps = [] := by
  unfold ownRebuilt
  split
  · split <;> rfl
  · rfl

/-- R48: the own floor: above the mark where the mark's number was not found (log 34), else the lowest number of its run. -/
theorem ownRebuilt_floor {found : List Nat} (w : foundSet found) (mark : Nat) :
    (mark ∉ found → (ownRebuilt mark found).floor = min (mark + 1) 4294967295)
      ∧ (mark ∈ found → (ownRebuilt mark found).floor ≤ mark ∧ (ownRebuilt mark found).floor ∈ found
          ∧ (∀ n, (ownRebuilt mark found).floor ≤ n → n ≤ mark → n ∈ found) ∧ (ownRebuilt mark found).floor - 1 ∉ found) := by
  obtain ⟨rising, zero⟩ := w
  have falling : (found.filter fun n => decide (n ≤ mark)).reverse.Pairwise (· > ·) :=
    List.pairwise_reverse.mpr (rising.sublist List.filter_sublist)
  have mem (n : Nat) : n ∈ (found.filter fun n => decide (n ≤ mark)).reverse ↔ n ∈ found ∧ n ≤ mark := by
    rw [List.mem_reverse, List.mem_filter, decide_eq_true_eq]
  unfold ownRebuilt
  rcases h : (found.filter fun n => decide (n ≤ mark)).reverse with _ | ⟨x, xs⟩
  · rw [h] at mem
    exact ⟨fun _ => rfl, fun hm => absurd ((mem mark).mpr ⟨hm, Nat.le_refl _⟩) List.not_mem_nil⟩
  · rw [h] at mem falling
    obtain ⟨hx, falling'⟩ := List.pairwise_cons.mp falling
    have x_found := (mem x).mp (List.mem_cons_self ..)
    by_cases e : x = mark
    · subst e
      have below (n : Nat) : n ∈ xs ↔ n ∈ found ∧ n < x := by
        refine ⟨fun hm => ⟨((mem n).mp (List.mem_cons_of_mem _ hm)).1, hx n hm⟩, fun ⟨hm, hlt⟩ => ?_⟩
        rcases List.mem_cons.mp ((mem n).mpr ⟨hm, by omega⟩) with rfl | hm
        · omega
        · exact hm
      obtain ⟨h1, h2, h3, h4⟩ := runDown_run xs x x_found.1 below falling'
      simp only [if_true]
      exact ⟨fun hm => absurd x_found.1 hm, fun _ => ⟨h1, h2, h3, h4 zero⟩⟩
    · simp only [if_neg e]
      refine ⟨fun _ => rfl, fun hm => ?_⟩
      rcases List.mem_cons.mp ((mem mark).mpr ⟨hm, Nat.le_refl _⟩) with h' | h'
      · exact absurd h'.symm e
      · have := hx _ h'
        have := x_found.2
        omega

theorem entryOk_ownRebuilt {found : List Nat} (w : foundSet found) (mark : Nat) : entryOk (ownRebuilt mark found) = true := by
  obtain ⟨absent, present⟩ := ownRebuilt_floor w mark
  rw [entryOk_iff, ownRebuilt_top, ownRebuilt_gaps]
  refine ⟨?_, ?_, rfl, Nat.zero_le _⟩
  all_goals
    by_cases h : mark ∈ found
    · obtain ⟨h1, h2, -⟩ := present h
      have : (ownRebuilt mark found).floor ≠ 0 := fun e => w.2 (e ▸ h2)
      omega
    · have := absent h
      omega

/-! ## The holdings after the scan -/

/-- A fold of lines over origins `1..n`: the line of each. -/
theorem lineOf_foldl_setLine {α : Type} {n : Nat} (f : Nat → α) (d : α) (o : Nat) : (l : List Nat) → (v : Vector α n) →
    lineOf (l.foldl (fun v o => setLine v o (f o)) v) d o = if o ∈ l ∧ 1 ≤ o ∧ o ≤ n then f o else lineOf v d o
  | [], v => by simp
  | x :: l, v => by
    rw [List.foldl_cons, lineOf_foldl_setLine f d o l, lineOf_setLine]
    by_cases hx : x = o
    · subst hx
      by_cases h : 1 ≤ x ∧ x ≤ n <;> simp [h]
    · have : ¬ o = x := fun e => hx e.symm
      simp [hx, this]

theorem mem_upFrom {a n o : Nat} : o ∈ upFrom a n ↔ a ≤ o ∧ o < a + n := by
  unfold upFrom
  simp only [List.mem_map, List.mem_range]
  constructor
  · rintro ⟨i, hi, rfl⟩
    omega
  · intro h
    exact ⟨o - a, by omega, by omega⟩

theorem State.entry_rebuildHoldings (s : State) (scan : Scan) (o : Nat) :
    (s.rebuildHoldings scan).entry o = if 1 ≤ o ∧ o ≤ 24 then scan.entryOf s.own o else s.entry o := by
  unfold State.rebuildHoldings State.entry
  show lineOf ((upFrom 1 Config.maxStations).foldl (fun v o => setLine v o (scan.entryOf s.own o)) s.hu.entries) _ o = _
  rw [lineOf_foldl_setLine]
  have : (o ∈ upFrom 1 Config.maxStations ∧ 1 ≤ o ∧ o ≤ 24) ↔ (1 ≤ o ∧ o ≤ 24) := by
    rw [mem_upFrom]
    show (1 ≤ o ∧ o < 1 + 24) ∧ _ ↔ _
    omega
  simp only [this]

theorem Scan.entryOf_ok {scan : Scan} (w : ∀ o, foundSet (lineOf scan.found [] o)) (own o : Nat) :
    entryOk (scan.entryOf own o) = true := by
  unfold Scan.entryOf
  simp only
  split
  · exact entryOk_ownRebuilt (w o) _
  · exact entryOk_peerRebuilt (w o)

/-! ## The newest block (R47) -/

/-- A block that a fold of block writes leaves OPEN was OPEN, or the entry written is. -/
theorem fold_setBlock_opened (f : ScanClass × Nat → BlockEntry) (b : Nat) : (l : List (ScanClass × Nat)) → (sm : Sm) →
    ((l.foldl (fun m x => m.setBlock x.2 (f x)) sm).block b).state = .opened →
      (sm.block b).state = .opened ∨ ∃ x ∈ l, x.2 = b ∧ (f x).state = .opened
  | [], sm, h => .inl h
  | x :: l, sm, h => by
    rcases fold_setBlock_opened f b l _ h with h | ⟨y, hy, e⟩
    · rw [Sm.block_setBlock] at h
      split at h
      · rename_i hb
        exact .inr ⟨x, List.mem_cons_self .., hb.1, h⟩
      · exact .inl h
    · exact .inr ⟨y, List.mem_cons_of_mem _ hy, e⟩

theorem ScanClass.entry_opened {newest : Bool} {c : ScanClass} (h : (c.entry newest).state = .opened) : newest = true := by
  cases c with
  | free => cases h
  | retired cause => cases h
  | written stamp pages torn summary =>
    unfold ScanClass.entry at h
    simp only at h
    split at h
    · rename_i e
      simp only [Bool.and_eq_true] at e
      exact e.1.1.1
    · cases h

/-- R25, R47: over a table without an OPEN block the scan opens the newest block at most. -/
theorem Sm.rebuilt_opened {sm : Sm} (none_open : ∀ b, (sm.block b).state ≠ .opened) {classes : List (ScanClass × Nat)} {b : Nat}
    (h : ((sm.rebuilt classes).block b).state = .opened) : (newestWritten classes).map Prod.snd = some b := by
  have table : ((classes.foldl (fun m x => m.setBlock x.2
      (x.1.entry ((newestWritten classes).map Prod.snd == some x.2))) sm).block b).state = .opened := by
    unfold Sm.rebuilt at h
    simp only at h
    split at h
    · exact h
    · exact h
  rcases fold_setBlock_opened _ b classes sm table with opened | ⟨x, -, rfl, opened⟩
  · exact absurd opened (none_open b)
  · exact eq_of_beq (ScanClass.entry_opened opened)

end Sys2Proof.Machine

/-! The invariants of the array, the block table, the settings, the scan, the holdings and D, over every command. -/

namespace Sys2Proof.Machine

open Sys2Proof.Safety

/-! ## What the end of the scan and the acceptance of a CONFIGURE write before reclaim and the grant -/

/-- The store and the holdings rebuilt, and the station out of SCANNING (R47 to R50). -/
def State.scanRebuilt (u : State) (scan : Scan) : State :=
  ((u.setSm { u.sm.rebuilt scan.classes.reverse.zipIdx with reclaimDue := true }).rebuildHoldings scan).afterScan

theorem State.scanEnds_keeps (u : State) (scan : Scan) : Keeps (u.scanRebuilt scan) (u.scanEnds scan) :=
  (State.setPressure_keeps _).trans (State.settleAll_keeps _)

/-- The settings applied, and the station in JOINING (R53, R54). -/
def State.joined (s : State) (c : Settings) (carrier : Bool) : State :=
  let s1 := s.setSc { s.sc with settings := some c, phase := .running .joining .none }
  let s2 := (s1.setHu (s1.hu.configured s.own c.groupSize)).orphans (s.settledAbove c.groupSize)
  (s2.setLc (s2.lc.joining carrier)).setNu (s2.nu.setAttn c.noticeThreshold)

theorem State.accept_keeps (s : State) (c : Settings) (carrier : Bool) : Keeps (s.joined c carrier) (s.accept c carrier) :=
  (State.evaluateDurable_keeps _).trans (State.settleAll_keeps _)

namespace State

theorem scanRebuilt_fc (u : State) (scan : Scan) : (u.scanRebuilt scan).fc = u.fc := (rfl)
theorem scanRebuilt_own (u : State) (scan : Scan) : (u.scanRebuilt scan).own = u.own := (rfl)
theorem scanRebuilt_settings (u : State) (scan : Scan) : (u.scanRebuilt scan).sc.settings = u.sc.settings := (rfl)

theorem scanRebuilt_hu (u : State) (scan : Scan) : (u.scanRebuilt scan).hu = { u.hu with
    entries := (upFrom 1 Config.maxStations).foldl (fun v o => setLine v o (scan.entryOf u.own o)) u.hu.entries } := by
  unfold scanRebuilt afterScan rebuildHoldings orphans raise
  simp only [setSc_hu, setAp_hu, setHu_hu, setSm_hu, setSm_own]

theorem scanRebuilt_durable (u : State) (scan : Scan) : (u.scanRebuilt scan).hu.durable = u.hu.durable := by
  rw [scanRebuilt_hu]

theorem cell_scanRebuilt (u : State) (scan : Scan) (p o : Nat) : (u.scanRebuilt scan).cell p o = u.cell p o := by
  unfold cell row
  rw [scanRebuilt_hu]

theorem block_scanRebuilt (u : State) (scan : Scan) (b : Nat) :
    (u.scanRebuilt scan).sm.block b = (u.sm.rebuilt scan.classes.reverse.zipIdx).block b := (rfl)

theorem entry_scanRebuilt (u : State) (scan : Scan) (o : Nat) :
    (u.scanRebuilt scan).entry o = if 1 ≤ o ∧ o ≤ 24 then scan.entryOf u.own o else u.entry o := by
  unfold entry
  rw [scanRebuilt_hu]
  exact entry_rebuildHoldings u scan o

section
variable (s : State) (c : Settings) (carrier : Bool)

theorem joined_fc : (s.joined c carrier).fc = s.fc := rfl
theorem joined_sm : (s.joined c carrier).sm = s.sm := rfl
theorem joined_own : (s.joined c carrier).own = s.own := rfl
theorem joined_settings : (s.joined c carrier).sc.settings = some c := rfl
theorem joined_durable : (s.joined c carrier).hu.durable = s.hu.durable := rfl

theorem cell_of_no_row {t : State} {p : Nat} (h : t.row p = none) (o : Nat) : t.cell p o = none := by
  unfold cell
  rw [h]

theorem cell_joined (p o : Nat) : (s.joined c carrier).cell p o = none :=
  cell_of_no_row (by exact lineOf_replicate 24 (none : Option (List Pair)) p) o

theorem entry_joined (o : Nat) :
    (s.joined c carrier).entry o = if c.groupSize < o ∧ o ≤ 24 then Entry.reset else s.entry o := by
  show lineOf ((upFrom (c.groupSize + 1) (Config.maxStations - c.groupSize)).foldl (fun v o => setLine v o Entry.reset)
    s.hu.entries) Entry.reset o = _
  rw [lineOf_foldl_setLine (fun _ => Entry.reset)]
  have : (o ∈ upFrom (c.groupSize + 1) (Config.maxStations - c.groupSize) ∧ 1 ≤ o ∧ o ≤ 24)
      ↔ (c.groupSize < o ∧ o ≤ 24) := by
    rw [mem_upFrom]
    show (c.groupSize + 1 ≤ o ∧ o < c.groupSize + 1 + (24 - c.groupSize)) ∧ _ ↔ _
    omega
  simp only [this]
  rfl

end

/-- Table 3-5: a group holds the station's own number. -/
theorem own_le_groupSize {c : Settings} {own : Nat} (h : c.inRange own = true) : own ≤ c.groupSize := by
  simp only [Settings.inRange, Bool.and_eq_true, decide_eq_true_eq] at h
  omega

theorem ownTop_joined {s : State} {c : Settings} (carrier : Bool) (h : c.inRange s.own = true) :
    (s.joined c carrier).ownTop = s.ownTop := by
  have := own_le_groupSize h
  unfold ownTop
  rw [joined_own, entry_joined, if_neg (by omega)]

end State

/-! ## States at rest -/

section
variable {s : State}

theorem entry_atRest (w : AtRest s) (o : Nat) : s.entry o = Entry.reset := by
  unfold State.entry
  rw [hu_atRest w]
  exact lineOf_replicate ..

theorem cell_atRest (w : AtRest s) (p o : Nat) : s.cell p o = none := by
  refine State.cell_of_no_row ?_ o
  unfold State.row
  rw [hu_atRest w]
  exact lineOf_replicate ..

theorem durable_atRest (w : AtRest s) : s.hu.durable = 0 := by rw [hu_atRest w]; rfl

theorem settings_atRest (w : AtRest s) : s.sc.settings = none := by
  obtain ⟨-, -, -, -, -, -, -, -, -, -, -, h, -⟩ := w
  exact h

theorem sm_atRest (w : AtRest s) : s.sm = Sm.reset := w.1

theorem block_atRest (w : AtRest s) (b : Nat) : s.sm.block b = BlockEntry.reset := by
  rw [sm_atRest w]
  exact place_replicate ..

theorem holdingsOk_atRest (w : AtRest s) : HoldingsOk s :=
  ⟨fun o => by rw [entry_atRest w]; exact entryOk_reset, by rw [entry_atRest w]; rfl⟩

theorem durableOk_atRest (w : AtRest s) : DurableOk s :=
  ⟨by rw [durable_atRest w]; exact Nat.zero_le _, fun p c h => by rw [cell_atRest w] at h; cases h⟩

theorem settingsOk_atRest (w : AtRest s) : SettingsOk s := fun c h => by rw [settings_atRest w] at h; cases h

theorem oneOpen_atRest (w : AtRest s) : OneOpen s := fun a _ h _ => by
  rw [block_atRest w] at h
  cases h

/-- A station that scans is at rest. -/
theorem atRest_of_scan (w : StartOk s) {scan : Scan} (h : s.sc.scan = some scan) : AtRest s :=
  w.1 (.inr (w.2 (by rw [h]; rfl)))

theorem atRest_of_held (w : StartOk s) {k : ResetKind} (h : s.sc.phase = .held k) : AtRest s :=
  w.1 (.inl (by unfold State.station; rw [h]))

end

/-- Before the scan goes on, its operation ended, the blocks are at rest but for the operation. -/
theorem atRest_scanOpEnds {s u : State} (w : AtRest s) (ends : ScanOpEnds s u) : AtRest u := by
  obtain ⟨h1, h2, h3, h4, h5, h6, h7, h8, h9, h10, h11, h12, h13, h14, h15, h16, h17, h18, h19, h20, -⟩ := w
  rw [ends.same, ends.port, ends.fc]
  exact ⟨h1, h2, h3, h4, h5, h6, h7, h8, h9, h10, h11, h12, h13, h14, h15, h16, h17, h18, h19, h20, fun op e => by cases e⟩

/-! ## The array (R1, R2) -/

theorem State.durableOk_scanRebuilt {u : State} (rests : AtRest u) (scan : Scan) : DurableOk (u.scanRebuilt scan) := by
  refine ⟨?_, fun p c h => ?_⟩
  · rw [State.scanRebuilt_durable, durable_atRest rests]
    exact Nat.zero_le _
  · rw [State.cell_scanRebuilt, cell_atRest rests] at h
    cases h

theorem State.durableOk_joined {s : State} {c : Settings} (carrier : Bool) (range : c.inRange s.own = true) (w : DurableOk s) :
    DurableOk (s.joined c carrier) := by
  refine ⟨?_, fun p c h => by rw [State.cell_joined] at h; cases h⟩
  rw [State.joined_durable, State.ownTop_joined carrier range]
  exact w.1

/-- The settings accepted stay in range after the reclaim and the grant that follow. -/
theorem State.settingsOk_accept {s : State} {c : Settings} (carrier : Bool) (range : c.inRange s.own = true) :
    SettingsOk (s.accept c carrier) := by
  intro c' h
  rw [State.accept_sc] at h
  cases h
  rw [(State.accept_keeps ..).own, State.joined_own]
  exact range

theorem Course.memoryOk {s t : State} {c : Instr} (h : Course s c t) (w : MemoryOk s) : MemoryOk t := by
  cases h with
  | moves h => exact h.store.memoryOk w
  | reset =>
    unfold MemoryOk State.beginReset Fc.afterReset
    show ((s.fc.op.map (s.fc.mem.cutShort s.fresh)).getD s.fc.mem).wf = true
    rcases s.fc.op with _ | op
    · exact w
    · exact Memory.wf_cutShort w ..
  | release =>
    unfold State.release
    simp only
    split
    · exact w
    · exact w
  | scan h =>
    cases h with
    | idle => exact w
    | goesOn _ _ _ ends _ _ goes => exact goes.mem (ends.mem w)
    | ends _ _ _ ends => exact (State.scanEnds_keeps ..).memoryOk (ends.mem w)
  | completes h =>
    obtain ⟨u, ends, kept⟩ := h
    exact kept.memoryOk (ends.mem w)
  | hailSent _ moved => exact (moved.store.memoryOk w :)
  | listenEnd => exact (State.settleRepair_keeps _).memoryOk w
  | configured _ _ _ moved =>
    exact moved.store.memoryOk ((State.accept_keeps ..).memoryOk w)

/-! ## The block table (R25) -/

theorem Course.oneOpen {s t : State} {c : Instr} (h : Course s c t) (start : StartOk s) (w : OneOpen s) : OneOpen t := by
  cases h with
  | moves h => exact h.store.oneOpen w
  | reset kind out => exact oneOpen_atRest (atRest_afterReset s kind out)
  | release straps held => exact oneOpen_atRest (atRest_release (atRest_of_held start held) ..)
  | scan h =>
    cases h with
    | idle => exact w
    | goesOn _ scanning _ ends _ _ goes => exact oneOpen_atRest (atRest_scanGoesOn (atRest_of_scan start scanning) ends goes)
    | @ends u scan scan' _ scanning _ ends _ =>
      refine (State.scanEnds_keeps u scan').oneOpen fun a b ha hb => ?_
      have none_open (b : Nat) : (u.sm.block b).state ≠ .opened := by
        rw [block_atRest (atRest_scanOpEnds (atRest_of_scan start scanning) ends)]
        exact BlockState.noConfusion
      rw [State.block_scanRebuilt] at ha hb
      exact Option.some.inj ((Sm.rebuilt_opened none_open ha).symm.trans (Sm.rebuilt_opened none_open hb))
  | completes h =>
    obtain ⟨u, ends, kept⟩ := h
    exact kept.oneOpen (ends.oneOpen w)
  | hailSent _ moved => exact (moved.store.oneOpen w :)
  | listenEnd => exact (State.settleRepair_keeps _).oneOpen w
  | configured _ _ _ moved => exact moved.store.oneOpen ((State.accept_keeps ..).oneOpen w)

/-! ## The settings (R52) and the scan's working state (R46, R48) -/

theorem Course.settingsOk {s t : State} {c : Instr} (h : Course s c t) (start : StartOk s) (w : SettingsOk s) : SettingsOk t := by
  have of_sc {t : State} (hs : t.sc.settings = s.sc.settings) (ho : t.own = s.own) : SettingsOk t := by
    unfold SettingsOk at *
    rw [hs, ho]
    exact w
  cases h with
  | moves h => exact h.settingsOk w
  | reset kind out => exact settingsOk_atRest (atRest_afterReset s kind out)
  | release straps held => exact settingsOk_atRest (atRest_release (atRest_of_held start held) ..)
  | scan h =>
    cases h with
    | idle => exact w
    | goesOn _ scanning _ ends _ _ goes =>
      exact settingsOk_atRest (atRest_scanGoesOn (atRest_of_scan start scanning) ends goes)
    | ends _ _ _ ends =>
      have kept := State.scanEnds_keeps
      refine of_sc ?_ ?_
      · rw [(kept ..).sc, State.scanRebuilt_settings, ends.same]
      · rw [(kept ..).own, State.scanRebuilt_own, ends.same]
        rfl
  | completes h => exact of_sc (by rw [h.sc]) (congrArg Sc.number h.sc)
  | hailSent _ moved => exact (moved.settingsOk w :)
  | listenEnd =>
    have e := (State.settleRepair_keeps s.becomeActive).sc
    exact of_sc (by rw [e]; rfl) (congrArg Sc.number e :)
  | configured _ _ range moved =>
    refine moved.settingsOk fun c' h => ?_
    rw [State.accept_sc] at h
    cases h
    rw [(State.accept_keeps ..).own, State.joined_own]
    exact range

theorem Course.scanOk {s t : State} {c : Instr} (h : Course s c t) (w : ScanOk s) : ScanOk t := by
  have of_scan {t : State} (h : t.sc.scan = s.sc.scan) : ScanOk t := by
    unfold ScanOk at *
    rw [h]
    exact w
  have no_scan {t : State} (h : t.sc.scan = none) : ScanOk t := fun scan e => by rw [h] at e; cases e
  cases h with
  | moves h => exact of_scan (by rw [h.sc])
  | reset => exact no_scan rfl
  | release =>
    unfold State.release
    simp only
    split
    · intro scan e
      cases e
      have none_found (o : Nat) : lineOf Scan.first.found [] o = [] := lineOf_replicate ..
      exact ⟨fun o => by
          show (lineOf Scan.first.found [] o).Pairwise _ ∧ 0 ∉ lineOf Scan.first.found [] o
          rw [none_found]
          exact ⟨.nil, List.not_mem_nil⟩,
        fun mode spare e => by cases e⟩
    · exact of_scan rfl
  | scan h =>
    cases h with
    | idle => exact w
    | goesOn _ scanning _ ends lead read goes =>
      intro scan e
      rw [goes.same] at e
      cases e
      obtain ⟨found, readable⟩ := w _ scanning
      exact ⟨fun o => Scan.leadsTo_foundSet lead readable found o, read⟩
    | @ends u scan scan' _ _ _ _ _ =>
      obtain ⟨halt, e, -⟩ := u.scanEnds_sc scan'
      exact no_scan (by rw [e])
  | completes h => exact of_scan (by rw [h.sc])
  | hailSent _ moved => exact of_scan (congrArg Sc.scan moved.sc :)
  | listenEnd => exact of_scan (by rw [(State.settleRepair_keeps _).sc]; rfl)
  | configured _ _ _ moved => exact of_scan (by rw [moved.sc, State.accept_sc]; rfl)

/-! ## The holdings (R77 to R79) -/

theorem Course.holdingsOk {s t : State} {c : Instr} (h : Course s c t) (start : StartOk s) (scanOk : ScanOk s)
    (w : HoldingsOk s) : HoldingsOk t := by
  cases h with
  | moves h => exact h.holdingsOk w
  | reset kind out => exact holdingsOk_atRest (atRest_afterReset s kind out)
  | release straps held => exact holdingsOk_atRest (atRest_release (atRest_of_held start held) ..)
  | scan h =>
    cases h with
    | idle => exact w
    | goesOn _ scanning _ ends _ _ goes =>
      exact holdingsOk_atRest (atRest_scanGoesOn (atRest_of_scan start scanning) ends goes)
    | @ends u scan scan' _ scanning _ ends lead =>
      have rests := atRest_scanOpEnds (atRest_of_scan start scanning) ends
      obtain ⟨found, readable⟩ := scanOk _ scanning
      refine (State.scanEnds_keeps u scan').holdingsOk ⟨fun o => ?_, ?_⟩
      · rw [State.entry_scanRebuilt]
        split
        · exact Scan.entryOf_ok (Scan.leadsTo_foundSet lead readable found) _ o
        · rw [entry_atRest rests]; exact entryOk_reset
      · rw [State.entry_scanRebuilt, State.scanRebuilt_own]
        split
        · unfold Scan.entryOf
          simp only [if_pos]
          exact ownRebuilt_gaps ..
        · rw [entry_atRest rests]; rfl
  | completes h =>
    obtain ⟨u, ends, kept⟩ := h
    exact kept.holdingsOk (ends.holdingsOk w)
  | hailSent _ moved => exact (moved.holdingsOk w :)
  | listenEnd => exact (State.settleRepair_keeps _).holdingsOk w
  | configured _ _ _ moved =>
    refine moved.holdingsOk ((State.accept_keeps ..).holdingsOk ⟨fun o => ?_, ?_⟩)
    · rw [State.entry_joined]
      split
      · exact entryOk_reset
      · exact w.1 o
    · rw [State.entry_joined]
      split
      · rfl
      · exact w.2

/-! ## D and the own frontiers (R186) -/

theorem Course.durableOk {s t : State} {c : Instr} (h : Course s c t) (start : StartOk s) (settings : SettingsOk s)
    (w : DurableOk s) : DurableOk t := by
  cases h with
  | moves h => exact h.durableOk settings w
  | reset kind out => exact durableOk_atRest (atRest_afterReset s kind out)
  | release straps held => exact durableOk_atRest (atRest_release (atRest_of_held start held) ..)
  | scan h =>
    cases h with
    | idle => exact w
    | goesOn _ scanning _ ends _ _ goes =>
      exact durableOk_atRest (atRest_scanGoesOn (atRest_of_scan start scanning) ends goes)
    | @ends u scan scan' _ scanning _ ends _ =>
      have rests := atRest_scanOpEnds (atRest_of_scan start scanning) ends
      exact (State.scanEnds_keeps u scan').durableOk (State.durableOk_scanRebuilt rests scan')
  | completes h =>
    obtain ⟨u, ends, kept⟩ := h
    exact kept.durableOk (ends.durableOk w)
  | hailSent _ moved => exact (moved.durableOk settings w :)
  | listenEnd => exact (State.settleRepair_keeps _).durableOk w
  | @configured carrier c x t _ _ range moved =>
    exact moved.durableOk (State.settingsOk_accept (s := s.setAp x) carrier range)
      ((State.accept_keeps ..).durableOk (State.durableOk_joined (s := s.setAp x) carrier range w))

/-! ## The array between flash operations (R2, R11) -/

theorem Course.arrayKept {s t : State} {c : Instr} (h : Course s c t) (quiet : ¬ changesArray c) : ArrayKept s t := by
  cases h with
  | moves h => exact h.store.arrayKept
  | reset _ _ changes => exact absurd changes quiet
  | release =>
    unfold State.release
    simp only
    split
    · exact .inl rfl
    · exact .inl rfl
  | scan h =>
    cases h with
    | idle => exact .inl rfl
    | goesOn changes => exact absurd changes quiet
    | ends changes => exact absurd changes quiet
  | completes _ h => exact h.resolve_left quiet
  | hailSent _ moved => exact (moved.store.arrayKept :)
  | listenEnd => exact ((State.settleRepair_keeps s.becomeActive).store.arrayKept :)
  | configured _ _ _ moved =>
    exact ((State.accept_keeps ..).store.trans moved.store).arrayKept

/-! ## The waiting commands -/

theorem Course.pending {s t : State} {c : Instr} (h : Course s c t) : t.pending = s.pending := by
  cases h with
  | moves h => exact h.pending
  | reset => rfl
  | release =>
    unfold State.release
    simp only
    split <;> rfl
  | scan h =>
    cases h with
    | idle => rfl
    | goesOn _ _ _ ends _ _ goes => rw [goes.same, ends.same]
    | ends _ _ _ ends =>
      rw [(State.scanEnds_keeps ..).pending]
      rw [ends.same]
      rfl
  | completes h =>
    obtain ⟨u, ends, kept⟩ := h
    rw [kept.pending, ends.pending]
  | hailSent _ moved => exact (moved.pending :)
  | listenEnd => exact (State.settleRepair_keeps _).pending
  | configured _ _ _ moved => exact moved.pending.trans (State.accept_keeps ..).pending

end Sys2Proof.Machine

namespace Sys2Proof.Proofs

open Sys2Proof.Machine Sys2Proof.Safety

/-- Settles O51: every course of a command keeps the canonical form of the memory. -/
theorem memoryStaysCanonical : Obligations.MemoryStaysCanonical :=
  fun _ _ w h => step_keeps (P := MemoryOk) (fun _ _ w => w) (fun _ _ _ w e => (exec_course e).memoryOk w) w h

/-- Settles O54: only the scan's end opens a block where none is, and it opens the newest one at most. -/
theorem atMostOneBlockIsOpen : Obligations.AtMostOneBlockIsOpen :=
  fun _ _ w h => step_keeps (P := fun s => StartOk s ∧ OneOpen s) (fun _ _ w => w)
    (fun _ _ _ ⟨start, w⟩ e => ⟨exec_startOk start e, (exec_course e).oneOpen start w⟩) w h

/-- Settles O55: the entries the scan rebuilds have their form by `Scan.entryOf_ok`; every other course keeps it. -/
theorem holdingsKeepTheirForm : Obligations.HoldingsKeepTheirForm :=
  fun _ _ w h => step_keeps (P := fun s => StartOk s ∧ ScanOk s ∧ SettingsOk s ∧ HoldingsOk s) (fun _ _ w => w)
    (fun _ _ _ ⟨start, scan, settings, w⟩ e => ⟨exec_startOk start e, (exec_course e).scanOk scan,
      (exec_course e).settingsOk start settings, (exec_course e).holdingsOk start scan w⟩) w h

/-- Settles O56: a stored report is adopted or clamped (`takeReport_durableOk`); every other course raises T_own at most. -/
theorem durableStaysBelowTheTop : Obligations.DurableStaysBelowTheTop :=
  fun _ _ w h => step_keeps (P := fun s => StartOk s ∧ SettingsOk s ∧ DurableOk s) (fun _ _ w => w)
    (fun _ _ _ ⟨start, settings, w⟩ e => ⟨exec_startOk start e, (exec_course e).settingsOk start settings,
      (exec_course e).durableOk start settings w⟩) w h

/-- Settles O59: a course that is no flash operation's leaves the array but for an erase that begins. -/
theorem onlyFlashOperationsChangeTheArray : Obligations.OnlyFlashOperationsChangeTheArray := by
  intro c s t h quiet
  refine (exec_course h).arrayKept fun changes => ?_
  cases c with
  | powerOnReset | pinReset | responseRead | scanSpareReadDone | scanPageReadDone | scanEraseDone | scanMarkDone | programDone
  | markProgramDone | eraseDone => exact quiet
  | _ => exact changes

/-- Settles O1. -/
theorem stepTakesTheFrontCommand : Obligations.StepTakesTheFrontCommand :=
  ⟨fun c rest s h => by rw [step, h], fun s h => by rw [step, h]⟩

end Sys2Proof.Proofs

/-! What the repair unit changes (R90, R165 to R171): a re-run changes entries of peer origins alone, never back, and the ask list. -/

namespace Sys2Proof.Machine

open Sys2Proof.Safety

/-! ## Entries that grow by settled runs -/

/-- How many numbers the gaps of an entry hold, each gap by itself. -/
def Entry.gapSize (e : Entry) : Nat := (e.gaps.map fun g => g.hi + 1 - g.lo).sum

/-- Runs have been settled: the top has moved up, or it stands and the gaps have shrunk. -/
def Entry.growsTo (e f : Entry) : Prop := e.top < f.top ∨ (e.top = f.top ∧ f.gapSize < e.gapSize)

theorem Entry.growsTo_trans {e f g : Entry} (h : e.growsTo f) (k : f.growsTo g) : e.growsTo g := by
  unfold Entry.growsTo at *
  omega

theorem Entry.ne_of_growsTo {e f : Entry} (h : e.growsTo f) : f ≠ e := by
  rintro rfl
  unfold Entry.growsTo at h
  omega

/-- Of a gap around a run, settling the run leaves the numbers below it and those above it. -/
theorem Range.size_without_of_inside {g : Range} {a b : Nat} (h1 : g.lo ≤ a) (h2 : b ≤ g.hi) :
    ((g.without a b).map fun x => x.hi + 1 - x.lo).sum = (a - g.lo) + (g.hi - b) := by
  have below : ((if g.lo < a then [{ lo := g.lo, hi := a - 1 : Range }] else []).map fun x => x.hi + 1 - x.lo).sum = a - g.lo := by
    split
    · show a - 1 + 1 - g.lo + 0 = a - g.lo
      omega
    · show 0 = a - g.lo
      omega
  have above : ((if b < g.hi then [{ lo := b + 1, hi := g.hi : Range }] else []).map fun x => x.hi + 1 - x.lo).sum = g.hi - b := by
    split
    · show g.hi + 1 - (b + 1) + 0 = g.hi - b
      omega
    · show 0 = g.hi - b
      omega
  rw [Range.without, if_pos ⟨h1, h2⟩, List.map_append, List.sum_append_nat, below, above]

theorem Range.size_without_le (g : Range) {a b : Nat} (hab : a ≤ b) :
    ((g.without a b).map fun x => x.hi + 1 - x.lo).sum ≤ g.hi + 1 - g.lo := by
  by_cases inside : g.lo ≤ a ∧ b ≤ g.hi
  · rw [Range.size_without_of_inside inside.1 inside.2]
    omega
  · rw [Range.without, if_neg inside]
    exact Nat.le_of_eq (Nat.add_zero _)

theorem Range.size_without_lt {g : Range} {a b : Nat} (hab : a ≤ b) (h1 : g.lo ≤ a) (h2 : b ≤ g.hi) :
    ((g.without a b).map fun x => x.hi + 1 - x.lo).sum < g.hi + 1 - g.lo := by
  rw [Range.size_without_of_inside h1 h2]
  omega

theorem gapSize_without_le {a b : Nat} (hab : a ≤ b) : (gs : List Range) →
    ((gs.flatMap fun g => g.without a b).map fun x => x.hi + 1 - x.lo).sum ≤ (gs.map fun x => x.hi + 1 - x.lo).sum
  | [] => by simp
  | g :: gs => by
    have ih := gapSize_without_le hab gs
    have head := Range.size_without_le g hab
    simp only [List.flatMap_cons, List.map_append, List.sum_append, List.map_cons, List.sum_cons]
    omega

theorem gapSize_without_lt {a b : Nat} (hab : a ≤ b) : {gs : List Range} → (∃ g ∈ gs, g.lo ≤ a ∧ b ≤ g.hi) →
    ((gs.flatMap fun g => g.without a b).map fun x => x.hi + 1 - x.lo).sum < (gs.map fun x => x.hi + 1 - x.lo).sum
  | [], h => by simp at h
  | g :: gs, h => by
    simp only [List.flatMap_cons, List.map_append, List.sum_append, List.map_cons, List.sum_cons]
    have rest := gapSize_without_le hab gs
    have head := Range.size_without_le g hab
    rcases h with ⟨x, hx, h1, h2⟩
    rcases List.mem_cons.mp hx with rfl | hx
    · have := Range.size_without_lt hab h1 h2
      omega
    · have := gapSize_without_lt hab ⟨x, hx, h1, h2⟩
      omega

theorem Entry.unsettledRun_iff {e : Entry} {a b : Nat} :
    e.unsettledRun a b = true ↔ e.floor ≤ a ∧ (e.top < a ∨ ∃ g ∈ e.gaps, g.lo ≤ a ∧ b ≤ g.hi) := by
  simp [Entry.unsettledRun]

theorem Entry.growsTo_settle {e : Entry} {a b : Nat} (hab : a ≤ b) (h : e.unsettledRun a b = true) :
    e.growsTo (e.settle a b) := by
  obtain ⟨-, above | inside⟩ := Entry.unsettledRun_iff.mp h
  · left
    rw [Entry.settle, if_pos above]
    show e.top < b
    omega
  · by_cases above : e.top < a
    · left
      rw [Entry.settle, if_pos above]
      show e.top < b
      omega
    · right
      rw [Entry.settle, if_neg above]
      exact ⟨rfl, gapSize_without_lt hab inside⟩

theorem Entry.floor_settle (e : Entry) (a b : Nat) : (e.settle a b).floor = e.floor := by
  unfold Entry.settle
  split <;> rfl

theorem Range.without_sub {g x : Range} {a b : Nat} (hab : a ≤ b) (h : x ∈ g.without a b) : g.lo ≤ x.lo ∧ x.hi ≤ g.hi := by
  unfold Range.without at h
  split at h
  · rename_i inside
    rcases List.mem_append.mp h with below | above
    · obtain ⟨-, rfl⟩ := (List.mem_ite_nil_right ..).mp below |>.imp_right List.mem_singleton.mp
      exact ⟨Nat.le_refl _, show a - 1 ≤ g.hi by omega⟩
    · obtain ⟨-, rfl⟩ := (List.mem_ite_nil_right ..).mp above |>.imp_right List.mem_singleton.mp
      exact ⟨show g.lo ≤ b + 1 by omega, Nat.le_refl _⟩
  · rw [List.mem_singleton.mp h]
    exact ⟨Nat.le_refl _, Nat.le_refl _⟩

/-- R82: what was settled stays settled. -/
theorem Entry.settled_settle {e : Entry} {a b n : Nat} (hab : a ≤ b) (h : e.settled n = true) :
    (e.settle a b).settled n = true := by
  obtain ⟨low, high, outside⟩ := Entry.settled_iff.mp h
  have out : ∀ g ∈ e.gaps, ¬ (g.lo ≤ n ∧ n ≤ g.hi) := by
    intro g hg hn
    rw [Entry.inGap, List.any_eq_false] at outside
    exact outside g hg (by simpa using hn)
  refine Entry.settled_iff.mpr ⟨(Entry.floor_settle e a b).symm ▸ low, Nat.le_trans high (top_le_settle e hab), ?_⟩
  rw [Entry.inGap, List.any_eq_false]
  intro x hx inside
  have inside : x.lo ≤ n ∧ n ≤ x.hi := by simpa using inside
  by_cases above : e.top < a
  · rw [Entry.gaps_settle_of_above above, List.mem_append] at hx
    rcases hx with hx | hx
    · exact out x hx inside
    · unfold rangeOf at hx
      split at hx
      · rw [List.mem_singleton] at hx
        subst hx
        simp only at inside
        omega
      · simp at hx
  · rw [Entry.gaps_settle_of_not_above above, List.mem_flatMap] at hx
    obtain ⟨g, hg, hx⟩ := hx
    obtain ⟨h1, h2⟩ := Range.without_sub hab hx
    exact out g hg ⟨by omega, by omega⟩

/-- R82: only the run becomes settled. -/
theorem Entry.settled_of_settle {e : Entry} {a b n : Nat} (h : (e.settle a b).settled n = true) :
    e.settled n = true ∨ (a ≤ n ∧ n ≤ b) := by
  refine Classical.byContradiction fun neither => ?_
  rw [not_or, not_and, Nat.not_le] at neither
  obtain ⟨unsettled, outside⟩ := neither
  obtain ⟨low, high, clear⟩ := Entry.settled_iff.mp h
  rw [Entry.floor_settle] at low
  rw [Entry.inGap, List.any_eq_false] at clear
  apply unsettled
  by_cases above : e.top < a
  · rw [Entry.gaps_settle_of_above above] at clear
    have high : n ≤ b := by
      rw [Entry.settle, if_pos above] at high
      exact high
    have inside : n ≤ e.top := by
      refine Classical.byContradiction fun beyond => ?_
      have run : a ≤ e.top + 1 ∨ e.top + 1 ≤ a - 1 := by omega
      have small : n < a := by
        refine Classical.byContradiction fun ge => ?_
        exact absurd high (Nat.not_le.mpr (outside (by omega)))
      have mem : ({ lo := e.top + 1, hi := a - 1 } : Range) ∈ e.gaps ++ rangeOf (e.top + 1) (a - 1) := by
        rw [rangeOf, if_pos (by omega)]
        simp
      exact clear _ mem (by simp only [Bool.and_eq_true, decide_eq_true_eq]; omega)
    refine Entry.settled_iff.mpr ⟨low, inside, ?_⟩
    rw [Entry.inGap, List.any_eq_false]
    exact fun g hg => clear g (List.mem_append_left _ hg)
  · rw [Entry.gaps_settle_of_not_above above] at clear
    refine Entry.settled_iff.mpr ⟨low, by rwa [Entry.settle, if_neg above] at high, ?_⟩
    rw [Entry.inGap, List.any_eq_false]
    intro g hg inside
    have inside : g.lo ≤ n ∧ n ≤ g.hi := by simpa using inside
    have left : ∃ x ∈ g.without a b, x.lo ≤ n ∧ n ≤ x.hi := by
      unfold Range.without
      split
      · by_cases side : n < a
        · exact ⟨{ lo := g.lo, hi := a - 1 }, by rw [if_pos (by omega)]; simp, inside.1, by show n ≤ a - 1; omega⟩
        · have := outside (by omega)
          exact ⟨{ lo := b + 1, hi := g.hi }, by rw [if_pos (show b < g.hi by omega)]; simp, by show b + 1 ≤ n; omega, inside.2⟩
      · exact ⟨g, List.mem_singleton_self g, inside⟩
    obtain ⟨x, hx, low', high'⟩ := left
    exact clear x (List.mem_flatMap.mpr ⟨g, hg, hx⟩) (by simp only [Bool.and_eq_true, decide_eq_true_eq]; exact ⟨low', high'⟩)

/-! ## Notices that join the queue -/

/-- R190: no notice is the partner of a LOST. -/
theorem coalesce_lost (o a b : Nat) : (q : List Notice) → coalesce (.lost o a b) q = none
  | [] => rfl
  | x :: q => by
    unfold coalesce
    rw [coalesce_lost o a b q]
    cases x <;> rfl

theorem Nu.take_lost_queue (nu : Nu) (th d o a b : Nat) :
    (nu.take th d (.lost o a b)).queue = nu.queue ∨ (nu.take th d (.lost o a b)).queue = nu.queue ++ [.lost o a b] := by
  unfold Nu.take
  rw [coalesce_lost]
  dsimp only
  split
  · exact .inr rfl
  · exact .inl rfl

/-- R191: the overflow flag stays until a NOTICES read. -/
theorem Nu.take_overflow {nu : Nu} (th d : Nat) (n : Notice) (h : nu.overflow = true) : (nu.take th d n).overflow = true := by
  unfold Nu.take
  split
  · exact h
  · split
    · exact h
    · rfl

/-! ## What repair changes -/

/-- What a re-run, or a part of one, leaves of `s`: entries of peer origins grow, the ask list and its pointer move, LOST is noted. -/
structure Repairs (s t : State) : Prop where
  same : t = { s with
    hu := { s.hu with entries := t.hu.entries, reportPending := t.hu.reportPending },
    rp := { s.rp with asks := t.rp.asks, rotation := t.rp.rotation, rerunDue := t.rp.rerunDue },
    nu := t.nu }
  own : t.entry s.own = s.entry s.own
  floor : ∀ o, (t.entry o).floor = (s.entry o).floor
  settled : ∀ o n, (s.entry o).settled n = true → (t.entry o).settled n = true
  grows : ∀ o, t.entry o = s.entry o ∨ (s.entry o).growsTo (t.entry o)
  reportKept : s.hu.reportPending = true → t.hu.reportPending = true
  reported : (∃ o, 1 ≤ o ∧ o ≤ s.groupSize ∧ (t.entry o).pair ≠ (s.entry o).pair) → t.hu.reportPending = true
  still : s.groupSize ≤ 24 → (t.hu = s.hu ∧ t.nu = s.nu) ∨ ∃ o, (s.entry o).growsTo (t.entry o)
  overflow : s.nu.overflow = true → t.nu.overflow = true
  unpending : ∀ o n, (t.entry o).settled n = true → (s.entry o).settled n = true ∨ n ∉ s.pendingOf o
  lost : ∃ lost : List Notice, t.nu.queue = s.nu.queue ++ lost ∧ ∀ x, x ∈ lost → ∃ o a b, x = .lost o a b

namespace Repairs

variable {s t u : State}

theorem sc (h : Repairs s t) : t.sc = s.sc := by rw [h.same]
theorem fc (h : Repairs s t) : t.fc = s.fc := by rw [h.same]
theorem sm (h : Repairs s t) : t.sm = s.sm := by rw [h.same]
theorem su (h : Repairs s t) : t.su = s.su := by rw [h.same]
theorem ra (h : Repairs s t) : t.ra = s.ra := by rw [h.same]
theorem ce (h : Repairs s t) : t.ce = s.ce := by rw [h.same]
theorem lc (h : Repairs s t) : t.lc = s.lc := by rw [h.same]
theorem ap (h : Repairs s t) : t.ap = s.ap := by rw [h.same]
theorem pending (h : Repairs s t) : t.pending = s.pending := by rw [h.same]
theorem hu (h : Repairs s t) :
    t.hu = { s.hu with entries := t.hu.entries, reportPending := t.hu.reportPending } := by conv => lhs; rw [h.same]
theorem rp (h : Repairs s t) :
    t.rp = { s.rp with asks := t.rp.asks, rotation := t.rp.rotation, rerunDue := t.rp.rerunDue } := by
  conv => lhs; rw [h.same]
theorem ownNumber (h : Repairs s t) : t.own = s.own := congrArg Sc.number h.sc
theorem groupSize (h : Repairs s t) : t.groupSize = s.groupSize :=
  congrArg (fun x : Sc => (x.settings.map Settings.groupSize).getD 0) h.sc

theorem pendingOf (h : Repairs s t) (o : Nat) : t.pendingOf o = s.pendingOf o := by
  rw [h.same]
  rfl

/-- Only the ask list, its pointer and the debt of a re-run move. -/
theorem setRp (s : State) {x : Rp} (hx : x = { s.rp with asks := x.asks, rotation := x.rotation, rerunDue := x.rerunDue }) :
    Repairs s (s.setRp x) where
  same := by
    conv => lhs; rw [State.setRp, hx]
    rfl
  own := rfl
  floor _ := rfl
  settled _ _ h := h
  grows _ := .inl rfl
  reportKept h := h
  reported h := absurd rfl (h.choose_spec.2.2)
  still _ := .inl ⟨rfl, rfl⟩
  overflow h := h
  unpending _ _ h := .inl h
  lost := ⟨[], (List.append_nil _).symm, by simp⟩

theorem refl (s : State) : Repairs s s := setRp s rfl

theorem trans (h : Repairs s t) (k : Repairs t u) : Repairs s u where
  same := by
    conv => lhs; rw [k.same]
    conv => lhs; rw [h.same]
  own := by rw [← h.ownNumber, k.own, h.ownNumber, h.own]
  floor o := (k.floor o).trans (h.floor o)
  settled o n x := k.settled o n (h.settled o n x)
  grows o := by
    rcases h.grows o with h | h <;> rcases k.grows o with k | k
    · exact .inl (k.trans h)
    · exact .inr (h ▸ k)
    · exact .inr (k ▸ h)
    · exact .inr (Entry.growsTo_trans h k)
  reportKept x := k.reportKept (h.reportKept x)
  reported := by
    rintro ⟨o, low, high, changed⟩
    by_cases mid : (t.entry o).pair = (s.entry o).pair
    · exact k.reported ⟨o, low, h.groupSize ▸ high, mid ▸ changed⟩
    · exact k.reportKept (h.reported ⟨o, low, high, mid⟩)
  still small := by
    rcases h.still small with ⟨hh, hn⟩ | ⟨o, ho⟩
    · rcases k.still (h.groupSize ▸ small) with ⟨kh, kn⟩ | ⟨o, ko⟩
      · exact .inl ⟨kh.trans hh, kn.trans hn⟩
      · have mid : t.entry o = s.entry o := by unfold State.entry; rw [hh]
        exact .inr ⟨o, mid ▸ ko⟩
    · rcases k.grows o with ko | ko
      · exact .inr ⟨o, ko ▸ ho⟩
      · exact .inr ⟨o, Entry.growsTo_trans ho ko⟩
  overflow x := k.overflow (h.overflow x)
  unpending o n x := by
    rcases k.unpending o n x with x | x
    · exact h.unpending o n x
    · exact .inr (h.pendingOf o ▸ x)
  lost := by
    obtain ⟨l, hl, hx⟩ := h.lost
    obtain ⟨m, hm, mx⟩ := k.lost
    refine ⟨l ++ m, by rw [hm, hl, List.append_assoc], fun x mem => ?_⟩
    exact (List.mem_append.mp mem).elim (hx x) (mx x)

end Repairs

namespace State

/-- R83 for a peer's origin: the entry, the report flag and the debt of a re-run. -/
theorem putEntry_of_ne_own {s : State} {o : Nat} (h : o ≠ s.own) (e : Entry) :
    s.putEntry o e = (s.writeEntry o e).setRp { s.rp with
      rerunDue := s.rp.rerunDue || (s.reported o && e != s.entry o) } := by
  have peer : (o == s.own && e.top != (s.entry o).top) = false := by rw [beq_eq_false_iff_ne.mpr h, Bool.false_and]
  unfold putEntry
  simp only [peer, Bool.false_eq_true, if_false]
  split
  · rename_i told
    rw [told, Bool.or_true]
    rfl
  · rename_i told
    rw [Bool.not_eq_true] at told
    rw [told, Bool.or_false]
    rfl

theorem notify_eq (s : State) (n : Notice) :
    s.notify n = s.setNu (if s.storeRuns then s.nu.take s.noticeThreshold s.noticeDelay n else s.nu) := by
  unfold notify
  split <;> rfl

theorem setRp_notify_comm (s : State) (x : Rp) (n : Notice) : (s.setRp x).notify n = (s.notify n).setRp x := by
  rw [notify_eq, notify_eq]
  rfl

/-- R90: the tests of an abandonment that is taken, and what it leaves. -/
theorem abandon_eq_some_iff {s t : State} {o a b : Nat} :
    s.abandon o a b = some t ↔
      (o ≠ s.own ∧ max a (s.entry o).floor ≤ b ∧ (s.entry o).unsettledRun (max a (s.entry o).floor) b = true
        ∧ (∀ n ∈ s.pendingOf o, n < max a (s.entry o).floor ∨ b < n)
        ∧ (s.entry o).overflows (max a (s.entry o).floor) b = false)
      ∧ t = (s.putEntry o ((s.entry o).settle (max a (s.entry o).floor) b)).notify (.lost o (max a (s.entry o).floor) b) := by
  unfold abandon
  simp only [Option.ite_none_right_eq_some, Bool.and_eq_true, bne_iff_ne, decide_eq_true_eq, List.all_eq_true, Bool.or_eq_true,
    Bool.not_eq_true', Option.some.injEq, and_assoc, eq_comm (a := t)]

/-- R83, R90: a run of a peer origin settled, with LOST. -/
theorem settleLost_repairs {s : State} {o a b : Nat} (peer : o ≠ s.own) (hab : a ≤ b)
    (run : (s.entry o).unsettledRun a b = true) (free : ∀ n ∈ s.pendingOf o, n < a ∨ b < n)
    (inside : s.groupSize ≤ 24 → 1 ≤ o ∧ o ≤ 24) :
    Repairs s ((s.putEntry o ((s.entry o).settle a b)).notify (.lost o a b)) := by
  have entry_eq (p : Nat) : ((s.putEntry o ((s.entry o).settle a b)).notify (.lost o a b)).entry p
      = if o = p ∧ 1 ≤ o ∧ o ≤ 24 then (s.entry o).settle a b else s.entry p := by
    rw [← entry_putEntry]
    unfold entry
    rw [notify_hu]
  have report_eq : ((s.putEntry o ((s.entry o).settle a b)).notify (.lost o a b)).hu.reportPending
      = (s.hu.reportPending || (s.reported o && ((s.entry o).settle a b).pair != (s.entry o).pair)) := by
    rw [notify_hu, putEntry_of_ne_own peer]
    rfl
  have grows : (s.entry o).growsTo ((s.entry o).settle a b) := Entry.growsTo_settle hab run
  exact {
    same := by
      rw [putEntry_of_ne_own peer, setRp_notify_comm, notify_eq]
      rfl
    own := by rw [entry_eq, if_neg fun h => peer h.1]
    floor := fun p => by
      rw [entry_eq]
      split
      · rename_i h
        rw [← h.1, Entry.floor_settle]
      · rfl
    settled := fun p n h => by
      rw [entry_eq]
      split
      · rename_i hp
        rw [← hp.1] at h
        exact Entry.settled_settle hab h
      · exact h
    grows := fun p => by
      rw [entry_eq]
      split
      · rename_i hp
        exact .inr (hp.1 ▸ grows)
      · exact .inl rfl
    reportKept := fun h => by rw [report_eq, h, Bool.true_or]
    reported := by
      rintro ⟨p, low, high, changed⟩
      rw [entry_eq] at changed
      split at changed
      · rename_i hp
        rw [← hp.1] at changed low high
        rw [report_eq, reported, decide_eq_true low, decide_eq_true high, bne_iff_ne.mpr changed]
        simp
      · exact absurd rfl changed
    unpending := fun p n h => by
      rw [entry_eq] at h
      split at h
      · rename_i hp
        rw [← hp.1]
        rcases Entry.settled_of_settle h with h | h
        · exact .inl h
        · right
          intro mem
          have := free n mem
          omega
      · exact .inl h
    overflow := fun h => by
      rw [putEntry_of_ne_own peer, setRp_notify_comm, notify_eq]
      show (if s.storeRuns then s.nu.take _ _ (.lost o a b) else s.nu).overflow = true
      split
      · exact Nu.take_overflow _ _ _ h
      · exact h
    still := fun small => .inr ⟨o, by rw [entry_eq, if_pos ⟨rfl, inside small⟩]; exact grows⟩
    lost := by
      rw [putEntry_of_ne_own peer, setRp_notify_comm, notify_eq]
      show ∃ lost, (if s.storeRuns then s.nu.take _ _ (.lost o a b) else s.nu).queue = s.nu.queue ++ lost ∧ _
      split
      · rcases Nu.take_lost_queue s.nu s.noticeThreshold s.noticeDelay o a b with h | h
        · exact ⟨[], by rw [List.append_nil]; exact h, by simp⟩
        · exact ⟨[.lost o a b], h, by simp⟩
      · exact ⟨[], (List.append_nil _).symm, by simp⟩ }

theorem abandon_repairs {s t : State} {o a b : Nat} (h : s.abandon o a b = some t)
    (inside : s.groupSize ≤ 24 → 1 ≤ o ∧ o ≤ 24) : Repairs s t := by
  obtain ⟨⟨peer, ends, run, free, -⟩, rfl⟩ := abandon_eq_some_iff.mp h
  exact settleLost_repairs peer ends run free inside

theorem putAsk_repairs (s : State) (i : Nat) (e : Option AskEntry) : Repairs s (s.putAsk i e) := .setRp s rfl

theorem removeAsk_repairs (s : State) (i o : Nat) : Repairs s (s.removeAsk i o) :=
  ((putAsk_repairs s i none).trans (.setRp _ rfl)).trans (.setRp _ rfl)

/-- R165: only the origins of the group have missing numbers. -/
theorem origin_of_missingRuns {s : State} {o u : Nat} {r : Range} (h : lowestFrom u (s.missingRuns o) = some r) :
    o ≠ s.own ∧ 1 ≤ o ∧ o ≤ s.groupSize := by
  refine Classical.byContradiction fun none => ?_
  have empty : s.missingRuns o = [] := by
    unfold missingRuns
    rw [if_pos]
    rw [Bool.or_eq_true, Bool.or_eq_true, beq_iff_eq, beq_iff_eq, decide_eq_true_eq]
    omega
  rw [empty] at h
  exact absurd h (by simp [lowestFrom])

theorem evaluateAskRounds_repairs : (n i : Nat) → (a : AskEntry) → (u : Nat) → (s : State) →
    Repairs s (s.evaluateAskRounds n i a u)
  | 0, _, _, _, s => .refl s
  | n + 1, i, a, u, s => by
    unfold evaluateAskRounds
    split
    · exact removeAsk_repairs ..
    · rename_i r lowest
      split
      · exact putAsk_repairs ..
      · split
        · exact putAsk_repairs ..
        · dsimp only
          split
          · rename_i s' taken
            obtain ⟨-, low, high⟩ := origin_of_missingRuns lowest
            exact (abandon_repairs taken fun small => ⟨low, Nat.le_trans high small⟩).trans (evaluateAskRounds_repairs n ..)
          · exact putAsk_repairs ..

theorem evaluateAsk_repairs (s : State) (i : Nat) (a : AskEntry) (u : Nat) : Repairs s (s.evaluateAsk i a u) :=
  evaluateAskRounds_repairs ..

theorem advanceAsk_repairs (s : State) (i : Nat) (a : AskEntry) : Repairs s (s.advanceAsk i a) := by
  unfold advanceAsk
  dsimp only
  split
  · split
    · exact putAsk_repairs ..
    · exact removeAsk_repairs ..
  · exact removeAsk_repairs ..

theorem rerunPlace_repairs (s : State) (i : Nat) : Repairs s (s.rerunPlace i) := by
  unfold rerunPlace
  split
  · exact .refl s
  · split
    · exact advanceAsk_repairs ..
    · exact evaluateAsk_repairs ..

theorem createAt_repairs (s : State) (o : Nat) : Repairs s (s.createAt o) := by
  unfold createAt
  split
  · exact .refl s
  · split
    · exact evaluateAsk_repairs ..
    · exact .refl s

theorem foldl_repairs {α : Type} (f : State → α → State) (h : ∀ s x, Repairs s (f s x)) :
    (l : List α) → (s : State) → Repairs s (l.foldl f s)
  | [], s => .refl s
  | x :: l, s => (h s x).trans (foldl_repairs f h l _)

theorem rerun_repairs (s : State) : Repairs s s.rerun :=
  (foldl_repairs _ rerunPlace_repairs _ s).trans (foldl_repairs _ createAt_repairs _ _)

theorem settleRepair_repairs (s : State) : Repairs s s.settleRepair := by
  unfold settleRepair
  split
  · dsimp only
    split
    · exact (rerun_repairs s).trans (.setRp _ rfl)
    · exact .setRp s rfl
  · exact .refl s

theorem settleRepair_rerunDue (s : State) : s.settleRepair.rp.rerunDue = false := by
  unfold settleRepair
  split
  · rfl
  · rename_i h
    exact Bool.eq_false_iff.mpr h

theorem skipResponder_repairs (s : State) (i : Nat) (a : AskEntry) (p u : Nat) : Repairs s (s.skipResponder i a p u) :=
  evaluateAsk_repairs ..

theorem askExpires_repairs (s : State) (i : Nat) : Repairs (s.bump .askTimeouts) (s.askExpires i) ∨ s.askExpires i = s := by
  unfold askExpires
  split
  · split
    · dsimp only
      split
      · exact .inl (putAsk_repairs ..)
      · exact .inl (skipResponder_repairs ..)
    · exact .inr rfl
  · exact .inr rfl

end State

end Sys2Proof.Machine

/-! No re-evaluation is owed between commands (logs 13 and 14): what leaves the debt of reclaim and of the re-run as it was, and what
pays it. -/

namespace Sys2Proof.Machine

open Sys2Proof.Safety

/-! ## The debt of reclaim -/

/-- No evaluation of reclaim is owed. -/
def State.reclaimPaid (s : State) : Prop := s.sm.reclaimDue = false

theorem Sm.setLookup_reclaimDue (sm : Sm) (who : Requester) (l : Option Lookup) :
    (sm.setLookup who l).reclaimDue = sm.reclaimDue := by cases who <;> rfl

namespace State

theorem notify_sm (s : State) (n : Notice) : (s.notify n).sm = s.sm := by rw [notify_eq, setNu_sm]
theorem notify_rp (s : State) (n : Notice) : (s.notify n).rp = s.rp := by rw [notify_eq, setNu_rp]
theorem bump_sm (s : State) (k : Counter) : (s.bump k).sm = s.sm := rfl
theorem bump_rp (s : State) (k : Counter) : (s.bump k).rp = s.rp := rfl

theorem serveEnds_sm (s : State) (o n : Nat) (r : LookupOutcome) : (s.serveEnds o n r).sm = s.sm := by
  unfold serveEnds
  split
  · split <;> rfl
  · rfl
  · rfl

theorem lookupEnds_sm (s : State) (who : Requester) (l : Lookup) (r : LookupOutcome) :
    (s.lookupEnds who l r).sm = s.sm.setLookup who none := by
  cases who with
  | fetch => rfl
  | serve => exact serveEnds_sm ..

theorem lookupEnds_reclaimDue (s : State) (who : Requester) (l : Lookup) (r : LookupOutcome) :
    (s.lookupEnds who l r).sm.reclaimDue = s.sm.reclaimDue := by rw [lookupEnds_sm, Sm.setLookup_reclaimDue]

theorem claimStep_reclaimDue (s : State) (who : Requester) (l : Lookup) (kind : ReadKind) (p : PageAddr) :
    (s.claimStep who l kind p).sm.reclaimDue = s.sm.reclaimDue := Sm.setLookup_reclaimDue ..

theorem choose_reclaimDue (s : State) (who : Requester) (l : Lookup) :
    (s.choose who l).sm.reclaimDue = s.sm.reclaimDue := by
  unfold choose
  split
  · exact claimStep_reclaimDue ..
  · exact lookupEnds_reclaimDue ..

theorem passOver_reclaimDue (s : State) (who : Requester) (l : Lookup) (p : PageAddr) :
    (s.passOver who l p).sm.reclaimDue = s.sm.reclaimDue := by
  unfold passOver
  split
  · exact choose_reclaimDue ..
  · exact claimStep_reclaimDue ..

theorem lookupSpare_reclaimDue (s : State) (who : Requester) (l : Lookup) (p : PageAddr) (spare : List Byte) :
    (s.lookupSpare who l p spare).sm.reclaimDue = s.sm.reclaimDue := by
  unfold lookupSpare
  split
  · exact claimStep_reclaimDue ..
  · exact passOver_reclaimDue ..

theorem lookupPage_reclaimDue (s : State) (who : Requester) (l : Lookup) (p : PageAddr) (data spare : List Byte) :
    (s.lookupPage who l p data spare).sm.reclaimDue = s.sm.reclaimDue := by
  unfold lookupPage
  split
  · exact lookupEnds_reclaimDue ..
  · exact passOver_reclaimDue ..

theorem lookupGoesOn_reclaimDue (s : State) (who : Requester) {use : Lookup → State → State}
    (h : ∀ l, (use l s).sm.reclaimDue = s.sm.reclaimDue) : (s.lookupGoesOn who use).sm.reclaimDue = s.sm.reclaimDue := by
  unfold lookupGoesOn
  split
  · rfl
  · split
    · exact choose_reclaimDue ..
    · exact h _
    · rfl

theorem evaluateReclaim_paid (s : State) : s.evaluateReclaim.reclaimPaid := by
  unfold evaluateReclaim
  split
  · rfl
  · rename_i h
    exact Bool.eq_false_iff.mpr h

theorem programFailed_paid (s : State) (p : PageAddr) : (s.programFailed p).reclaimPaid := evaluateReclaim_paid _

theorem eraseOutcome_paid (s : State) (b : Nat) (o : FlashOutcome) : (s.eraseOutcome b o).reclaimPaid := by
  cases o <;> exact evaluateReclaim_paid _

theorem grantRounds_paid : (n : Nat) → {s : State} → s.reclaimPaid → (s.grantRounds n).reclaimPaid
  | 0, _, h => h
  | n + 1, s, h => by
    unfold grantRounds
    split
    · exact h
    · split
      · dsimp only
        split
        · exact h
        · split
          · exact grantRounds_paid n (programFailed_paid ..)
          · exact h
      · split
        · exact (Sm.setLookup_reclaimDue ..).trans h
        · split
          · exact (Sm.setLookup_reclaimDue ..).trans h
          · split
            · dsimp only
              split
              · exact grantRounds_paid n h
              · exact h
            · split
              · split
                · exact h
                · exact h
              · exact h

theorem grant_paid {s : State} (h : s.reclaimPaid) : s.grant.reclaimPaid := grantRounds_paid _ h

theorem completion_paid {s : State} {f : State → State} (f_paid : ∀ t, t.reclaimPaid → (f t).reclaimPaid) (h : s.reclaimPaid) :
    (s.completion f).reclaimPaid := by
  unfold completion
  split
  · exact grant_paid (f_paid _ h)
  · exact grant_paid (f_paid _ (grant_paid h))

theorem settleRepair_quiet {s : State} (h : s.reclaimPaid) : Quiet s.settleRepair :=
  ⟨by rw [(settleRepair_repairs s).sm]; exact h, settleRepair_rerunDue s⟩

theorem settleAll_quiet (s : State) : Quiet s.settleAll := settleRepair_quiet (grant_paid (evaluateReclaim_paid s))

end State

/-- A change outside the store manager and the repair unit owes nothing. -/
theorem quiet_of_eq {s t : State} (h : Quiet s) (hsm : t.sm = s.sm) (hrp : t.rp = s.rp) : Quiet t := by
  unfold Quiet
  rw [hsm, hrp]
  exact h

theorem setAp_quiet {s : State} (h : Quiet s) (x : Ap) : Quiet (s.setAp x) := h

/-! ## What each command leaves owed -/

section
variable {s : State} (h : Quiet s)
include h

theorem answer_quiet (owed : Bool) (st : Status) (data : List Byte) : Quiet (s.answer owed st data) := by
  rw [State.answer_eq]
  exact h

theorem respond_quiet (st : Status) (data : List Byte) : Quiet (s.respond st data) := answer_quiet h true st data

theorem takeFrame_quiet (rest : List Byte) (fits : List Byte → Bool) (refused : StationState → Option Status)
    {owner : List Byte → State → State} (owner_quiet : ∀ params t, Quiet t → Quiet (owner params t)) :
    Quiet (s.takeFrame rest fits refused owner) := by
  have taken : Quiet (s.frameTaken rest) := h
  unfold State.takeFrame
  split
  · exact h
  · dsimp only
    split
    · exact respond_quiet taken ..
    · split
      · exact respond_quiet taken ..
      · exact owner_quiet _ _ taken

theorem resendHeard_quiet (o n : Nat) : Quiet (s.resendHeard o n) := by
  unfold State.resendHeard
  split
  · split
    · split
      · split
        · exact h
        · exact h
      · exact h
    · exact h
  · exact h

theorem askSent_quiet (o p : Nat) : Quiet (s.askSent o p) := by
  unfold State.askSent
  dsimp only
  split
  · split
    · split
      · split
        · exact h
        · exact h
      · exact h
    · exact h
  · exact h

theorem reportSent_quiet (item : BurstItem) : Quiet (s.reportSent item) := by
  cases item with
  | refuse => exact h
  | report => exact h
  | hail => exact h
  | resend => exact h
  | ownSeg n last =>
    show Quiet (if last then s.setSu (s.su.release n) else s)
    split <;> exact h
  | ask o p => exact askSent_quiet h o p

end

theorem takeSegment_quiet (s : State) (body : List Byte) : Quiet (s.takeSegment body) := by
  unfold State.takeSegment
  dsimp only
  split
  · exact State.settleAll_quiet _
  · split
    · exact State.settleAll_quiet _
    · split
      · exact resendHeard_quiet (State.settleAll_quiet _) ..
      · exact State.settleAll_quiet _

theorem handOn_quiet (s : State) (b : Burst) : Quiet (s.handOn b) := by
  unfold State.handOn
  dsimp only
  split
  · exact State.settleAll_quiet _
  · exact State.settleAll_quiet _
  · exact takeSegment_quiet ..
  · exact State.settleAll_quiet _
  · exact State.settleAll_quiet _

theorem endPeriod_quiet {s : State} (h : Quiet s) (late : Bool) (p : CarrierPeriod) : Quiet (s.endPeriod late p) := by
  unfold State.endPeriod
  split
  · exact h
  · exact h
  · exact handOn_quiet ..

/-! ## The scan -/

theorem ScanEffect.quiet {s t : State} {c : Instr} (h : Quiet s) (e : ScanEffect s c t) : Quiet t := by
  cases e with
  | idle => exact h
  | goesOn _ _ _ ends _ _ goes =>
    refine quiet_of_eq h ?_ ?_
    · rw [goes.same, ends.same]
    · rw [goes.same, ends.same]
  | ends => exact State.settleAll_quiet _

/-! ## Completions -/

section
variable {s : State}

theorem State.fcSpareRead_paid (h : Quiet s) (p : PageAddr) : (s.fcSpareRead p).reclaimPaid := h.1
theorem State.fcPageRead_paid (h : Quiet s) (p : PageAddr) : (s.fcPageRead p).reclaimPaid := h.1

theorem lookupSpareReadEnds_quiet (h : Quiet s) (who : Requester) (p : PageAddr) : Quiet (s.lookupSpareReadEnds who p) :=
  State.settleRepair_quiet (State.completion_paid
    (fun t paid => (State.lookupGoesOn_reclaimDue t who fun l => State.lookupSpare_reclaimDue t who l p _).trans paid)
    (State.fcSpareRead_paid h p))

theorem State.lookupGoesOn_lookupPage_paid {t : State} (paid : t.reclaimPaid) (who : Requester) (p : PageAddr)
    (data spare : List Byte) : (t.lookupGoesOn who fun l u => u.lookupPage who l p data spare).reclaimPaid :=
  (State.lookupGoesOn_reclaimDue t who fun l => State.lookupPage_reclaimDue t who l p data spare).trans paid

theorem lookupPageReadEnds_quiet (h : Quiet s) (who : Requester) (p : PageAddr) : Quiet (s.lookupPageReadEnds who p) :=
  State.settleRepair_quiet (State.completion_paid (fun _ paid => State.lookupGoesOn_lookupPage_paid paid who p _ _)
    (State.fcPageRead_paid h p))

theorem transferEnds_quiet (h : Quiet s) (c : ProgramClaim) : Quiet (s.transferEnds c) := by
  unfold State.transferEnds
  split
  · exact State.settleRepair_quiet (State.completion_paid (fun t _ => State.programFailed_paid ..) h.1)
  · exact State.settleAll_quiet _

theorem programEndsPass_quiet (h : Quiet s) (c : ProgramClaim) : Quiet (s.programEndsPass c) :=
  State.settleRepair_quiet (State.completion_paid (fun _ _ => State.evaluateReclaim_paid _) h.1)

theorem programEndsFail_quiet (h : Quiet s) (c : ProgramClaim) : Quiet (s.programEndsFail c) :=
  State.settleRepair_quiet (State.completion_paid (fun _ _ => State.programFailed_paid ..) h.1)

theorem markEnds_quiet (h : Quiet s) (b : Nat) (v : Byte) (o : FlashOutcome) :
    Quiet ((s.fcMarkDone b v o).grant).settleRepair :=
  State.settleRepair_quiet (State.grant_paid (by cases o <;> exact h.1))

theorem eraseEnds_quiet (h : Quiet s) (b : Nat) (o : FlashOutcome) :
    Quiet ((s.fcEraseDone b o).completion fun t => t.eraseOutcome b o).settleRepair :=
  State.settleRepair_quiet (State.completion_paid (fun _ _ => State.eraseOutcome_paid ..) (by cases o <;> exact h.1))

end

theorem fallsSilent_paid {s : State} (h : Quiet s) (p : Nat) : (s.fallsSilent p).reclaimPaid := by
  unfold State.fallsSilent
  split
  · show ((s.setPresence p .silent false).notify _).sm.reclaimDue = false
    rw [State.notify_sm]
    exact h.1
  · exact h.1

theorem slotExpires_paid {s : State} (h : Quiet s) (i : Nat) : (s.slotExpires i).reclaimPaid := by
  unfold State.slotExpires
  split <;> exact h.1

theorem askExpires_paid {s : State} (h : Quiet s) (i : Nat) : (s.askExpires i).reclaimPaid := by
  rcases State.askExpires_repairs s i with repairs | same
  · unfold State.reclaimPaid
    rw [repairs.sm]
    exact h.1
  · rw [same]
    exact h.1

/-! ## The line, the host and the timers -/

section
variable {s : State} (h : Quiet s)
include h

theorem execCarrierEnd_quiet (p : CarrierPeriod) : OutcomeSat Quiet (execCarrierEnd p s) := by
  unfold execCarrierEnd
  dsimp only
  split
  · exact endPeriod_quiet (s := s.setLc { s.lc with rx := p }) h ..
  · exact h
  · split
    · exact endPeriod_quiet (s := s.setLc { s.lc with rx := p }) h ..
    · exact h
    · exact h
  · exact h

theorem lineEvents_quiet : OutcomeSat Quiet (execCarrierBegin s) ∧ OutcomeSat Quiet (execMismatchDetected s)
    ∧ (∀ r, OutcomeSat Quiet (execJamEnd r s)) ∧ OutcomeSat Quiet (execQuietLimitExpiry s) := by
  refine ⟨?_, ?_, fun r => ?_, ?_⟩
  · unfold execCarrierBegin
    dsimp only
    split
    · exact h
    · split <;> exact h
    · exact h
  · unfold execMismatchDetected
    split <;> exact h
  · unfold execJamEnd
    split
    · split <;> exact h
    · exact h
  · unfold execQuietLimitExpiry
    split
    · split
      · exact h
      · split <;> exact h
    · exact h

theorem execOwnSlotStart_quiet : OutcomeSat Quiet (execOwnSlotStart s) := by
  unfold execOwnSlotStart
  split
  · dsimp only
    split
    · exact h
    · split
      · exact State.settleAll_quiet _
      · exact h
  · exact h

theorem execBurstSent_quiet : OutcomeSat Quiet (execBurstSent s) := by
  unfold execBurstSent
  split
  · rename_i c sending chosen
    exact reportSent_quiet (s := ((s.takeReference s.own).bump .burstsSent).setLc _) h c.item
  · exact h

theorem timers_quiet : OutcomeSat Quiet (execReportTimerExpiry s) ∧ OutcomeSat Quiet (execFlushTimerExpiry s)
    ∧ OutcomeSat Quiet (execListenIntervalEnd s) := by
  refine ⟨?_, ?_, ?_⟩
  · unfold execReportTimerExpiry
    split <;> exact h
  · unfold execFlushTimerExpiry
    split
    · exact State.settleAll_quiet _
    · exact h
  · unfold execListenIntervalEnd
    split
    · exact State.settleRepair_quiet h.1
    · exact h

theorem execConfigureTaken_quiet (carrier : Bool) : OutcomeSat Quiet (execConfigureTaken carrier s) := by
  unfold execConfigureTaken
  split
  · exact h
  · dsimp only
    split
    · split
      · exact answer_quiet (State.settleAll_quiet _) ..
      · exact answer_quiet (setAp_quiet h _) ..
    · exact answer_quiet (setAp_quiet h _) ..

theorem execSubmitTaken_quiet : OutcomeSat Quiet (execSubmitTaken s) := by
  unfold execSubmitTaken
  split
  · exact h
  · dsimp only
    split
    · exact answer_quiet (setAp_quiet h _) ..
    · exact answer_quiet (State.settleAll_quiet _) ..
    · exact answer_quiet (setAp_quiet h _) ..

theorem takeFetch_quiet (o n : Nat) : Quiet (s.takeFetch o n) := by
  unfold State.takeFetch
  split
  · exact respond_quiet h ..
  · split
    · exact respond_quiet h ..
    · split
      · exact respond_quiet (State.settleAll_quiet _) ..
      · exact respond_quiet h ..

theorem queries_quiet (params : List Byte) (o : Nat) (clear : Bool) : Quiet (s.takeCounters clear) ∧ Quiet (s.handSubmit params)
    ∧ Quiet s.takeFetchResult ∧ Quiet (s.takeNotices o) := by
  refine ⟨?_, ?_, ?_, ?_⟩
  · unfold State.takeCounters
    dsimp only
    split
    · exact setAp_quiet (respond_quiet h ..) _
    · exact respond_quiet h ..
  · unfold State.handSubmit
    split
    · exact respond_quiet h ..
    · exact h
  · unfold State.takeFetchResult
    split
    · exact respond_quiet h ..
    · exact respond_quiet h ..
    · exact setAp_quiet (respond_quiet h ..) _
  · exact respond_quiet (s := s.setNu (s.nu.drain s.noticeThreshold s.noticeDelay o)) h ..

theorem execResponseRead_quiet (clocks : Nat) : OutcomeSat Quiet (execResponseRead clocks s) := by
  unfold execResponseRead
  split
  · exact h
  · dsimp only
    split
    · exact ⟨rfl, rfl⟩
    · exact h

theorem execResetRelease_quiet (straps : BitVec 5) : OutcomeSat Quiet (execResetRelease straps s) := by
  unfold execResetRelease
  split
  · unfold State.release
    dsimp only
    split <;> exact h
  · exact h

theorem execUnknownCommand_quiet (id : Byte) (rest : List Byte) : OutcomeSat Quiet (execUnknownCommand id rest s) := by
  unfold execUnknownCommand
  split
  · exact h
  · split
    · exact h
    · exact respond_quiet (s := s.frameTaken rest) h ..

theorem execHoldings_quiet (rest : List Byte) : OutcomeSat Quiet (execHoldings rest s) := by
  refine takeFrame_quiet h _ _ _ fun params t ht => ?_
  split <;> exact respond_quiet ht ..

/-- Logs 13 and 14: every command pays what it has made due. -/
theorem exec_quiet (c : Instr) : OutcomeSat Quiet (exec c s) := by
  cases c with
  | powerOnReset => exact ⟨rfl, rfl⟩
  | pinReset => exact ⟨rfl, rfl⟩
  | resetRelease straps => exact execResetRelease_quiet h straps
  | scanSpareReadDone => exact (execScanSpareReadDone_effect s).imp fun _ => ScanEffect.quiet h
  | scanPageReadDone => exact (execScanPageReadDone_effect s).imp fun _ => ScanEffect.quiet h
  | scanEraseDone o => exact (execScanEraseDone_effect o s).imp fun _ => ScanEffect.quiet h
  | scanMarkDone o => exact (execScanMarkDone_effect o s).imp fun _ => ScanEffect.quiet h
  | lookupSpareReadDone =>
    show OutcomeSat Quiet (execLookupSpareReadDone s)
    unfold execLookupSpareReadDone
    split
    · split
      · exact lookupSpareReadEnds_quiet h ..
      · trivial
    · exact h
  | lookupPageReadDone =>
    show OutcomeSat Quiet (execLookupPageReadDone s)
    unfold execLookupPageReadDone
    split
    · split
      · exact lookupPageReadEnds_quiet h ..
      · trivial
    · exact h
  | transferEnd =>
    show OutcomeSat Quiet (execTransferEnd s)
    unfold execTransferEnd
    split
    · split
      · exact transferEnds_quiet h _
      · trivial
    · exact h
  | programDone o =>
    show OutcomeSat Quiet (execProgramDone o s)
    unfold execProgramDone
    split
    · split
      · cases o with
        | pass => exact programEndsPass_quiet h _
        | fail => exact programEndsFail_quiet h _
      · trivial
    · exact h
  | markProgramDone o =>
    show OutcomeSat Quiet (execMarkProgramDone o s)
    unfold execMarkProgramDone
    split
    · split
      · exact markEnds_quiet h ..
      · trivial
    · exact h
  | eraseDone o =>
    show OutcomeSat Quiet (execEraseDone o s)
    unfold execEraseDone
    split
    · split
      · exact eraseEnds_quiet h ..
      · trivial
    · exact h
  | carrierBegin => exact (lineEvents_quiet h).1
  | carrierEnd p => exact execCarrierEnd_quiet h p
  | ownSlotStart => exact execOwnSlotStart_quiet h
  | mismatchDetected => exact (lineEvents_quiet h).2.1
  | burstSent => exact execBurstSent_quiet h
  | jamEnd r => exact (lineEvents_quiet h).2.2.1 r
  | quietLimitExpiry => exact (lineEvents_quiet h).2.2.2
  | reportTimerExpiry => exact (timers_quiet h).1
  | spacingTimerExpiry => exact h
  | silenceTimerExpiry p => exact State.settleRepair_quiet (fallsSilent_paid h p)
  | slotTimerExpiry i => exact State.settleRepair_quiet (slotExpires_paid h i)
  | flushTimerExpiry => exact (timers_quiet h).2.1
  | askTimerExpiry i => exact State.settleRepair_quiet (askExpires_paid h i)
  | noticeDelayTimerExpiry => exact h
  | listenIntervalEnd => exact (timers_quiet h).2.2
  | responseRead clocks => exact execResponseRead_quiet h clocks
  | status rest => exact takeFrame_quiet h _ _ _ fun _ _ ht => respond_quiet ht ..
  | configure rest => exact takeFrame_quiet h _ _ _ fun _ _ ht => ht
  | configureTaken carrier => exact execConfigureTaken_quiet h carrier
  | submit rest => exact takeFrame_quiet h _ _ _ fun params _ ht => (queries_quiet ht params 0 false).2.1
  | submitTaken => exact execSubmitTaken_quiet h
  | fetch rest => exact takeFrame_quiet h _ _ _ fun _ _ ht => takeFetch_quiet ht ..
  | fetchResult rest => exact takeFrame_quiet h _ _ _ fun params _ ht => (queries_quiet ht params 0 false).2.2.1
  | holdings rest => exact execHoldings_quiet h rest
  | notices rest => exact takeFrame_quiet h _ _ _ fun params _ ht => (queries_quiet ht params _ false).2.2.2
  | counters rest => exact takeFrame_quiet h _ _ _ fun params _ ht => (queries_quiet ht params 0 _).1
  | restart rest => exact takeFrame_quiet h _ _ _ fun _ _ ht => ht
  | unknownCommand id rest => exact execUnknownCommand_quiet h id rest

end

end Sys2Proof.Machine

namespace Sys2Proof.Proofs

open Sys2Proof.Machine Sys2Proof.Safety

/-- Settles O58: `exec_quiet`, the case analysis over the commands. -/
theorem nothingStaysOwed : Obligations.NothingStaysOwed := fun _ _ quiet h =>
  step_keeps (P := Quiet) (fun _ _ w => w) (fun _ _ _ w e => (exec_quiet w _).next e) quiet h

end Sys2Proof.Proofs

/-! Commands of few effects: the outcomes, the reset and its release, the events of the line that change the line controller alone, the
timers, and the end of the listen interval. -/

namespace Sys2Proof.Machine

open Sys2Proof.Safety

/-! ## Outcomes -/

/-- The outcome is a next state, or a fault for the operation in flight on a page outside the array. -/
def Lawful (s : State) : Host.Outcome State Fault Refusal → Prop
  | .next _ => True
  | .fault f => ∃ op, s.fc.op = some op ∧ (opPage op).valid = false ∧ f = .noSuchPage (opPage op)
  | .refused _ => False

theorem lawful_page {s : State} {op : Op} (h : s.fc.op = some op) (t : State) :
    Lawful s (if (opPage op).valid then .next t else .fault (.noSuchPage (opPage op))) := by
  split
  · trivial
  · exact ⟨op, h, Bool.eq_false_iff.mpr ‹_›, rfl⟩

theorem valid_pageZero (b : Nat) : (PageAddr.mk b 0).valid = decide (b < Config.blocks) := by
  simp [PageAddr.valid, Config.pagesPerBlock]

/-- An operation on a whole block is for its page 0. -/
theorem lawful_block {s : State} {op : Op} {b : Nat} (h : s.fc.op = some op) (page : opPage op = { block := b, page := 0 })
    (t : State) : Lawful s (if b < Config.blocks then .next t else .fault (.noSuchPage { block := b, page := 0 })) := by
  have := lawful_page h t
  rw [page, valid_pageZero] at this
  simpa only [decide_eq_true_eq] using this

theorem completions_lawful (s : State) :
    Lawful s (execLookupSpareReadDone s) ∧ Lawful s (execLookupPageReadDone s) ∧ Lawful s (execTransferEnd s)
      ∧ (∀ o, Lawful s (execProgramDone o s)) ∧ (∀ o, Lawful s (execMarkProgramDone o s)) ∧ ∀ o, Lawful s (execEraseDone o s) := by
  refine ⟨?_, ?_, ?_, fun o => ?_, fun o => ?_, fun o => ?_⟩
  · unfold execLookupSpareReadDone
    split
    · exact lawful_page ‹_› _
    · trivial
  · unfold execLookupPageReadDone
    split
    · exact lawful_page ‹_› _
    · trivial
  · unfold execTransferEnd
    split
    · exact lawful_page ‹_› _
    · trivial
  · unfold execProgramDone
    split
    · cases o <;> exact lawful_page ‹_› _
    · trivial
  · unfold execMarkProgramDone
    split
    · exact lawful_block ‹_› rfl _
    · trivial
  · unfold execEraseDone
    split
    · exact lawful_block ‹_› rfl _
    · trivial

theorem scan_lawful (s : State) :
    Lawful s (execScanSpareReadDone s) ∧ Lawful s (execScanPageReadDone s) ∧ (∀ o, Lawful s (execScanEraseDone o s))
      ∧ ∀ o, Lawful s (execScanMarkDone o s) := by
  refine ⟨?_, ?_, fun o => ?_, fun o => ?_⟩
  · unfold execScanSpareReadDone
    split
    · split
      · exact lawful_page ‹_› _
      · trivial
    · trivial
  · unfold execScanPageReadDone
    split
    · split
      · exact lawful_page ‹_› _
      · trivial
    · trivial
  · unfold execScanEraseDone
    split
    · exact lawful_block ‹_› rfl _
    · trivial
  · unfold execScanMarkDone
    split
    · exact lawful_block ‹_› rfl _
    · trivial

theorem line_lawful (s : State) :
    Lawful s (execCarrierBegin s) ∧ (∀ p, Lawful s (execCarrierEnd p s)) ∧ Lawful s (execOwnSlotStart s)
      ∧ Lawful s (execMismatchDetected s) ∧ Lawful s (execBurstSent s) ∧ (∀ r, Lawful s (execJamEnd r s))
      ∧ Lawful s (execQuietLimitExpiry s) := by
  refine ⟨?_, fun p => ?_, ?_, ?_, ?_, fun r => ?_, ?_⟩
  · unfold execCarrierBegin
    dsimp only
    split
    · trivial
    · split <;> trivial
    · trivial
  · unfold execCarrierEnd
    dsimp only
    split
    · trivial
    · trivial
    · split <;> trivial
    · trivial
  · unfold execOwnSlotStart
    split
    · dsimp only
      split
      · trivial
      · split <;> trivial
    · trivial
  · unfold execMismatchDetected
    split <;> trivial
  · unfold execBurstSent
    split <;> trivial
  · unfold execJamEnd
    split
    · split <;> trivial
    · trivial
  · unfold execQuietLimitExpiry
    split
    · split
      · trivial
      · split <;> trivial
    · trivial

theorem host_lawful (s : State) :
    (∀ n, Lawful s (execResponseRead n s)) ∧ (∀ c, Lawful s (execConfigureTaken c s)) ∧ Lawful s (execSubmitTaken s)
      ∧ (∀ n, Lawful s (execResetRelease n s)) ∧ ∀ id rest, Lawful s (execUnknownCommand id rest s) := by
  refine ⟨fun n => ?_, fun c => ?_, ?_, fun n => ?_, fun id rest => ?_⟩
  · unfold execResponseRead
    split <;> trivial
  · unfold execConfigureTaken
    split
    · trivial
    · dsimp only
      split
      · split <;> trivial
      · trivial
  · unfold execSubmitTaken
    split
    · trivial
    · dsimp only
      split <;> trivial
  · unfold execResetRelease
    split <;> trivial
  · unfold execUnknownCommand
    split
    · trivial
    · split <;> trivial

theorem timers_lawful (s : State) :
    Lawful s (execReportTimerExpiry s) ∧ Lawful s (execFlushTimerExpiry s) ∧ Lawful s (execListenIntervalEnd s) := by
  refine ⟨?_, ?_, ?_⟩
  · unfold execReportTimerExpiry
    split <;> trivial
  · unfold execFlushTimerExpiry
    split <;> trivial
  · unfold execListenIntervalEnd
    split <;> trivial

theorem exec_lawful (c : Instr) (s : State) : Lawful s (exec c s) := by
  cases c with
  | powerOnReset => trivial
  | pinReset => trivial
  | resetRelease straps => exact (host_lawful s).2.2.2.1 straps
  | scanSpareReadDone => exact (scan_lawful s).1
  | scanPageReadDone => exact (scan_lawful s).2.1
  | scanEraseDone o => exact (scan_lawful s).2.2.1 o
  | scanMarkDone o => exact (scan_lawful s).2.2.2 o
  | lookupSpareReadDone => exact (completions_lawful s).1
  | lookupPageReadDone => exact (completions_lawful s).2.1
  | transferEnd => exact (completions_lawful s).2.2.1
  | programDone o => exact (completions_lawful s).2.2.2.1 o
  | markProgramDone o => exact (completions_lawful s).2.2.2.2.1 o
  | eraseDone o => exact (completions_lawful s).2.2.2.2.2 o
  | carrierBegin => exact (line_lawful s).1
  | carrierEnd p => exact (line_lawful s).2.1 p
  | ownSlotStart => exact (line_lawful s).2.2.1
  | mismatchDetected => exact (line_lawful s).2.2.2.1
  | burstSent => exact (line_lawful s).2.2.2.2.1
  | jamEnd r => exact (line_lawful s).2.2.2.2.2.1 r
  | quietLimitExpiry => exact (line_lawful s).2.2.2.2.2.2
  | reportTimerExpiry => exact (timers_lawful s).1
  | spacingTimerExpiry => trivial
  | silenceTimerExpiry p => trivial
  | slotTimerExpiry i => trivial
  | flushTimerExpiry => exact (timers_lawful s).2.1
  | askTimerExpiry i => trivial
  | noticeDelayTimerExpiry => trivial
  | listenIntervalEnd => exact (timers_lawful s).2.2
  | responseRead n => exact (host_lawful s).1 n
  | status rest => trivial
  | configure rest => trivial
  | configureTaken carrier => exact (host_lawful s).2.1 carrier
  | submit rest => trivial
  | submitTaken => exact (host_lawful s).2.2.1
  | fetch rest => trivial
  | fetchResult rest => trivial
  | holdings rest => trivial
  | notices rest => trivial
  | counters rest => trivial
  | restart rest => trivial
  | unknownCommand id rest => exact (host_lawful s).2.2.2.2 id rest

/-! ## Nothing is pending at rest -/

theorem toList_replicate_filterMap {α β : Type} {x : α} {f : α → Option β} (h : f x = none) (n : Nat) :
    (Vector.replicate n x).toList.filterMap f = [] := by
  rw [Vector.toList_replicate, List.filterMap_replicate_of_none h]

section
variable {s : State}

theorem su_atRest (w : AtRest s) : s.su = Su.reset := w.2.2.1
theorem ra_atRest (w : AtRest s) : s.ra = Ra.reset := w.2.2.2.1
theorem ce_atRest (w : AtRest s) : s.ce = Ce.reset := w.2.2.2.2.1

theorem fill_atRest (w : AtRest s) : s.fc.fill = FillReg.reset := by
  obtain ⟨-, -, -, -, -, -, -, -, -, -, -, -, -, fill, -⟩ := w
  exact fill

theorem array_atRest (w : AtRest s) : s.fc.array = ArrayReg.reset := by
  obtain ⟨-, -, -, -, -, -, -, -, -, -, -, -, -, -, array, -⟩ := w
  exact array

theorem pendingSeqs_atRest (w : AtRest s) : s.su.entries.toList.filterMap SubmitEntry.pendingSeq = [] := by
  rw [su_atRest w]
  exact toList_replicate_filterMap rfl 8

theorem queued_atRest (w : AtRest s) : s.su.queued = 0 := by
  rw [su_atRest w]
  decide

theorem ownPath_atRest (w : AtRest s) : ownPath s = [] := by
  unfold ownPath
  rw [array_atRest w, fill_atRest w, ce_atRest w]
  rfl

theorem pendingOf_atRest (w : AtRest s) (o : Nat) : s.pendingOf o = [] := by
  have slots : s.ra.slots.toList.filterMap (Slot.pendingOf o) = [] := by
    rw [ra_atRest w]
    exact toList_replicate_filterMap rfl 8
  unfold State.pendingOf
  rw [slots, array_atRest w, fill_atRest w, ce_atRest w, pendingSeqs_atRest w]
  simp [Ce.reset, FillReg.reset, ArrayReg.reset, listedOf]

theorem slot_atRest (w : AtRest s) (i : Nat) : place s.ra.slots .free i = .free := by
  rw [ra_atRest w]
  exact place_replicate ..

/-- R81 at rest: the path is empty. -/
theorem pendingOk_atRest (w : AtRest s) (number : ∀ st, s.station = some st → st ≠ .halted → 1 ≤ s.own ∧ s.own ≤ 24) :
    PendingOk s := by
  refine ⟨fun o n h => ?_, ?_, ?_, fun i h => ?_, fun i d h => ?_, fun c h => ?_, fun _ => queued_atRest w, number⟩
  · rw [pendingOf_atRest w] at h
    cases h
  · rw [ownPath_atRest w, queued_atRest w]
    rfl
  · rw [pendingSeqs_atRest w, queued_atRest w]
    exact .refl _
  · rw [ce_atRest w] at h
    cases h
  · rw [slot_atRest w] at h
    cases h
  · cases op_atRest w h

end

theorem atRest_reset : AtRest State.reset :=
  ⟨rfl, rfl, rfl, rfl, rfl, rfl, rfl, rfl, rfl, rfl, rfl, rfl, rfl, rfl, rfl, rfl, rfl, rfl, rfl, rfl, fun _ h => by cases h⟩

end Sys2Proof.Machine

namespace Sys2Proof.Proofs

open Sys2Proof.Machine Sys2Proof.Safety

/-- Settles O60: the station held in reset is at rest. -/
theorem invariantsHoldAtReset : Obligations.InvariantsHoldAtReset :=
  ⟨rfl, rfl, Nat.zero_le _, ⟨fun _ => atRest_reset, fun h => by cases h⟩, fun _ h => (by cases h), settingsOk_atRest atRest_reset,
    oneOpen_atRest atRest_reset, holdingsOk_atRest atRest_reset, durableOk_atRest atRest_reset,
    pendingOk_atRest atRest_reset fun _ h => (by cases h), rfl, rfl⟩

/-- Settles O2: `exec_lawful` for the outcomes, and every course leaves the waiting commands. -/
theorem outcomesOfACommand : Obligations.OutcomesOfACommand := by
  intro c s
  have lawful := exec_lawful c s
  refine ⟨fun r h => ?_, fun f h => ?_, fun t h => (exec_course h).pending⟩
  · rw [h] at lawful
    exact lawful
  · rw [h] at lawful
    exact lawful

end Sys2Proof.Proofs

/-! What a reset leaves (R18, R19, R40): the array after an operation cut short, and the reset values. -/

namespace Sys2Proof.Machine

open Sys2Proof.Safety

/-! ## A page of zeros never looks whole (R2, log 7) -/

/-- The remainder of R213 after `n` bytes 00h more. -/
def zeroBytes : Nat → Nat → Nat
  | 0, r => r
  | n + 1, r => zeroBytes n (crcByte r 0x00#8)

theorem zeroBytes_add (a : Nat) : (b r : Nat) → zeroBytes (a + b) r = zeroBytes b (zeroBytes a r) := by
  induction a with
  | zero => intro b r; rw [Nat.zero_add, zeroBytes]
  | succ a ih => intro b r; rw [Nat.succ_add, zeroBytes, ih, zeroBytes]

theorem foldl_crcByte_replicate : (n r : Nat) → (List.replicate n 0x00#8).foldl crcByte r = zeroBytes n r
  | 0, _ => rfl
  | n + 1, r => by rw [List.replicate_succ, List.foldl_cons, foldl_crcByte_replicate, zeroBytes]

/-- The remainders after every 128 bytes 00h of a data part. -/
def zeroRemainders : List Nat :=
  [4294967295, 1184950972, 3848181327, 494183150, 3780225714, 2761363757, 1473313360, 42025909, 2332709384, 4091921786,
   1497775296, 361437939, 2172176329, 4233496578, 4017693569, 735253163, 2258823280, 3166420233, 4038047474, 3609964142,
   2912383280, 1790839337, 3445318675, 2944360411, 3731658777]

/-- From the remainder `a` on, each remainder of the list is the one after `k` bytes 00h more. -/
def zerosLead (k : Nat) : Nat → List Nat → Bool
  | _, [] => true
  | a, b :: l => zeroBytes k a == b && zerosLead k b l

theorem zeroRemainders_lead : zerosLead 128 4294967295 zeroRemainders.tail = true := by decide +kernel

theorem zeroRemainders_ends : zeroRemainders = 4294967295 :: zeroRemainders.tail ∧ zeroRemainders.tail.length = 24
    ∧ zeroRemainders.getLast (List.cons_ne_nil _ _) = 3731658777 := ⟨rfl, rfl, rfl⟩

/-- Along such a chain each remainder is that of `k` bytes more. -/
theorem zeroBytes_of_zerosLead {k : Nat} : {l : List Nat} → {a : Nat} → zerosLead k a l = true →
    zeroBytes (k * l.length) a = (a :: l).getLast (List.cons_ne_nil _ _)
  | [], _, _ => rfl
  | b :: l, a, h => by
    obtain ⟨first, rest⟩ := Bool.and_eq_true_iff.mp h
    rw [List.length_cons, Nat.mul_succ, Nat.add_comm, zeroBytes_add, eq_of_beq first, zeroBytes_of_zerosLead rest,
      List.getLast_cons_cons]

theorem crc32_zeros : crc32 (List.replicate 3072 0x00#8) ≠ 0 := by
  have remainder : zeroBytes (128 * zeroRemainders.tail.length) 4294967295 = _ := zeroBytes_of_zerosLead zeroRemainders_lead
  rw [zeroRemainders_ends.2.1] at remainder
  have remainder : zeroBytes 3072 4294967295 = 3731658777 := remainder.trans zeroRemainders_ends.2.2
  rw [crc32, foldl_crcByte_replicate, remainder]
  decide

theorem looksWhole_zeros : looksWhole (List.replicate 3168 0x00#8) = false := by
  have data : (List.replicate 3168 0x00#8).take Config.dataBytes = List.replicate 3072 0x00#8 := by
    rw [List.take_replicate]
    rfl
  have check : sparePageCheck ((List.replicate 3168 0x00#8).drop Config.dataBytes) = 0 := by
    rw [List.drop_replicate]
    decide
  have first : allErased (List.replicate 3168 0x00#8) = false := by
    rw [List.replicate_succ]
    rfl
  rw [looksWhole, data, check, first, Bool.false_or]
  exact beq_eq_false_iff_ne.mpr crc32_zeros

theorem length_programOver (old new : List Byte) : (programOver old new).length = min old.length new.length := by
  rw [programOver, List.length_zipWith]

theorem length_freeBytes (d n : Nat) : (freeBytes d n).length = n := by simp [freeBytes]

theorem length_tornBytes (old : List Byte) (d : Nat) : (tornBytes old d).length = old.length := by
  unfold tornBytes
  dsimp only
  split
  · rw [List.length_replicate]
  · rw [length_programOver, length_freeBytes, Nat.min_self]

/-- R2: a torn page never reads as erased and its check never matches its data. -/
theorem looksWhole_tornBytes {old : List Byte} (h : old.length = 3168) (d : Nat) : looksWhole (tornBytes old d) = false := by
  unfold tornBytes
  dsimp only
  split
  · rw [h]
    exact looksWhole_zeros
  · exact Bool.eq_false_iff.mpr ‹_›

/-! ## Pages and their addresses -/

theorem base_eq (p : PageAddr) : p.base = (p.block * 48 + p.page) * 3168 := rfl

theorem arrayBytes_eq : Config.arrayBytes = 97320960 := rfl

theorem valid_iff (p : PageAddr) : p.valid = true ↔ p.block < 640 ∧ p.page < 48 := by
  rw [PageAddr.valid, Bool.and_eq_true, decide_eq_true_eq, decide_eq_true_eq]
  rfl

theorem base_add_lt {p : PageAddr} (h : p.valid = true) : p.base + 3168 ≤ Config.arrayBytes := by
  obtain ⟨hb, hp⟩ := (valid_iff p).mp h
  rw [base_eq, arrayBytes_eq]
  omega

namespace Memory

variable {m : Memory}

/-- Bytes written within the array are read back. -/
theorem readRange_writeRange (w : m.wf = true) {a : Nat} {bytes : List Byte} (h : a + bytes.length ≤ Config.arrayBytes) :
    (m.writeRange a bytes).readRange a bytes.length = bytes := by
  rw [readRange_eq (wf_writeRange w a bytes)]
  apply List.ext_getElem
  · simp
  · intro i h1 h2
    rw [List.getElem_map, List.getElem_range, read_writeRange_inside w a bytes h2 (by omega), List.getElem?_eq_getElem h2]
    rfl

theorem length_pageBytes (m : Memory) (p : PageAddr) : (m.readRange p.base Config.pageBytes).length = 3168 :=
  length_readRange ..

theorem looksWhole_tearPage (w : m.wf = true) {p : PageAddr} (h : p.valid = true) (d : Nat) :
    looksWhole ((m.tearPage p d).readRange p.base 3168) = false := by
  have len : (tornBytes (m.readRange p.base Config.pageBytes) d).length = 3168 := by
    rw [length_tornBytes, length_pageBytes]
  have back := readRange_writeRange (bytes := tornBytes (m.readRange p.base Config.pageBytes) d) w
    (len.symm ▸ base_add_lt h)
  rw [len] at back
  rw [tearPage, back]
  exact looksWhole_tornBytes (length_pageBytes m p) d

theorem read_tearPage_outside (w : m.wf = true) (p : PageAddr) (d : Nat) {a : Nat} (h : a < p.base ∨ p.base + 3168 ≤ a) :
    (m.tearPage p d).read a = m.read a := by
  refine read_writeRange_outside w _ _ ?_
  rw [length_tornBytes, length_pageBytes]
  exact h

theorem spareBase_lt {b : Nat} (h : b < 640) : (PageAddr.mk b 0).spareBase < Config.arrayBytes := by
  show ((PageAddr.mk b 0).base + 3072) < _
  rw [base_eq, arrayBytes_eq]
  dsimp only
  omega

theorem read_markBlock (w : m.wf = true) {b : Nat} (hb : b < 640) (v : Byte) (a : Nat) :
    (m.markBlock b v).read a
      = if a = (PageAddr.mk b 0).spareBase then m.read a &&& v else m.read a := by
  rw [markBlock, read_write w (spareBase_lt hb)]
  by_cases h : (PageAddr.mk b 0).spareBase = a
  · rw [if_pos h, if_pos h.symm, h]
  · rw [if_neg h, if_neg (Ne.symm h)]

theorem read_erasePages (w : m.wf = true) (b first count a : Nat) :
    (m.erasePages b first count).read a
      = if (PageAddr.mk b first).base ≤ a ∧ a < (PageAddr.mk b first).base + count * 3168 then 0xFF#8 else m.read a := by
  split
  · rename_i h
    exact read_eraseRange_inside h.1 h.2
  · rename_i h
    exact read_eraseRange_outside w (by unfold Config.pageBytes; omega)

theorem base_first (b first : Nat) : (PageAddr.mk b first).base = (PageAddr.mk b 0).base + first * 3168 := by
  rw [base_eq, base_eq]
  dsimp only
  omega

/-- An address outside the pages 1 to 47 of a block. -/
theorem outside_scrambled {b a : Nat} (h : a < (PageAddr.mk b 0).base + 3168 ∨ (PageAddr.mk b 0).base + 48 * 3168 ≤ a) :
    a < (PageAddr.mk b 1).base ∨ (PageAddr.mk b 1).base + 47 * 3168 ≤ a := by
  have next := base_first b 1
  generalize (PageAddr.mk b 1).base = x at *
  generalize (PageAddr.mk b 0).base = y at *
  omega

theorem read_scramblePages_outside (w : m.wf = true) (b d : Nat) {a : Nat}
    (h : a < (PageAddr.mk b 0).base + 3168 ∨ (PageAddr.mk b 0).base + 48 * 3168 ≤ a) :
    (m.scramblePages b d).read a = m.read a := by
  have bounds : a < (PageAddr.mk b 1).base
      ∨ (PageAddr.mk b 1).base + (Config.pagesPerBlock - 1) * Config.pageBytes ≤ a := outside_scrambled h
  rw [← length_freeBytes d ((Config.pagesPerBlock - 1) * Config.pageBytes)] at bounds
  rw [scramblePages]
  exact read_writeRange_outside w _ _ bounds

end Memory

/-! ## An operation cut short (R18) -/

section
variable {s t : State}

theorem markCut_of_eq (w : MemoryOk s) {b : Nat} {v : Byte} {landed : Bool}
    (h : t.fc.mem = if landed then s.fc.mem.markBlock b v else s.fc.mem) : MarkCut s t b v := by
  intro hb
  dsimp only
  rw [h]
  cases landed with
  | false => exact ⟨.inl rfl, fun _ _ => rfl⟩
  | true =>
    simp only [if_true]
    refine ⟨.inr ?_, fun a ha => ?_⟩
    · rw [Memory.read_markBlock w hb, if_pos rfl]
    · rw [Memory.read_markBlock w hb, if_neg ha]

theorem eraseCut_of_eq (w : MemoryOk s) {b d : Nat}
    (h : t.fc.mem = if b < Config.blocks then (s.fc.mem.erasePages b 0 1).scramblePages b d else s.fc.mem) :
    EraseCut s t b := by
  intro hb
  rw [if_pos (show b < Config.blocks from hb)] at h
  have erased : (s.fc.mem.erasePages b 0 1).wf = true := Memory.wf_erasePages w ..
  refine ⟨fun i hi => ?_, fun a ha => ?_⟩
  · rw [h, Memory.read_scramblePages_outside erased _ _ (by omega), Memory.read_erasePages w, if_pos (by omega)]
  · rw [h, Memory.read_scramblePages_outside erased _ _ (by omega), Memory.read_erasePages w, if_neg (by omega)]

end

/-- R18, Table 1-12: the array after a reset, operation by operation. -/
theorem beginReset_cutsShort {s : State} (w : MemoryOk s) (k : ResetKind) :
    match s.fc.op with
    | none => (s.beginReset k).fc.mem = s.fc.mem
    | some (.scanSpareRead _) => (s.beginReset k).fc.mem = s.fc.mem
    | some (.scanPageRead _) => (s.beginReset k).fc.mem = s.fc.mem
    | some (.lookupRead _ _ _) => (s.beginReset k).fc.mem = s.fc.mem
    | some (.transfer _) => (s.beginReset k).fc.mem = s.fc.mem
    | some (.program c) => c.target.valid = true →
        looksWhole ((s.beginReset k).fc.mem.readRange c.target.base 3168) = false
          ∧ ∀ a, a < c.target.base ∨ c.target.base + 3168 ≤ a → (s.beginReset k).fc.mem.read a = s.fc.mem.read a
    | some (.mark b v) => MarkCut s (s.beginReset k) b v
    | some (.scanMark b v) => MarkCut s (s.beginReset k) b v
    | some (.erase b) => EraseCut s (s.beginReset k) b
    | some (.scanErase b) => EraseCut s (s.beginReset k) b := by
  have mem : (s.beginReset k).fc.mem = (s.fc.op.map (s.fc.mem.cutShort s.fresh)).getD s.fc.mem := rfl
  split <;> rename_i op <;> rw [op] at mem
  case h_6 _ c =>
    intro valid
    have torn : (s.beginReset k).fc.mem = s.fc.mem.tearPage c.target s.fresh := mem.trans (if_pos valid)
    rw [torn]
    exact ⟨Memory.looksWhole_tearPage w valid _, fun a ha => Memory.read_tearPage_outside w _ _ ha⟩
  case h_7 => exact markCut_of_eq w mem
  case h_8 => exact markCut_of_eq w mem
  case h_9 => exact eraseCut_of_eq w mem
  case h_10 => exact eraseCut_of_eq w mem
  all_goals exact mem

/-! ## Reset values (R19) -/

theorem count_replicate (p : BlockState → Bool) (x : BlockEntry) (sm : Sm) (h : sm.table = Vector.replicate 640 x) :
    sm.count p = if p x.state then 640 else 0 := by
  rw [Sm.count, h, Vector.toList_replicate, List.countP_replicate]

end Sys2Proof.Machine

namespace Sys2Proof.Proofs

open Sys2Proof.Machine Sys2Proof.Safety

/-- Settles O3: every field of `beginReset` is its reset value, tables by `place_replicate`. -/
theorem resetGivesTheResetValues : Obligations.ResetGivesTheResetValues := by
  intro c k s h
  have resets : exec c s = .next (s.beginReset k) := by
    rcases h with ⟨rfl, rfl⟩ | ⟨rfl, rfl⟩ <;> rfl
  have rest : AtRest (s.beginReset k) := atRest_beginReset s k
  refine ⟨s.beginReset k, resets, rfl, ⟨rfl, rfl, rfl, rfl, rfl, rfl⟩, rfl, rfl, rfl, ⟨rfl, rfl⟩, block_atRest rest,
    ⟨rfl, rfl, rfl, rfl, ?_, rfl, rfl⟩, entry_atRest rest, cell_atRest rest,
    fun p => ⟨lineOf_replicate .., lineOf_replicate ..⟩, ⟨rfl, rfl, rfl, rfl, rfl, rfl, rfl, rfl⟩,
    fun i => place_replicate .., slot_atRest rest, rfl, rfl, ⟨rfl, rfl, rfl, rfl, rfl, rfl⟩,
    ⟨fun i => place_replicate .., rfl, rfl, rfl, rfl, rfl⟩, rfl, ⟨rfl, rfl, rfl, rfl, fun k => place_replicate ..⟩,
    pendingOf_atRest rest, rfl⟩
  exact count_replicate _ BlockEntry.reset _ rfl

/-- Settles O4: `beginReset_cutsShort`; the flags of R4 are no content of the array. -/
theorem resetCutsAnOperationShort : Obligations.ResetCutsAnOperationShort := by
  intro c s h w
  rcases h with rfl | rfl
  · exact ⟨_, rfl, rfl, rfl, beginReset_cutsShort w .power⟩
  · exact ⟨_, rfl, rfl, rfl, beginReset_cutsShort w .pin⟩

/-- Settles O5: the two branches of the release. -/
theorem releaseLatchesTheStraps : Obligations.ReleaseLatchesTheStraps := by
  intro straps s
  refine ⟨fun k held => ?_, fun st h running => ?_⟩
  · have released : exec (.resetRelease straps) s = .next (s.release k straps.toNat) := by
      show execResetRelease straps s = _
      rw [execResetRelease, held]
    dsimp only
    rw [released]
    unfold State.release Sc.releaseCause
    dsimp only
    split
    · rename_i inside
      refine ⟨_, Scan.first, rfl, rfl, rfl, rfl, ?_, fun p hp => ?_⟩
      · exact (lineOf_setLine ..).trans (if_pos ⟨rfl, inside.1, inside.2⟩)
      · exact (lineOf_setLine ..).trans (if_neg fun e => hp e.1.symm)
    · rfl
  · show execResetRelease straps s = _
    rw [execResetRelease, running]

end Sys2Proof.Proofs

/-! The commands that concern one block alone: the line controller, the timers, the notices, and the end of the listen interval. -/

namespace Sys2Proof.Machine

open Sys2Proof.Safety

/-! ## Counters -/

/-- No two counters share a place of Table 11-11. -/
theorem Counter.index_injective {j k : Counter} (h : j.index = k.index) : j = k := by
  revert h
  cases j <;> cases k <;> simp [Counter.index]

theorem Counter.index_lt (k : Counter) : k.index < 19 := by cases k <;> decide

theorem State.counter_raise (s : State) (k : Counter) (n : Nat) (j : Counter) :
    (s.raise k n).counter j = if j = k then min 65535 (s.counter k + n) else s.counter j := by
  refine (place_setPlace ..).trans ?_
  by_cases h : j = k
  · rw [if_pos h, if_pos ⟨congrArg Counter.index h.symm, k.index_lt⟩]
  · rw [if_neg h, if_neg fun e => h (Counter.index_injective e.1.symm)]
    rfl

theorem State.counter_bump (s : State) (k j : Counter) :
    (s.bump k).counter j = if j = k then min 65535 (s.counter k + 1) else s.counter j := counter_raise s k 1 j

theorem State.counter_bump_self (s : State) (k : Counter) : (s.bump k).counter k = min 65535 (s.counter k + 1) := by
  rw [counter_bump, if_pos rfl]

theorem State.counter_bump_of_ne (s : State) {k j : Counter} (h : j ≠ k) : (s.bump k).counter j = s.counter j := by
  rw [counter_bump, if_neg h]

/-! ## Notices (R190 to R193) -/

theorem coalesce_eq_some {n : Notice} : {q r : List Notice} → coalesce n q = some r →
    ∃ before x after, q = before ++ x :: after ∧ n.partner x = true ∧ r = before ++ n.merge x :: after
  | [], _, h => by cases h
  | x :: q, r, h => by
    unfold coalesce at h
    split at h
    · rename_i partner
      cases h
      exact ⟨[], x, q, rfl, partner, rfl⟩
    · rw [Option.map_eq_some_iff] at h
      obtain ⟨r', hr, rfl⟩ := h
      obtain ⟨before, y, after, rfl, partner, rfl⟩ := coalesce_eq_some hr
      exact ⟨x :: before, y, after, rfl, partner, rfl⟩

theorem coalesce_eq_none_iff {n : Notice} : {q : List Notice} → (coalesce n q = none ↔ ∀ x ∈ q, n.partner x = false)
  | [] => by simp [coalesce]
  | x :: q => by
    unfold coalesce
    split
    · rename_i partner
      simp [partner]
    · rename_i alone
      rw [Option.map_eq_none_iff, coalesce_eq_none_iff, List.forall_mem_cons, and_iff_right (Bool.not_eq_true _ ▸ alone)]

namespace Nu

variable (nu : Nu) (th d : Nat) {n : Notice}

theorem take_of_partner {q : List Notice} (h : coalesce n nu.queue = some q) :
    (nu.take th d n).queue = q ∧ (nu.take th d n).overflow = nu.overflow ∧ (nu.take th d n).delayTimer = nu.delayTimer := by
  unfold take
  rw [h]
  exact ⟨rfl, rfl, rfl⟩

theorem take_of_room (h : coalesce n nu.queue = none) (room : nu.queue.length < 32) :
    (nu.take th d n).queue = nu.queue ++ [n] ∧ (nu.take th d n).overflow = nu.overflow
      ∧ (nu.take th d n).delayTimer = if nu.queue.isEmpty then startedDelay d else nu.delayTimer := by
  unfold take
  rw [h]
  dsimp only
  rw [if_pos (show nu.queue.length < Config.noticePlaces from room)]
  exact ⟨rfl, rfl, rfl⟩

theorem take_of_full (h : coalesce n nu.queue = none) (full : 32 ≤ nu.queue.length) :
    (nu.take th d n).queue = nu.queue ∧ (nu.take th d n).overflow = true ∧ (nu.take th d n).delayTimer = nu.delayTimer := by
  unfold take
  rw [h]
  dsimp only
  rw [if_neg (show ¬ nu.queue.length < Config.noticePlaces from Nat.not_lt.mpr full)]
  exact ⟨rfl, rfl, rfl⟩

/-- The three ways a notice is taken. -/
theorem take_queue (n : Notice) :
    (∃ before x after, nu.queue = before ++ x :: after ∧ n.partner x = true
        ∧ (nu.take th d n).queue = before ++ n.merge x :: after)
      ∨ ((∀ x ∈ nu.queue, n.partner x = false)
          ∧ ((nu.take th d n).queue = nu.queue ++ [n]
              ∨ ((nu.take th d n).queue = nu.queue ∧ (nu.take th d n).overflow = true))) := by
  cases found : coalesce n nu.queue with
  | some q =>
    obtain ⟨before, x, after, hq, partner, hr⟩ := coalesce_eq_some found
    exact .inl ⟨before, x, after, hq, partner, (take_of_partner nu th d found).1.trans hr⟩
  | none =>
    refine .inr ⟨coalesce_eq_none_iff.mp found, ?_⟩
    by_cases room : nu.queue.length < 32
    · exact .inl (take_of_room nu th d found room).1
    · obtain ⟨queue, overflow, -⟩ := take_of_full nu th d found (Nat.not_lt.mp room)
      exact .inr ⟨queue, overflow⟩

end Nu

/-- R190: what replaces a partner has the same partners, in both directions. -/
theorem Notice.partner_merge {n x : Notice} (h : n.partner x = true) (y : Notice) :
    (n.merge x).partner y = x.partner y ∧ y.partner (n.merge x) = y.partner x := by
  cases n <;> cases x <;> cases y <;> simp_all [Notice.partner, Notice.merge]

theorem Notice.partner_comm (n x : Notice) : n.partner x = x.partner n := by
  cases n <;> cases x <;> simp only [Notice.partner, BEq.comm]

/-- R190: no two queued notices are of one coalescing class. -/
theorem Nu.take_unpaired (nu : Nu) (th d : Nat) (n : Notice) (h : nu.queue.Pairwise fun x y => x.partner y = false) :
    (nu.take th d n).queue.Pairwise fun x y => x.partner y = false := by
  rcases Nu.take_queue nu th d n with ⟨before, x, after, hq, partner, ht⟩ | ⟨alone, ht | ⟨ht, -⟩⟩
  · rw [ht]
    rw [hq, List.pairwise_append, List.pairwise_cons] at h
    obtain ⟨hb, ⟨hx, ha⟩, hc⟩ := h
    rw [List.pairwise_append, List.pairwise_cons]
    refine ⟨hb, ⟨fun y hy => ?_, ha⟩, fun y hy z hz => ?_⟩
    · rw [(Notice.partner_merge partner y).1]
      exact hx y hy
    · rcases List.mem_cons.mp hz with rfl | hz
      · rw [(Notice.partner_merge partner y).2]
        exact hc y hy x List.mem_cons_self
      · exact hc y hy z (List.mem_cons_of_mem _ hz)
  · rw [ht, List.pairwise_append]
    refine ⟨h, List.pairwise_singleton .., fun y hy z hz => ?_⟩
    rw [List.mem_singleton] at hz
    rw [hz, Notice.partner_comm]
    exact alone y hy
  · rw [ht]
    exact h

/-- A notice whose value never merges is in the queue after it has been taken, or the overflow flag is set. -/
theorem Nu.mem_take (nu : Nu) (th d : Nat) {n : Notice} (h : ∀ x, n.partner x = true → n.merge x = n) :
    n ∈ (nu.take th d n).queue ∨ (nu.take th d n).overflow = true := by
  rcases Nu.take_queue nu th d n with ⟨before, x, after, -, partner, ht⟩ | ⟨-, ht | ⟨-, ht⟩⟩
  · left
    rw [ht, h x partner]
    simp
  · left
    rw [ht]
    simp
  · exact .inr ht

namespace State

theorem notify_of_running {s : State} (h : s.storeRuns = true) (n : Notice) :
    (s.notify n).nu = s.nu.take s.noticeThreshold s.noticeDelay n := by rw [notify_eq, h, setNu_nu, if_pos rfl]

theorem notify_of_not_running {s : State} (h : s.storeRuns = false) (n : Notice) : s.notify n = s := by
  unfold notify
  rw [h]
  rfl

end State

/-- A notice in the queue, or the overflow, stays through repair. -/
theorem Repairs.noticeKept {s t : State} (h : Repairs s t) {n : Notice} (w : n ∈ s.nu.queue ∨ s.nu.overflow = true) :
    n ∈ t.nu.queue ∨ t.nu.overflow = true := by
  obtain ⟨lost, queue, -⟩ := h.lost
  refine w.imp (fun mem => ?_) h.overflow
  rw [queue]
  exact List.mem_append_left _ mem

/-! ## Timers (R99 to R102, R131) -/

section
variable {s : State}

theorem fallsSilent_of_running {p : Nat} (h : lineOf s.hu.silence false p = true) :
    s.fallsSilent p = ((s.setPresence p .silent false).notify (.peerSilent p)).tellRp := by
  unfold State.fallsSilent
  rw [h]
  rfl

theorem presenceOf_setPresence {p : Nat} (h1 : 1 ≤ p) (h2 : p ≤ 24) (x : Presence) (timer : Bool) (q : Nat) :
    (s.setPresence p x timer).presenceOf q = (if p = q then x else s.presenceOf q)
      ∧ lineOf (s.setPresence p x timer).hu.silence false q = (if p = q then timer else lineOf s.hu.silence false q) := by
  refine ⟨(lineOf_setLine ..).trans ?_, (lineOf_setLine ..).trans ?_⟩
  · simp only [h1, h2, and_true]
    rfl
  · simp only [h1, h2, and_true]

end

end Sys2Proof.Machine

namespace Sys2Proof.Proofs

open Sys2Proof.Machine Sys2Proof.Safety

/-- Settles O42: by the three ways a notice is taken. -/
theorem noticeTaken : Obligations.NoticeTaken := by
  intro nu th d n
  refine ⟨fun ⟨x, mem, partner⟩ => ?_, fun alone room => ?_, fun alone full => ?_, fun room => ?_, Nu.take_unpaired nu th d n⟩
  · cases found : coalesce n nu.queue with
    | none =>
      rw [coalesce_eq_none_iff.mp found x mem] at partner
      cases partner
    | some q =>
      obtain ⟨before, y, after, hq, partner', rfl⟩ := coalesce_eq_some found
      exact ⟨before, y, after, hq, partner', Nu.take_of_partner nu th d found⟩
  · obtain ⟨queue, overflow, timer⟩ := Nu.take_of_room nu th d (coalesce_eq_none_iff.mpr alone) room
    refine ⟨queue, overflow, timer.trans ?_⟩
    unfold startedDelay
    cases nu.queue <;> simp
  · exact Nu.take_of_full nu th d (coalesce_eq_none_iff.mpr alone) full
  · exact Nu.take_length nu th d n room

/-- Settles O11: each event in the state of the controller that takes it. -/
theorem lineEventsOfTheController : Obligations.LineEventsOfTheController := by
  intro s
  refine ⟨fun st => ?_, fun st quiet => ?_, fun st => ?_, fun st => ⟨?_, ?_⟩, fun st limit => ⟨fun quiet => ?_, fun heard => ?_⟩⟩
  · show execCarrierBegin s = _
    simp only [execCarrierBegin, st]
    rfl
  · show execCarrierBegin s = _
    simp only [execCarrierBegin, st, quiet, if_true]
    rfl
  · refine ⟨(s.setLc { s.lc with state := .jamming }).bump .collisions, ?_, rfl, State.counter_bump_self .., fun k hk => ?_, rfl⟩
    · show execMismatchDetected s = _
      simp only [execMismatchDetected, st]
    · exact State.counter_bump_of_ne _ hk
  · show execJamEnd true s = _
    simp only [execJamEnd, st, if_true]
    rfl
  · show execJamEnd false s = _
    simp only [execJamEnd, st, Bool.false_eq_true, if_false]
    rfl
  · show execQuietLimitExpiry s = _
    simp only [execQuietLimitExpiry, st, limit, quiet, Bool.not_true, Bool.false_eq_true, if_false, if_true]
    rfl
  · show execQuietLimitExpiry s = _
    simp only [execQuietLimitExpiry, st, limit, heard, Bool.not_true, Bool.false_eq_true, if_false]
    rfl

/-- Settles O12: the reference with L = 0, and one counter. -/
theorem carrierEndsUnheard : Obligations.CarrierEndsUnheard := by
  intro p s
  refine ⟨fun st => ?_, fun st k hk => ?_⟩
  · show execCarrierEnd p s = _
    rcases st with st | ⟨st, tracked⟩
    · simp only [execCarrierEnd, st]
      rfl
    · simp only [execCarrierEnd, st, tracked]
      rfl
  · have ends : ∃ late, exec (.carrierEnd p) s = .next ((s.setLc { s.lc with rx := p }).endPeriod late p) := by
      show ∃ late, execCarrierEnd p s = _
      rcases st with st | ⟨st, tracked⟩
      · exact ⟨false, by simp only [execCarrierEnd, st]; rfl⟩
      · exact ⟨!s.lc.quietLimit, by simp only [execCarrierEnd, st, tracked]; rfl⟩
    obtain ⟨late, ends⟩ := ends
    have counted : (s.setLc { s.lc with rx := p }).endPeriod late p
        = ((s.setLc { s.lc with rx := p }).takeReference 0).bump k := by
      unfold State.endPeriod
      rcases hk with ⟨bad, rfl⟩ | ⟨foreign, rfl⟩
      · rw [show classify (s.setLc { s.lc with rx := p }).own (s.setLc { s.lc with rx := p }).groupSize p = .bad from bad]
      · rw [show classify (s.setLc { s.lc with rx := p }).own (s.setLc { s.lc with rx := p }).groupSize p = .foreign from foreign]
    rw [counted] at ends
    exact ⟨_, ends, rfl, State.counter_bump_self .., fun j hj => State.counter_bump_of_ne _ hj⟩

/-- Settles O22: the silence timer by what `fallsSilent` and a re-run leave, the others at once. -/
theorem holdingsAndNoticeTimers : Obligations.HoldingsAndNoticeTimers := by
  intro s
  refine ⟨fun p h1 h2 runs => ?_, fun runs => ?_, ⟨rfl, ?_⟩, fun runs => ?_⟩
  · have repairs := State.settleRepair_repairs (s.fallsSilent p)
    have keeps := State.settleRepair_keeps (s.fallsSilent p)
    rw [fallsSilent_of_running runs] at repairs keeps
    have hu : (((s.setPresence p .silent false).notify (.peerSilent p)).tellRp).hu = (s.setPresence p .silent false).hu :=
      State.notify_hu ..
    have presence (q : Nat) := presenceOf_setPresence (s := s) h1 h2 .silent false q
    have silent : ∀ q, ((((s.setPresence p .silent false).notify (.peerSilent p)).tellRp).settleRepair).presenceOf q
          = (if p = q then .silent else s.presenceOf q)
        ∧ lineOf ((((s.setPresence p .silent false).notify (.peerSilent p)).tellRp).settleRepair).hu.silence false q
          = (if p = q then false else lineOf s.hu.silence false q) := by
      intro q
      obtain ⟨h3, h4⟩ := presence q
      unfold State.presenceOf at h3 ⊢
      rw [keeps.presence, keeps.silence, hu]
      exact ⟨h3, h4⟩
    refine ⟨_, (by show Host.Outcome.next _ = _; rw [fallsSilent_of_running runs]), ?_, ?_, fun q hq => ?_, fun store => ?_,
      ?_, ?_, ?_, ?_, ?_, ?_, ?_, ?_, ?_, ?_, ?_⟩
    · rw [(silent p).1, if_pos rfl]
    · rw [(silent p).2, if_pos rfl]
    · rw [(silent q).1, (silent q).2, if_neg hq.symm, if_neg hq.symm]
      exact ⟨rfl, rfl⟩
    · refine repairs.noticeKept ?_
      show _ ∈ ((s.setPresence p .silent false).notify (.peerSilent p)).nu.queue
        ∨ ((s.setPresence p .silent false).notify (.peerSilent p)).nu.overflow = true
      rw [State.notify_of_running (s := s.setPresence p .silent false) store]
      exact Nu.mem_take _ _ _ fun x hx => by cases x <;> simp_all [Notice.partner, Notice.merge]
    · rw [keeps.matrix, hu]
      rfl
    · rw [repairs.hu, hu]
      rfl
    · rw [repairs.sc, State.notify_eq]
      rfl
    · rw [repairs.fc, State.notify_eq]
      rfl
    · rw [repairs.sm, State.notify_eq]
      rfl
    · rw [repairs.su, State.notify_eq]
      rfl
    · rw [repairs.ra, State.notify_eq]
      rfl
    · rw [repairs.ce, State.notify_eq]
      rfl
    · rw [repairs.lc, State.notify_eq]
      rfl
    · rw [repairs.ap, State.notify_eq]
      rfl
    · rw [repairs.pending, State.notify_eq]
      rfl
  · show execReportTimerExpiry s = _
    rw [execReportTimerExpiry, if_pos runs]
    rfl
  · simp only [Hu.line7, Bool.and_eq_true, Bool.not_eq_true', and_assoc]
  · show execNoticeDelayTimerExpiry s = _
    unfold execNoticeDelayTimerExpiry Nu.delayExpired
    rw [runs]
    simp only [Nu.setAttn, Nu.attnCondition, beq_self_eq_true, Bool.or_true, Bool.and_true]
    rfl

/-- Settles O48: the listen interval moves the station state, and the rest is what one re-run leaves. -/
theorem listenIntervalEnds : Obligations.ListenIntervalEnds := by
  intro s joining listening
  have repairs := State.settleRepair_repairs s.becomeActive
  have paid := State.settleRepair_rerunDue s.becomeActive
  have ends : exec .listenIntervalEnd s = .next s.becomeActive.settleRepair := by
    show execListenIntervalEnd s = _
    rw [execListenIntervalEnd, joining, listening]
    rfl
  have rp : s.becomeActive.settleRepair.rp = { s.rp with
      asks := s.becomeActive.settleRepair.rp.asks, rotation := s.becomeActive.settleRepair.rp.rotation, rerunDue := false } := by
    conv => lhs; rw [repairs.rp, paid]
    rfl
  refine ⟨_, ends, repairs.sc, repairs.lc, repairs.ra, repairs.ce, repairs.su, repairs.fc, repairs.sm, repairs.ap, repairs.hu,
    rp, repairs.pending, repairs.own, fun o => ⟨repairs.floor o, repairs.settled o⟩, repairs.reportKept, repairs.reported,
    fun small same => ?_, repairs.lost, fun complete empty => ?_⟩
  · rcases repairs.still small with ⟨hu, nu⟩ | ⟨o, grows⟩
    · exact ⟨by rw [hu]; rfl, nu⟩
    · refine absurd ?_ (Entry.ne_of_growsTo grows)
      unfold State.entry
      rw [same]
      rfl
  · have places : [0, 1, 2, 3].foldl State.rerunPlace s.becomeActive = s.becomeActive := by
      have at_place (i : Nat) (hi : i < 4) : s.becomeActive.rerunPlace i = s.becomeActive := by
        unfold State.rerunPlace
        rw [show s.becomeActive.ask i = none from empty i hi]
      simp only [List.foldl_cons, List.foldl_nil, at_place 0 (by decide), at_place 1 (by decide), at_place 2 (by decide),
        at_place 3 (by decide)]
    have creates : ∀ l : List Nat, (∀ o ∈ l, 1 ≤ o ∧ o ≤ s.groupSize) → l.foldl State.createAt s.becomeActive = s.becomeActive := by
      intro l
      induction l with
      | nil => exact fun _ => rfl
      | cons o l ih =>
        intro inside
        obtain ⟨low, high⟩ := inside o List.mem_cons_self
        have at_origin : s.becomeActive.createAt o = s.becomeActive := by
          unfold State.createAt
          rw [show s.becomeActive.missingRuns o = [] from complete o low high]
          split
          · rfl
          · simp
        rw [List.foldl_cons, at_origin]
        exact ih fun x hx => inside x (List.mem_cons_of_mem _ hx)
    have order : ∀ o ∈ s.becomeActive.creationOrder, 1 ≤ o ∧ o ≤ s.groupSize := by
      intro o mem
      rw [State.creationOrder, List.mem_map] at mem
      obtain ⟨i, hi, rfl⟩ := mem
      have pos : 0 < s.groupSize := Nat.pos_of_ne_zero fun zero => by
        rw [List.mem_range, show s.becomeActive.groupSize = s.groupSize from rfl, zero] at hi
        exact absurd hi (Nat.not_lt_zero _)
      have := Nat.mod_lt (s.becomeActive.rp.rotation - 1 + i) pos
      show 1 ≤ _ % s.groupSize + 1 ∧ _ % s.groupSize + 1 ≤ s.groupSize
      omega
    have still : s.becomeActive.rerun = s.becomeActive := by
      unfold State.rerun
      dsimp only
      rw [places, creates _ order]
    have due : s.becomeActive.rp.rerunDue = true := rfl
    have active : (s.becomeActive.station == some .active) = true := rfl
    unfold State.settleRepair
    rw [if_pos due]
    dsimp only
    rw [if_pos active, still]
    rfl

end Sys2Proof.Proofs

/-! The byte layouts of chapter 12 read back, and the frames of the attach port (R196 to R208). -/

namespace Sys2Proof.Machine

open Sys2Proof.Safety

/-! ## Integers in bytes (R210) -/

theorem length_toBytes : (k n : Nat) → (toBytes k n).length = k
  | 0, _ => rfl
  | k + 1, n => by rw [toBytes, List.length_cons, length_toBytes k n]

theorem ofBytes_foldl (bs : List Byte) : ∀ a : Nat,
    bs.foldl (fun n b => n * 256 + b.toNat) a = a * 256 ^ bs.length + ofBytes bs := by
  induction bs with
  | nil => intro a; simp [ofBytes]
  | cons b bs ih =>
    intro a
    have first : ofBytes (b :: bs) = b.toNat * 256 ^ bs.length + ofBytes bs := by
      rw [ofBytes, List.foldl_cons, ih, Nat.zero_mul, Nat.zero_add]
    rw [List.foldl_cons, ih, first, List.length_cons, Nat.pow_succ, Nat.add_mul, Nat.mul_assoc, Nat.mul_comm 256, Nat.add_assoc]

theorem ofBytes_cons (b : Byte) (bs : List Byte) : ofBytes (b :: bs) = b.toNat * 256 ^ bs.length + ofBytes bs := by
  rw [ofBytes, List.foldl_cons, ofBytes_foldl, Nat.zero_mul, Nat.zero_add]

/-- R210: an integer is read back from its bytes, as far as they reach. -/
theorem ofBytes_toBytes : (k n : Nat) → ofBytes (toBytes k n) = n % 256 ^ k
  | 0, n => by rw [toBytes, Nat.pow_zero, Nat.mod_one]; rfl
  | k + 1, n => by
    have split : n % 256 ^ (k + 1) = n % 256 ^ k + 256 ^ k * (n / 256 ^ k % 256) := Nat.mod_pow_succ
    rw [toBytes, ofBytes_cons, ofBytes_toBytes k n, length_toBytes, BitVec.toNat_ofNat, split, Nat.add_comm, Nat.mul_comm]

theorem ofBytes_toBytes_of_lt {k n : Nat} (h : n < 256 ^ k) : ofBytes (toBytes k n) = n := by
  rw [ofBytes_toBytes, Nat.mod_eq_of_lt h]

theorem slice_append_skip {x y : List Byte} {off len : Nat} (h : x.length ≤ off) :
    slice (x ++ y) off len = slice y (off - x.length) len := by
  rw [slice, slice, List.drop_append, List.drop_of_length_le h, List.nil_append]

theorem slice_append_head {x y : List Byte} {len : Nat} (h : x.length = len) : slice (x ++ y) 0 len = x := by
  rw [slice, List.drop_zero, ← h, List.take_left]

/-- A field behind `x`. -/
theorem field_append_skip {x y : List Byte} {off len : Nat} (h : x.length ≤ off) :
    field (x ++ y) off len = field y (off - x.length) len := by rw [field, slice_append_skip h, field]

/-- The field that `x` is. -/
theorem field_append_head {x y : List Byte} {len : Nat} (h : x.length = len) : field (x ++ y) 0 len = ofBytes x := by
  rw [field, slice_append_head h]

theorem field_whole {x : List Byte} {len : Nat} (h : x.length = len) : field x 0 len = ofBytes x := by
  have := field_append_head (y := []) h
  rwa [List.append_nil] at this

theorem ofBytes_singleton (b : Byte) : ofBytes [b] = b.toNat := by simp [ofBytes]

theorem toBytes_one (b : Byte) : toBytes 1 b.toNat = [b] := by
  simp [toBytes, BitVec.ofNat_toNat]

/-! ## Frames (R196, R198, R214) -/

theorem length_frame (params : List Byte) : (frame params).length = 2 + params.length := by
  rw [frame, List.length_append, length_toBytes]

/-- R198 test 2: a frame whose length field tells its parameters. -/
theorem frameParams_frame {params : List Byte} (h : params.length < 2 ^ 16) (fits : List Byte → Bool) :
    frameParams (frame params) fits = if fits params = true then some params else none := by
  have told : field (frame params) 0 2 = params.length := by
    rw [frame, field_append_head (length_toBytes 2 _)]
    exact ofBytes_toBytes_of_lt (by omega)
  have after : (frame params).drop 2 = params := by
    rw [frame, List.drop_append, length_toBytes, List.drop_of_length_le (Nat.le_of_eq (length_toBytes ..))]
    rfl
  unfold frameParams
  rw [told, after, length_frame, Nat.add_sub_cancel_left, beq_self_eq_true, Bool.and_true, decide_eq_true (Nat.le_add_right 2 _),
    Bool.true_and]

/-- R198 test 2: a frame whose length is not the one it tells. -/
theorem frameParams_bad {rest : List Byte} (h : rest.length < 2 ∨ rest.length ≠ 2 + field rest 0 2) (fits : List Byte → Bool) :
    frameParams rest fits = none := by
  unfold frameParams
  rw [if_neg]
  simp only [Bool.and_eq_true, decide_eq_true_eq, beq_iff_eq, not_and]
  omega

section
variable {s : State} {st : StationState} (running : s.station = some st) {rest : List Byte} {fits : List Byte → Bool}
  {refused : StationState → Option Status} {owner : List Byte → State → State}
include running

theorem takeFrame_badFrame (h : frameParams rest fits = none) :
    s.takeFrame rest fits refused owner = Answered s rest .badFrame [] := by
  unfold State.takeFrame
  rw [running, h]
  rfl

theorem takeFrame_refused {params : List Byte} {status : Status} (h : frameParams rest fits = some params)
    (no : refused st = some status) : s.takeFrame rest fits refused owner = Answered s rest status [] := by
  unfold State.takeFrame
  rw [running, h]
  dsimp only
  rw [no]
  rfl

theorem takeFrame_taken {params : List Byte} (h : frameParams rest fits = some params) (yes : refused st = none) :
    s.takeFrame rest fits refused owner = owner params (s.frameTaken rest) := by
  unfold State.takeFrame
  rw [running, h]
  dsimp only
  rw [yes]

end

theorem frameTaken_station (s : State) (rest : List Byte) : (s.frameTaken rest).station = s.station := rfl

/-- The store runs in AWAIT-CONFIG, JOINING and ACTIVE. -/
theorem storeRuns_cases {s : State} (h : s.storeRuns = true) :
    ∃ st, s.station = some st ∧ (st = .awaitConfig ∨ st = .joining ∨ st = .active) := by
  unfold State.storeRuns at h
  split at h
  · exact ⟨_, ‹_›, .inl rfl⟩
  · exact ⟨_, ‹_›, .inr (.inl rfl)⟩
  · exact ⟨_, ‹_›, .inr (.inr rfl)⟩
  · cases h

theorem takenWhileRunning_of {st : StationState} (h : st = .awaitConfig ∨ st = .joining ∨ st = .active) :
    takenWhileRunning st = none := by
  rcases h with rfl | rfl | rfl <;> rfl

/-- R198 tests 2 and 3 for a frame that the port takes while the store runs. -/
theorem takeFrame_running {s : State} (runs : s.storeRuns = true) {params : List Byte} (short : params.length < 2 ^ 16)
    {fits : List Byte → Bool} (h : fits params = true) (owner : List Byte → State → State) :
    s.takeFrame (frame params) fits takenWhileRunning owner = owner params (s.frameTaken (frame params)) := by
  obtain ⟨st, station, running⟩ := storeRuns_cases runs
  refine takeFrame_taken station ?_ (takenWhileRunning_of running)
  rw [frameParams_frame short, if_pos h]

theorem takeFrame_unfit {s : State} {st : StationState} (station : s.station = some st) {params : List Byte}
    (short : params.length < 2 ^ 16) {fits : List Byte → Bool} (h : fits params = false)
    (refused : StationState → Option Status) (owner : List Byte → State → State) :
    s.takeFrame (frame params) fits refused owner = Answered s (frame params) .badFrame [] :=
  takeFrame_badFrame station (by rw [frameParams_frame short, h, if_neg Bool.false_ne_true])

theorem takeFrame_notTaken {s : State} {st : StationState} (station : s.station = some st) {params : List Byte}
    (short : params.length < 2 ^ 16) {fits : List Byte → Bool} (h : fits params = true)
    {refused : StationState → Option Status} {status : Status} (no : refused st = some status)
    (owner : List Byte → State → State) :
    s.takeFrame (frame params) fits refused owner = Answered s (frame params) status [] :=
  takeFrame_refused station (by rw [frameParams_frame short, if_pos h]) no

theorem frameTaken_answer (s : State) (rest : List Byte) (status : Status) (data : List Byte) :
    (s.frameTaken rest).respond status data = Answered s rest status data := rfl

/-! ## Parameters of one byte -/

theorem field_single (b : Byte) : field [b] 0 1 = b.toNat := by
  rw [field_whole (List.length_singleton), ofBytes_singleton]

theorem length_single_lt (b : Byte) : [b].length < 2 ^ 16 := by
  rw [List.length_singleton]
  decide

theorem noticesFits_single (b : Byte) : noticesFits [b] = (decide (1 ≤ b.toNat) && decide (b.toNat ≤ 32)) := by
  rw [noticesFits, field_single]
  rfl

theorem noticesFits_length {params : List Byte} (h : params.length ≠ 1) : noticesFits params = false := by
  rw [noticesFits, beq_eq_false_iff_ne.mpr h]
  rfl

theorem countersFits_iff {params : List Byte} : countersFits params = true ↔ params = [0x00#8] ∨ params = [0x01#8] := by
  rw [countersFits, Bool.or_eq_true, beq_iff_eq, beq_iff_eq]

theorem countersFits_false {params : List Byte} (h : params ≠ [0x00#8] ∧ params ≠ [0x01#8]) : countersFits params = false := by
  rw [Bool.eq_false_iff, ne_eq, countersFits_iff]
  exact not_or.mpr h

/-! ## Bits of a transaction (R196) -/

/-- The bits of whole bytes, most significant first. -/
def bitsOf (bytes : List Byte) : List Bool := bytes.flatMap fun b => (List.range 8).map fun i => b.getLsbD (7 - i)

theorem wholeBytes_bitsOf {stray : List Bool} (h : stray.length < 8) : (bytes : List Byte) →
    wholeBytes (bitsOf bytes ++ stray) = bytes
  | [] => wholeBytes_short h
  | b :: bytes => by
    rw [bitsOf, List.flatMap_cons, List.append_assoc, wholeBytes_byte]
    exact congrArg (b :: ·) (wholeBytes_bitsOf h bytes)

theorem transactionOf_bitsOf {stray : List Bool} (h : stray.length < 8) (id : Byte) (rest : List Byte) :
    transactionOf (bitsOf (id :: rest) ++ stray) = some (commandOf id rest) := by
  rw [transactionOf, wholeBytes_bitsOf h]

/-- An identifier outside Table 12-7. -/
theorem unknown_of_toNat {id : Byte} (h : id.toNat = 0 ∨ (9 < id.toNat ∧ id.toNat ≠ 128)) :
    knownIdentifiers.contains id = false := by
  simp only [knownIdentifiers, List.contains_cons, Bool.or_eq_false_iff, beq_eq_false_iff_ne, ne_eq, List.contains_nil,
    and_true]
  refine ⟨?_, ?_, ?_, ?_, ?_, ?_, ?_, ?_, ?_, ?_⟩ <;> rintro rfl <;> revert h <;> decide

end Sys2Proof.Machine

namespace Sys2Proof.Proofs

open Sys2Proof.Machine Sys2Proof.Safety

/-- Settles O43: the maximum is read back from its byte, and the queue drained. -/
theorem noticesRead : Obligations.NoticesRead := by
  intro s m runs low high
  have value : (BitVec.ofNat 8 m).toNat = m := by rw [BitVec.toNat_ofNat]; omega
  have fits : noticesFits [BitVec.ofNat 8 m] = true := by
    rw [noticesFits_single, value, decide_eq_true low, decide_eq_true high]
    rfl
  have taken : exec (.notices (frame [BitVec.ofNat 8 m])) s
      = .next ((s.frameTaken (frame [BitVec.ofNat 8 m])).takeNotices m) := by
    show Host.Outcome.next (s.takeFrame _ noticesFits takenWhileRunning _) = _
    rw [takeFrame_running runs (length_single_lt _) fits, field_single, value]
  refine ⟨_, taken, rfl, rfl, ?_, rfl, rfl⟩
  show (if (s.nu.queue.drop m).isEmpty then DelayTimer.stopped else startedDelay s.noticeDelay) = _
  simp only [List.isEmpty_iff, List.drop_eq_nil_iff, startedDelay, beq_iff_eq]

/-- Settles O44: the bytes of a transaction are read back from its bits, and each refused frame by the test that refuses it. -/
theorem transactionsSpelledAndRefused : Obligations.TransactionsSpelledAndRefused := by
  refine ⟨fun s bytes stray short => ⟨?_, ?_⟩, fun s st station => ⟨fun id rest unknown => ?_, fun rest bad c hc => ?_,
    fun params small => ?_⟩⟩
  · rintro rfl
    have none : transactionOf stray = none := by rw [transactionOf, wholeBytes_short short]
    refine ⟨none, ?_⟩
    show s.chipSelectRises stray = s
    rw [State.chipSelectRises, none]
  · rintro id rest rfl
    have spelled := transactionOf_bitsOf short id rest
    refine ⟨?_, spelled, ?_, ?_, ?_, ?_, ?_, ?_, ?_, ?_, ?_, ?_, fun h => commandOf_unknown (unknown_of_toNat h) rest⟩
    · show s.chipSelectRises (bitsOf (id :: rest) ++ stray) = _
      rw [State.chipSelectRises, spelled]
    all_goals
      rintro rfl
      rfl
  · show execUnknownCommand id rest s = _
    simp only [execUnknownCommand, station, unknown, Bool.false_eq_true, if_false]
    rfl
  · simp only [List.mem_cons, List.not_mem_nil, or_false] at hc
    rcases hc with rfl | rfl | rfl | rfl | rfl | rfl | rfl | rfl | rfl
    all_goals exact congrArg Host.Outcome.next (takeFrame_badFrame station (frameParams_bad bad _))
  · have unfit {c : Instr} {fits : List Byte → Bool} {refused : StationState → Option Status}
        {owner : List Byte → State → State} (e : exec c s = .next (s.takeFrame (frame params) fits refused owner))
        (h : fits params = false) : exec c s = .next (Answered s (frame params) .badFrame []) :=
      e.trans (congrArg Host.Outcome.next (takeFrame_unfit station small h ..))
    have no {c : Instr} {fits : List Byte → Bool} {refused : StationState → Option Status}
        {owner : List Byte → State → State} {status : Status}
        (e : exec c s = .next (s.takeFrame (frame params) fits refused owner)) (h : fits params = true)
        (r : refused st = some status) : exec c s = .next (Answered s (frame params) status []) :=
      e.trans (congrArg Host.Outcome.next (takeFrame_notTaken station small h r owner))
    refine ⟨fun long c hc => ?_, fun long => unfit rfl (beq_eq_false_iff_ne.mpr long),
      fun long => unfit rfl (beq_eq_false_iff_ne.mpr long), fun long c hc => ?_, fun out => ?_, fun out => ?_,
      fun ten => ⟨fun h => ?_, fun h => ?_⟩, fun h => ?_, fun h one => ?_⟩
    · have full : params.isEmpty = false := by
        rw [List.isEmpty_eq_false_iff]
        rintro rfl
        exact long rfl
      simp only [List.mem_cons, List.not_mem_nil, or_false] at hc
      rcases hc with rfl | rfl | rfl
      all_goals exact unfit rfl full
    · simp only [List.mem_cons, List.not_mem_nil, or_false] at hc
      rcases hc with rfl | rfl | rfl
      · exact unfit rfl (beq_eq_false_iff_ne.mpr long)
      · exact unfit rfl (noticesFits_length long)
      · refine unfit rfl (countersFits_false ⟨?_, ?_⟩) <;> rintro rfl <;> exact long rfl
    · refine unfit rfl ?_
      rcases out with rfl | ⟨b, rfl, big⟩
      · decide
      · rw [noticesFits_single, decide_eq_false (by omega : ¬ b.toNat ≤ 32), Bool.and_false]
    · obtain ⟨b, rfl, big⟩ := out
      refine unfit rfl (countersFits_false ⟨?_, ?_⟩) <;> intro e <;> cases e <;> exact absurd big (by decide)
    · rcases h with rfl | rfl <;> exact no rfl (beq_iff_eq.mpr ten) rfl
    · rcases h with rfl | rfl <;> exact no rfl (beq_iff_eq.mpr ten) rfl
    · have refused : takenWhileRunning st = some .notReady := by rcases h with rfl | rfl <;> rfl
      refine ⟨no rfl rfl refused, fun five => no rfl (beq_iff_eq.mpr five) refused, ?_,
        fun one => no rfl (beq_iff_eq.mpr one) refused, ?_⟩
      · rintro rfl
        exact no rfl rfl refused
      · rintro ⟨b, rfl, low, high⟩
        refine no rfl ?_ refused
        rw [noticesFits_single, decide_eq_true low, decide_eq_true high]
        rfl
    · rw [h] at no station
      exact no rfl (countersFits_iff.mpr one) rfl

/-- Settles O45: what each query reads is not changed by the taking of its frame. -/
theorem queriesAnswered : Obligations.QueriesAnswered := by
  intro s st h phase
  have station : s.station = some st := by rw [State.station, phase]
  refine ⟨?_, fun runs o => ⟨fun bad => ?_, fun low high => ?_⟩, fun scanning => ?_⟩
  · show Host.Outcome.next (s.takeFrame (frame []) List.isEmpty takenAlways _) = _
    rw [takeFrame_taken station (params := []) (by rw [frameParams_frame (by decide)]; rfl) rfl]
    show Host.Outcome.next (Answered s (frame []) .ok s.statusData) = _
    rw [State.statusData, phase]
    rfl
  · show Host.Outcome.next (s.takeFrame (frame [o]) (fun params => params.length == 1) takenWhileRunning _) = _
    rw [takeFrame_running runs (length_single_lt _) rfl]
    have out : (s.frameTaken (frame [o])).badOrigin (field [o] 0 1) = true := by
      show s.badOrigin (field [o] 0 1) = true
      rw [State.badOrigin, field_single, Bool.or_eq_true, beq_iff_eq, decide_eq_true_eq]
      exact bad.imp (fun e => by rw [e]; rfl) id
    rw [if_pos out]
    rfl
  · show Host.Outcome.next (s.takeFrame (frame [o]) (fun params => params.length == 1) takenWhileRunning _) = _
    rw [takeFrame_running runs (length_single_lt _) rfl]
    have fine : ¬ (s.frameTaken (frame [o])).badOrigin (field [o] 0 1) = true := by
      show ¬ s.badOrigin (field [o] 0 1) = true
      rw [State.badOrigin, field_single, Bool.or_eq_true, beq_iff_eq, decide_eq_true_eq]
      omega
    rw [if_neg fine, field_single]
    rfl
  · have taken : takenUnlessScanning st = none := by
      cases st with
      | scanning => exact absurd rfl scanning
      | awaitConfig => rfl
      | joining => rfl
      | active => rfl
      | halted => rfl
    refine ⟨?_, ?_⟩
    · show Host.Outcome.next (s.takeFrame (frame [0x00#8]) countersFits takenUnlessScanning _) = _
      rw [takeFrame_taken station (params := [0x00#8]) (by rw [frameParams_frame (by decide)]; rfl) taken]
      rfl
    · refine ⟨(s.frameTaken (frame [0x01#8])).takeCounters true, ?_, fun k => place_replicate .., rfl⟩
      show Host.Outcome.next (s.takeFrame (frame [0x01#8]) countersFits takenUnlessScanning _) = _
      rw [takeFrame_taken station (params := [0x01#8]) (by rw [frameParams_frame (by decide)]; rfl) taken]
      rfl

/-- Settles O46: both owners are handed the parameters of the frame. -/
theorem configureAndSubmitHandedOn : Obligations.ConfigureAndSubmitHandedOn := by
  intro s params small
  refine ⟨fun station ten => ?_, fun runs => ⟨fun free => ?_, fun h held => ?_⟩⟩
  · show Host.Outcome.next (s.takeFrame (frame params) (fun params => params.length == 10) takenInAwaitConfig _) = _
    rw [takeFrame_taken station (params := params) (by rw [frameParams_frame small, if_pos (beq_iff_eq.mpr ten)]) rfl]
    rfl
  · show Host.Outcome.next (s.takeFrame (frame params) (fun _ => true) takenWhileRunning _) = _
    rw [takeFrame_running runs small rfl]
    have empty : (s.frameTaken (frame params)).ap.submitBuffer = none := by
      show s.ap.submitBuffer.map _ = none
      rw [free]
      rfl
    rw [State.handSubmit, empty]
    rfl
  · show Host.Outcome.next (s.takeFrame (frame params) (fun _ => true) takenWhileRunning _) = _
    rw [takeFrame_running runs small rfl]
    have full : (s.frameTaken (frame params)).ap.submitBuffer = some { h with owed := false } := by
      show s.ap.submitBuffer.map _ = _
      rw [held]
      rfl
    rw [State.handSubmit, full]
    rfl

theorem shiftedOut_eq (clocks : Nat) (r : Response) :
    shiftedOut clocks r = ((r.status.code :: toBytes 2 r.data.length ++ r.data) ++ List.replicate clocks 0xFF#8).take clocks := by
  show (responseBytes r ++ List.replicate (clocks - (responseBytes r).length) 0xFF#8).take clocks
    = (responseBytes r ++ List.replicate clocks 0xFF#8).take clocks
  rw [List.take_append, List.take_append, List.take_replicate, List.take_replicate]
  congr 2
  omega

section
variable {s : State} {st : StationState} (station : s.station = some st) {r : Response} (reading : s.ap.slot.reading = r)
  (clocks : Nat)
include station reading

theorem exec_responseRead_plain (plain : r.armsReset = false) :
    exec (.responseRead clocks) s = .next { s with ap := { s.ap with dataOut := shiftedOut clocks r } } := by
  show execResponseRead clocks s = _
  rw [execResponseRead, station, reading]
  dsimp only
  rw [plain]
  rfl

theorem exec_responseRead_arms (arms : r.armsReset = true) :
    exec (.responseRead clocks) s
      = .next { s.beginReset .command with ap := { (s.beginReset .command).ap with dataOut := shiftedOut clocks r } } := by
  show execResponseRead clocks s = _
  rw [execResponseRead, station, reading]
  dsimp only
  rw [arms]
  rfl

end

/-- Settles O50: a read returns what the slot reads as, and a command reset follows the OK of a RESTART. -/
theorem restartAndResponseRead : Obligations.RestartAndResponseRead := by
  intro s st station
  have restarted : exec (.restart (frame [])) s = .next { s with ap := { (s.frameTaken (frame [])).ap with
      slot := .ready { status := .ok, data := [], armsReset := true } } } := by
    show Host.Outcome.next (s.takeFrame (frame []) List.isEmpty takenAlways _) = _
    rw [takeFrame_taken station (params := []) (by rw [frameParams_frame (by decide)]; rfl) rfl]
    rfl
  refine ⟨restarted, fun r clocks e => ?_, fun clocks => ⟨fun slot => ?_, fun slot => ?_, fun r slot arms => ?_,
    fun r slot arms => ?_⟩⟩
  · rw [restarted] at e
    have e := Host.Outcome.next.inj e
    have armed : r.ap.slot.reading = { status := .ok, data := [], armsReset := true } := by rw [← e]; rfl
    have running : r.station = some st := by rw [← e]; exact station
    refine ⟨_, exec_responseRead_arms running armed clocks rfl, rfl, ?_⟩
    exact shiftedOut_eq ..
  · exact (exec_responseRead_plain station (by rw [slot]) clocks rfl).trans (by rw [shiftedOut_eq]; rfl)
  · exact (exec_responseRead_plain station (by rw [slot]) clocks rfl).trans (by rw [shiftedOut_eq]; rfl)
  · exact (exec_responseRead_plain station (by rw [slot]; rfl) clocks arms).trans (by rw [shiftedOut_eq])
  · refine ⟨_, s.beginReset .pin, exec_responseRead_arms station (by rw [slot]; rfl) clocks arms, rfl, ?_⟩
    rw [shiftedOut_eq]
    rfl

end Sys2Proof.Proofs

/-! What a lookup's choice and the reclaim of blocks change (R35 to R39, R157 to R160). -/

namespace Sys2Proof.Machine

open Sys2Proof.Safety

/-! ## The best of a list (R35, R158) -/

/-- A choice between the best so far and one more, by an order. -/
structure Picks (R : Nat × Nat → Nat × Nat → Prop) (pick : Option (Nat × Nat) → Nat × Nat → Option (Nat × Nat)) : Prop where
  refl : ∀ a, R a a
  trans : ∀ a b c, R a b → R b c → R a c
  first : ∀ b, pick none b = some b
  next : ∀ a b, (pick (some a) b = some a ∧ R b a) ∨ (pick (some a) b = some b ∧ R a b)

/-- The best of those members of a list that pass `p`, by their keys. -/
theorem Picks.foldl_spec {R : Nat × Nat → Nat × Nat → Prop} {pick : Option (Nat × Nat) → Nat × Nat → Option (Nat × Nat)}
    (h : Picks R pick) {α : Type} (p : α → Bool) (key : α → Nat × Nat) : (l : List α) → (init : Option (Nat × Nat)) →
    (l.foldl (fun best x => if p x then pick best (key x) else best) init = none → init = none ∧ ∀ x ∈ l, p x = false)
      ∧ ∀ k, l.foldl (fun best x => if p x then pick best (key x) else best) init = some k →
        (init = some k ∨ ∃ x ∈ l, p x = true ∧ key x = k) ∧ (∀ i, init = some i → R i k) ∧ ∀ x ∈ l, p x = true → R (key x) k
  | [], init => ⟨fun e => ⟨e, by simp⟩, fun k e => ⟨.inl e, fun i hi => by
      rw [List.foldl_nil, hi] at e
      cases e
      exact h.refl _, by simp⟩⟩
  | x :: l, init => by
    obtain ⟨absent, present⟩ := foldl_spec h p key l (if p x then pick init (key x) else init)
    rw [List.foldl_cons]
    cases px : p x with
    | false =>
      simp only [px, Bool.false_eq_true, if_false] at absent present ⊢
      refine ⟨fun e => ⟨(absent e).1, List.forall_mem_cons.mpr ⟨px, (absent e).2⟩⟩, fun k e => ?_⟩
      obtain ⟨source, above, best⟩ := present k e
      refine ⟨source.imp id fun ⟨y, mem, py⟩ => ⟨y, List.mem_cons_of_mem _ mem, py⟩, above, List.forall_mem_cons.mpr ⟨?_, best⟩⟩
      intro py
      rw [px] at py
      cases py
    | true =>
      simp only [px, if_true] at absent present ⊢
      have picked : ∃ a, pick init (key x) = some a ∧ (init = some a ∨ key x = a) ∧ (∀ i, init = some i → R i a) ∧ R (key x) a := by
        cases init with
        | none => exact ⟨key x, h.first _, .inr rfl, by simp, h.refl _⟩
        | some i =>
          rcases h.next i (key x) with ⟨e, le⟩ | ⟨e, le⟩
          · exact ⟨i, e, .inl rfl, fun j hj => by cases hj; exact h.refl _, le⟩
          · exact ⟨key x, e, .inr rfl, fun j hj => by cases hj; exact le, h.refl _⟩
      obtain ⟨a, ea, source, above, le⟩ := picked
      refine ⟨fun e => ?_, fun k e => ?_⟩
      · rw [(absent e).1] at ea
        cases ea
      · obtain ⟨from_a, a_le, best⟩ := present k e
        refine ⟨?_, fun i hi => h.trans _ _ _ (above i hi) (a_le a ea), List.forall_mem_cons.mpr ⟨fun _ => ?_, best⟩⟩
        · rcases from_a with e' | ⟨y, mem, py⟩
          · rw [ea] at e'
            cases e'
            exact source.imp id fun hx => ⟨x, List.mem_cons_self, px, hx⟩
          · exact .inr ⟨y, List.mem_cons_of_mem _ mem, py⟩
        · exact h.trans _ _ _ le (a_le a ea)

/-- By stamp, then by block number. -/
def upTo (a k : Nat × Nat) : Prop := a.1 < k.1 ∨ (a.1 = k.1 ∧ a.2 ≤ k.2)

theorem belowBound_some (st b : Nat) (k : Nat × Nat) :
    belowBound st b (some k) = true ↔ st < k.1 ∨ (st = k.1 ∧ b < k.2) := by
  simp [belowBound]

theorem laterOf_picks : Picks upTo laterOf where
  refl a := .inr ⟨rfl, Nat.le_refl _⟩
  trans a b c h k := by unfold upTo at *; omega
  first _ := rfl
  next a b := by
    unfold laterOf
    dsimp only
    split
    · rename_i h
      rw [belowBound_some] at h
      exact .inl ⟨rfl, by unfold upTo; omega⟩
    · rename_i h
      rw [belowBound_some] at h
      exact .inr ⟨rfl, by unfold upTo; omega⟩

theorem earlierOf_picks : Picks (fun a k => upTo k a) earlierOf where
  refl a := .inr ⟨rfl, Nat.le_refl _⟩
  trans a b c h k := by unfold upTo at *; omega
  first _ := rfl
  next a b := by
    unfold earlierOf
    dsimp only
    split
    · rename_i h
      rw [belowBound_some] at h
      exact .inr ⟨rfl, by unfold upTo; omega⟩
    · rename_i h
      rw [belowBound_some] at h
      exact .inl ⟨rfl, by unfold upTo; omega⟩

theorem mem_table_zipIdx {sm : Sm} {x : BlockEntry} {b : Nat} :
    (x, b) ∈ sm.table.toList.zipIdx ↔ b < 640 ∧ x = sm.block b := by
  rw [List.mk_mem_zipIdx_iff_getElem?, Vector.getElem?_toList, Sm.block, place]
  by_cases h : b < 640
  · rw [Vector.getElem?_eq_getElem h, Option.some.injEq]
    simp only [h, true_and, Option.getD_some, eq_comm]
  · rw [Vector.getElem?_eq_none (Nat.not_lt.mp h)]
    simp [h]

/-- R158: SEALED or RETIRING. -/
def BlockState.old (st : BlockState) : Bool := st == .sealed || st == .retiring

theorem BlockState.old_iff {st : BlockState} : st.old = true ↔ st = .sealed ∨ st = .retiring := by
  rw [BlockState.old, Bool.or_eq_true, beq_iff_eq, beq_iff_eq]

theorem reclaimCandidate_spec (sm : Sm) :
    (sm.reclaimCandidate = none → ∀ b, b < 640 → (sm.block b).state.old = false)
      ∧ ∀ b, sm.reclaimCandidate = some b → b < 640 ∧ (sm.block b).state.old = true
        ∧ ∀ b', b' < 640 → (sm.block b').state.old = true →
          (sm.block b).stamp.getD 0 < (sm.block b').stamp.getD 0
            ∨ ((sm.block b).stamp.getD 0 = (sm.block b').stamp.getD 0 ∧ b ≤ b') := by
  obtain ⟨absent, present⟩ := earlierOf_picks.foldl_spec (fun x : BlockEntry × Nat => x.1.state.old)
    (fun x => (x.1.stamp.getD 0, x.2)) sm.table.toList.zipIdx none
  refine ⟨fun e b hb => ?_, fun b e => ?_⟩
  · exact (absent (Option.map_eq_none_iff.mp e)).2 (sm.block b, b) (mem_table_zipIdx.mpr ⟨hb, rfl⟩)
  · obtain ⟨k, ek, rfl⟩ := Option.map_eq_some_iff.mp e
    obtain ⟨source, -, best⟩ := present k ek
    obtain ⟨⟨x, i⟩, mem, old, rfl⟩ := source.resolve_left (by simp)
    obtain ⟨hi, rfl⟩ := mem_table_zipIdx.mp mem
    exact ⟨hi, old, fun b' hb' old' => best (sm.block b', b') (mem_table_zipIdx.mpr ⟨hb', rfl⟩) old'⟩

/-- R35: the candidate is the highest fitting block; none fits where there is none. -/
theorem candidate_spec (sm : Sm) (o n : Nat) (bound : Option (Nat × Nat)) :
    (sm.candidate o n bound = none → ∀ b, b < 640 →
        ((sm.block b).state.searched && covers (sm.block b).summary o n && belowBound ((sm.block b).stamp.getD 0) b bound) = false)
      ∧ ∀ st b, sm.candidate o n bound = some (st, b) → b < 640 ∧ st = (sm.block b).stamp.getD 0
        ∧ ((sm.block b).state.searched && covers (sm.block b).summary o n && belowBound st b bound) = true
        ∧ ∀ b', b' < 640 →
          ((sm.block b').state.searched && covers (sm.block b').summary o n && belowBound ((sm.block b').stamp.getD 0) b' bound) = true →
          (sm.block b').stamp.getD 0 < st ∨ ((sm.block b').stamp.getD 0 = st ∧ b' ≤ b) := by
  obtain ⟨absent, present⟩ := laterOf_picks.foldl_spec
    (fun x : BlockEntry × Nat => x.1.state.searched && covers x.1.summary o n && belowBound (x.1.stamp.getD 0) x.2 bound)
    (fun x => (x.1.stamp.getD 0, x.2)) sm.table.toList.zipIdx none
  refine ⟨fun e b hb => ?_, fun st b e => ?_⟩
  · exact (absent e).2 (sm.block b, b) (mem_table_zipIdx.mpr ⟨hb, rfl⟩)
  · obtain ⟨source, -, best⟩ := present (st, b) e
    obtain ⟨⟨x, i⟩, mem, fits, key⟩ := source.resolve_left (by simp)
    obtain ⟨hi, rfl⟩ := mem_table_zipIdx.mp mem
    cases key
    exact ⟨hi, rfl, fits, fun b' hb' fits' => best (sm.block b', b') (mem_table_zipIdx.mpr ⟨hb', rfl⟩) fits'⟩

/-- R157 to R159: the block that an evaluation selects. -/
theorem selection_eq_some_iff {s : State} {b : Nat} :
    s.selection = some b ↔ s.sm.pressure ≠ .normal ∧ s.sm.count (· == .erasing) = 0 ∧ s.sm.reclaimCandidate = some b
      ∧ s.eligible b = true := by
  unfold State.selection
  split
  · rename_i h
    rw [Bool.and_eq_true, bne_iff_ne, beq_iff_eq] at h
    split
    · rename_i c hc
      split
      · rename_i el
        constructor
        · intro e
          cases e
          exact ⟨h.1, h.2, hc, el⟩
        · rintro ⟨-, -, e, -⟩
          rw [hc] at e
          exact e
      · rename_i el
        constructor
        · intro e
          cases e
        · rintro ⟨-, -, e, el'⟩
          rw [hc] at e
          cases e
          exact absurd el' el
    · rename_i hc
      constructor
      · intro e
        cases e
      · rintro ⟨-, -, e, -⟩
        rw [hc] at e
        cases e
  · rename_i h
    rw [Bool.and_eq_true, bne_iff_ne, beq_iff_eq] at h
    constructor
    · intro e
      cases e
    · rintro ⟨h1, h2, -⟩
      exact absurd ⟨h1, h2⟩ h

theorem old_of_selection {s : State} {b : Nat} (h : s.selection = some b) :
    b < 640 ∧ ((s.sm.block b).state = .sealed ∨ (s.sm.block b).state = .retiring) ∧ s.eligible b = true := by
  obtain ⟨-, -, candidate, eligible⟩ := selection_eq_some_iff.mp h
  obtain ⟨inside, old, -⟩ := (reclaimCandidate_spec s.sm).2 b candidate
  exact ⟨inside, BlockState.old_iff.mp old, eligible⟩

/-! ## Counters along a run -/

/-- Only the counters of `ks` move, and none goes back. -/
structure CountsUp (ks : List Counter) (s t : State) : Prop where
  same : ∀ k, k ∉ ks → t.counter k = s.counter k
  up : ∀ k m, m ≤ 65535 → m ≤ s.counter k → m ≤ t.counter k

namespace CountsUp

variable {ks ls : List Counter} {s t u : State}

theorem of_eq (h : t.ap.counters = s.ap.counters) : CountsUp ks s t := by
  have same (k : Counter) : t.counter k = s.counter k := by rw [State.counter, h, State.counter]
  exact ⟨fun k _ => same k, fun k m _ hm => (same k).symm ▸ hm⟩

theorem refl (s : State) : CountsUp ks s s := of_eq rfl

theorem trans (h : CountsUp ks s t) (k : CountsUp ks t u) : CountsUp ks s u :=
  ⟨fun c hc => (k.same c hc).trans (h.same c hc), fun c m hm le => k.up c m hm (h.up c m hm le)⟩

theorem bump (s : State) {k : Counter} (h : k ∈ ks) : CountsUp ks s (s.bump k) := by
  refine ⟨fun j hj => State.counter_bump_of_ne s fun e => hj (e ▸ h), fun j m hm le => ?_⟩
  rw [State.counter_bump]
  split
  · rename_i e
    rw [e] at le
    omega
  · exact le

theorem mono (h : CountsUp ks s t) (sub : ∀ k ∈ ks, k ∈ ls) : CountsUp ls s t :=
  ⟨fun k hk => h.same k fun mem => hk (sub k mem), h.up⟩

end CountsUp

/-! ## Notices along a run -/

/-- A notice that coalesces with none stays in the queue, or the overflow flag tells of it; an own conflict is not invented. -/
structure NoticesOn (s t : State) : Prop where
  kept : ∀ x, (∀ y : Notice, y.partner x = false) → x ∈ s.nu.queue ∨ s.nu.overflow = true →
    x ∈ t.nu.queue ∨ t.nu.overflow = true
  conflicts : ∀ q v, .ownConflict q v ∈ t.nu.queue → .ownConflict q v ∈ s.nu.queue

namespace NoticesOn

variable {s t u : State}

theorem of_eq (h : t.nu = s.nu) : NoticesOn s t := ⟨fun _ _ w => h.symm ▸ w, fun _ _ w => h ▸ w⟩
theorem refl (s : State) : NoticesOn s s := of_eq rfl
theorem trans (h : NoticesOn s t) (k : NoticesOn t u) : NoticesOn s u :=
  ⟨fun x alone w => k.kept x alone (h.kept x alone w), fun q v w => h.conflicts q v (k.conflicts q v w)⟩

theorem take (nu : Nu) (th d : Nat) (n : Notice) :
    (∀ x, (∀ y : Notice, y.partner x = false) → x ∈ nu.queue ∨ nu.overflow = true →
      x ∈ (nu.take th d n).queue ∨ (nu.take th d n).overflow = true)
      ∧ ∀ x, x ∈ (nu.take th d n).queue → x ∈ nu.queue ∨ x = n ∨ ∃ y, n.partner y = true ∧ x = n.merge y := by
  refine ⟨fun x alone w => ?_, fun x mem => ?_⟩
  · refine w.elim (fun mem => ?_) fun full => .inr (Nu.take_overflow th d n full)
    · rcases Nu.take_queue nu th d n with ⟨before, y, after, hq, partner, ht⟩ | ⟨-, ht | ⟨-, ht⟩⟩
      · left
        rw [hq] at mem
        rw [ht]
        rcases List.mem_append.mp mem with mem | mem
        · exact List.mem_append_left _ mem
        · rcases List.mem_cons.mp mem with rfl | mem
          · rw [alone n] at partner
            cases partner
          · exact List.mem_append_right _ (List.mem_cons_of_mem _ mem)
      · left
        rw [ht]
        exact List.mem_append_left _ mem
      · exact .inr ht
  · rcases Nu.take_queue nu th d n with ⟨before, y, after, hq, partner, ht⟩ | ⟨-, ht | ⟨ht, -⟩⟩
    · rw [ht] at mem
      rw [hq]
      rcases List.mem_append.mp mem with mem | mem
      · exact .inl (List.mem_append_left _ mem)
      · rcases List.mem_cons.mp mem with e | mem
        · exact .inr (.inr ⟨y, partner, e⟩)
        · exact .inl (List.mem_append_right _ (List.mem_cons_of_mem _ mem))
    · rw [ht] at mem
      rcases List.mem_append.mp mem with mem | mem
      · exact .inl mem
      · exact .inr (.inl (List.mem_singleton.mp mem))
    · rw [ht] at mem
      exact .inl mem

theorem merge_eq_ownConflict {n y : Notice} {q v : Nat} (e : n.merge y = .ownConflict q v) : n = .ownConflict q v := by
  unfold Notice.merge at e
  split at e
  · cases e
  · cases e
  · exact e

theorem notify (s : State) {n : Notice} (h : ∀ q v, n ≠ .ownConflict q v) : NoticesOn s (s.notify n) := by
  cases runs : s.storeRuns with
  | false => rw [State.notify_of_not_running runs]; exact refl s
  | true =>
    obtain ⟨kept, back⟩ := take s.nu s.noticeThreshold s.noticeDelay n
    have nu := State.notify_of_running runs n
    refine ⟨fun x alone w => nu ▸ kept x alone w, fun q v w => ?_⟩
    rw [nu] at w
    rcases back _ w with w | w | ⟨y, partner, w⟩
    · exact w
    · exact absurd w.symm (h q v)
    · exact absurd (merge_eq_ownConflict w.symm) (h q v)

end NoticesOn

end Sys2Proof.Machine

/-! Frames: what the choice of a lookup leaves alone, and what the selection of blocks for reclaim leaves alone. -/

namespace Sys2Proof.Machine

open Sys2Proof.Safety

/-! ## Lookups (R35 to R39) -/

/-- What a lookup that chooses, moves on or ends without a record leaves of `s`. -/
structure Looks (s t : State) : Prop where
  same : t = { s with
    fc := { s.fc with fetchClaim := t.fc.fetchClaim, serveClaim := t.fc.serveClaim },
    sm := { s.sm with fetchLookup := t.sm.fetchLookup, serveLookup := t.sm.serveLookup },
    rp := { s.rp with notHeld := t.rp.notHeld },
    ap := { s.ap with fetch := t.ap.fetch, counters := t.ap.counters } }
  counts : CountsUp [.damagedReads] s t

namespace Looks

variable {s t u : State}

theorem refl (s : State) : Looks s s := ⟨rfl, .refl s⟩

theorem trans (h : Looks s t) (k : Looks t u) : Looks s u where
  same := by
    conv => lhs; rw [k.same]
    conv => lhs; rw [h.same]
  counts := h.counts.trans k.counts

theorem hu (h : Looks s t) : t.hu = s.hu := by rw [h.same]
theorem sc (h : Looks s t) : t.sc = s.sc := by rw [h.same]
theorem nu (h : Looks s t) : t.nu = s.nu := by rw [h.same]
theorem table (h : Looks s t) : t.sm.table = s.sm.table := by rw [h.same]
theorem block (h : Looks s t) (b : Nat) : t.sm.block b = s.sm.block b := by rw [Sm.block, h.table, Sm.block]

theorem setLookup (s : State) (who : Requester) (l : Option Lookup) : Looks s (s.setSm (s.sm.setLookup who l)) :=
  ⟨by cases who <;> rfl, .of_eq rfl⟩

theorem setStepClaim (s : State) (who : Requester) (c : Option StepClaim) : Looks s (s.setFc (s.fc.setStepClaim who c)) :=
  ⟨by cases who <;> rfl, .of_eq rfl⟩

end Looks

namespace State

theorem claimStep_looks (s : State) (who : Requester) (l : Lookup) (k : ReadKind) (p : PageAddr) :
    Looks s (s.claimStep who l k p) := (Looks.setLookup s who _).trans (Looks.setStepClaim _ who _)

theorem makeNotHeld_looks (s : State) (q : Nat) : Looks s (s.makeNotHeld q) := ⟨rfl, .of_eq rfl⟩

theorem bumpDamaged_looks (s : State) : Looks s (s.bump .damagedReads) := ⟨rfl, .bump s (List.mem_singleton_self _)⟩

/-- R39: a lookup ends without a record. -/
theorem lookupEnds_looks (s : State) (who : Requester) (l : Lookup) {r : LookupOutcome} (h : ∀ p, r ≠ .found p) :
    Looks s (s.lookupEnds who l r) := by
  refine (Looks.setLookup s who none).trans ?_
  cases who with
  | fetch => exact ⟨rfl, .of_eq rfl⟩
  | serve =>
    cases r with
    | found p => exact absurd rfl (h p)
    | notFound => exact makeNotHeld_looks ..
    | damaged => exact (bumpDamaged_looks _).trans (makeNotHeld_looks ..)

theorem choose_looks (s : State) (who : Requester) (l : Lookup) : Looks s (s.choose who l) := by
  unfold choose
  split
  · exact claimStep_looks ..
  · exact lookupEnds_looks s who l fun p => by split <;> exact fun e => by cases e

theorem passOver_looks (s : State) (who : Requester) (l : Lookup) (p : PageAddr) : Looks s (s.passOver who l p) := by
  unfold passOver
  split
  · exact choose_looks ..
  · exact claimStep_looks ..

theorem lookupSpare_looks (s : State) (who : Requester) (l : Lookup) (p : PageAddr) (spare : List Byte) :
    Looks s (s.lookupSpare who l p spare) := by
  unfold lookupSpare
  split
  · exact claimStep_looks ..
  · exact passOver_looks ..

theorem leaveBlock_looks (s : State) (b : Nat) (who : Requester) : Looks s (s.leaveBlock b who) := by
  unfold leaveBlock
  split
  · exact .refl s
  · split
    · split
      · exact (Looks.setStepClaim s who none).trans (choose_looks ..)
      · exact Looks.setLookup ..
      · exact .refl s
    · exact .refl s

end State

/-! ## Floors (R88) -/

namespace Entry

variable (e : Entry) (f : Nat)

theorem floor_raiseFloor : (e.raiseFloor f).floor = max e.floor (min f 4294967295) := by
  unfold raiseFloor
  dsimp only
  split
  · rename_i h
    exact h.symm
  · split <;> rfl

theorem raiseFloor_of_floor_eq (h : (e.raiseFloor f).floor = e.floor) : e.raiseFloor f = e := by
  rw [floor_raiseFloor] at h
  unfold raiseFloor
  exact if_pos h

theorem top_raiseFloor : (e.raiseFloor f).top
    = if (e.raiseFloor f).floor ≠ e.floor ∧ e.top + 1 < (e.raiseFloor f).floor then (e.raiseFloor f).floor - 1 else e.top := by
  rw [floor_raiseFloor]
  unfold raiseFloor Config.maxSeq
  dsimp only
  split
  · rename_i h
    rw [if_neg fun k => k.1 h]
  · rename_i h
    split
    · rename_i k
      rw [if_pos ⟨h, k⟩]
    · rename_i k
      rw [if_neg fun j => k j.2]

theorem gap_of_raised {floor n : Nat} {gs : List Range} (hn : floor ≤ n) :
    (∃ g ∈ gs.filterMap (fun g => if g.hi < floor then none else if g.lo < floor then some { lo := floor, hi := g.hi } else some g),
        g.lo ≤ n ∧ n ≤ g.hi) ↔ ∃ g ∈ gs, g.lo ≤ n ∧ n ≤ g.hi := by
  constructor
  · rintro ⟨x, hx, inside⟩
    obtain ⟨g, hg, cut⟩ := List.mem_filterMap.mp hx
    refine ⟨g, hg, ?_⟩
    split at cut
    · cases cut
    · split at cut
      · cases cut
        dsimp only at inside
        omega
      · cases cut
        exact inside
  · rintro ⟨g, hg, inside⟩
    by_cases low : g.lo < floor
    · refine ⟨{ lo := floor, hi := g.hi }, List.mem_filterMap.mpr ⟨g, hg, ?_⟩, hn, inside.2⟩
      rw [if_neg (by omega), if_pos low]
    · refine ⟨g, List.mem_filterMap.mpr ⟨g, hg, ?_⟩, inside⟩
      rw [if_neg (by omega), if_neg low]

theorem inGap_iff {e : Entry} {n : Nat} : e.inGap n = true ↔ ∃ g ∈ e.gaps, g.lo ≤ n ∧ n ≤ g.hi := by
  simp [inGap]

/-- R88: what stays settled under a floor raise is what lies at or above the new floor. -/
theorem settled_raiseFloor {n : Nat} : (e.raiseFloor f).settled n = true ↔ (e.raiseFloor f).floor ≤ n ∧ e.settled n = true := by
  by_cases same : (e.raiseFloor f).floor = e.floor
  · rw [raiseFloor_of_floor_eq e f same]
    exact ⟨fun h => ⟨(settled_iff.mp h).1, h⟩, fun h => h.2⟩
  · have up : e.floor ≤ (e.raiseFloor f).floor := by
      rw [floor_raiseFloor]
      exact Nat.le_max_left ..
    rw [settled_iff, settled_iff]
    by_cases beyond : e.top + 1 < (e.raiseFloor f).floor
    · have top := e.top_raiseFloor f
      rw [if_pos ⟨same, beyond⟩] at top
      omega
    · have top := e.top_raiseFloor f
      rw [if_neg fun h => beyond h.2] at top
      have gaps : (e.raiseFloor f).gaps = e.gaps.filterMap fun g =>
          if g.hi < (e.raiseFloor f).floor then none
          else if g.lo < (e.raiseFloor f).floor then some { lo := (e.raiseFloor f).floor, hi := g.hi } else some g := by
        rw [floor_raiseFloor] at same beyond ⊢
        unfold raiseFloor Config.maxSeq
        dsimp only
        rw [if_neg same, if_neg beyond]
      have gap {n : Nat} (hn : (e.raiseFloor f).floor ≤ n) : (e.raiseFloor f).inGap n = false ↔ e.inGap n = false := by
        rw [← Bool.not_eq_true, ← Bool.not_eq_true, inGap_iff, inGap_iff, gaps, gap_of_raised hn]
      rw [top]
      constructor
      · rintro ⟨low, high, clear⟩
        exact ⟨low, by omega, high, (gap low).mp clear⟩
      · rintro ⟨low, -, high, clear⟩
        exact ⟨low, high, (gap low).mpr clear⟩

theorem pair_raiseFloor_ne_iff : (e.raiseFloor f).pair ≠ e.pair ↔ (e.raiseFloor f).floor ≠ e.floor := by
  constructor
  · intro h same
    exact h (by rw [raiseFloor_of_floor_eq e f same])
  · intro h same
    exact h (congrArg Pair.floor same)

end Entry

/-! ## Reclaim (R157 to R160) -/

/-- What the selection of blocks leaves of `s`: blocks in service, lookups, floors, claims, a re-run owed, and what follows of T_own
(R185). -/
structure Reclaims (s t : State) : Prop where
  same : t = { s with
    sm := { s.sm with table := t.sm.table, fetchLookup := t.sm.fetchLookup, serveLookup := t.sm.serveLookup,
                      reclaimDue := t.sm.reclaimDue },
    hu := { s.hu with entries := t.hu.entries, reportPending := t.hu.reportPending, durable := t.hu.durable },
    fc := { s.fc with programClaim := t.fc.programClaim, fetchClaim := t.fc.fetchClaim, serveClaim := t.fc.serveClaim,
                      markClaims := t.fc.markClaims, eraseClaim := t.fc.eraseClaim },
    rp := { s.rp with notHeld := t.rp.notHeld, rerunDue := t.rp.rerunDue },
    nu := t.nu,
    ap := { s.ap with fetch := t.ap.fetch, counters := t.ap.counters } }
  counts : CountsUp [.damagedReads] s t
  notices : NoticesOn s t
  newNotices : ∀ x ∈ t.nu.queue, x ∈ s.nu.queue ∨ ∃ d, x = .durable d
  floor : ∀ o, (s.entry o).floor ≤ (t.entry o).floor
  settled : ∀ o n, (t.entry o).settled n = true ↔ (t.entry o).floor ≤ n ∧ (s.entry o).settled n = true
  reported : s.groupSize ≤ 24 → (t.hu.reportPending = true ↔
    s.hu.reportPending = true ∨ ∃ o, 1 ≤ o ∧ o ≤ s.groupSize ∧ (t.entry o).floor ≠ (s.entry o).floor)
  claim : t.fc.programClaim.map (fun c => (c.target, c.stamp)) = s.fc.programClaim.map fun c => (c.target, c.stamp)
  marks : ∃ more, t.fc.markClaims = s.fc.markClaims ++ more
  blocks : ∀ a, (s.sm.block a).state.old = false → t.sm.block a = s.sm.block a
  retiring : ∀ a, (s.sm.block a).state = .retiring → (t.sm.block a).state = .retiring ∨ (t.sm.block a).state = .retired .worn
  durable : s.hu.durable ≤ t.hu.durable

namespace Reclaims

variable {s t u : State}

theorem sc (h : Reclaims s t) : t.sc = s.sc := by rw [h.same]
theorem su (h : Reclaims s t) : t.su = s.su := by rw [h.same]
theorem ra (h : Reclaims s t) : t.ra = s.ra := by rw [h.same]
theorem ce (h : Reclaims s t) : t.ce = s.ce := by rw [h.same]
theorem fill (h : Reclaims s t) : t.fc.fill = s.fc.fill := by rw [h.same]
theorem array (h : Reclaims s t) : t.fc.array = s.fc.array := by rw [h.same]
theorem op (h : Reclaims s t) : t.fc.op = s.fc.op := by rw [h.same]
theorem groupSize (h : Reclaims s t) : t.groupSize = s.groupSize :=
  congrArg (fun x : Sc => (x.settings.map Settings.groupSize).getD 0) h.sc

theorem trans (h : Reclaims s t) (k : Reclaims t u) : Reclaims s u where
  same := by
    conv => lhs; rw [k.same]
    conv => lhs; rw [h.same]
  counts := h.counts.trans k.counts
  notices := h.notices.trans k.notices
  newNotices x mem := (k.newNotices x mem).elim (h.newNotices x) .inr
  floor o := Nat.le_trans (h.floor o) (k.floor o)
  settled o n := by
    rw [k.settled, h.settled]
    exact ⟨fun x => ⟨x.1, x.2.2⟩, fun x => ⟨x.1, Nat.le_trans (k.floor o) x.1, x.2⟩⟩
  reported small := by
    rw [k.reported (h.groupSize ▸ small), h.reported small, h.groupSize, or_assoc]
    refine or_congr_right ⟨?_, ?_⟩
    · rintro (⟨o, low, high, moved⟩ | ⟨o, low, high, moved⟩)
      · refine ⟨o, low, high, ?_⟩
        have := h.floor o
        have := k.floor o
        omega
      · refine ⟨o, low, high, ?_⟩
        have := h.floor o
        have := k.floor o
        omega
    · rintro ⟨o, low, high, moved⟩
      by_cases first : (t.entry o).floor = (s.entry o).floor
      · exact .inr ⟨o, low, high, first ▸ moved⟩
      · exact .inl ⟨o, low, high, first⟩
  claim := k.claim.trans h.claim
  marks := by
    obtain ⟨m, hm⟩ := h.marks
    obtain ⟨m', hm'⟩ := k.marks
    exact ⟨m ++ m', by rw [hm', hm, List.append_assoc]⟩
  blocks a young := (k.blocks a (by rw [h.blocks a young]; exact young)).trans (h.blocks a young)
  retiring a old := by
    rcases h.retiring a old with retiring | retired
    · exact k.retiring a retiring
    · exact .inr (by rw [k.blocks a (by rw [retired]; rfl)]; exact retired)
  durable := Nat.le_trans h.durable k.durable

/-- A change outside the entries, the notices and the block table. -/
theorem of_still (same : t = { s with
      sm := { s.sm with fetchLookup := t.sm.fetchLookup, serveLookup := t.sm.serveLookup, reclaimDue := t.sm.reclaimDue },
      fc := { s.fc with fetchClaim := t.fc.fetchClaim, serveClaim := t.fc.serveClaim, markClaims := t.fc.markClaims,
                        eraseClaim := t.fc.eraseClaim },
      rp := { s.rp with notHeld := t.rp.notHeld, rerunDue := t.rp.rerunDue },
      ap := { s.ap with fetch := t.ap.fetch, counters := t.ap.counters } })
    (counts : CountsUp [.damagedReads] s t) (marks : ∃ more, t.fc.markClaims = s.fc.markClaims ++ more) : Reclaims s t := by
  have hu : t.hu = s.hu := by rw [same]
  have nu : t.nu = s.nu := by rw [same]
  have claim : t.fc.programClaim = s.fc.programClaim := by rw [same]
  have table : t.sm.table = s.sm.table := by rw [same]
  have block (a : Nat) : t.sm.block a = s.sm.block a := by rw [Sm.block, table, Sm.block]
  have entry (o : Nat) : t.entry o = s.entry o := by rw [State.entry, hu, State.entry]
  exact {
    same := by
      conv => lhs; rw [same]
      rw [hu, nu, claim, table]
    counts := counts
    notices := .of_eq nu
    newNotices := fun x mem => .inl (nu ▸ mem)
    floor := fun o => Nat.le_of_eq (by rw [entry])
    settled := fun o n => by
      rw [entry]
      exact ⟨fun h => ⟨(Entry.settled_iff.mp h).1, h⟩, fun h => h.2⟩
    reported := fun _ => by
      rw [hu]
      refine ⟨.inl, fun h => h.resolve_right ?_⟩
      rintro ⟨o, -, -, moved⟩
      exact moved (by rw [entry])
    claim := by rw [claim]
    marks := marks
    blocks := fun a _ => block a
    retiring := fun a h => .inl (by rw [block]; exact h)
    durable := Nat.le_of_eq (by rw [hu]) }

theorem refl (s : State) : Reclaims s s := of_still rfl (.refl s) ⟨[], (List.append_nil _).symm⟩

end Reclaims

theorem Looks.reclaims {s t : State} (h : Looks s t) : Reclaims s t :=
  .of_still (by conv => lhs; rw [h.same]
                rw [h.same]) h.counts ⟨[], by rw [h.same, List.append_nil]⟩

namespace State

theorem setMarkClaims_reclaims (s : State) (more : List MarkClaim) :
    Reclaims s (s.setFc { s.fc with markClaims := s.fc.markClaims ++ more }) := .of_still rfl (.of_eq rfl) ⟨more, rfl⟩

theorem setEraseClaim_reclaims (s : State) (c : Option Nat) : Reclaims s (s.setFc { s.fc with eraseClaim := c }) :=
  .of_still rfl (.of_eq rfl) ⟨[], (List.append_nil _).symm⟩

theorem setReclaimDue_reclaims (s : State) (due : Bool) : Reclaims s (s.setSm { s.sm with reclaimDue := due }) :=
  .of_still rfl (.of_eq rfl) ⟨[], (List.append_nil _).symm⟩

/-- An evaluation of D moves D alone, with its notice and the debt of reclaim. -/
theorem evaluateDurable_same (s : State) : s.evaluateDurable = { s with
    hu := { s.hu with durable := s.evaluateDurable.hu.durable }, nu := s.evaluateDurable.nu,
    sm := { s.sm with reclaimDue := s.evaluateDurable.sm.reclaimDue } } := by
  unfold evaluateDurable
  split
  · rfl
  · dsimp only
    split
    · rw [notify_eq]
      rfl
    · rfl

theorem mem_notify_durable {s : State} {d : Nat} {x : Notice} (mem : x ∈ (s.notify (.durable d)).nu.queue) :
    x ∈ s.nu.queue ∨ ∃ d, x = .durable d := by
  cases runs : s.storeRuns with
  | false =>
    rw [notify_of_not_running runs] at mem
    exact .inl mem
  | true =>
    rw [notify_of_running runs] at mem
    rcases (NoticesOn.take _ _ _ _).2 x mem with mem | rfl | ⟨y, partner, rfl⟩
    · exact .inl mem
    · exact .inr ⟨_, rfl⟩
    · right
      cases y with
      | durable d => exact ⟨_, rfl⟩
      | _ => cases partner

theorem evaluateDurable_notices (s : State) : NoticesOn s s.evaluateDurable
    ∧ ∀ x ∈ s.evaluateDurable.nu.queue, x ∈ s.nu.queue ∨ ∃ d, x = .durable d := by
  unfold evaluateDurable
  split
  · exact ⟨.refl s, fun x mem => .inl mem⟩
  · rename_i c _
    dsimp only
    split
    · refine ⟨(NoticesOn.of_eq (setHu_nu s _)).trans ((NoticesOn.notify (s.setHu _) fun _ _ e => ?_).trans
        (.of_eq (setSm_nu _ _))), fun x mem => ?_⟩
      · cases e
      · rw [setSm_nu] at mem
        have mem := mem_notify_durable mem
        rwa [setHu_nu] at mem
    · exact ⟨.refl s, fun x mem => .inl mem⟩

/-- R83 under a floor raise. -/
theorem putEntry_same (s : State) (o : Nat) (e : Entry) : s.putEntry o e = { s with
    hu := { (s.writeEntry o e).hu with durable := (s.putEntry o e).hu.durable },
    fc := { s.fc with programClaim := (s.putEntry o e).fc.programClaim },
    rp := { s.rp with rerunDue := (s.putEntry o e).rp.rerunDue },
    nu := (s.putEntry o e).nu,
    sm := { s.sm with reclaimDue := (s.putEntry o e).sm.reclaimDue } } := by
  unfold putEntry
  dsimp only
  split
  · rw [evaluateDurable_same]
    split <;> rfl
  · split <;> rfl

theorem putEntry_counters (s : State) (o : Nat) (e : Entry) : (s.putEntry o e).ap = s.ap := by rw [putEntry_same]

theorem putEntry_notices (s : State) (o : Nat) (e : Entry) : NoticesOn s (s.putEntry o e)
    ∧ ∀ x ∈ (s.putEntry o e).nu.queue, x ∈ s.nu.queue ∨ ∃ d, x = .durable d := by
  have written : (if s.reported o && e != s.entry o then (s.writeEntry o e).tellRp else s.writeEntry o e).nu = s.nu := by
    split <;> rfl
  unfold putEntry
  dsimp only
  split
  · obtain ⟨on, new⟩ := evaluateDurable_notices
      (if s.reported o && e != s.entry o then (s.writeEntry o e).tellRp else s.writeEntry o e).raiseMark
    refine ⟨(NoticesOn.of_eq (t := (State.raiseMark _)) written).trans on, fun x mem => ?_⟩
    exact (new x mem).imp_left fun mem => written ▸ mem
  · exact ⟨.of_eq written, fun x mem => .inl (written ▸ mem)⟩

theorem putEntry_claim (s : State) (o : Nat) (e : Entry) :
    (s.putEntry o e).fc.programClaim.map (fun c => (c.target, c.stamp)) = s.fc.programClaim.map fun c => (c.target, c.stamp) := by
  unfold putEntry
  dsimp only
  split
  · rw [evaluateDurable_same]
    show (Option.map _ (Option.map _ _)) = _
    rw [Option.map_map]
    split <;> rfl
  · split <;> rfl

theorem putEntry_durable (s : State) (o : Nat) (e : Entry) : s.hu.durable ≤ (s.putEntry o e).hu.durable := by
  unfold putEntry
  dsimp only
  split
  · refine Nat.le_trans (Nat.le_of_eq ?_) (evaluateDurable_keeps _).durable
    split <;> rfl
  · split <;> exact Nat.le_refl _

theorem floorRaise_reclaims (s : State) (o f : Nat) : Reclaims s (s.floorRaise o f) := by
  unfold floorRaise
  split
  · exact .refl s
  have entry_eq (p : Nat) := entry_putEntry s o ((s.entry o).raiseFloor f) p
  have moved (p : Nat) : ((s.putEntry o ((s.entry o).raiseFloor f)).entry p = s.entry p) ∨
      (o = p ∧ (s.putEntry o ((s.entry o).raiseFloor f)).entry p = (s.entry p).raiseFloor f) := by
    rw [entry_eq]
    split
    · rename_i h
      exact .inr ⟨h.1, by rw [h.1]⟩
    · exact .inl rfl
  have block (a : Nat) : (s.putEntry o ((s.entry o).raiseFloor f)).sm.block a = s.sm.block a := by
    rw [putEntry_same]
    rfl
  exact {
    same := by
      conv => lhs; rw [putEntry_same]
      have entries : (s.putEntry o ((s.entry o).raiseFloor f)).hu.entries = (s.writeEntry o ((s.entry o).raiseFloor f)).hu.entries := by
        rw [putEntry_same]
      have pending : (s.putEntry o ((s.entry o).raiseFloor f)).hu.reportPending
          = (s.writeEntry o ((s.entry o).raiseFloor f)).hu.reportPending := by rw [putEntry_same]
      have fc : (s.putEntry o ((s.entry o).raiseFloor f)).fc
          = { s.fc with programClaim := (s.putEntry o ((s.entry o).raiseFloor f)).fc.programClaim } := by
        conv => lhs; rw [putEntry_same]
      have sm : (s.putEntry o ((s.entry o).raiseFloor f)).sm
          = { s.sm with reclaimDue := (s.putEntry o ((s.entry o).raiseFloor f)).sm.reclaimDue } := by
        conv => lhs; rw [putEntry_same]
      have rp : (s.putEntry o ((s.entry o).raiseFloor f)).rp
          = { s.rp with rerunDue := (s.putEntry o ((s.entry o).raiseFloor f)).rp.rerunDue } := by
        conv => lhs; rw [putEntry_same]
      rw [putEntry_counters, entries, pending, fc, sm, rp]
      rfl
    counts := .of_eq (by rw [putEntry_counters])
    notices := (putEntry_notices ..).1
    newNotices := (putEntry_notices ..).2
    floor := fun p => by
      rcases moved p with h | ⟨-, h⟩
      · exact Nat.le_of_eq (by rw [h])
      · rw [h, Entry.floor_raiseFloor]
        exact Nat.le_max_left ..
    settled := fun p n => by
      rcases moved p with h | ⟨-, h⟩
      · rw [h]
        exact ⟨fun k => ⟨(Entry.settled_iff.mp k).1, k⟩, fun k => k.2⟩
      · rw [h]
        exact Entry.settled_raiseFloor ..
    reported := fun small => by
      have pending : (s.putEntry o ((s.entry o).raiseFloor f)).hu.reportPending
          = (s.hu.reportPending || (s.reported o && ((s.entry o).raiseFloor f).pair != (s.entry o).pair)) := by
        rw [putEntry_same]
        rfl
      rw [pending, Bool.or_eq_true, Bool.and_eq_true, bne_iff_ne, Entry.pair_raiseFloor_ne_iff, reported, Bool.and_eq_true,
        decide_eq_true_eq, decide_eq_true_eq]
      refine or_congr_right ⟨fun ⟨⟨low, high⟩, up⟩ => ⟨o, low, high, ?_⟩, fun ⟨p, low, high, up⟩ => ?_⟩
      · rw [entry_eq, if_pos ⟨rfl, low, Nat.le_trans high small⟩]
        exact up
      · rcases moved p with h | ⟨rfl, h⟩
        · exact absurd (by rw [h]) up
        · exact ⟨⟨low, high⟩, h ▸ up⟩
    claim := putEntry_claim ..
    marks := ⟨[], by rw [putEntry_same, List.append_nil]⟩
    blocks := fun a _ => block a
    retiring := fun a h => .inl (by rw [block]; exact h)
    durable := putEntry_durable .. }

theorem foldl_reclaims {α : Type} (f : State → α → State) (h : ∀ s x, Reclaims s (f s x)) :
    (l : List α) → (s : State) → Reclaims s (l.foldl f s)
  | [], s => .refl s
  | x :: l, s => (h s x).trans (foldl_reclaims f h l _)

theorem raiseFloors_reclaims (s : State) (m : List SummaryLine) : Reclaims s (s.raiseFloors m) := by
  unfold raiseFloors
  exact foldl_reclaims _ (fun _ _ => floorRaise_reclaims ..) m s

/-- R160: a block taken out of service, from SEALED or RETIRING. -/
theorem putBlock_reclaims {s : State} {b : Nat} {e : BlockEntry} (old : (s.sm.block b).state.old = true)
    (worn : (s.sm.block b).state = .retiring → e.state = .retired .worn) : Reclaims s (s.putBlock b e) := by
  have still : Reclaims s (s.setSm { s.sm with reclaimDue := true }) := setReclaimDue_reclaims s true
  exact { still with
    same := rfl
    counts := .of_eq rfl
    notices := .of_eq rfl
    blocks := fun a young => by
      show (s.sm.setBlock b e).block a = _
      rw [Sm.block_setBlock, if_neg]
      rintro ⟨rfl, -⟩
      rw [old] at young
      cases young
    retiring := fun a h => by
      show ((s.sm.setBlock b e).block a).state = _ ∨ ((s.sm.setBlock b e).block a).state = _
      rw [Sm.block_setBlock]
      split
      · rename_i hb
        rw [← hb.1] at h
        exact .inr (worn h)
      · exact .inl h }

theorem raiseFloors_table (s : State) (m : List SummaryLine) : (s.raiseFloors m).sm.table = s.sm.table := by
  have line (s : State) (l : SummaryLine) : (s.floorRaise l.origin (l.highest + 1)).sm.table = s.sm.table := by
    unfold floorRaise
    split
    · rfl
    · rw [putEntry_same]
  unfold raiseFloors
  induction m generalizing s with
  | nil => rfl
  | cons l m ih => rw [List.foldl_cons, ih, line]

theorem raiseFloors_block (s : State) (m : List SummaryLine) (b : Nat) : (s.raiseFloors m).sm.block b = s.sm.block b := by
  rw [Sm.block, raiseFloors_table, Sm.block]

theorem select_reclaims {s : State} {b : Nat} (h : (s.sm.block b).state = .sealed ∨ (s.sm.block b).state = .retiring) :
    Reclaims s (s.select b) := by
  have floors := raiseFloors_reclaims s (s.sm.block b).summary
  have old : ((s.raiseFloors (s.sm.block b).summary).sm.block b).state.old = true := by
    rw [raiseFloors_block]
    exact BlockState.old_iff.mpr h
  unfold select
  dsimp only
  split
  · refine floors.trans ((putBlock_reclaims (e := retiredEntry .worn) old fun _ => rfl).trans ?_)
    exact ((leaveBlock_looks ..).reclaims.trans (leaveBlock_looks ..).reclaims).trans (setMarkClaims_reclaims ..)
  · rename_i sealed
    refine floors.trans ((putBlock_reclaims (e := { s.sm.block b with state := .erasing }) old fun retiring => ?_).trans ?_)
    · rw [raiseFloors_block] at retiring
      exact absurd (beq_iff_eq.mpr retiring) sealed
    · exact ((leaveBlock_looks ..).reclaims.trans (leaveBlock_looks ..).reclaims).trans (setEraseClaim_reclaims ..)

theorem reclaimRounds_reclaims : (n : Nat) → (s : State) → Reclaims s (s.reclaimRounds n)
  | 0, s => .refl s
  | n + 1, s => by
    unfold reclaimRounds
    split
    · exact (select_reclaims (old_of_selection ‹_›).2.1).trans (reclaimRounds_reclaims n _)
    · exact .refl s

theorem evaluateReclaim_reclaims (s : State) : Reclaims s s.evaluateReclaim := by
  unfold evaluateReclaim
  split
  · dsimp only
    split
    · exact (reclaimRounds_reclaims _ s).trans (setReclaimDue_reclaims ..)
    · exact setReclaimDue_reclaims ..
  · exact .refl s

end State

end Sys2Proof.Machine

/-! The commit path (R81, R107, R141): the form of PendingOk over a path whose first own numbers have left the array register, and
the operations that leave it alone. -/

namespace Sys2Proof.Machine

open Sys2Proof.Safety

/-! ## What is pending, by owner -/

/-- The own number, or none, that each submit entry makes pending. -/
def Su.seqs (su : Su) : List (Option Nat) := su.entries.toList.map SubmitEntry.pendingSeq

/-- The own number that a reference to a submit entry stands for. -/
def Ref.ownSeq (su : Su) : Ref → Option Nat
  | .entry i => (place su.entries .free i).pendingSeq
  | .slot _ => none

theorem Su.queued_eq (su : Su) : su.queued = su.seqs.countP Option.isSome := by
  rw [Su.queued, Su.seqs, List.countP_map]
  rfl

theorem Su.pendingSeqs_eq (su : Su) : su.entries.toList.filterMap SubmitEntry.pendingSeq = su.seqs.filterMap id := by
  rw [Su.seqs, List.filterMap_map]
  rfl

theorem Su.length_pendingSeqs (su : Su) : (su.entries.toList.filterMap SubmitEntry.pendingSeq).length = su.queued := by
  rw [List.length_filterMap_eq_countP]
  rfl

theorem Su.pendingSeq_place (su : Su) (i : Nat) : (place su.entries .free i).pendingSeq = (su.seqs[i]?).join := by
  rw [Su.seqs, List.getElem?_map, Vector.getElem?_toList, place]
  cases su.entries[i]? <;> rfl

theorem Su.mem_pendingSeqs {su : Su} {n : Nat} :
    n ∈ su.entries.toList.filterMap SubmitEntry.pendingSeq ↔ ∃ i, (place su.entries .free i).pendingSeq = some n := by
  rw [List.mem_filterMap]
  constructor
  · rintro ⟨e, mem, he⟩
    obtain ⟨i, hi, rfl⟩ := List.mem_iff_getElem.mp mem
    refine ⟨i, ?_⟩
    rw [Su.pendingSeq_place, Su.seqs, List.getElem?_map, List.getElem?_eq_getElem hi]
    exact he
  · rintro ⟨i, hi⟩
    rw [Su.pendingSeq_place, Su.seqs, List.getElem?_map] at hi
    cases he : su.entries.toList[i]? with
    | none =>
      rw [he] at hi
      cases hi
    | some e =>
      rw [he] at hi
      exact ⟨e, List.mem_of_getElem? he, hi⟩

theorem Ref.ownSeq_congr {su su' : Su} (h : su'.seqs = su.seqs) (ref : Ref) : ref.ownSeq su' = ref.ownSeq su := by
  cases ref with
  | slot i => rfl
  | entry i =>
    show (place su'.entries .free i).pendingSeq = (place su.entries .free i).pendingSeq
    rw [Su.pendingSeq_place, Su.pendingSeq_place, h]

theorem filterMap_eq_of_mem {α β : Type} {f g : α → Option β} : {l : List α} → (∀ a ∈ l, f a = g a) → l.filterMap f = l.filterMap g
  | [], _ => rfl
  | a :: l, h => by
    rw [List.filterMap_cons, List.filterMap_cons, h a List.mem_cons_self, filterMap_eq_of_mem fun b hb => h b (List.mem_cons_of_mem a hb)]

theorem ownPath_eq (s : State) :
    ownPath s = listedOf s.own s.fc.imageList ++ listedOf s.own s.fc.fill.list ++ s.ce.queue.filterMap (Ref.ownSeq s.su) := by
  unfold ownPath Fc.imageList
  refine congr (congrArg _ (congr (congrArg _ ?_) rfl)) (filterMap_eq_of_mem fun ref _ => ?_)
  · cases s.fc.array.image <;> rfl
  · cases ref <;> rfl

/-- Number `n` of peer origin `o` is on the path: in a slot, the fill register or the array register. -/
def State.awaits (s : State) (o n : Nat) : Prop :=
  (∃ i d, (place s.ra.slots .free i).data = some d ∧ d.origin = o ∧ d.seq = n)
    ∨ n ∈ listedOf o s.fc.fill.list ∨ n ∈ listedOf o s.fc.imageList

theorem Slot.pendingOf_eq_some {o n : Nat} {x : Slot} :
    x.pendingOf o = some n ↔ ∃ d, x.data = some d ∧ d.origin = o ∧ d.seq = n := by
  cases x <;> simp [Slot.pendingOf, Slot.data]

theorem mem_toList_iff_place {α : Type} {n : Nat} {v : Vector α n} {d x : α} (hx : x ≠ d) :
    x ∈ v.toList ↔ ∃ i, place v d i = x := by
  rw [List.mem_iff_getElem?]
  refine exists_congr fun i => ?_
  rw [Vector.getElem?_toList, place]
  cases v[i]? with
  | none => simp [hx.symm]
  | some y => simp

theorem mem_slotsPending {s : State} {o n : Nat} : n ∈ s.ra.slots.toList.filterMap (Slot.pendingOf o)
    ↔ ∃ i d, (place s.ra.slots .free i).data = some d ∧ d.origin = o ∧ d.seq = n := by
  rw [List.mem_filterMap]
  constructor
  · rintro ⟨x, mem, hx⟩
    have busy : x ≠ .free := by
      rintro rfl
      cases hx
    obtain ⟨i, rfl⟩ := (mem_toList_iff_place busy).mp mem
    obtain ⟨d, data⟩ := Slot.pendingOf_eq_some.mp hx
    exact ⟨i, d, data⟩
  · rintro ⟨i, d, data, named⟩
    have busy : place s.ra.slots .free i ≠ .free := by
      intro e
      rw [e] at data
      cases data
    exact ⟨_, (mem_toList_iff_place busy).mpr ⟨i, rfl⟩, Slot.pendingOf_eq_some.mpr ⟨d, data, named⟩⟩

theorem State.pendingOf_eq (s : State) (o : Nat) : s.pendingOf o =
    s.ra.slots.toList.filterMap (Slot.pendingOf o)
      ++ (s.ce.queue.filterMap s.refRecord).filterMap (fun r => if r.origin == o then some r.seq else none)
      ++ listedOf o s.fc.fill.list ++ listedOf o s.fc.imageList
      ++ (if o == s.own then s.su.entries.toList.filterMap SubmitEntry.pendingSeq else []) := by
  unfold State.pendingOf Fc.imageList
  refine congr (congrArg _ (congrArg _ ?_)) rfl
  cases s.fc.array.image <;> rfl

theorem mem_pendingOf {s : State} {o n : Nat} : n ∈ s.pendingOf o ↔
    (∃ i d, (place s.ra.slots .free i).data = some d ∧ d.origin = o ∧ d.seq = n)
      ∨ (∃ ref r, ref ∈ s.ce.queue ∧ s.refRecord ref = some r ∧ r.origin = o ∧ r.seq = n)
      ∨ n ∈ listedOf o s.fc.fill.list ∨ n ∈ listedOf o s.fc.imageList
      ∨ (o = s.own ∧ ∃ i, (place s.su.entries .free i).pendingSeq = some n) := by
  have queue : n ∈ (s.ce.queue.filterMap s.refRecord).filterMap (fun r => if r.origin == o then some r.seq else none)
      ↔ ∃ ref r, ref ∈ s.ce.queue ∧ s.refRecord ref = some r ∧ r.origin = o ∧ r.seq = n := by
    simp only [List.mem_filterMap, beq_iff_eq, Option.ite_none_right_eq_some, Option.some.injEq]
    constructor
    · rintro ⟨r, ⟨ref, mem, hr⟩, ho, hn⟩
      exact ⟨ref, r, mem, hr, ho, hn⟩
    · rintro ⟨ref, r, mem, hr, ho, hn⟩
      exact ⟨r, ⟨ref, mem, hr⟩, ho, hn⟩
  have own : n ∈ (if o == s.own then s.su.entries.toList.filterMap SubmitEntry.pendingSeq else [])
      ↔ o = s.own ∧ ∃ i, (place s.su.entries .free i).pendingSeq = some n := by
    by_cases h : o = s.own
    · rw [if_pos (beq_iff_eq.mpr h), Su.mem_pendingSeqs]
      simp only [h, true_and]
    · rw [if_neg (by rwa [beq_iff_eq])]
      simp [h]
  rw [State.pendingOf_eq, List.mem_append, List.mem_append, List.mem_append, List.mem_append, mem_slotsPending, queue, own, or_assoc, or_assoc,
    or_assoc]

theorem refRecord_slot {s : State} {i : Nat} {r : PathRecord} (h : s.refRecord (.slot i) = some r) :
    ∃ d, place s.ra.slots .free i = .complete d
      ∧ r = { origin := d.origin, seq := d.seq, check := d.check, payload := d.payload } := by
  unfold State.refRecord at h
  dsimp only at h
  split at h
  · rename_i d hd
    cases h
    exact ⟨d, hd, rfl⟩
  · cases h

theorem refRecord_entry {s : State} {i : Nat} {r : PathRecord} (h : s.refRecord (.entry i) = some r) :
    r.origin = s.own ∧ (place s.su.entries .free i).pendingSeq = some r.seq := by
  unfold State.refRecord at h
  dsimp only at h
  split at h
  · rename_i d hd
    cases h
    exact ⟨rfl, by rw [hd]; rfl⟩
  · cases h

/-- R81: the numbers of a peer's origin that the queue's references name are those of slots. -/
theorem mem_pendingOf_peer {s : State} {o n : Nat} (peer : o ≠ s.own) : n ∈ s.pendingOf o ↔ s.awaits o n := by
  rw [mem_pendingOf, State.awaits]
  constructor
  · rintro (h | ⟨ref, r, -, hr, ho, hn⟩ | h | h | ⟨h, -⟩)
    · exact .inl h
    · cases ref with
      | slot i =>
        obtain ⟨d, hd, rfl⟩ := refRecord_slot hr
        exact .inl ⟨i, d, by rw [hd]; rfl, ho, hn⟩
      | entry i => exact absurd (ho.symm.trans (refRecord_entry hr).1) peer
    · exact .inr (.inl h)
    · exact .inr (.inr h)
    · exact absurd h peer
  · rintro (h | h | h)
    · exact .inl h
    · exact .inr (.inr (.inl h))
    · exact .inr (.inr (.inr (.inl h)))

theorem upFrom_succ (a n : Nat) : upFrom a (n + 1) = a :: upFrom (a + 1) n := by
  rw [upFrom, List.range_succ_eq_map, List.map_cons, List.map_map, upFrom]
  refine List.cons_eq_cons.mpr ⟨rfl, List.map_congr_left fun i _ => ?_⟩
  show a + (i + 1) = a + 1 + i
  omega

theorem upFrom_append (a n : Nat) : upFrom a (n + 1) = upFrom a n ++ [a + n] := by
  rw [upFrom, List.range_succ, List.map_append]
  rfl

/-! ## The form of the path -/

/-- PendingOk where own numbers `ahead` of the path have left the array register and are still to be committed. -/
structure PathHolds (ahead : List Nat) (s : State) : Prop where
  peers : ∀ o n, o ≠ s.own → s.awaits o n → (s.entry o).settled n = false
  path : ahead ++ ownPath s = upFrom (s.ownTop + 1) s.su.queued
  seqs : (s.su.entries.toList.filterMap SubmitEntry.pendingSeq).Perm (upFrom (s.ownTop + 1) s.su.queued)
  refs : ∀ i, .entry i ∈ s.ce.queue → (place s.su.entries .free i).pendingSeq.isSome
  slots : ∀ i d, (place s.ra.slots .free i).data = some d → d.origin ≠ s.own
  transfer : ∀ c, s.fc.op = some (.transfer c) → s.fc.array.image = none
  active : s.station ≠ some .active → s.su.queued = 0
  number : ∀ st, s.station = some st → st ≠ .halted → 1 ≤ s.own ∧ s.own ≤ 24

/-- The own numbers that are pending lie above T_own. -/
theorem PathHolds.above {ahead : List Nat} {s : State} (h : PathHolds ahead s) {n : Nat} (mem : n ∈ s.pendingOf s.own) :
    s.ownTop < n := by
  have onPath (k : n ∈ ownPath s) : s.ownTop < n := by
    have mem : n ∈ ahead ++ ownPath s := List.mem_append_right _ k
    rw [h.path, mem_upFrom] at mem
    omega
  have inEntry {i : Nat} (k : (place s.su.entries .free i).pendingSeq = some n) : s.ownTop < n := by
    have mem := h.seqs.mem_iff.mp (Su.mem_pendingSeqs.mpr ⟨i, k⟩)
    rw [mem_upFrom] at mem
    omega
  rw [mem_pendingOf] at mem
  rcases mem with ⟨i, d, data, ho, -⟩ | ⟨ref, r, -, hr, ho, hn⟩ | mem | mem | ⟨-, i, hi⟩
  · exact absurd ho (h.slots i d data)
  · cases ref with
    | slot i =>
      obtain ⟨d, hd, rfl⟩ := refRecord_slot hr
      exact absurd ho (h.slots i d (by rw [hd]; rfl))
    | entry i => exact inEntry (hn ▸ (refRecord_entry hr).2)
  · exact onPath (by rw [ownPath_eq]; exact List.mem_append_left _ (List.mem_append_right _ mem))
  · exact onPath (by rw [ownPath_eq]; exact List.mem_append_left _ (List.mem_append_left _ mem))
  · exact inEntry hi

theorem pendingOk_iff {s : State} : PendingOk s ↔ PathHolds [] s := by
  constructor
  · rintro ⟨unsettled, path, seqs, refs, slots, transfer, active, number⟩
    exact ⟨fun o n peer h => unsettled o n ((mem_pendingOf_peer peer).mpr h), path, seqs, refs, slots, transfer, active, number⟩
  · intro h
    refine ⟨fun o n mem => ?_, h.path, h.seqs, h.refs, h.slots, h.transfer, h.active, h.number⟩
    by_cases peer : o = s.own
    · subst peer
      refine Classical.byContradiction fun settled => ?_
      rw [Bool.not_eq_false] at settled
      exact absurd (Entry.settled_iff.mp settled).2.1 (Nat.not_le.mpr (h.above mem))
    · exact h.peers o n peer ((mem_pendingOf_peer peer).mp mem)

/-! ## What leaves the path alone -/

/-- The path stands, with T_own where own numbers are on it, and no number of a peer that is on the path has become settled. -/
structure Untouched (s t : State) : Prop where
  sc : t.sc = s.sc
  seqs : t.su.seqs = s.su.seqs
  slots : t.ra.slots = s.ra.slots
  queue : t.ce.queue = s.ce.queue
  fill : t.fc.fill.list = s.fc.fill.list
  image : t.fc.imageList = s.fc.imageList
  transfer : (∀ c, s.fc.op = some (.transfer c) → s.fc.array.image = none) →
    ∀ c, t.fc.op = some (.transfer c) → t.fc.array.image = none
  ownTop : s.su.queued ≠ 0 → t.ownTop = s.ownTop
  settled : ∀ o n, o ≠ s.own → (t.entry o).settled n = true → (s.entry o).settled n = true ∨ ¬ s.awaits o n

namespace Untouched

variable {s t u : State}

theorem own (h : Untouched s t) : t.own = s.own := congrArg Sc.number h.sc

theorem queued (h : Untouched s t) : t.su.queued = s.su.queued := by rw [Su.queued_eq, h.seqs, Su.queued_eq]

theorem awaits (h : Untouched s t) (o n : Nat) : t.awaits o n ↔ s.awaits o n := by
  rw [State.awaits, State.awaits, h.slots, h.fill, h.image]

theorem trans (h : Untouched s t) (k : Untouched t u) : Untouched s u where
  sc := k.sc.trans h.sc
  seqs := k.seqs.trans h.seqs
  slots := k.slots.trans h.slots
  queue := k.queue.trans h.queue
  fill := k.fill.trans h.fill
  image := k.image.trans h.image
  transfer w := k.transfer (h.transfer w)
  ownTop q := (k.ownTop (h.queued ▸ q)).trans (h.ownTop q)
  settled o n peer w := by
    rcases k.settled o n (h.own ▸ peer) w with w | w
    · exact h.settled o n peer w
    · exact .inr fun a => w ((h.awaits o n).mpr a)

theorem pathHolds (h : Untouched s t) {ahead : List Nat} (w : PathHolds ahead s) : PathHolds ahead t := by
  have station : t.station = s.station := congrArg (fun x : Sc => match x.phase with
    | .held _ => none
    | .running st _ => some st) h.sc
  have numbers : upFrom (t.ownTop + 1) t.su.queued = upFrom (s.ownTop + 1) s.su.queued := by
    rw [h.queued]
    by_cases q : s.su.queued = 0
    · rw [q]
      rfl
    · rw [h.ownTop q]
  have place_eq (i : Nat) : (place t.su.entries .free i).pendingSeq = (place s.su.entries .free i).pendingSeq := by
    rw [Su.pendingSeq_place, h.seqs, Su.pendingSeq_place]
  have path : ownPath t = ownPath s := by
    rw [ownPath_eq, ownPath_eq, h.own, h.image, h.fill, h.queue]
    exact congrArg _ (filterMap_eq_of_mem fun ref _ => Ref.ownSeq_congr h.seqs ref)
  exact {
    peers := fun o n peer a => by
      rw [h.own] at peer
      rw [h.awaits] at a
      refine Classical.byContradiction fun settled => ?_
      rw [Bool.not_eq_false] at settled
      rcases h.settled o n peer settled with settled | gone
      · rw [w.peers o n peer a] at settled
        cases settled
      · exact gone a
    path := by rw [path, numbers, w.path]
    seqs := by rw [Su.pendingSeqs_eq, h.seqs, ← Su.pendingSeqs_eq, numbers]; exact w.seqs
    refs := fun i mem => by rw [place_eq]; exact w.refs i (h.queue ▸ mem)
    slots := fun i d data => by rw [h.own]; exact w.slots i d (h.slots ▸ data)
    transfer := h.transfer w.transfer
    active := fun idle => by rw [h.queued]; exact w.active (station ▸ idle)
    number := fun st hs => by rw [h.own]; exact w.number st (station ▸ hs) }

/-- A change outside the path, the entries and the operation in flight. -/
theorem of_eq (sc : t.sc = s.sc) (su : t.su = s.su) (ra : t.ra = s.ra) (queue : t.ce.queue = s.ce.queue)
    (fill : t.fc.fill.list = s.fc.fill.list) (array : t.fc.array.image = s.fc.array.image) (op : t.fc.op = s.fc.op)
    (entries : t.hu.entries = s.hu.entries) : Untouched s t := by
  have entry (o : Nat) : t.entry o = s.entry o := by rw [State.entry, entries, State.entry]
  exact {
    sc := sc
    seqs := by rw [su]
    slots := by rw [ra]
    queue := queue
    fill := fill
    image := by rw [Fc.imageList, array, Fc.imageList]
    transfer := by rw [op, array]; exact id
    ownTop := fun _ => by rw [State.ownTop, entry, State.own, sc]; rfl
    settled := fun o n _ h => .inl (entry o ▸ h) }

theorem refl (s : State) : Untouched s s := of_eq rfl rfl rfl rfl rfl rfl rfl rfl

/-- An operation other than a transfer begins. -/
theorem of_op (s : State) {x : Fc} (fill : x.fill.list = s.fc.fill.list) (array : x.array.image = s.fc.array.image)
    (op : ∀ c, x.op = some (.transfer c) → x.array.image = none) : Untouched s (s.setFc x) :=
  { refl s with
    fill := fill
    image := by rw [Fc.imageList, State.setFc_fc, array, Fc.imageList]
    transfer := fun _ => op }

end Untouched

theorem Repairs.untouched {s t : State} (h : Repairs s t) : Untouched s t :=
  { Untouched.refl s with
    sc := h.sc
    seqs := by rw [h.su]
    slots := by rw [h.ra]
    queue := by rw [h.ce]
    fill := by rw [h.fc]
    image := by rw [h.fc]
    transfer := by rw [h.fc]; exact id
    ownTop := fun _ => by rw [State.ownTop, h.ownNumber, h.own]; rfl
    settled := fun o n peer w => (h.unpending o n w).imp_right fun k a => k ((mem_pendingOf_peer peer).mpr a) }

theorem Reclaims.untouched {s t : State} (h : Reclaims s t) (ownTop : t.ownTop = s.ownTop) : Untouched s t :=
  { Untouched.refl s with
    sc := h.sc
    seqs := by rw [h.su]
    slots := by rw [h.ra]
    queue := by rw [h.ce]
    fill := by rw [h.fill]
    image := by rw [Fc.imageList, h.array]; rfl
    transfer := by rw [h.op, h.array]; exact id
    ownTop := fun _ => ownTop
    settled := fun o n _ w => .inl ((h.settled o n).mp w).2 }

theorem Looks.untouched {s t : State} (h : Looks s t) : Untouched s t :=
  h.reclaims.untouched (by rw [State.ownTop, State.entry, State.own, h.hu, h.sc]; rfl)

end Sys2Proof.Machine

/-! Placement (R142 to R145): what it does with the head of the queue, and how many rounds there are to make. -/

namespace Sys2Proof.Machine

open Sys2Proof.Safety

/-- The slots once what a placed reference names has been released. -/
def Ref.released (slots : Vector Slot 8) : Ref → Vector Slot 8
  | .slot i => setPlace slots i .free
  | .entry _ => slots

theorem Ref.place_released (slots : Vector Slot 8) (ref : Ref) (j : Nat) :
    place (ref.released slots) .free j = if ref = .slot j then .free else place slots .free j := by
  cases ref with
  | entry i => rfl
  | slot i =>
    show place (setPlace slots i .free) .free j = _
    rw [place_setPlace]
    by_cases h : i = j
    · subst h
      by_cases hi : i < 8
      · rw [if_pos ⟨rfl, hi⟩, if_pos rfl]
      · rw [if_neg fun k => hi k.2, if_pos rfl, place, Vector.getElem?_eq_none (Nat.not_lt.mp hi), Option.getD_none]
    · rw [if_neg fun k => h k.1, if_neg fun k => h (Ref.slot.inj k)]

namespace State

theorem releaseRef_eq (s : State) (ref : Ref) : s.releaseRef ref = s.setRa { s.ra with slots := ref.released s.ra.slots } := by
  cases ref <;> rfl

theorem moveWaiting_eq (s : State) : s.moveWaiting =
    (s.setRa { s.ra with waitList := s.ra.waitList.drop 1 }).setCe
      { s.ce with queue := s.ce.queue ++ (s.ra.waitList.take 1).map Ref.slot } := by
  unfold moveWaiting
  split
  · rename_i h
    rw [h, List.drop_nil, List.take_nil, List.map_nil, List.append_nil, ← h]
    rfl
  · rename_i i rest h
    rw [h]
    rfl

theorem startFlush_eq {s : State} (opened : s.fc.fill.state = .opened) : s.startFlush =
    { s with
      fc := { s.fc with fill := { s.fc.fill with
        state := if (s.ce.queue = [] ∧ s.ce.flushTimer = false) ∧ s.flushDelay = 0 then .closed else .opened } },
      ce := { s.ce with
        flushTimer := s.ce.flushTimer || decide ((s.ce.queue = [] ∧ s.ce.flushTimer = false) ∧ s.flushDelay ≠ 0) } } := by
  unfold startFlush
  by_cases starts : s.ce.queue = [] ∧ s.ce.flushTimer = false
  · rw [if_pos (by rw [starts.1, starts.2, opened]; rfl)]
    by_cases soon : s.flushDelay = 0
    · rw [if_pos soon, if_pos ⟨starts, soon⟩, starts.2, decide_eq_false fun h => h.2 soon]
      rfl
    · rw [if_neg soon, if_neg fun h => soon h.2, decide_eq_true ⟨starts, soon⟩, Bool.or_true, ← opened]
      rfl
  · rw [if_neg, if_neg fun h => starts h.1, decide_eq_false fun h => starts h.1, Bool.or_false, ← opened]
    rw [Bool.and_eq_true, Bool.and_eq_true, List.isEmpty_iff, Bool.not_eq_true']
    exact fun h => starts ⟨h.1.1, h.2⟩

/-- The commit queue once its head has been placed. -/
def queueAfter (s : State) : List Ref := s.ce.queue.drop 1 ++ (s.ra.waitList.take 1).map Ref.slot

/-- R143 to R145: what the placement of the head changes. -/
theorem placeHead_eq (s : State) (ref : Ref) (r : PathRecord) : s.placeHead ref r = { s with
    fc := { s.fc with fill := { s.fc.fill.put r with
      state := if (s.queueAfter = [] ∧ s.ce.flushTimer = false) ∧ s.flushDelay = 0 then .closed else .opened } },
    ce := { s.ce with
      queue := s.queueAfter,
      flushTimer := s.ce.flushTimer || decide ((s.queueAfter = [] ∧ s.ce.flushTimer = false) ∧ s.flushDelay ≠ 0) },
    ra := { slots := ref.released s.ra.slots, waitList := s.ra.waitList.drop 1 } } := by
  unfold placeHead
  extract_lets s1
  rw [releaseRef_eq, moveWaiting_eq, startFlush_eq rfl]
  rfl

/-- Nothing can be placed: the queue is empty or the fill register CLOSED. -/
def placed (s : State) : Prop := s.ce.queue = [] ∨ s.fc.fill.state = .closed

theorem placeRounds_of_placed {s : State} (h : s.placed) (k : Nat) : s.placeRounds k = s := by
  cases k with
  | zero => rfl
  | succ k =>
    unfold placeRounds
    split
    · rfl
    · rename_i ref rest hq
      rcases h with h | h
      · rw [h] at hq
        cases hq
      · rw [if_pos (beq_iff_eq.mpr h)]

section
variable {s : State} {ref : Ref} {refs : List Ref} {r : PathRecord}

theorem placeRounds_succ (hq : s.ce.queue = ref :: refs) (hr : s.refRecord ref = some r) (hc : s.fc.fill.state ≠ .closed) (k : Nat) :
    s.placeRounds (k + 1) = if s.fc.fill.fits r.payload.length then (s.placeHead ref r).placeRounds k else s.closeFill := by
  conv => lhs; unfold placeRounds
  rw [hq]
  dsimp only
  rw [if_neg (by rwa [beq_iff_eq]), hr]

theorem placeRounds_of_no_record (hq : s.ce.queue = ref :: refs) (hr : s.refRecord ref = none) (k : Nat) : s.placeRounds k = s := by
  cases k with
  | zero => rfl
  | succ k =>
    unfold placeRounds
    rw [hq]
    dsimp only
    rw [hr]
    exact ite_self _

end

theorem closeFill_placed (s : State) : s.closeFill.placed := .inr rfl

/-- R144: a register takes at most 8 records. -/
theorem placeRounds_succ_eq (k : Nat) : {s : State} → s.fc.fill.list.length ≤ 8 → 9 ≤ k + s.fc.fill.list.length →
    s.placeRounds (k + 1) = s.placeRounds k := by
  induction k with
  | zero =>
    intro s short enough
    omega
  | succ k ih =>
    intro s short enough
    by_cases rest : s.placed
    · rw [placeRounds_of_placed rest, placeRounds_of_placed rest]
    · have waits : s.ce.queue ≠ [] := fun h => rest (.inl h)
      have opened : s.fc.fill.state ≠ .closed := fun h => rest (.inr h)
      obtain ⟨ref, refs, hq⟩ := List.exists_cons_of_ne_nil waits
      cases hr : s.refRecord ref with
      | none => rw [placeRounds_of_no_record hq hr, placeRounds_of_no_record hq hr]
      | some r =>
        rw [placeRounds_succ hq hr opened, placeRounds_succ hq hr opened]
        split
        · rename_i fits
          have room : s.fc.fill.list.length < 8 := by
            rw [FillReg.fits, Bool.and_eq_true, decide_eq_true_eq] at fits
            exact fits.1
          have longer : (s.placeHead ref r).fc.fill.list.length = s.fc.fill.list.length + 1 := by
            rw [placeHead_eq]
            exact List.length_append
          exact ih (by rw [longer]; omega) (by rw [longer]; omega)
        · rfl

theorem placeRounds_enough {s : State} (short : s.fc.fill.list.length ≤ 8) {k : Nat} (enough : 9 ≤ k) :
    s.placeRounds k = s.placeRounds 9 := by
  obtain ⟨d, rfl⟩ := Nat.exists_eq_add_of_le enough
  induction d with
  | zero => rfl
  | succ d ih => rw [← Nat.add_assoc, placeRounds_succ_eq (9 + d) short (by omega), ih (by omega)]

end State

end Sys2Proof.Machine

/-! The commit path under the operations of a running station (R81, R107, R141 to R147). -/

namespace Sys2Proof.Machine

open Sys2Proof.Safety

/-- What keeps PendingOk along a run: with D at or below T_own, the path holds after `t` as before. -/
structure KeepsAwaited (s t : State) : Prop where
  keeps : Keeps s t
  holds : DurableOk s → ∀ ahead, PathHolds ahead s → PathHolds ahead t

namespace KeepsAwaited

variable {s t u : State}

theorem refl (s : State) : KeepsAwaited s s := ⟨.refl s, fun _ _ h => h⟩

theorem trans (h : KeepsAwaited s t) (k : KeepsAwaited t u) : KeepsAwaited s u :=
  ⟨h.keeps.trans k.keeps, fun w ahead p => k.holds (h.keeps.durableOk w) ahead (h.holds w ahead p)⟩

theorem of_untouched (k : Keeps s t) (h : Untouched s t) : KeepsAwaited s t := ⟨k, fun _ _ => h.pathHolds⟩

end KeepsAwaited

namespace State

/-! ## Reclaim -/

theorem select_hu (s : State) (b : Nat) : (s.select b).hu = (s.raiseFloors (s.sm.block b).summary).hu := by
  unfold select
  dsimp only
  split
  · rw [setFc_hu, (leaveBlock_looks ..).hu, (leaveBlock_looks ..).hu]
    rfl
  · rw [setFc_hu, (leaveBlock_looks ..).hu, (leaveBlock_looks ..).hu]
    rfl

theorem putEntry_own (s : State) (o : Nat) (e : Entry) : (s.putEntry o e).own = s.own := by
  rw [putEntry_same]
  rfl

theorem ownTop_putEntry (s : State) (o : Nat) (e : Entry) :
    (s.putEntry o e).ownTop = if o = s.own ∧ 1 ≤ o ∧ o ≤ 24 then e.top else s.ownTop := by
  rw [ownTop, putEntry_own, entry_putEntry]
  split <;> rfl

theorem raiseFloors_ownTop : {m : List SummaryLine} → {s : State} → (∀ l ∈ m, l.origin = s.own → l.highest ≤ s.ownTop) →
    (s.raiseFloors m).ownTop = s.ownTop
  | [], s, _ => rfl
  | l :: m, s, low => by
    have own : (s.floorRaise l.origin (l.highest + 1)).own = s.own := (floorRaise_keeps ..).own
    have first : (s.floorRaise l.origin (l.highest + 1)).ownTop = s.ownTop := by
      unfold floorRaise
      split
      · rfl
      · rw [ownTop_putEntry]
        split
        · rename_i mine
          have le := low l List.mem_cons_self mine.1
          rw [mine.1, Entry.top_raiseFloor, if_neg]
          · rfl
          · rw [Entry.floor_raiseFloor, entry_own_top]
            omega
        · rfl
    have rest := raiseFloors_ownTop (m := m) (s := s.floorRaise l.origin (l.highest + 1)) fun x mem mine => by
      rw [first]
      exact low x (List.mem_cons_of_mem _ mem) (own ▸ mine)
    exact rest.trans first

/-- R159: what reclaim takes of the own origin lies at or below D, so T_own stands. -/
theorem select_ownTop {s : State} {b : Nat} (w : DurableOk s) (h : s.selection = some b) : (s.select b).ownTop = s.ownTop := by
  obtain ⟨-, -, -, eligible⟩ := selection_eq_some_iff.mp h
  rw [State.eligible, Bool.and_eq_true, List.all_eq_true] at eligible
  have floors : (s.raiseFloors (s.sm.block b).summary).ownTop = s.ownTop := raiseFloors_ownTop fun l mem mine => by
    have low := eligible.1 l mem
    rw [Bool.or_eq_true, bne_iff_ne, decide_eq_true_eq] at low
    exact Nat.le_trans (low.resolve_left fun k => k mine) w.1
  have own : (s.select b).own = (s.raiseFloors (s.sm.block b).summary).own :=
    (select_keeps s b).own.trans (raiseFloors_keeps ..).own.symm
  rw [← floors, ownTop, ownTop, entry, entry, select_hu, own]

theorem reclaimRounds_ownTop : (n : Nat) → {s : State} → DurableOk s → (s.reclaimRounds n).ownTop = s.ownTop
  | 0, _, _ => rfl
  | n + 1, s, w => by
    unfold reclaimRounds
    split
    · rename_i b h
      exact (reclaimRounds_ownTop n ((select_keeps s b).durableOk w)).trans (select_ownTop w h)
    · rfl

theorem evaluateReclaim_ownTop {s : State} (w : DurableOk s) : s.evaluateReclaim.ownTop = s.ownTop := by
  unfold evaluateReclaim
  split
  · dsimp only
    split
    · exact reclaimRounds_ownTop _ w
    · rfl
  · rfl

theorem evaluateReclaim_awaited (s : State) : KeepsAwaited s s.evaluateReclaim :=
  ⟨evaluateReclaim_keeps s, fun w _ => ((evaluateReclaim_reclaims s).untouched (evaluateReclaim_ownTop w)).pathHolds⟩

/-! ## Placement -/

theorem listedOf_append (o : Nat) (l m : List ListEntry) : listedOf o (l ++ m) = listedOf o l ++ listedOf o m := by
  rw [listedOf, List.filter_append, List.map_append]
  rfl

theorem listedOf_singleton (o : Nat) (e : ListEntry) : listedOf o [e] = if e.origin = o then [e.seq] else [] := by
  unfold listedOf
  by_cases h : e.origin = o
  · simp [h]
  · simp [h]

theorem filterMap_ownSeq_slots (su : Su) (l : List Nat) : (l.map Ref.slot).filterMap (Ref.ownSeq su) = [] := by
  rw [List.filterMap_map, List.filterMap_eq_nil_iff]
  exact fun _ _ => rfl

/-- R143: the record moves from its owner into the fill register. -/
theorem placeHead_pathHolds {s : State} {ref : Ref} {refs : List Ref} {r : PathRecord} (hq : s.ce.queue = ref :: refs)
    (hr : s.refRecord ref = some r) {ahead : List Nat} (w : PathHolds ahead s) : PathHolds ahead (s.placeHead ref r) := by
  have slotOrigin {i : Nat} (h : ref = .slot i) : r.origin ≠ s.own ∧ ∃ d, (place s.ra.slots .free i).data = some d
      ∧ d.origin = r.origin ∧ d.seq = r.seq := by
    subst h
    obtain ⟨d, hd, rfl⟩ := refRecord_slot hr
    have data : (place s.ra.slots .free i).data = some d := by rw [hd]; rfl
    exact ⟨w.slots i d data, d, data, rfl, rfl⟩
  have slots (j : Nat) {d : SlotData} (data : (place (ref.released s.ra.slots) .free j).data = some d) :
      (place s.ra.slots .free j).data = some d := by
    rw [Ref.place_released] at data
    split at data
    · cases data
    · exact data
  have queued {i : Nat} (mem : .entry i ∈ s.queueAfter) : .entry i ∈ s.ce.queue := by
    rw [queueAfter, List.mem_append, hq] at mem
    rcases mem with mem | mem
    · rw [hq]
      exact List.mem_cons_of_mem _ mem
    · obtain ⟨_, -, e⟩ := List.mem_map.mp mem
      cases e
  have path : ownPath (s.placeHead ref r) = ownPath s := by
    rw [ownPath_eq, ownPath_eq, placeHead_eq]
    show listedOf s.own s.fc.imageList ++ listedOf s.own (s.fc.fill.list ++ [_]) ++ s.queueAfter.filterMap (Ref.ownSeq s.su) = _
    rw [listedOf_append, listedOf_singleton, queueAfter, List.filterMap_append, filterMap_ownSeq_slots, List.append_nil, hq,
      List.drop_one, List.tail_cons, List.filterMap_cons]
    cases ref with
    | slot i =>
      dsimp only
      rw [if_neg (slotOrigin rfl).1, List.append_nil]
      rfl
    | entry i =>
      obtain ⟨origin, seq⟩ := refRecord_entry hr
      have own : Ref.ownSeq s.su (.entry i) = some r.seq := seq
      dsimp only
      rw [if_pos origin, own]
      simp
  rw [placeHead_eq] at path ⊢
  exact {
    peers := fun o n peer a => by
      refine w.peers o n peer ?_
      rcases a with ⟨i, d, data, named⟩ | mem | mem
      · exact .inl ⟨i, d, slots i data, named⟩
      · have listed : n ∈ listedOf o (s.fc.fill.list ++ [{ origin := r.origin, seq := r.seq, offset := s.fc.fill.data.length }]) := mem
        rw [listedOf_append, listedOf_singleton, List.mem_append] at listed
        rcases listed with before | last
        · exact .inr (.inl before)
        · split at last
          · rename_i origin
            cases ref with
            | entry i => exact absurd (origin.symm.trans (refRecord_entry hr).1) peer
            | slot i =>
              obtain ⟨-, d, data, ho, hn⟩ := slotOrigin rfl
              exact .inl ⟨i, d, data, ho.trans origin, hn.trans (List.mem_singleton.mp last).symm⟩
          · cases last
      · exact .inr (.inr mem)
    path := by rw [path]; exact w.path
    seqs := w.seqs
    refs := fun i mem => w.refs i (queued mem)
    slots := fun i d data => w.slots i d (slots i data)
    transfer := w.transfer
    active := w.active
    number := w.number }

theorem closeFill_untouched (s : State) : Untouched s s.closeFill := .of_eq rfl rfl rfl rfl rfl rfl rfl rfl

theorem closeFill_awaited (s : State) : KeepsAwaited s s.closeFill := .of_untouched (closeFill_keeps s) (closeFill_untouched s)

theorem placeRounds_awaited : (n : Nat) → (s : State) → KeepsAwaited s (s.placeRounds n)
  | 0, s => .refl s
  | n + 1, s => by
    by_cases rest : s.placed
    · rw [placeRounds_of_placed rest]
      exact .refl s
    · have waits : s.ce.queue ≠ [] := fun h => rest (.inl h)
      have opened : s.fc.fill.state ≠ .closed := fun h => rest (.inr h)
      obtain ⟨ref, refs, hq⟩ := List.exists_cons_of_ne_nil waits
      cases hr : s.refRecord ref with
      | none =>
        rw [placeRounds_of_no_record hq hr]
        exact .refl s
      | some r =>
        rw [placeRounds_succ hq hr opened]
        split
        · exact KeepsAwaited.trans ⟨placeHead_keeps s ref r, fun _ _ => placeHead_pathHolds hq hr⟩ (placeRounds_awaited n _)
        · exact closeFill_awaited s

/-! ## Program claims -/

/-- R155: the level changes SM and the notices alone. -/
theorem setPressure_same (s : State) : s.setPressure = { s with sm := s.setPressure.sm, nu := s.setPressure.nu } := by
  unfold setPressure
  dsimp only
  split
  · rw [notify_eq]
    rfl
  · split
    · rw [notify_eq]
      rfl
    · rfl

theorem openFree_same (s : State) (b : Nat) : s.openFree b = { s with sm := (s.openFree b).sm, nu := (s.openFree b).nu } := by
  unfold openFree
  dsimp only
  conv => lhs; rw [setPressure_same]
  rfl

theorem withOpenBlock_same (s : State) :
    s.withOpenBlock.1 = { s with sm := s.withOpenBlock.1.sm, nu := s.withOpenBlock.1.nu } := by
  unfold withOpenBlock
  split
  · rfl
  · split
    · rfl
    · split
      · exact openFree_same ..
      · rfl

theorem withOpenBlock_untouched (s : State) : Untouched s s.withOpenBlock.1 := by
  rw [withOpenBlock_same]
  exact .of_eq rfl rfl rfl rfl rfl rfl rfl rfl

/-- R147: a claim or STALLED, and CE's state. -/
theorem claimIfNeeded_untouched (s : State) : Untouched s s.claimIfNeeded := by
  unfold claimIfNeeded
  split
  · have opens := withOpenBlock_untouched s
    split
    · rename_i s1 b e
      rw [e] at opens
      exact opens.trans (.of_eq rfl rfl rfl rfl rfl rfl rfl rfl)
    · rename_i s1 e
      rw [e] at opens
      exact opens.trans (.of_eq rfl rfl rfl rfl rfl rfl rfl rfl)
  · exact .of_eq rfl rfl rfl rfl rfl rfl rfl rfl

theorem claimIfNeeded_awaited (s : State) : KeepsAwaited s s.claimIfNeeded :=
  .of_untouched (claimIfNeeded_keeps s) (claimIfNeeded_untouched s)

theorem runCommit_awaited (s : State) : KeepsAwaited s s.runCommit := (placeRounds_awaited 9 s).trans (claimIfNeeded_awaited _)

/-! ## The grant -/

theorem putBlock_untouched (s : State) (b : Nat) (e : BlockEntry) : Untouched s (s.putBlock b e) :=
  .of_eq rfl rfl rfl rfl rfl rfl rfl rfl

theorem notify_untouched (s : State) (n : Notice) : Untouched s (s.notify n) := by
  rw [notify_eq]
  exact .of_eq rfl rfl rfl rfl rfl rfl rfl rfl

theorem bump_untouched (s : State) (k : Counter) : Untouched s (s.bump k) := .of_eq rfl rfl rfl rfl rfl rfl rfl rfl
theorem setAp_untouched (s : State) (x : Ap) : Untouched s (s.setAp x) := .of_eq rfl rfl rfl rfl rfl rfl rfl rfl
theorem setSm_untouched (s : State) (x : Sm) : Untouched s (s.setSm x) := .of_eq rfl rfl rfl rfl rfl rfl rfl rfl
theorem setRp_untouched (s : State) (x : Rp) : Untouched s (s.setRp x) := .of_eq rfl rfl rfl rfl rfl rfl rfl rfl
theorem setNu_untouched (s : State) (x : Nu) : Untouched s (s.setNu x) := .of_eq rfl rfl rfl rfl rfl rfl rfl rfl
theorem setLc_untouched (s : State) (x : Lc) : Untouched s (s.setLc x) := .of_eq rfl rfl rfl rfl rfl rfl rfl rfl
theorem drawn_untouched (s : State) : Untouched s s.drawn := .of_eq rfl rfl rfl rfl rfl rfl rfl rfl

theorem programFailed_awaited (s : State) (p : PageAddr) : KeepsAwaited s (s.programFailed p) := by
  have failed : KeepsAwaited s (s.smProgramFailed p) :=
    .of_untouched (smProgramFailed_keeps s p) ((putBlock_untouched ..).trans (notify_untouched ..))
  exact (failed.trans (runCommit_awaited _)).trans (evaluateReclaim_awaited _)

theorem fcProgramFails_untouched (s : State) : Untouched s s.fcProgramFails :=
  (Untouched.of_op s (x := { s.fc with op := none, array := { s.fc.array with state := .idle, target := none } }) rfl rfl
    fun _ h => by cases h).trans (bump_untouched ..)

theorem beginProgram_untouched (s : State) (c : ProgramClaim) : Untouched s (s.beginProgram c) :=
  .of_op s rfl rfl fun _ h => by cases h

theorem grantStep_untouched (s : State) (who : Requester) (c : StepClaim) : Untouched s (s.grantStep who c) := by
  refine Untouched.trans (t := s.setFc { s.fc.setStepClaim who none with op := some (.lookupRead who c.kind c.page) }) ?_
    (setSm_untouched ..)
  cases who <;> exact .of_op s rfl rfl fun _ h => by cases h

theorem beginErase_untouched (s : State) (b : Nat) : Untouched s (s.beginErase b) := .of_op s rfl rfl fun _ h => by cases h

theorem grantRounds_awaited : (n : Nat) → (s : State) → KeepsAwaited s (s.grantRounds n)
  | 0, s => .refl s
  | n + 1, s => by
    unfold grantRounds
    split
    · exact .refl s
    · rename_i hc
      have free : s.fc.op = none := by
        rw [Bool.or_eq_true, not_or] at hc
        exact Option.not_isSome_iff_eq_none.mp hc.2
      split
      · rename_i c _
        have taken : KeepsAwaited s (s.setFc { s.fc with programClaim := none }) :=
          .of_untouched (.setFc s rfl rfl) (.of_eq rfl rfl rfl rfl rfl rfl rfl rfl)
        dsimp only
        split
        · rename_i image
          exact taken.trans (.of_untouched (.setFcOp _ free rfl) (.of_op _ rfl rfl fun _ _ => image))
        · split
          · have fails := KeepsAwaited.of_untouched (fcProgramFails_keeps (s.setFc { s.fc with programClaim := none }) free)
              (fcProgramFails_untouched (s.setFc { s.fc with programClaim := none }))
            exact ((taken.trans fails).trans (programFailed_awaited ..)).trans (grantRounds_awaited n _)
          · exact taken.trans (.of_untouched (beginProgram_keeps _ c free) (beginProgram_untouched ..))
      · split
        · exact .of_untouched (grantStep_keeps s _ _ free) (grantStep_untouched ..)
        · split
          · exact .of_untouched (grantStep_keeps s _ _ free) (grantStep_untouched ..)
          · split
            · rename_i m rest _
              have taken : KeepsAwaited s (s.setFc { s.fc with markClaims := rest }) :=
                .of_untouched (.setFc s rfl rfl) (.of_eq rfl rfl rfl rfl rfl rfl rfl rfl)
              dsimp only
              split
              · exact (taken.trans (.of_untouched (bump_keeps ..) (bump_untouched ..))).trans (grantRounds_awaited n _)
              · exact taken.trans (.of_untouched (.setFcOp _ free rfl) (.of_op _ rfl rfl fun _ h => by cases h))
            · split
              · split
                · exact .refl s
                · exact .of_untouched (beginErase_keeps s _ free) (beginErase_untouched ..)
              · exact .refl s

theorem grant_awaited (s : State) : KeepsAwaited s s.grant := grantRounds_awaited _ s

theorem settleRepair_awaited (s : State) : KeepsAwaited s s.settleRepair :=
  .of_untouched (settleRepair_keeps s) (settleRepair_repairs s).untouched

theorem settleAll_awaited (s : State) : KeepsAwaited s s.settleAll :=
  ((evaluateReclaim_awaited s).trans (grant_awaited _)).trans (settleRepair_awaited _)

theorem completion_awaited (s : State) {f : State → State} (h : ∀ t, KeepsAwaited t (f t)) : KeepsAwaited s (s.completion f) := by
  have drawn : KeepsAwaited s s.drawn := .of_untouched (.drawn s) (drawn_untouched s)
  unfold completion
  split
  · exact (drawn.trans (h _)).trans (grant_awaited _)
  · exact ((drawn.trans (grant_awaited _)).trans (h _)).trans (grant_awaited _)

end State

end Sys2Proof.Machine

/-! What the serving of asks changes (R177 to R181), which offer is chosen (R71, R72), and the commit path under the operations of the
line, of reassembly and of the submit unit. -/

namespace Sys2Proof.Machine

open Sys2Proof.Safety

/-! ## Serving -/

/-- What RP's serving leaves of `s`: its own values, the serve lookup with its claim, and the counters. -/
structure Serves (s t : State) : Prop where
  same : t = { s with
    fc := { s.fc with serveClaim := t.fc.serveClaim },
    sm := { s.sm with serveLookup := t.sm.serveLookup },
    rp := t.rp,
    ap := { s.ap with counters := t.ap.counters } }

namespace Serves

variable {s t u : State}

theorem trans (h : Serves s t) (k : Serves t u) : Serves s u where
  same := by
    conv => lhs; rw [k.same]
    conv => lhs; rw [h.same]

theorem setRp (s : State) (x : Rp) : Serves s (s.setRp x) := ⟨rfl⟩
theorem bump (s : State) (k : Counter) : Serves s (s.bump k) := ⟨rfl⟩
theorem refl (s : State) : Serves s s := ⟨rfl⟩

theorem untouched (h : Serves s t) : Untouched s t := by
  rw [h.same]
  exact .of_eq rfl rfl rfl rfl rfl rfl rfl rfl

end Serves

namespace State

theorem startLookup_serves (s : State) (o n : Nat) : Serves s (s.startLookup .serve o n) := by
  unfold startLookup choose
  split
  · exact ⟨rfl⟩
  · exact ⟨rfl⟩

theorem testHead_serves (s : State) : Serves s s.testHead := by
  unfold testHead
  split
  · exact .refl s
  · split
    · exact startLookup_serves ..
    · exact .setRp s _

theorem endHead_serves (s : State) : Serves s s.endHead := (Serves.setRp s _).trans (testHead_serves _)

theorem takeAsk_serves (s : State) (p o : Nat) (body : List Byte) : Serves s (s.takeAsk p o body) := by
  unfold takeAsk
  dsimp only
  split
  · exact .refl s
  · split
    · exact .bump s _
    · split
      · exact .refl s
      · split
        · unfold makeBusy
          split
          · exact .setRp s _
          · exact .refl s
        · split
          · exact (Serves.setRp s _).trans (testHead_serves _)
          · exact .setRp s _

theorem refusalChosen_serves (s : State) (r : RefuseReason) : Serves s (s.refusalChosen r) := by
  cases r with
  | busy => exact .setRp s _
  | notHeld => exact endHead_serves s

theorem resendChosen_serves (s : State) (r : ServeRecord) : Serves s (s.resendChosen r) := by
  unfold resendChosen
  dsimp only
  split
  · exact .setRp s _
  · split
    · exact .setRp s _
    · split
      · exact ((Serves.setRp s _).trans (.setRp _ _)).trans (testHead_serves _)
      · exact ((Serves.setRp s _).trans (.bump _ _)).trans (endHead_serves _)

theorem askSent_serves (s : State) (o p : Nat) : Serves s (s.askSent o p) := by
  unfold askSent
  dsimp only
  split
  · split
    · split
      · split
        · exact (Serves.bump s _).trans (.setRp _ _)
        · exact .bump s _
      · exact .bump s _
    · exact .bump s _
  · exact .bump s _

theorem resendHeard_serves (s : State) (o n : Nat) : Serves s (s.resendHeard o n) := by
  unfold resendHeard
  split
  · split
    · split
      · split
        · exact .setRp s _
        · exact .refl s
      · exact .refl s
    · exact .refl s
  · exact .refl s

/-- R175: a REFUSE is counted, or makes its entry evaluated anew. -/
theorem takeRefuse_repairs (s : State) (p o : Nat) (body : List Byte) :
    ∃ u, (u = s ∨ u = s.bump .badBursts ∨ u = s.bump .refusalsReceived) ∧ Repairs u (s.takeRefuse p o body) := by
  unfold takeRefuse
  dsimp only
  split
  · exact ⟨s, .inl rfl, .refl s⟩
  · split
    · exact ⟨_, .inr (.inl rfl), .refl _⟩
    · refine ⟨s.bump .refusalsReceived, .inr (.inr rfl), ?_⟩
      split
      · exact .refl _
      · split
        · split
          · split
            · exact skipResponder_repairs ..
            · exact .refl _
          · exact .refl _
        · exact .refl _

/-! ## The transmit selector -/

/-- R71, R72: whose offer a choice takes. -/
theorem chooseBurst_source {s : State} {c : Choice} (h : s.chooseBurst = some c) :
    s.chooseRefuse = some c ∨ c = s.chooseReport ∨ c = s.chooseHail ∨ s.chooseResend = some c ∨ s.chooseOwnSeg = some c
      ∨ s.chooseAsk = some c := by
  have byLine (h : s.chooseByLine = some c) : s.chooseRefuse = some c ∨ c = s.chooseReport ∨ c = s.chooseHail
      ∨ s.chooseResend = some c ∨ s.chooseOwnSeg = some c ∨ s.chooseAsk = some c := by
    have of_line {line : Bool} {x : Choice} (h : (if line then some x else none) = some c) : c = x :=
      (Option.some.inj (Option.ite_none_right_eq_some.mp h).2).symm
    rcases orElse_cases h with h | line7
    · rcases orElse_cases h with h | ask
      · rcases orElse_cases h with h | ownSeg
        · rcases orElse_cases h with h | resend
          · rcases orElse_cases h with h | line3
            · rcases orElse_cases h with refusal | line2
              · exact .inl refusal
              · exact .inr (.inl (of_line line2))
            · exact .inr (.inr (.inl (of_line line3)))
          · exact .inr (.inr (.inr (.inl resend)))
        · exact .inr (.inr (.inr (.inr (.inl ownSeg))))
      · exact .inr (.inr (.inr (.inr (.inr ask))))
    · exact .inr (.inl (of_line line7))
  unfold chooseBurst at h
  split at h
  · exact (orElse_cases h).elim (fun k => .inr (.inr (.inr (.inr (.inl k))))) byLine
  · exact byLine h

/-! ## Submit entries -/

end State

theorem Su.seqs_setPlace {su : Su} {i : Nat} {x : SubmitEntry} (h : x.pendingSeq = (place su.entries .free i).pendingSeq) :
    Su.seqs { entries := setPlace su.entries i x } = su.seqs := by
  refine List.ext_getElem? fun j => ?_
  have at_place (v : Su) (hj : j < 8) : v.seqs[j]? = some (place v.entries .free j).pendingSeq := by
    rw [Su.seqs, List.getElem?_map, Vector.getElem?_toList, place, Vector.getElem?_eq_getElem hj]
    rfl
  by_cases hj : j < 8
  · rw [at_place _ hj, at_place _ hj, place_setPlace]
    split
    · rename_i same
      rw [h, same.1]
    · rfl
  · have outside (v : Su) : v.seqs[j]? = none := by
      rw [Su.seqs, List.getElem?_map, Vector.getElem?_toList, Vector.getElem?_eq_none (Nat.not_lt.mp hj)]
      rfl
    rw [outside, outside]

theorem Su.seqs_segmentChosen (su : Su) (i : Nat) : (su.segmentChosen i).seqs = su.seqs := by
  unfold Su.segmentChosen
  split
  · rename_i h
    exact Su.seqs_setPlace (by rw [h]; rfl)
  · rfl

theorem toList_mapPlaces {α : Type} {n : Nat} (v : Vector α n) (f : α → α) : (mapPlaces v f).toList = v.toList.map f := rfl

theorem place_mapPlaces {α : Type} {n : Nat} (v : Vector α n) (f : α → α) {d : α} (h : f d = d) (i : Nat) :
    place (mapPlaces v f) d i = f (place v d i) := by
  have at_place : (mapPlaces v f)[i]? = v[i]?.map f := by
    rw [← Vector.getElem?_toList, toList_mapPlaces, List.getElem?_map, Vector.getElem?_toList]
  rw [place, at_place, place]
  cases v[i]? with
  | none => exact h.symm
  | some x => rfl

theorem Su.seqs_release (su : Su) (n : Nat) : (su.release n).seqs = su.seqs := by
  rw [Su.seqs, Su.release, toList_mapPlaces, List.map_map, Su.seqs]
  refine List.map_congr_left fun e _ => ?_
  cases e with
  | sending r count next =>
    show SubmitEntry.pendingSeq (if r.seq = n then .free else .sending r count next) = none
    split <;> rfl
  | _ => rfl

theorem Untouched.setSu (s : State) {x : Su} (h : x.seqs = s.su.seqs) : Untouched s (s.setSu x) :=
  { Untouched.refl s with seqs := h }

namespace State

theorem chooseBurst_awaited {s : State} {c : Choice} (h : s.chooseBurst = some c) : KeepsAwaited s c.2 := by
  refine .of_untouched (chooseBurst_keeps h) ?_
  rcases chooseBurst_source h with h | rfl | rfl | h | h | h
  · obtain ⟨⟨a, o, n, r⟩, _, rfl⟩ := Option.map_eq_some_iff.mp h
    exact (refusalChosen_serves s r).untouched
  · exact .of_eq rfl rfl rfl rfl rfl rfl rfl rfl
  · exact .of_eq rfl rfl rfl rfl rfl rfl rfl rfl
  · obtain ⟨r, _, rfl⟩ := Option.map_eq_some_iff.mp h
    exact (resendChosen_serves s r).untouched
  · obtain ⟨⟨i, r, next⟩, _, rfl⟩ := Option.map_eq_some_iff.mp h
    exact .setSu s (Su.seqs_segmentChosen ..)
  · obtain ⟨⟨i, a, p⟩, _, rfl⟩ := Option.map_eq_some_iff.mp h
    exact setRp_untouched ..

/-! ## Slots -/

/-- R124: a slot takes a peer's record that is not settled, or is freed. -/
theorem putSlot_pathHolds {s : State} {i : Nat} {x : Slot} {ahead : List Nat} (w : PathHolds ahead s)
    (h : ∀ d, x.data = some d → d.origin ≠ s.own ∧ (s.entry d.origin).settled d.seq = false) : PathHolds ahead (s.putSlot i x) := by
  have slot {j : Nat} {d : SlotData} (data : (place (setPlace s.ra.slots i x) .free j).data = some d) :
      x.data = some d ∨ (place s.ra.slots .free j).data = some d := by
    rw [place_setPlace] at data
    split at data
    · exact .inl data
    · exact .inr data
  exact { w with
    peers := fun o n peer a => by
      rcases a with ⟨j, d, data, rfl, rfl⟩ | listed
      · rcases slot data with new | old
        · exact (h d new).2
        · exact w.peers _ _ peer (.inl ⟨j, d, old, rfl, rfl⟩)
      · exact w.peers o n peer (.inr listed)
    slots := fun j d data => (slot data).elim (fun new => (h d new).1) (w.slots j d) }

theorem queueSlot_pathHolds {s : State} {i : Nat} {ahead : List Nat} (w : PathHolds ahead s) :
    PathHolds ahead (s.setCe { s.ce with queue := s.ce.queue ++ [.slot i] }) :=
  { w with
    path := by
      refine Eq.trans ?_ w.path
      rw [ownPath_eq, ownPath_eq s]
      show _ ++ (_ ++ (s.ce.queue ++ [Ref.slot i]).filterMap (Ref.ownSeq s.su)) = _
      rw [List.filterMap_append, show List.filterMap (Ref.ownSeq s.su) [Ref.slot i] = [] from rfl, List.append_nil]
      rfl
    refs := fun j mem => by
      rcases List.mem_append.mp mem with mem | mem
      · exact w.refs j mem
      · cases List.mem_singleton.mp mem }

theorem tellRp_awaited (s : State) : KeepsAwaited s s.tellRp := .of_untouched (tellRp_keeps s) (setRp_untouched ..)
theorem bump_awaited (s : State) (k : Counter) : KeepsAwaited s (s.bump k) := .of_untouched (bump_keeps s k) (bump_untouched ..)

section
variable {s : State} {ahead : List Nat} (durable : DurableOk s) (w : PathHolds ahead s)
include durable w

theorem enqueueSlot_pathHolds (i : Nat) : PathHolds ahead (s.enqueueSlot i) := by
  unfold enqueueSlot
  split
  · exact (runCommit_awaited _).holds ((Keeps.setCe s _).durableOk durable) ahead (queueSlot_pathHolds w)
  · have joins : Untouched s (s.setRa { s.ra with waitList := s.ra.waitList ++ [i] }) := { Untouched.refl s with }
    exact joins.pathHolds w

theorem storeSegment_pathHolds {i : Nat} {d : SlotData} {g : Segment} (peer : d.origin ≠ s.own)
    (unsettled : (s.entry d.origin).settled d.seq = false) : PathHolds ahead (s.storeSegment i d g) := by
  have taken {x : Slot} (h : ∀ e, x.data = some e → e.origin = d.origin ∧ e.seq = d.seq) : PathHolds ahead (s.putSlot i x) :=
    putSlot_pathHolds w fun e he => by
      obtain ⟨ho, hn⟩ := h e he
      rw [ho, hn]
      exact ⟨peer, unsettled⟩
  unfold storeSegment
  dsimp only
  split
  · unfold finishSlot
    split
    · exact enqueueSlot_pathHolds ((putSlot_keeps s _ _).durableOk durable) (taken fun e he => by cases he; exact ⟨rfl, rfl⟩) i
    · have freed : PathHolds ahead (s.putSlot i .free) := taken fun e he => by cases he
      exact ((bump_untouched _ _).trans (setRp_untouched _ _)).pathHolds freed
  · exact taken fun e he => by cases he; exact ⟨rfl, rfl⟩

theorem matchSegment_pathHolds (g : Segment) : PathHolds ahead (s.matchSegment g) := by
  have counted (k : Counter) : PathHolds ahead (s.bump k) := (bump_untouched s k).pathHolds w
  unfold matchSegment
  split
  · rename_i i _
    split
    · rename_i d data
      split
      · exact counted _
      · split
        · exact w
        · have peer := w.slots i d data
          exact storeSegment_pathHolds durable w peer (w.peers _ _ peer (.inl ⟨i, d, data, rfl, rfl⟩))
    · exact w
  · split
    · rename_i accepted
      obtain ⟨peer, -, -, unsettled, -⟩ := acceptance_none accepted
      unfold allocateSlot
      split
      · exact counted _
      · exact storeSegment_pathHolds ((tellRp_keeps s).durableOk durable) ((tellRp_awaited s).holds durable ahead w) peer unsettled
    · exact counted _
    · exact counted _
    · exact counted _
    · exact w
    · exact w

end

theorem matchSegment_awaited (s : State) (g : Segment) : KeepsAwaited s (s.matchSegment g) :=
  ⟨matchSegment_keeps s g, fun durable _ w => matchSegment_pathHolds durable w g⟩

theorem takeSegment_awaited (s : State) (body : List Byte) : KeepsAwaited s (s.takeSegment body) := by
  unfold takeSegment
  dsimp only
  split
  · exact settleAll_awaited s
  · split
    · exact (bump_awaited ..).trans (settleAll_awaited _)
    · have taken := (matchSegment_awaited s (segmentOf body)).trans (settleAll_awaited _)
      split
      · exact taken.trans (.of_untouched (resendHeard_keeps ..) (resendHeard_serves ..).untouched)
      · exact taken

theorem slotExpires_awaited (s : State) (i : Nat) : KeepsAwaited s (s.slotExpires i) := by
  refine ⟨slotExpires_keeps s i, fun _ ahead w => ?_⟩
  unfold slotExpires
  split
  · have freed : PathHolds ahead (s.putSlot i .free) := putSlot_pathHolds w fun d hd => by cases hd
    exact ((bump_untouched _ _).trans (setRp_untouched _ _)).pathHolds freed
  · exact w

end State

end Sys2Proof.Machine

/-! The commit path when a SUBMIT is accepted and when own records are committed (R107, R109, R112). -/

namespace Sys2Proof.Machine

open Sys2Proof.Safety

theorem firstPlace_eq_some_iff {α : Type} {n : Nat} {v : Vector α n} {p : α → Bool} (d : α) {i : Nat} :
    firstPlace v p = some i ↔ i < n ∧ p (place v d i) = true ∧ ∀ j, j < i → p (place v d j) = false := by
  have place_eq {i : Nat} (hi : i < n) : place v d i = v[i] := by simp [place, hi]
  rw [firstPlace, List.findIdx?_eq_some_iff_getElem]
  constructor
  · rintro ⟨hi, hp, before⟩
    rw [Vector.length_toList] at hi
    refine ⟨hi, by rw [place_eq hi]; exact hp, fun j hj => ?_⟩
    rw [place_eq (Nat.lt_trans hj hi)]
    exact Bool.eq_false_iff.mpr (before j hj)
  · rintro ⟨hi, hp, before⟩
    refine ⟨by rw [Vector.length_toList]; exact hi, ?_, fun j hj => ?_⟩
    · rw [place_eq hi] at hp
      exact hp
    · have free := before j hj
      rw [place_eq (Nat.lt_trans hj hi)] at free
      exact Bool.eq_false_iff.mp free

/-- A value joins what a list makes, where the place taken made nothing. -/
theorem filterMap_set_perm {α β : Type} {f : α → Option β} {x : α} {v : β} (made : f x = some v) :
    {l : List α} → {i : Nat} → (hi : i < l.length) → f l[i] = none → ((l.set i x).filterMap f).Perm (v :: l.filterMap f)
  | a :: l, 0, _, free => by
    rw [List.set_cons_zero, List.filterMap_cons_some made, List.filterMap_cons_none (a := a) free]
  | a :: l, i + 1, hi, free => by
    have rest := filterMap_set_perm made (l := l) (Nat.lt_of_succ_lt_succ hi) free
    rw [List.set_cons_succ]
    cases h : f a with
    | none =>
      rw [List.filterMap_cons_none h, List.filterMap_cons_none h]
      exact rest
    | some b =>
      rw [List.filterMap_cons_some h, List.filterMap_cons_some h]
      exact (rest.cons b).trans (.swap v b _)

/-- R107: an entry that made nothing pending takes a QUEUED record. -/
theorem Su.pendingSeqs_setPlace {su : Su} {i : Nat} (hi : i < 8) (free : (place su.entries .free i).pendingSeq = none)
    (r : OwnRecord) : ((setPlace su.entries i (.queued r)).toList.filterMap SubmitEntry.pendingSeq).Perm
      (r.seq :: su.entries.toList.filterMap SubmitEntry.pendingSeq) := by
  have hl : i < su.entries.toList.length := by rwa [Vector.length_toList]
  have item : su.entries.toList[i].pendingSeq = none := by
    rw [← free, place, Vector.getElem?_eq_getElem hi]
    rfl
  have list : (setPlace su.entries i (.queued r)).toList = su.entries.toList.set i (.queued r) := Vector.toList_setIfInBounds
  rw [list]
  exact filterMap_set_perm (f := SubmitEntry.pendingSeq) rfl hl item

namespace State

section
variable {s : State} {ahead : List Nat} {i : Nat}

/-- R109: the next own number joins the path with its reference. -/
theorem queueEntry_pathHolds (w : PathHolds ahead s) (active : s.station = some .active) (hi : i < 8)
    (free : place s.su.entries .free i = .free) {r : OwnRecord} (hr : r.seq = s.ownTop + s.su.queued + 1) :
    PathHolds ahead ((s.setSu { entries := setPlace s.su.entries i (.queued r) }).setCe
      { s.ce with queue := s.ce.queue ++ [.entry i] }) := by
  have seqs := Su.pendingSeqs_setPlace hi (by rw [free]; rfl) r
  have queued : Su.queued { entries := setPlace s.su.entries i (.queued r) } = s.su.queued + 1 := by
    rw [← Su.length_pendingSeqs, ← Su.length_pendingSeqs]
    exact seqs.length_eq
  have numbers : upFrom (s.ownTop + 1) (s.su.queued + 1) = upFrom (s.ownTop + 1) s.su.queued ++ [r.seq] := by
    rw [upFrom_append, hr]
    congr 2
    omega
  have entry (j : Nat) : place (setPlace s.su.entries i (.queued r)) .free j = if i = j then .queued r else place s.su.entries .free j := by
    rw [place_setPlace]
    simp only [hi, and_true]
  have other {j : Nat} (mem : .entry j ∈ s.ce.queue) : i ≠ j := by
    rintro rfl
    have pending := w.refs i mem
    rw [free] at pending
    cases pending
  exact {
    peers := w.peers
    path := by
      show ahead ++ _ = upFrom (s.ownTop + 1) (Su.queued { entries := setPlace s.su.entries i (.queued r) })
      rw [queued, numbers, ← w.path, ownPath_eq, ownPath_eq s, List.append_assoc ahead _ [r.seq], List.append_assoc _ _ [r.seq]]
      refine congrArg (fun l => ahead ++ (listedOf s.own s.fc.imageList ++ listedOf s.own s.fc.fill.list ++ l)) ?_
      show (s.ce.queue ++ [Ref.entry i]).filterMap (Ref.ownSeq { entries := setPlace s.su.entries i (.queued r) }) = _
      rw [List.filterMap_append]
      have last : [Ref.entry i].filterMap (Ref.ownSeq { entries := setPlace s.su.entries i (.queued r) }) = [r.seq] := by
        have : Ref.ownSeq { entries := setPlace s.su.entries i (.queued r) } (.entry i) = some r.seq := by
          show (place (setPlace s.su.entries i (.queued r)) .free i).pendingSeq = _
          rw [entry, if_pos rfl]
          rfl
        rw [List.filterMap_cons, this]
        rfl
      have before : s.ce.queue.filterMap (Ref.ownSeq { entries := setPlace s.su.entries i (.queued r) })
          = s.ce.queue.filterMap (Ref.ownSeq s.su) := by
        refine filterMap_eq_of_mem fun ref mem => ?_
        cases ref with
        | slot j => rfl
        | entry j =>
          show (place (setPlace s.su.entries i (.queued r)) .free j).pendingSeq = (place s.su.entries .free j).pendingSeq
          rw [entry, if_neg (other mem)]
      rw [last, before]
    seqs := by
      show List.Perm _ (upFrom (s.ownTop + 1) (Su.queued { entries := setPlace s.su.entries i (.queued r) }))
      rw [queued, numbers]
      exact (seqs.trans (w.seqs.cons _)).trans (List.perm_append_singleton _ _).symm
    refs := fun j mem => by
      show (place (setPlace s.su.entries i (.queued r)) .free j).pendingSeq.isSome
      rw [entry]
      rcases List.mem_append.mp mem with mem | mem
      · rw [if_neg (other mem)]
        exact w.refs j mem
      · cases List.mem_singleton.mp mem
        rw [if_pos rfl]
        rfl
    slots := w.slots
    transfer := w.transfer
    active := fun idle => absurd active idle
    number := w.number }

theorem acceptSubmit_awaited {s : State} {i : Nat} {payload : List Byte} {length : Nat} (accepted : s.submitRefusal length = none)
    (first : firstPlace s.su.entries (· == .free) = some i) : KeepsAwaited s (s.acceptSubmit i payload) := by
  have active : s.station = some .active := by
    refine Classical.byContradiction fun idle => ?_
    rw [submitRefusal_of_not_active idle] at accepted
    cases accepted
  obtain ⟨hi, free, -⟩ := (firstPlace_eq_some_iff SubmitEntry.free).mp first
  have joins := fun ahead (w : PathHolds ahead s) => queueEntry_pathHolds w active hi (beq_iff_eq.mp free)
    (r := { seq := s.nextNumber, check := crc32 payload, payload := payload }) rfl
  exact (KeepsAwaited.trans ⟨(Keeps.setSu s _).trans (Keeps.setCe _ _), fun _ => joins⟩ (runCommit_awaited _)).trans
    (settleAll_awaited _)

end

end State

theorem KeepsAwaited.running : Running KeepsAwaited where
  refl := .refl
  trans := .trans
  bump := State.bump_awaited
  notify s n := .of_untouched (State.notify_keeps s n) (State.notify_untouched s n)
  tellRp := State.tellRp_awaited
  settleAll := State.settleAll_awaited
  settleRepair := State.settleRepair_awaited
  takeSegment := State.takeSegment_awaited
  takeAsk s p o body := .of_untouched (State.takeAsk_keeps ..) (State.takeAsk_serves ..).untouched
  takeRefuse s p o body := by
    refine .of_untouched (State.takeRefuse_keeps ..) ?_
    obtain ⟨u, counted, repairs⟩ := State.takeRefuse_repairs s p o body
    have first : Untouched s u := by
      rcases counted with rfl | rfl | rfl
      · exact .refl _
      · exact State.bump_untouched ..
      · exact State.bump_untouched ..
    exact first.trans repairs.untouched
  chooseBurst := State.chooseBurst_awaited
  askSent s o p := .of_untouched (State.askSent_keeps ..) (State.askSent_serves ..).untouched
  slotExpires := State.slotExpires_awaited
  askExpires s i := by
    refine .of_untouched (State.askExpires_keeps s i) ?_
    rcases State.askExpires_repairs s i with repairs | same
    · exact (State.bump_untouched ..).trans repairs.untouched
    · rw [same]
      exact .refl s
  flush s := (State.closeFill_awaited s).trans (State.claimIfNeeded_awaited _)
  acceptSubmit _ _ _ _ accepted first := State.acceptSubmit_awaited accepted first
  startLookup s who o n := .of_untouched (State.startLookup_keeps ..) (State.choose_looks ..).untouched
  reportTimers s x hx := .of_untouched (Keeps.running.reportTimers s x hx) (by rw [hx]; exact .of_eq rfl rfl rfl rfl rfl rfl rfl rfl)
  release s n := .of_untouched (Keeps.setSu ..) (.setSu s (Su.seqs_release ..))
  drain s m := .of_untouched (Keeps.running.drain s m) (State.setNu_untouched ..)
  delayExpired s := .of_untouched (Keeps.running.delayExpired s) (State.setNu_untouched ..)

end Sys2Proof.Machine

/-! PendingOk over every command (R81, R86, R87, R107): the commits of a program pass take the own numbers ahead of the path one by
one. -/

namespace Sys2Proof.Machine

open Sys2Proof.Safety

namespace State

/-! ## An entry changed, D evaluated, a report taken -/

theorem evaluateDurable_untouched (s : State) : Untouched s s.evaluateDurable := by
  rw [evaluateDurable_same]
  exact .of_eq rfl rfl rfl rfl rfl rfl rfl rfl

theorem putEntry_untouched {s : State} {o : Nat} {e : Entry} (top : s.su.queued ≠ 0 → o = s.own → e.top = s.ownTop)
    (settled : o ≠ s.own → ∀ n, e.settled n = true → (s.entry o).settled n = true ∨ ¬ s.awaits o n) :
    Untouched s (s.putEntry o e) := by
  have entry := entry_putEntry s o e
  have ownTop := ownTop_putEntry s o e
  have path := putEntry_keepsPath s o e
  have op : (s.putEntry o e).fc.op = s.fc.op := by rw [putEntry_same]
  exact {
    sc := by rw [putEntry_same]
    seqs := by rw [path.su]
    slots := by rw [path.ra]
    queue := by rw [path.ce]
    fill := by rw [path.fill]
    image := by rw [Fc.imageList, path.array]; rfl
    transfer := by rw [op, path.array]; exact id
    ownTop := fun q => by
      rw [ownTop]
      split
      · rename_i mine
        exact top q mine.1
      · rfl
    settled := fun p n peer h => by
      rw [entry] at h
      split at h
      · rename_i same
        rw [← same.1] at peer ⊢
        exact settled peer n h
      · exact .inl h }

theorem commitPeer_untouched {s : State} {o n : Nat} (peer : o ≠ s.own) : Untouched s (s.commitPeer o n) := by
  unfold commitPeer
  split
  · rename_i accepted
    obtain ⟨-, -, -, -, free⟩ := acceptance_none accepted
    have put : Untouched s (s.putEntry o ((s.entry o).settle n n)) := putEntry_untouched (fun _ own => absurd own peer)
      fun _ k h => (Entry.settled_of_settle h).imp_right fun inside a => by
        have same : k = n := by omega
        rw [isPending, ← Bool.not_eq_true, List.contains_iff_mem, ← same, mem_pendingOf_peer peer] at free
        exact free a
    dsimp only
    split
    · exact put.trans (notify_untouched ..)
    · exact put
  · exact (bump_untouched ..).trans (setRp_untouched ..)

/-- R93 to R96: in ACTIVE a report leaves the own entry; in any other state no own number is on the path. -/
theorem takeReport_pathHolds {s : State} {ahead : List Nat} (w : PathHolds ahead s) (isHail : Bool) (p : Nat) (body : List Byte) :
    PathHolds ahead (s.takeReport isHail p body) := by
  have told (t : State) : Untouched t (if isHail then t.setReportPending else t).tellRp.evaluateDurable := by
    refine Untouched.trans ?_ ((setRp_untouched _ _).trans (evaluateDurable_untouched _))
    split
    · exact .of_eq rfl rfl rfl rfl rfl rfl rfl rfl
    · exact .refl t
  have row (t : State) (pairs : List Pair) : Untouched t (t.putRow p pairs) := .of_eq rfl rfl rfl rfl rfl rfl rfl rfl
  have noted (r : Pair) : Untouched s (s.noteConflict p r) := by
    unfold noteConflict
    split
    · have flagged : Untouched s (s.setHu { s.hu with conflictNoted := s.hu.conflictNoted ++ [p] }) :=
        .of_eq rfl rfl rfl rfl rfl rfl rfl rfl
      exact flagged.trans (notify_untouched ..)
    · exact .refl s
  have adopted (idle : s.station ≠ some .active) (r : Pair) : Untouched s (s.adopt r) := by
    unfold adopt
    split
    · exact putEntry_untouched (fun q => absurd (w.active idle) q) fun peer => absurd rfl peer
    · exact .refl s
  unfold takeReport
  dsimp only
  split
  · by_cases active : (s.station == some .active) = true
    · rw [if_pos active]
      exact (((noted _).trans (row _ _)).trans (told _)).pathHolds w
    · rw [if_neg active]
      exact (((adopted (by rwa [beq_iff_eq] at active) _).trans (row _ _)).trans (told _)).pathHolds w
  · exact (bump_untouched ..).pathHolds w

end State

theorem Moves.mono {K K' : State → State → Prop} (h : ∀ {s t}, K s t → K' s t) {s t : State} (m : Moves K s t) : Moves K' s t := by
  induction m with
  | op k => exact .op (h k)
  | line s x => exact .line s x
  | port s x => exact .port s x
  | presence s p x timer => exact .presence s p x timer
  | report s isHail p body => exact .report s isHail p body
  | trans _ _ h k => exact h.trans k

theorem Moves.pathHolds {s t : State} (h : Moves KeepsAwaited s t) {ahead : List Nat} (settings : SettingsOk s) (durable : DurableOk s)
    (w : PathHolds ahead s) : PathHolds ahead t := by
  induction h with
  | op k => exact k.holds durable ahead w
  | line s x => exact (State.setLc_untouched s x).pathHolds w
  | port s x => exact (State.setAp_untouched s x).pathHolds w
  | presence s p x timer =>
    have set : Untouched s (s.setPresence p x timer) := .of_eq rfl rfl rfl rfl rfl rfl rfl rfl
    exact set.pathHolds w
  | report s isHail p body => exact State.takeReport_pathHolds w isHail p body
  | trans before after first second =>
    have plain := Moves.mono KeepsAwaited.keeps before
    exact second (plain.settingsOk settings) (plain.durableOk settings durable) (first settings durable w)

/-! ## Commits of own records (R87, R112) -/

theorem SubmitEntry.pendingSeq_committed (n : Nat) (e : SubmitEntry) :
    (e.committed n true).pendingSeq = e.pendingSeq.filter (· != n) := by
  cases e with
  | free => rfl
  | sending r count next => rfl
  | queued r =>
    show (if r.seq = n then SubmitEntry.sending r (segmentCount r.payload.length) 0 else .queued r).pendingSeq = _
    by_cases h : r.seq = n
    · simp [h, SubmitEntry.pendingSeq, Option.filter_some]
    · simp [h, SubmitEntry.pendingSeq, Option.filter_some]

theorem Su.pendingSeqs_committed (su : Su) (n : Nat) :
    (mapPlaces su.entries (SubmitEntry.committed n true)).toList.filterMap SubmitEntry.pendingSeq
      = (su.entries.toList.filterMap SubmitEntry.pendingSeq).filter (· != n) := by
  rw [toList_mapPlaces, List.filterMap_map, List.filter_filterMap]
  exact filterMap_eq_of_mem fun e _ => SubmitEntry.pendingSeq_committed n e

theorem listedOf_cons (o : Nat) (e : ListEntry) (l : List ListEntry) :
    listedOf o (e :: l) = if e.origin = o then e.seq :: listedOf o l else listedOf o l := by
  by_cases h : e.origin = o
  · simp [listedOf, h]
  · simp [listedOf, h]

theorem upFrom_filter_ne (a n : Nat) : (upFrom a (n + 1)).filter (· != a) = upFrom (a + 1) n := by
  rw [upFrom_succ, List.filter_cons, if_neg (by simp), List.filter_eq_self]
  intro m mem
  rw [mem_upFrom] at mem
  exact bne_iff_ne.mpr (by omega)

section
variable {s u : State} {ahead : List Nat} (w : PathHolds ((s.ownTop + 1) :: ahead) s)
include w

/-- What stays of the path once its first number has been taken off. -/
theorem PathHolds.rest : ∃ q, s.su.queued = q + 1 ∧ ahead ++ ownPath s = upFrom (s.ownTop + 1 + 1) q := by
  have path := w.path
  obtain ⟨q, hq⟩ : ∃ q, s.su.queued = q + 1 := by
    refine Nat.exists_eq_succ_of_ne_zero fun none => ?_
    rw [none] at path
    cases path
  rw [hq, upFrom_succ, List.cons_append, List.cons.injEq] at path
  exact ⟨q, hq, path.2⟩

/-- A reference of the queue names a later number. -/
theorem PathHolds.pendingSeq_committed {i : Nat} (mem : .entry i ∈ s.ce.queue) :
    (place (mapPlaces s.su.entries (SubmitEntry.committed (s.ownTop + 1) true)) .free i).pendingSeq
      = (place s.su.entries .free i).pendingSeq := by
  obtain ⟨m, hm⟩ := Option.isSome_iff_exists.mp (w.refs i mem)
  obtain ⟨q, -, rest⟩ := w.rest
  have onPath : m ∈ ahead ++ ownPath s := by
    rw [ownPath_eq]
    exact List.mem_append_right _ (List.mem_append_right _ (List.mem_filterMap.mpr ⟨_, mem, hm⟩))
  rw [rest, mem_upFrom] at onPath
  rw [place_mapPlaces _ _ rfl, SubmitEntry.pendingSeq_committed, hm, Option.filter_some, if_pos (bne_iff_ne.mpr (by omega))]

/-- R87, R112: T_own has taken the first own number ahead of the path, and its entry becomes SENDING. -/
theorem PathHolds.commit (kept : KeepsPath s u) (sc : u.sc = s.sc) (op : u.fc.op = s.fc.op) (top : u.ownTop = s.ownTop + 1)
    (peers : ∀ o, o ≠ s.own → u.entry o = s.entry o) :
    PathHolds ahead (u.setSu { u.su with entries := mapPlaces u.su.entries (SubmitEntry.committed (s.ownTop + 1) true) }) := by
  obtain ⟨q, hq, rest⟩ := w.rest
  have own : u.own = s.own := congrArg Sc.number sc
  have image : u.fc.imageList = s.fc.imageList := by rw [Fc.imageList, kept.array]; rfl
  have station : u.station = s.station := congrArg (fun x : Sc => match x.phase with
    | .held _ => none
    | .running st _ => some st) sc
  have seqs : ((mapPlaces s.su.entries (SubmitEntry.committed (s.ownTop + 1) true)).toList.filterMap SubmitEntry.pendingSeq).Perm
      (upFrom (s.ownTop + 1 + 1) q) := by
    rw [Su.pendingSeqs_committed, ← upFrom_filter_ne, ← hq]
    exact w.seqs.filter _
  have queued : Su.queued { entries := mapPlaces s.su.entries (SubmitEntry.committed (s.ownTop + 1) true) } = q := by
    rw [← Su.length_pendingSeqs, seqs.length_eq, upFrom, List.length_map, List.length_range]
  have active : s.station = some .active := by
    refine Classical.byContradiction fun idle => ?_
    rw [w.active idle] at hq
    cases hq
  rw [kept.su]
  exact {
    peers := fun o m peer a => by
      rw [State.setSu_own, own] at peer
      rw [State.setSu_entry, peers o peer]
      refine w.peers o m peer ?_
      have a : u.awaits o m := a
      rwa [State.awaits, kept.ra, kept.fill, image] at a
    path := by
      rw [State.setSu_ownTop, State.setSu_su, queued, top, ← rest, ownPath_eq, ownPath_eq s, State.setSu_own, State.setSu_fc,
        State.setSu_ce, State.setSu_su, own, image, kept.fill, kept.ce]
      refine congrArg (fun l => ahead ++ (_ ++ l)) (filterMap_eq_of_mem fun ref mem => ?_)
      cases ref with
      | slot i => rfl
      | entry i => exact w.pendingSeq_committed mem
    seqs := by
      rw [State.setSu_ownTop, State.setSu_su, queued, top]
      exact seqs
    refs := fun i mem => by
      rw [State.setSu_ce, kept.ce] at mem
      rw [State.setSu_su, w.pendingSeq_committed mem]
      exact w.refs i mem
    slots := fun i d data => by
      rw [State.setSu_ra, kept.ra] at data
      rw [State.setSu_own, own]
      exact w.slots i d data
    transfer := by
      rw [State.setSu_fc, op, kept.array]
      exact w.transfer
    active := fun idle => absurd (station.trans active) idle
    number := fun _ _ _ => by
      rw [State.setSu_own, own]
      exact w.number .active active (by decide) }

end

namespace State

/-- R87, R112: the first own number ahead of the path is committed. -/
theorem commitOwn_pathHolds {s : State} {n : Nat} {ahead : List Nat} (w : PathHolds (n :: ahead) s) :
    PathHolds ahead (s.commitOwn n) := by
  obtain ⟨next, number⟩ : n = s.ownTop + 1 ∧ 1 ≤ s.own ∧ s.own ≤ 24 := by
    have path := w.path
    cases hq : s.su.queued with
    | zero =>
      rw [hq] at path
      cases path
    | succ q =>
      rw [hq, upFrom_succ, List.cons_append, List.cons.injEq] at path
      refine ⟨path.1, w.number .active ?_ (by decide)⟩
      refine Classical.byContradiction fun idle => ?_
      rw [w.active idle] at hq
      cases hq
  subst next
  have entry : (s.entry s.own).commitOwn (s.ownTop + 1) = some { s.entry s.own with top := s.ownTop + 1 } := by
    rw [Entry.commitOwn, entry_own_top, if_neg (by omega), if_pos rfl]
  unfold commitOwn
  rw [entry]
  refine w.commit (putEntry_keepsPath ..) ?_ ?_ ?_ fun o peer => ?_
  · rw [putEntry_same]
  · rw [putEntry_same]
  · rw [ownTop_putEntry, if_pos ⟨rfl, number⟩]
  · rw [entry_putEntry, if_neg fun h => peer h.1.symm]

theorem commitRecord_pathHolds {s : State} {e : ListEntry} {l : List ListEntry} (w : PathHolds (listedOf s.own (e :: l)) s) :
    PathHolds (listedOf s.own l) (s.commitRecord e) := by
  rw [listedOf_cons] at w
  unfold commitRecord
  split
  · rename_i mine
    rw [if_pos (beq_iff_eq.mp mine)] at w
    exact commitOwn_pathHolds w
  · rename_i peer
    rw [beq_iff_eq] at peer
    rw [if_neg peer] at w
    exact (commitPeer_untouched peer).pathHolds w

theorem commitRecords_pathHolds : (l : List ListEntry) → {s : State} → PathHolds (listedOf s.own l) s →
    PathHolds [] (l.foldl commitRecord s)
  | [], _, w => w
  | e :: l, s, w => commitRecords_pathHolds l (by
      rw [(commitRecord_keeps s e).own]
      exact commitRecord_pathHolds w)

/-! ## Completions -/

theorem completion_pathHolds {s : State} {ahead left : List Nat} {f : State → State} (keeps : ∀ t, Keeps t (f t))
    (commits : ∀ t, t.own = s.own → DurableOk t → PathHolds ahead t → PathHolds left (f t)) (durable : DurableOk s)
    (w : PathHolds ahead s) : PathHolds left (s.completion f) := by
  have drawn := (drawn_untouched s).pathHolds w
  have durable : DurableOk s.drawn := durable
  unfold completion
  split
  · exact (grant_awaited _).holds ((keeps _).durableOk durable) left (commits s.drawn rfl durable drawn)
  · have granted := (grant_awaited s.drawn).keeps
    refine (grant_awaited _).holds ((keeps _).durableOk (granted.durableOk durable)) left ?_
    exact commits _ granted.own (granted.durableOk durable) ((grant_awaited s.drawn).holds durable ahead drawn)

theorem fcProgramPasses_opEnds (s : State) (c : ProgramClaim) : OpEnds s (s.fcProgramPasses c) :=
  .setFc s rfl fun h => Memory.wf_programPage h ..

theorem fcProgramPasses_pathHolds {s : State} (c : ProgramClaim) (w : PathHolds [] s) :
    PathHolds (listedOf s.own s.fc.imageList) (s.fcProgramPasses c) := by
  have path := w.path
  rw [ownPath_eq, List.nil_append, List.append_assoc] at path
  exact { w with
    peers := fun o n peer a => w.peers o n peer (a.imp_right (.imp_right fun mem => by cases mem))
    path := by
      refine Eq.trans ?_ path
      rw [ownPath_eq]
      rfl
    transfer := fun _ h => by cases h }

theorem programEndsPass_pathHolds {s : State} (c : ProgramClaim) (durable : DurableOk s) (w : PathHolds [] s) :
    PathHolds [] (s.programEndsPass c) := by
  have ended := (fcProgramPasses_opEnds s c).durableOk durable
  have effect (t : State) : Keeps t (((t.programPassed c.target s.fc.imageList).runCommit).evaluateReclaim) :=
    ((programPassed_keeps ..).trans (runCommit_keeps _)).trans (evaluateReclaim_keeps _)
  unfold programEndsPass
  dsimp only
  refine (settleRepair_awaited _).holds ((completion_keeps _ _ effect).durableOk ended) [] ?_
  refine completion_pathHolds effect (fun t own durable w => ?_) ended (fcProgramPasses_pathHolds c w)
  have passed : Untouched t (t.smProgramPassed c.target s.fc.imageList) := (putBlock_untouched ..).trans (setSm_untouched ..)
  have commits : PathHolds [] (t.programPassed c.target s.fc.imageList) := commitRecords_pathHolds _ (by
    rw [passed.own, own]
    exact passed.pathHolds w)
  exact ((runCommit_awaited _).trans (evaluateReclaim_awaited _)).holds ((programPassed_keeps ..).durableOk durable) [] commits

theorem fcTransferred_pathHolds {s : State} (image : s.fc.array.image = none) {ahead : List Nat} (w : PathHolds ahead s) :
    PathHolds ahead s.fcTransferred := by
  have empty (o : Nat) : listedOf o s.fc.imageList = [] := by
    rw [Fc.imageList, image]
    rfl
  exact { w with
    peers := fun o n peer a => w.peers o n peer (a.imp_right fun
      | .inl mem => by cases mem
      | .inr mem => .inl mem)
    path := by
      refine Eq.trans (congrArg (ahead ++ ·) ?_) w.path
      rw [ownPath_eq, ownPath_eq s, empty, List.nil_append]
      show listedOf s.own s.fc.fill.list ++ [] ++ _ = _
      rw [List.append_nil]
      rfl
    transfer := fun _ h => by cases h }

theorem fcTransferred_opEnds (s : State) : OpEnds s s.fcTransferred := .setFc s rfl id

theorem transferEnds_pathHolds {s : State} {c : ProgramClaim} (op : s.fc.op = some (.transfer c)) (durable : DurableOk s)
    (w : PathHolds [] s) : PathHolds [] (s.transferEnds c) := by
  have ends := fcTransferred_opEnds s
  have moved := fcTransferred_pathHolds (w.transfer c op) w
  unfold transferEnds
  split
  · refine ((completion_awaited _ fun t => programFailed_awaited t _).trans (settleRepair_awaited _)).holds
      ((fcProgramFails_opEnds ends).durableOk durable) [] ?_
    exact (fcProgramFails_untouched _).pathHolds moved
  · refine ((runCommit_awaited _).trans (settleAll_awaited _)).holds ?_ [] ((beginProgram_untouched _ c).pathHolds moved)
    exact (beginProgram_keeps _ c ends.op).durableOk (ends.durableOk durable)

theorem lookupEnds_untouched (s : State) (who : Requester) (l : Lookup) (r : LookupOutcome) :
    Untouched s (s.lookupEnds who l r) := by
  refine (setSm_untouched s (s.sm.setLookup who none)).trans ?_
  cases who with
  | fetch => exact setAp_untouched ..
  | serve =>
    show Untouched _ (serveEnds _ l.origin l.seq r)
    unfold serveEnds
    split
    · split <;> exact setRp_untouched ..
    · exact setRp_untouched ..
    · exact (bump_untouched ..).trans (setRp_untouched ..)

theorem lookupPage_untouched (s : State) (who : Requester) (l : Lookup) (p : PageAddr) (data spare : List Byte) :
    Untouched s (s.lookupPage who l p data spare) := by
  unfold lookupPage
  split
  · exact lookupEnds_untouched ..
  · exact (passOver_looks ..).untouched

theorem lookupGoesOn_awaited (s : State) (who : Requester) {use : Lookup → State → State} (h : ∀ l, KeepsAwaited s (use l s)) :
    KeepsAwaited s (s.lookupGoesOn who use) := by
  unfold lookupGoesOn
  split
  · exact .refl s
  · split
    · exact .of_untouched (choose_keeps ..) (choose_looks ..).untouched
    · exact h _
    · exact .refl s

end State

/-- A flash operation ends without a change of the path, and what follows is an operation of the blocks. -/
theorem OpEnds.pathHolds {s u t : State} (ends : OpEnds s u) (same : Untouched s u) (after : KeepsAwaited u t) (durable : DurableOk s)
    {ahead : List Nat} (w : PathHolds ahead s) : PathHolds ahead t :=
  after.holds (ends.durableOk durable) ahead (same.pathHolds w)

namespace State

theorem freed_untouched (s : State) {x : Fc} (fill : x.fill.list = s.fc.fill.list) (array : x.array.image = s.fc.array.image)
    (op : x.op = none) : Untouched s (s.setFc x) :=
  .of_op s fill array fun c h => by
    rw [op] at h
    cases h

theorem freedFails_untouched (s : State) {x : Fc} (k : Counter) (fill : x.fill.list = s.fc.fill.list)
    (array : x.array.image = s.fc.array.image) (op : x.op = none) : Untouched s (((s.setFc x).drawn).bump k) :=
  ((freed_untouched s fill array op).trans (drawn_untouched _)).trans (bump_untouched ..)

theorem fcMarkDone_untouched (s : State) (b : Nat) (v : Byte) (o : FlashOutcome) : Untouched s (s.fcMarkDone b v o) := by
  cases o with
  | pass => exact freed_untouched s rfl rfl rfl
  | fail => exact freedFails_untouched s .markFailures rfl rfl rfl

theorem fcEraseDone_untouched (s : State) (b : Nat) (o : FlashOutcome) : Untouched s (s.fcEraseDone b o) := by
  cases o with
  | pass => exact freed_untouched s rfl rfl rfl
  | fail => exact freedFails_untouched s .eraseFailures rfl rfl rfl

theorem setPressure_untouched (s : State) : Untouched s s.setPressure := by
  rw [setPressure_same]
  exact .of_eq rfl rfl rfl rfl rfl rfl rfl rfl

theorem eraseApplied_untouched (s : State) (b : Nat) : Untouched s (s.eraseApplied b) :=
  (putBlock_untouched ..).trans (setPressure_untouched _)

theorem eraseRefused_untouched (s : State) (b : Nat) : Untouched s (s.eraseRefused b) :=
  ((putBlock_untouched s b (retiredEntry .worn)).trans (Untouched.of_eq
    (t := (s.putBlock b (retiredEntry .worn)).setFc { s.fc with markClaims := s.fc.markClaims ++ [{ block := b, value := 0x3C#8 }] })
    rfl rfl rfl rfl rfl rfl rfl rfl)).trans (notify_untouched ..)

theorem eraseOutcome_awaited (s : State) (b : Nat) (o : FlashOutcome) : KeepsAwaited s (s.eraseOutcome b o) := by
  cases o with
  | pass =>
    exact ((KeepsAwaited.of_untouched (eraseApplied_keeps s b) (eraseApplied_untouched s b)).trans (runCommit_awaited _)).trans
      (evaluateReclaim_awaited _)
  | fail =>
    exact (KeepsAwaited.of_untouched (eraseRefused_keeps s b) (eraseRefused_untouched s b)).trans (evaluateReclaim_awaited _)

section
variable {s : State} {ahead : List Nat} (durable : DurableOk s) (w : PathHolds ahead s)
include durable w

theorem lookupSpareReadEnds_pathHolds (who : Requester) (p : PageAddr) : PathHolds ahead (s.lookupSpareReadEnds who p) := by
  have ends : OpEnds s (s.fcSpareRead p) := .setFc s rfl id
  refine ends.pathHolds (.of_op s rfl rfl fun _ h => by cases h) ?_ durable w
  exact (completion_awaited _ fun t => lookupGoesOn_awaited t who fun l =>
    .of_untouched (lookupSpare_keeps ..) (lookupSpare_looks ..).untouched).trans (settleRepair_awaited _)

theorem lookupPageReadEnds_pathHolds (who : Requester) (p : PageAddr) : PathHolds ahead (s.lookupPageReadEnds who p) := by
  have ends : OpEnds s (s.fcPageRead p) := .setFc s rfl id
  refine ends.pathHolds (.of_op s rfl rfl fun _ h => by cases h) ?_ durable w
  exact (completion_awaited _ fun t => lookupGoesOn_awaited t who fun l =>
    .of_untouched (lookupPage_keeps ..) (lookupPage_untouched ..)).trans (settleRepair_awaited _)

theorem programEndsFail_pathHolds (c : ProgramClaim) : PathHolds ahead (s.programEndsFail c) := by
  have torn : Untouched s ((s.setFc { s.fc with mem := s.fc.mem.tearPage c.target s.fresh }).drawn) :=
    .of_eq rfl rfl rfl rfl rfl rfl rfl rfl
  refine (fcProgramTears_opEnds s c).pathHolds (torn.trans (fcProgramFails_untouched _)) ?_ durable w
  exact (completion_awaited _ fun t => programFailed_awaited t _).trans (settleRepair_awaited _)

theorem markEnds_pathHolds (b : Nat) (v : Byte) (o : FlashOutcome) : PathHolds ahead ((s.fcMarkDone b v o).grant).settleRepair :=
  (fcMarkDone_opEnds s b v o).pathHolds (fcMarkDone_untouched s b v o) ((grant_awaited _).trans (settleRepair_awaited _)) durable w

theorem eraseEnds_pathHolds (b : Nat) (o : FlashOutcome) :
    PathHolds ahead ((s.fcEraseDone b o).completion fun t => t.eraseOutcome b o).settleRepair :=
  (fcEraseDone_opEnds s b o).pathHolds (fcEraseDone_untouched s b o)
    ((completion_awaited _ fun t => eraseOutcome_awaited t b o).trans (settleRepair_awaited _)) durable w

end

end State

/-! ## The scan's end, a CONFIGURE, and every command -/

/-- Entries and station state change while nothing of the own origin is pending. -/
theorem PathHolds.of_blocks {s t : State} (w : PathHolds [] s) (empty : s.su.queued = 0) (own : t.own = s.own) (su : t.su = s.su)
    (ra : t.ra = s.ra) (ce : t.ce = s.ce) (fc : t.fc = s.fc)
    (settled : ∀ o n, s.awaits o n → (t.entry o).settled n = true → (s.entry o).settled n = true)
    (number : ∀ st, t.station = some st → st ≠ .halted → 1 ≤ t.own ∧ t.own ≤ 24) : PathHolds [] t where
  peers o n peer a := by
    have a : s.awaits o n := by rwa [State.awaits, ra, fc] at a
    have := w.peers o n (own ▸ peer) a
    refine Classical.byContradiction fun h => ?_
    rw [settled o n a (by simpa using h)] at this
    cases this
  path := by
    have path := w.path
    rw [empty] at path
    rw [su, empty]
    refine Eq.trans ?_ path
    rw [ownPath_eq, ownPath_eq, own, fc, ce, su]
  seqs := by
    have seqs := w.seqs
    rw [empty] at seqs
    rw [su, empty]
    exact seqs
  refs i mem := by
    rw [ce] at mem
    rw [su]
    exact w.refs i mem
  slots i d data := by
    rw [ra] at data
    rw [own]
    exact w.slots i d data
  transfer c op := by
    rw [fc] at op ⊢
    exact w.transfer c op
  active _ := by rw [su, empty]
  number := number

namespace State

theorem numbered_of_scanning {s : State} {scan : Scan} (start : StartOk s) (w : PathHolds [] s) (scanning : s.sc.scan = some scan) :
    1 ≤ s.own ∧ s.own ≤ 24 :=
  w.number .scanning (start.2 (by rw [scanning]; rfl)) (by decide)

theorem scanEnds_pathHolds {u : State} (rests : AtRest u) (number : 1 ≤ u.own ∧ u.own ≤ 24) (scan : Scan) :
    PathHolds [] (u.scanEnds scan) := by
  have nothing : PathHolds [] u := pendingOk_iff.mp (pendingOk_atRest rests fun _ _ _ => number)
  have peers (o n : Nat) : ¬ u.awaits o n := fun a => by
    by_cases peer : o = u.own
    · rcases a with ⟨i, d, data, -⟩ | mem | mem
      · rw [slot_atRest rests] at data
        cases data
      · rw [fill_atRest rests] at mem
        cases mem
      · rw [Fc.imageList, array_atRest rests] at mem
        cases mem
    · have mem := (mem_pendingOf_peer peer).mpr a
      rw [pendingOf_atRest rests] at mem
      cases mem
  have rebuilt : PathHolds [] (u.scanRebuilt scan) :=
    nothing.of_blocks (queued_atRest rests) rfl rfl rfl rfl rfl (fun o n a => absurd a (peers o n)) fun _ _ _ => number
  have durable := durableOk_scanRebuilt rests scan
  exact (settleAll_awaited _).holds ((setPressure_keeps _).durableOk durable) [] ((setPressure_untouched _).pathHolds rebuilt)

theorem settled_joined {s : State} {c : Settings} (carrier : Bool) {o n : Nat}
    (h : ((s.joined c carrier).entry o).settled n = true) : (s.entry o).settled n = true := by
  rw [entry_joined] at h
  split at h
  · rw [Entry.settled, Bool.and_eq_true, Bool.and_eq_true, decide_eq_true_eq, decide_eq_true_eq] at h
    obtain ⟨⟨above, below⟩, -⟩ := h
    exact absurd (Nat.lt_of_lt_of_le above below) (by decide)
  · exact h

theorem accept_pathHolds {s : State} {c : Settings} (carrier : Bool) (waits : s.station = some .awaitConfig)
    (range : c.inRange s.own = true) (durable : DurableOk s) (w : PathHolds [] s) : PathHolds [] (s.accept c carrier) := by
  have number := w.number _ waits (by decide)
  have joined : PathHolds [] (s.joined c carrier) :=
    w.of_blocks (w.active (by rw [waits]; decide)) rfl rfl rfl rfl rfl (fun o n _ h => settled_joined carrier h)
      fun _ _ _ => number
  have frontier := durableOk_joined carrier range durable
  exact (settleAll_awaited _).holds ((evaluateDurable_keeps _).durableOk frontier) []
    ((evaluateDurable_untouched _).pathHolds joined)

theorem becomeActive_pathHolds {s : State} (joining : s.station = some .joining) (w : PathHolds [] s) :
    PathHolds [] s.becomeActive := by
  have number := w.number _ joining (by decide)
  have active : PathHolds [] (s.setSc { s.sc with phase := .running .active .none, listening := false }) :=
    w.of_blocks (w.active (by rw [joining]; decide)) rfl rfl rfl rfl rfl (fun _ _ _ h => h) fun _ _ _ => number
  exact (setRp_untouched ..).pathHolds active

theorem release_numbered {s : State} {k : ResetKind} {n : Nat} {st : StationState} (h : (s.release k n).station = some st)
    (runs : st ≠ .halted) : 1 ≤ (s.release k n).own ∧ (s.release k n).own ≤ 24 := by
  unfold release at h ⊢
  simp only at h ⊢
  split at h
  · rename_i range
    rw [if_pos range]
    exact range
  · exact absurd (Option.some.inj h).symm runs

end State

theorem ScanEffect.pathHolds {s t : State} {c : Instr} (h : ScanEffect s c t) (start : StartOk s) (w : PathHolds [] s) :
    PathHolds [] t := by
  cases h with
  | idle => exact w
  | goesOn _ scanning _ ends _ _ goes =>
    have number := State.numbered_of_scanning start w scanning
    refine pendingOk_iff.mp (pendingOk_atRest (atRest_scanGoesOn (atRest_of_scan start scanning) ends goes) fun _ _ _ => ?_)
    rw [State.own, goes.same, ends.same]
    exact number
  | ends _ scanning _ ends _ =>
    have number := State.numbered_of_scanning start w scanning
    refine State.scanEnds_pathHolds (atRest_scanOpEnds (atRest_of_scan start scanning) ends) ?_ _
    rw [State.own, ends.same]
    exact number

theorem Effect.pathHolds {s t : State} {c : Instr} (h : Effect KeepsAwaited s c t) (start : StartOk s) (settings : SettingsOk s)
    (durable : DurableOk s) (w : PathHolds [] s) : PathHolds [] t := by
  cases h with
  | moves h => exact h.pathHolds settings durable w
  | reset kind out => exact pendingOk_iff.mp (pendingOk_atRest (atRest_afterReset s kind out) fun _ h => by cases h)
  | release straps held =>
    exact pendingOk_iff.mp (pendingOk_atRest (atRest_release (atRest_of_held start held) ..) fun _ => State.release_numbered)
  | scan h => exact h.pathHolds start w
  | spareRead => exact State.lookupSpareReadEnds_pathHolds durable w ..
  | pageRead => exact State.lookupPageReadEnds_pathHolds durable w ..
  | transferEnd op => exact State.transferEnds_pathHolds op durable w
  | programPass => exact State.programEndsPass_pathHolds _ durable w
  | programFail => exact State.programEndsFail_pathHolds durable w _
  | markDone => exact State.markEnds_pathHolds durable w ..
  | eraseDone => exact State.eraseEnds_pathHolds durable w ..
  | @hailSent u _ moved =>
    have sent := moved.pathHolds settings durable w
    exact { sent with }
  | listenEnd joining =>
    exact (State.settleRepair_awaited s.becomeActive).holds durable [] (State.becomeActive_pathHolds joining w)
  | @configured carrier c x t _ waits range moved =>
    have port := (State.setAp_untouched s x).pathHolds w
    have joined := State.durableOk_joined (s := s.setAp x) carrier range durable
    exact moved.pathHolds (State.settingsOk_accept (s := s.setAp x) carrier range) ((State.accept_keeps ..).durableOk joined)
      (State.accept_pathHolds carrier waits range durable port)

theorem exec_pathHolds {s t : State} {c : Instr} (h : exec c s = .next t) (start : StartOk s) (settings : SettingsOk s)
    (durable : DurableOk s) (w : PathHolds [] s) : PathHolds [] t :=
  (exec_effect KeepsAwaited.running h).pathHolds start settings durable w

end Sys2Proof.Machine

namespace Sys2Proof.Proofs

open Sys2Proof.Machine Sys2Proof.Safety

/-- Settles O57: the path holds (`PathHolds`) after every command. -/
theorem pendingIsNeverSettled : Obligations.PendingIsNeverSettled :=
  fun _ _ w h => step_keeps (P := fun s => StartOk s ∧ SettingsOk s ∧ DurableOk s ∧ PendingOk s) (fun _ _ w => w)
    (fun _ _ _ ⟨start, settings, durable, w⟩ e => ⟨exec_startOk start e, (exec_course e).settingsOk start settings,
      (exec_course e).durableOk start settings durable,
      pendingOk_iff.mpr (exec_pathHolds e start settings durable (pendingOk_iff.mp w))⟩) w h

end Sys2Proof.Proofs

/-! The bodies and bursts of chapter 12 read back from their bytes (R58, R59, R103, R114, R211, R213). -/

namespace Sys2Proof.Machine

open Sys2Proof.Safety

/-! ## Fields one after the other -/

/-- The field at the front, its value in range. -/
theorem field_toBytes {k n : Nat} (h : n < 256 ^ k) (y : List Byte) : field (toBytes k n ++ y) 0 k = n := by
  rw [field_append_head (length_toBytes k n), ofBytes_toBytes_of_lt h]

/-- A field behind an integer. -/
theorem field_behind {k n off len : Nat} (h : k ≤ off) (y : List Byte) :
    field (toBytes k n ++ y) off len = field y (off - k) len := by
  rw [field_append_skip (by rwa [length_toBytes]), length_toBytes]

theorem field_behind_byte {b : Byte} {off len : Nat} (h : 1 ≤ off) (y : List Byte) :
    field (b :: y) off len = field y (off - 1) len := field_append_skip (x := [b]) h

theorem field_byte (b : Byte) (y : List Byte) : field (b :: y) 0 1 = b.toNat := by
  rw [show b :: y = [b] ++ y from rfl, field_append_head (len := 1) rfl, ofBytes_singleton]

theorem drop_behind {k n off : Nat} (h : k ≤ off) (y : List Byte) : (toBytes k n ++ y).drop off = y.drop (off - k) := by
  rw [List.drop_append, length_toBytes, List.drop_of_length_le (by rwa [length_toBytes]), List.nil_append]

theorem checkField_checkBytes (c : Check) (y : List Byte) : checkField (checkBytes c ++ y) 0 = c := by
  rw [checkField, checkBytes, field_toBytes c.isLt, BitVec.ofNat_toNat]
  rfl

/-! ## Report pairs (R103) -/

theorem field_pair {p : Pair} (floor : p.floor < 2 ^ 32) (frontier : p.frontier < 2 ^ 32) (y : List Byte) :
    field (toBytes 4 p.floor ++ toBytes 4 p.frontier ++ y) 0 4 = p.floor
      ∧ field (toBytes 4 p.floor ++ toBytes 4 p.frontier ++ y) 4 4 = p.frontier := by
  rw [List.append_assoc, field_behind (Nat.le_refl 4)]
  exact ⟨field_toBytes floor _, field_toBytes frontier _⟩

theorem pairsOf_append (n : Nat) {x : List Byte} (h : x.length = 8) (y : List Byte) :
    pairsOf (n + 1) (x ++ y) = { floor := field (x ++ y) 0 4, frontier := field (x ++ y) 4 4 } :: pairsOf n y := by
  have behind (i off : Nat) : field (x ++ y) (8 * (i + 1) + off) 4 = field y (8 * i + off) 4 := by
    rw [field_append_skip (by omega), h]
    congr 1
    omega
  rw [pairsOf, List.range_succ_eq_map, List.map_cons, List.map_map]
  refine congrArg _ (List.map_congr_left fun i _ => ?_)
  show Pair.mk (field (x ++ y) (8 * (i + 1) + 0) 4) (field (x ++ y) (8 * (i + 1) + 4) 4)
    = Pair.mk (field y (8 * i + 0) 4) (field y (8 * i + 4) 4)
  rw [behind i 0, behind i 4]

theorem length_pairBytes : (pairs : List Pair) → (pairBytes pairs).length = 8 * pairs.length
  | [] => rfl
  | p :: pairs => by
    rw [pairBytes, List.flatMap_cons, List.length_append, List.length_append, length_toBytes, length_toBytes, ← pairBytes,
      length_pairBytes pairs, List.length_cons]
    omega

theorem pairsOf_pairBytes : (pairs : List Pair) → (∀ p ∈ pairs, p.floor < 2 ^ 32 ∧ p.frontier < 2 ^ 32) →
    pairsOf pairs.length (pairBytes pairs) = pairs
  | [], _ => rfl
  | p :: pairs, small => by
    obtain ⟨floor, frontier⟩ := small p List.mem_cons_self
    rw [pairBytes, List.flatMap_cons, ← pairBytes, List.length_cons,
      pairsOf_append _ (by rw [List.length_append, length_toBytes, length_toBytes]), (field_pair floor frontier _).1,
      (field_pair floor frontier _).2, pairsOf_pairBytes pairs fun q mem => small q (List.mem_cons_of_mem _ mem)]

/-! ## Segments (R114, Table 12-3) -/

theorem segmentLength_le {length count index : Nat} (h : count = segmentCount length) :
    segmentLength length count index ≤ 240 := by
  unfold segmentLength
  split
  · exact Nat.le_refl _
  · rw [h, segmentCount]
    show length - 240 * ((length + 239) / 240 - 1) ≤ 240
    omega

/-- R126: what a consistent header says of its fields. -/
theorem Segment.consistent_bounds {g : Segment} {n : Nat} (small : n ≤ 24) (h : g.consistent n = true) :
    g.origin < 256 ∧ g.index < 256 ∧ g.count < 256 ∧ g.length < 2 ^ 16 ∧ g.payloadLength < 2 ^ 16 := by
  simp only [Segment.consistent, Bool.and_eq_true, decide_eq_true_eq, beq_iff_eq] at h
  obtain ⟨⟨⟨⟨⟨⟨⟨⟨-, origin⟩, -⟩, count⟩, index⟩, -⟩, length⟩, counted⟩, payload⟩ := h
  have length : g.length ≤ 1920 := length
  have := segmentLength_le (index := g.index) counted
  omega

theorem segmentBytes_eq (g : Segment) : segmentBytes g = toBytes 1 g.origin ++ (toBytes 1 g.index ++ (toBytes 1 g.count
    ++ ((if g.resend then 0x80#8 else 0x00#8) :: (toBytes 4 g.seq ++ (toBytes 2 g.length ++ (toBytes 2 g.payloadLength
      ++ (checkBytes g.check ++ g.payload))))))) := by
  simp only [segmentBytes, List.append_assoc]
  rfl

theorem length_segmentBytes (g : Segment) : (segmentBytes g).length = 16 + g.payload.length := by
  simp only [segmentBytes_eq, List.length_append, List.length_cons, checkBytes, length_toBytes]
  omega

theorem segmentOf_segmentBytes {g : Segment} {n : Nat} (small : n ≤ 24) (h : g.consistent n = true) (seq : g.seq < 2 ^ 32) :
    segmentOf (segmentBytes g) = g := by
  obtain ⟨origin, index, count, length, payload⟩ := g.consistent_bounds small h
  have resend : decide (128 ≤ (if g.resend then 0x80#8 else 0x00#8 : Byte).toNat) = g.resend := by cases g.resend <;> rfl
  have check : checkField (segmentBytes g) 12 = g.check := by
    rw [checkField, segmentBytes_eq, field_behind (by decide), field_behind (by decide), field_behind (by decide),
      field_behind_byte (by decide), field_behind (by decide), field_behind (by decide), field_behind (by decide)]
    exact checkField_checkBytes ..
  have rest : (segmentBytes g).drop 16 = g.payload := by
    rw [segmentBytes_eq, drop_behind (by decide), drop_behind (by decide), drop_behind (by decide)]
    show List.drop 12 _ = _
    rw [drop_behind (by decide), drop_behind (by decide), drop_behind (by decide), checkBytes, drop_behind (by decide)]
    rfl
  rw [segmentOf, check, rest]
  simp (decide := true) only [segmentBytes_eq, field_behind, field_behind_byte, field_byte, Nat.reduceSub, Nat.reduceLeDiff]
  rw [field_toBytes origin, field_toBytes index, field_toBytes count, resend, field_toBytes seq, field_toBytes length,
    field_toBytes payload]

/-! ## Asks and refusals (Table 12-4) -/

theorem askOf_askBytes {a : AskBody} (origin : a.origin < 2 ^ 16) (count : a.count < 2 ^ 16) (first : a.first < 2 ^ 32) :
    askOf (askBytes a) = a := by
  have first : field (toBytes 4 a.first) 0 4 = a.first := by
    rw [← List.append_nil (toBytes 4 a.first)]
    exact field_toBytes first []
  simp (decide := true) only [askOf, askBytes, List.append_assoc, field_behind, Nat.reduceSub, Nat.reduceLeDiff]
  rw [field_toBytes origin, field_toBytes count, first]

theorem length_askBytes (a : AskBody) : (askBytes a).length = 8 := by
  simp only [askBytes, List.length_append, length_toBytes]

theorem refuseOf_refuseBytes {origin number : Nat} (reason : RefuseReason) (ho : origin < 2 ^ 16) (hn : number < 2 ^ 32) :
    refuseOf (refuseBytes origin reason number) = { origin := origin, reason := some reason, number := number } := by
  have number : field (toBytes 4 number) 0 4 = number := by
    rw [← List.append_nil (toBytes 4 number)]
    exact field_toBytes hn []
  have code : reason.code < 256 ^ 2 := by cases reason <;> decide
  simp (decide := true) only [refuseOf, refuseBytes, List.append_assoc, field_behind, Nat.reduceSub, Nat.reduceLeDiff]
  rw [field_toBytes ho, field_toBytes code, number]
  cases reason <;> rfl

theorem length_refuseBytes (origin number : Nat) (reason : RefuseReason) : (refuseBytes origin reason number).length = 8 := by
  simp only [refuseBytes, List.length_append, length_toBytes]

/-! ## Bursts (R58, R59) -/

theorem bodySuits_short {kind : BurstKind} {n : Nat} {body : List Byte} (small : n ≤ 24) (h : bodySuits kind n body = true) :
    body.length < 2 ^ 16 := by
  cases kind with
  | hail | report =>
    have h : body.length = 8 * n := beq_iff_eq.mp h
    omega
  | ask | refuse =>
    have h : body.length = 8 := beq_iff_eq.mp h
    omega
  | seg =>
    simp only [bodySuits, Bool.and_eq_true, decide_eq_true_eq] at h
    omega

theorem kindOfCode_code (kind : BurstKind) : kindOfCode kind.code = some kind := by cases kind <;> decide

theorem length_burstHeader (kind : BurstKind) (sender n target k : Nat) : (burstHeader kind sender n target k).length = 8 := by
  simp only [burstHeader, List.length_append, List.length_cons, length_toBytes]

/-- The fields of a header (Table 12-1) before a body. -/
theorem burstHeader_fields {sender n target k : Nat} (kind : BurstKind) (hs : sender < 256) (hn : n < 256) (ht : target < 256)
    (hk : k < 2 ^ 16) (body : List Byte) :
    let covered := burstHeader kind sender n target k ++ body
    covered.headD 0 = kind.code ∧ field covered 1 2 = 0x4A31 ∧ field covered 3 1 = sender ∧ field covered 4 1 = n
      ∧ field covered 5 1 = target ∧ field covered 6 2 = k ∧ covered.drop 8 = body := by
  have whole : burstHeader kind sender n target k ++ body = kind.code :: (toBytes 2 0x4A31 ++ (toBytes 1 sender ++ (toBytes 1 n
      ++ (toBytes 1 target ++ (toBytes 2 k ++ body))))) := by
    simp only [burstHeader, List.append_assoc, List.cons_append]
  refine ⟨rfl, ?_, ?_, ?_, ?_, ?_, ?_⟩
  all_goals try (rw [whole]; simp (decide := true) only [field_behind, field_behind_byte, Nat.reduceSub, Nat.reduceLeDiff])
  · exact field_toBytes (by decide) _
  · exact field_toBytes hs _
  · exact field_toBytes hn _
  · exact field_toBytes ht _
  · exact field_toBytes hk _
  · rw [← length_burstHeader kind sender n target k, List.drop_left]

/-- What a receiver cuts out of a burst of `covered`. -/
theorem covered_of_burst (covered : List Byte) :
    let bytes := preamble ++ covered ++ checkBytes (crc32 covered)
    bytes.length = covered.length + 8 ∧ slice bytes 4 (bytes.length - 8) = covered ∧ bytes.take 4 = preamble
      ∧ checkField bytes (bytes.length - 4) = crc32 covered := by
  have length : (preamble ++ covered ++ checkBytes (crc32 covered)).length = covered.length + 8 := by
    rw [List.length_append, List.length_append, checkBytes, length_toBytes]
    show 4 + covered.length + 4 = _
    omega
  refine ⟨length, ?_, by rw [List.append_assoc]; rfl, ?_⟩
  · rw [length, Nat.add_sub_cancel, List.append_assoc, slice_append_skip (Nat.le_refl 4)]
    exact slice_append_head rfl
  · rw [length, checkField, field_append_skip (by rw [List.length_append]; show 4 + _ ≤ _; omega), List.length_append]
    show BitVec.ofNat 32 (field _ (covered.length + 8 - 4 - (4 + covered.length)) 4) = _
    rw [show covered.length + 8 - 4 - (4 + covered.length) = 0 by omega, ← List.append_nil (checkBytes _)]
    exact checkField_checkBytes ..

/-- R59: a period that passes the tests of its form, its header's kind known. -/
theorem classify_passed {own groupSize : Nat} {bytes covered : List Byte} {kind : BurstKind}
    (cut : slice bytes 4 (bytes.length - 8) = covered) (begins : bytes.take 4 = preamble) (long : 16 ≤ bytes.length)
    (told : field covered 6 2 = (covered.drop 8).length) (checked : checkField bytes (bytes.length - 4) = crc32 covered)
    (code : covered.headD 0 = kind.code) :
    classify own groupSize { bytes := bytes, strayBits := 0, codeFault := false } =
      if field covered 4 1 = groupSize then
        if field covered 1 2 ≠ 0x4A31 ∨ field covered 3 1 = 0 ∨ groupSize < field covered 3 1 ∨ field covered 3 1 = own
            ∨ bodySuits kind groupSize (covered.drop 8) = false then .bad
        else .good { kind := kind, sender := field covered 3 1, target := field covered 5 1, body := covered.drop 8 }
      else .foreign := by
  unfold classify
  dsimp only
  rw [cut, begins, told, checked, code, kindOfCode_code, if_neg (by simp; omega)]
  by_cases group : field covered 4 1 = groupSize
  · rw [if_neg (by simpa using group), if_pos group]
    simp only [Bool.or_eq_true, bne_iff_ne, beq_iff_eq, decide_eq_true_eq, Bool.not_eq_true', or_assoc]
  · rw [if_pos (by simpa using group), if_neg group]

end Sys2Proof.Machine

namespace Sys2Proof.Proofs

open Sys2Proof.Machine Sys2Proof.Safety

/-- Settles O15: each body is its fields one after the other. -/
theorem bodiesAreReadAsWritten : Obligations.BodiesAreReadAsWritten :=
  ⟨fun pairs small => ⟨pairsOf_pairBytes pairs small, length_pairBytes pairs⟩,
    fun g _ small h seq => ⟨segmentOf_segmentBytes small h seq, length_segmentBytes g⟩,
    fun a origin count first => ⟨askOf_askBytes origin count first, length_askBytes a⟩,
    fun origin reason number ho hn => ⟨refuseOf_refuseBytes reason ho hn, length_refuseBytes origin number reason⟩⟩

/-- Settles O14: the tests of R59 one after the other on the fields of the header. -/
theorem burstsAreReadAsComposed : Obligations.BurstsAreReadAsComposed := by
  intro own groupSize sender n target kind body from1 within small targeted suits groupSmall
  have short := bodySuits_short small suits
  obtain ⟨code, system, from_, group, to_, told, rest⟩ :=
    burstHeader_fields (sender := sender) (n := n) (target := target) kind (by omega) (by omega) (by omega) short body
  obtain ⟨length, covered, begins, checked⟩ := covered_of_burst (burstHeader kind sender n target body.length ++ body)
  have whole : 16 ≤ (burstBytes kind sender n target body).length := by
    show 16 ≤ (preamble ++ _ ++ _).length
    rw [length, List.length_append, length_burstHeader]
    omega
  have read : classify own groupSize { bytes := burstBytes kind sender n target body, strayBits := 0, codeFault := false } =
      if n = groupSize then
        if sender = own then .bad else .good { kind := kind, sender := sender, target := target, body := body }
      else .foreign := by
    refine (classify_passed covered begins whole (by rw [told, rest]) checked code).trans ?_
    rw [group, system, from_, to_, rest]
    by_cases same : n = groupSize
    · have mine : (0x4A31 ≠ 0x4A31 ∨ sender = 0 ∨ groupSize < sender ∨ sender = own ∨ bodySuits kind groupSize body = false)
          ↔ sender = own := by
        rw [← same, suits]
        refine ⟨fun h => ?_, fun h => .inr (.inr (.inr (.inl h)))⟩
        rcases h with h | h | h | h | h
        · exact absurd rfl h
        · omega
        · omega
        · exact h
        · cases h
      simp only [if_pos same, mine]
    · rw [if_neg same, if_neg same]
  dsimp only
  rw [read]
  refine ⟨fun other => if_neg (Ne.symm other), fun same other => ?_, fun same mine => ?_⟩
  · rw [if_pos same.symm, if_neg other]
  · rw [if_pos same.symm, if_pos mine]

end Sys2Proof.Proofs

/-! Ranks of own slots (R62), and the entries of the holdings: settling a run, raising a floor, abandoning a run (R82, R88, R90). -/

namespace Sys2Proof.Machine

open Sys2Proof.Safety

/-! ## Ranks (R62) -/

theorem rankOf_eq {own l n : Nat} (hl : l ≤ n) (h1 : 1 ≤ own) (hn : own ≤ n) :
    rankOf own l n = if l < own then own - 1 - l else own + n - 1 - l := by
  unfold rankOf
  split
  · rw [show own + n - 1 - l = (own - 1 - l) + n by omega, Nat.add_mod_right, Nat.mod_eq_of_lt (by omega)]
  · exact Nat.mod_eq_of_lt (by omega)

/-- The station above the last sender, in the cycle of stations. -/
theorem rankOf_next {l n : Nat} (hl : l ≤ n) (h1 : 1 ≤ l) : rankOf (l % n + 1) l n = 0 := by
  rcases Nat.lt_or_eq_of_le hl with below | rfl
  · rw [Nat.mod_eq_of_lt below, rankOf_eq hl (by omega) (by omega), if_pos (by omega)]
    omega
  · rw [Nat.mod_self, rankOf_eq hl (by omega) (by omega)]
    split <;> omega

theorem nextSlot_mod {s : State} (counted : ∀ k, s.lc.slotCount = some k → k % s.groupSize = rankOf s.own s.lc.lastSender s.groupSize) :
    s.nextSlot % s.groupSize = rankOf s.own s.lc.lastSender s.groupSize := by
  unfold State.nextSlot
  split
  · exact Nat.mod_mod ..
  · next k counting =>
    rw [Nat.add_mod_right]
    exact counted k counting

/-! ## A run inside the gaps (R78, R82) -/

/-- The gaps lie apart, so a run that lies in them lies in one. -/
theorem run_in_gap {lo top a b : Nat} (hab : a ≤ b) : {gs : List Range} → gapsOk lo top gs = true →
    (∀ n, a ≤ n → n ≤ b → ∃ g ∈ gs, g.lo ≤ n ∧ n ≤ g.hi) → ∃ g ∈ gs, g.lo ≤ a ∧ b ≤ g.hi
  | [], _, covered => by
    obtain ⟨g, mem, -⟩ := covered a (Nat.le_refl a) hab
    cases mem
  | g :: gs, w, covered => by
    obtain ⟨-, -, -, rest⟩ := gapsOk_cons.mp w
    have later {n : Nat} (low : a ≤ n) (high : n ≤ b) (out : ¬ (g.lo ≤ n ∧ n ≤ g.hi)) : g.hi + 2 ≤ n ∧ ∃ g' ∈ gs, g'.lo ≤ n ∧ n ≤ g'.hi := by
      obtain ⟨g', mem, inside⟩ := covered n low high
      rcases List.mem_cons.mp mem with rfl | mem
      · exact absurd inside out
      · have := (hi_lt_top rest g' mem).1
        exact ⟨by omega, g', mem, inside⟩
    by_cases below : a ≤ g.hi
    · refine ⟨g, List.mem_cons_self, ?_, ?_⟩
      · refine Classical.byContradiction fun out => ?_
        have := (later (Nat.le_refl a) hab (by omega)).1
        omega
      · refine Classical.byContradiction fun out => ?_
        have := (later (n := g.hi + 1) (by omega) (by omega) (by omega)).1
        omega
    · obtain ⟨g', mem, inside⟩ := run_in_gap hab rest fun n low high => (later low high (by omega)).2
      exact ⟨g', List.mem_cons_of_mem _ mem, inside⟩

theorem flatMap_without_of_below {lo top a b : Nat} (hb : b < lo) (hab : a ≤ b) : {gs : List Range} → gapsOk lo top gs = true →
    (gs.flatMap fun g => g.without a b) = gs
  | [], _ => rfl
  | g :: gs, w => by
    obtain ⟨hlo, hg, -, rest⟩ := gapsOk_cons.mp w
    rw [List.flatMap_cons, Range.without, if_neg (by omega), flatMap_without_of_below (by omega) hab rest, List.singleton_append]

/-- What settling a run of one gap leaves of it. -/
theorem Range.without_of_run {g : Range} {a b : Nat} (inside : g.lo ≤ a ∧ b ≤ g.hi) :
    (g.without a b).length ≤ 2 ∧ ∀ x ∈ g.without a b, x.hi < a ∨ b < x.lo := by
  rw [Range.without, if_pos inside]
  constructor
  · have short (c : Prop) [Decidable c] (x : Range) : (if c then [x] else []).length ≤ 1 := by
      split
      · exact Nat.le_refl 1
      · exact Nat.zero_le 1
    rw [List.length_append]
    exact Nat.add_le_add (short _ _) (short _ _)
  · intro x mem
    rcases List.mem_append.mp mem with mem | mem
    · split at mem
      · rw [List.mem_singleton.mp mem]
        exact .inl (by show a - 1 < a; omega)
      · cases mem
    · split at mem
      · rw [List.mem_singleton.mp mem]
        exact .inr (Nat.lt_succ_self b)
      · cases mem

/-- R82: settling a run of one gap adds at most one range, and no range meets the run then. -/
theorem flatMap_without_of_run {lo top a b : Nat} (hab : a ≤ b) : {gs : List Range} → gapsOk lo top gs = true →
    (∃ g ∈ gs, g.lo ≤ a ∧ b ≤ g.hi) →
    (gs.flatMap fun g => g.without a b).length ≤ gs.length + 1
      ∧ ∀ x ∈ gs.flatMap fun g => g.without a b, x.hi < a ∨ b < x.lo
  | [], _, ⟨_, mem, _⟩ => by cases mem
  | g :: gs, w, ⟨g', mem, inside⟩ => by
    obtain ⟨-, -, -, rest⟩ := gapsOk_cons.mp w
    rw [List.flatMap_cons, List.length_append, List.length_cons]
    rcases List.mem_cons.mp mem with rfl | mem
    · obtain ⟨pieces, apart⟩ := Range.without_of_run inside
      rw [flatMap_without_of_below (by omega) hab rest]
      refine ⟨by omega, fun x mem => ?_⟩
      rcases List.mem_append.mp mem with mem | mem
      · exact apart x mem
      · have := (hi_lt_top rest x mem).1
        exact .inr (by omega)
    · have behind := (hi_lt_top rest g' mem).1
      obtain ⟨pieces, apart⟩ := flatMap_without_of_run hab rest ⟨g', mem, inside⟩
      rw [Range.without, if_neg (by omega)]
      refine ⟨by rw [List.length_singleton]; omega, fun x mem => ?_⟩
      rcases List.mem_append.mp mem with mem | mem
      · rw [List.mem_singleton.mp mem]
        exact .inl (by omega)
      · exact apart x mem

/-! ## A run at an entry (R82) -/

namespace Entry

variable {e : Entry} {a b : Nat}

/-- R82: a run from F on that holds no settled number lies above T or inside one gap. -/
theorem unsettledRun_iff_unsettled (w : entryOk e = true) (hab : a ≤ b) (above : e.floor ≤ a) :
    e.unsettledRun a b = true ↔ ∀ n, a ≤ n → n ≤ b → e.settled n = false := by
  obtain ⟨-, -, gaps, -⟩ := entryOk_iff.mp w
  rw [unsettledRun_iff, and_iff_right above]
  constructor
  · intro run n low high
    rw [← Bool.not_eq_true, settled_iff]
    rintro ⟨-, within, clear⟩
    rcases run with run | ⟨g, mem, inside⟩
    · omega
    · rw [← Bool.not_eq_true, inGap_iff] at clear
      exact clear ⟨g, mem, by omega, by omega⟩
  · intro unsettled
    have covered {n : Nat} (low : a ≤ n) (high : n ≤ b) (within : n ≤ e.top) : ∃ g ∈ e.gaps, g.lo ≤ n ∧ n ≤ g.hi := by
      rw [← inGap_iff]
      refine Classical.byContradiction fun clear => ?_
      rw [Bool.not_eq_true] at clear
      have := unsettled n low high
      rw [← Bool.not_eq_true, settled_iff] at this
      exact this ⟨by omega, within, clear⟩
    by_cases beyond : e.top < a
    · exact .inl beyond
    · have short : b ≤ e.top := by
        refine Classical.byContradiction fun past => ?_
        obtain ⟨g, mem, inside⟩ := covered (n := e.top) (by omega) (by omega) (Nat.le_refl _)
        have := (hi_lt_top gaps g mem).2.2
        omega
      exact .inr (run_in_gap hab gaps fun n low high => covered low high (by omega))

variable (w : entryOk e = true) (hab : a ≤ b) (run : e.unsettledRun a b = true)
include w hab run

/-- R82: at most one range joins. -/
theorem length_gaps_settle : (e.settle a b).gaps.length ≤ e.gaps.length + 1 := by
  obtain ⟨-, -, gaps, -⟩ := entryOk_iff.mp w
  obtain ⟨-, run⟩ := unsettledRun_iff.mp run
  by_cases above : e.top < a
  · rw [gaps_settle_of_above above, List.length_append, length_rangeOf]
    split <;> omega
  · rw [gaps_settle_of_not_above above]
    exact (flatMap_without_of_run hab gaps (run.resolve_left above)).1

theorem top_settle : (e.settle a b).top = max e.top b := by
  obtain ⟨-, -, gaps, -⟩ := entryOk_iff.mp w
  obtain ⟨-, run⟩ := unsettledRun_iff.mp run
  unfold settle
  split
  · show b = _
    omega
  · next above =>
    obtain ⟨g, mem, inside⟩ := run.resolve_left above
    have := (hi_lt_top gaps g mem).2.2
    show e.top = _
    omega

/-- R82: the run is settled. -/
theorem settled_settle_run {n : Nat} (low : a ≤ n) (high : n ≤ b) : (e.settle a b).settled n = true := by
  obtain ⟨-, -, gaps, -⟩ := entryOk_iff.mp w
  have top := top_settle w hab run
  obtain ⟨above, run⟩ := unsettledRun_iff.mp run
  rw [settled_iff, floor_settle, ← Bool.not_eq_true, inGap_iff, top]
  refine ⟨by omega, by omega, ?_⟩
  rintro ⟨g, mem, inside⟩
  by_cases beyond : e.top < a
  · rw [gaps_settle_of_above beyond] at mem
    rcases List.mem_append.mp mem with mem | mem
    · have := (hi_lt_top gaps g mem).2.2
      omega
    · unfold rangeOf at mem
      split at mem
      · rw [List.mem_singleton.mp mem] at inside
        have : n ≤ a - 1 := inside.2
        omega
      · cases mem
  · rw [gaps_settle_of_not_above beyond] at mem
    have := (flatMap_without_of_run hab gaps (run.resolve_left beyond)).2 g mem
    omega

end Entry

/-- R88 in the terms of an entry that has its form. -/
theorem Entry.top_raiseFloor_of_ok {e : Entry} (w : entryOk e = true) (f : Nat) :
    (e.raiseFloor f).top = if e.top + 1 < max e.floor (min f 4294967295) then max e.floor (min f 4294967295) - 1 else e.top := by
  obtain ⟨-, low, -⟩ := entryOk_iff.mp w
  rw [Entry.top_raiseFloor, Entry.floor_raiseFloor]
  refine ite_congr (propext ⟨And.right, fun h => ⟨by omega, h⟩⟩) (fun _ => rfl) fun _ => rfl

/-! ## Abandonment (R90) -/

namespace State

theorem isPending_iff {s : State} {o n : Nat} : s.isPending o n = true ↔ n ∈ s.pendingOf o := by
  rw [isPending, List.contains_iff_mem]

/-- R90: the tests of an abandonment, in terms of the numbers of the run. -/
theorem abandon_tests {s : State} {o a b : Nat} (peer : o ≠ s.own) (w : entryOk (s.entry o) = true) :
    (o ≠ s.own ∧ max a (s.entry o).floor ≤ b ∧ (s.entry o).unsettledRun (max a (s.entry o).floor) b = true
        ∧ (∀ n ∈ s.pendingOf o, n < max a (s.entry o).floor ∨ b < n)
        ∧ (s.entry o).overflows (max a (s.entry o).floor) b = false)
      ↔ max a (s.entry o).floor ≤ b
        ∧ (∀ n, max a (s.entry o).floor ≤ n → n ≤ b → (s.entry o).settled n = false ∧ s.isPending o n = false)
        ∧ ((s.entry o).settle (max a (s.entry o).floor) b).gaps.length ≤ 6 := by
  have few : (s.entry o).overflows (max a (s.entry o).floor) b = false
      ↔ ((s.entry o).settle (max a (s.entry o).floor) b).gaps.length ≤ 6 := by
    rw [← Bool.not_eq_true, Entry.overflows_iff, Nat.not_lt]
  rw [and_iff_right peer, few]
  refine and_congr_right fun hab => ?_
  rw [← and_assoc, Entry.unsettledRun_iff_unsettled w hab (Nat.le_max_right ..)]
  refine and_congr_left fun _ => ⟨fun ⟨unsettled, free⟩ n low high => ⟨unsettled n low high, ?_⟩, fun both =>
    ⟨fun n low high => (both n low high).1, fun n mem => ?_⟩⟩
  · rw [← Bool.not_eq_true, isPending_iff]
    intro mem
    have := free n mem
    omega
  · refine Classical.byContradiction fun within => ?_
    have := (both n (by omega) (by omega)).2
    rw [← Bool.not_eq_true, isPending_iff] at this
    exact this mem

/-- R83, R90: an entry of a peer's origin changes, with LOST. -/
theorem lost_entry {s : State} {o : Nat} {e : Entry} (low : 1 ≤ o) (high : o ≤ 24) (peer : o ≠ s.own) (changed : e ≠ s.entry o)
    (a b : Nat) :
    let t := (s.putEntry o e).notify (.lost o a b)
    t = { s with hu := { s.hu with entries := t.hu.entries, reportPending := t.hu.reportPending },
                 rp := { s.rp with rerunDue := s.rp.rerunDue || decide (o ≤ s.groupSize) }, nu := t.nu }
      ∧ t.entry o = e ∧ (∀ p, p ≠ o → t.entry p = s.entry p)
      ∧ t.hu.reportPending = (s.hu.reportPending || decide (o ≤ s.groupSize ∧ e.pair ≠ (s.entry o).pair))
      ∧ (s.storeRuns = true → .lost o a b ∈ t.nu.queue ∨ t.nu.overflow = true) := by
  have reported : s.reported o = decide (o ≤ s.groupSize) := by rw [State.reported, decide_eq_true low, Bool.true_and]
  have entry (p : Nat) : ((s.putEntry o e).notify (.lost o a b)).entry p = if o = p then e else s.entry p := by
    rw [State.entry, notify_hu]
    exact (entry_putEntry s o e p).trans (ite_congr (propext (and_iff_left ⟨low, high⟩)) (fun _ => rfl) fun _ => rfl)
  have put : s.putEntry o e
      = (s.writeEntry o e).setRp { s.rp with rerunDue := s.rp.rerunDue || decide (o ≤ s.groupSize) } := by
    rw [putEntry_of_ne_own peer, reported, bne_iff_ne.mpr changed, Bool.and_true]
  dsimp only
  refine ⟨?_, by rw [entry, if_pos rfl], fun p hp => by rw [entry, if_neg (Ne.symm hp)], ?_, fun runs => ?_⟩
  · rw [put, notify_eq]
    rfl
  · rw [notify_hu, put]
    show (s.hu.reportPending || (s.reported o && e.pair != (s.entry o).pair)) = _
    rw [reported, bne, Bool.decide_and]
    congr 2
    exact (decide_not ..).symm
  · have runs : (s.putEntry o e).storeRuns = true := by
      rw [put]
      exact runs
    rw [notify_of_running runs]
    exact Nu.mem_take _ _ _ fun x partner => by cases partner

end State

end Sys2Proof.Machine

namespace Sys2Proof.Proofs

open Sys2Proof.Machine Sys2Proof.Safety

/-- Settles O18: each rank by `rankOf_eq`. -/
theorem ranksAreDistinct : Obligations.RanksAreDistinct := by
  refine ⟨fun n l a b hl ha han hb hbn => ⟨?_, ?_, fun h1 => ⟨?_, rankOf_next hl h1⟩, ?_⟩, fun s counted _ => nextSlot_mod counted⟩
  · rw [rankOf_eq hl ha han]
    split <;> omega
  · rw [rankOf_eq hl ha han, rankOf_eq hl hb hbn]
    split <;> split <;> omega
  · rw [rankOf_eq hl h1 hl, if_neg (Nat.lt_irrefl l)]
    omega
  · rw [rankOf_eq (Nat.zero_le n) ha han, if_pos (show 0 < a from ha), Nat.sub_zero]

/-- Settles O20. -/
theorem entriesSettleRaiseAndCommit : Obligations.EntriesSettleRaiseAndCommit := by
  refine ⟨fun e a b w hab unsettled => ?_, fun e f w => ?_, fun e n _ gaps => ⟨fun next => ?_, fun held => if_pos held, fun above => ?_⟩,
    fun s o a b low high peer w => ⟨fun no => ?_, fun yes => ⟨_, State.abandon_eq_some_iff.mpr ⟨(State.abandon_tests peer w).mpr yes, rfl⟩, ?_⟩⟩⟩
  · have run := (Entry.unsettledRun_iff_unsettled w hab (unsettled a (Nat.le_refl a) hab).1).mpr fun n low high =>
      (unsettled n low high).2
    refine ⟨fun n => ⟨Entry.settled_of_settle, fun h => h.elim (Entry.settled_settle hab) fun h =>
      Entry.settled_settle_run w hab run h.1 h.2⟩, Entry.floor_settle e a b, Entry.top_settle w hab run,
      Entry.length_gaps_settle w hab run, fun few => entryOk_settle w hab run ?_⟩
    rw [← Bool.not_eq_true, Entry.overflows_iff, Nat.not_lt]
    exact few
  · refine ⟨Entry.floor_raiseFloor e f, fun same => Entry.raiseFloor_of_floor_eq e f ?_, Entry.top_raiseFloor_of_ok w f, fun n => ?_,
      entryOk_raiseFloor w f⟩
    · rw [Entry.floor_raiseFloor]
      exact same
    · rw [Entry.settled_raiseFloor, Entry.floor_raiseFloor]
  · rw [Entry.commitOwn, if_neg (by omega), if_pos next, gaps]
  · rw [Entry.commitOwn, if_neg (by omega), if_neg (by omega)]
  · rw [Option.eq_none_iff_forall_ne_some]
    intro t taken
    exact no ((State.abandon_tests peer w).mp (State.abandon_eq_some_iff.mp taken).1)
  · obtain ⟨hab, free, few⟩ := yes
    have run := (Entry.unsettledRun_iff_unsettled w hab (Nat.le_max_right ..)).mpr fun n low high => (free n low high).1
    have changed := Entry.ne_of_growsTo (Entry.growsTo_settle hab run)
    exact State.lost_entry low high peer changed _ _

end Sys2Proof.Proofs

/-! The block table counted and searched (R24, R26), the level and the OPEN block (R26, R27, R155, R156). -/

namespace Sys2Proof.Machine

open Sys2Proof.Safety

/-! ## Counts and lists of blocks (R24) -/

namespace Sm

variable {sm : Sm} {p : BlockState → Bool}

theorem getElem_table {b : Nat} (h : b < sm.table.toList.length) : sm.table.toList[b] = sm.block b := by
  have h : b < 640 := by simpa using h
  rw [Vector.getElem_toList, block, place, Vector.getElem?_eq_getElem h]
  rfl

theorem count_setBlock {b : Nat} (h : b < 640) (e : BlockEntry) :
    (sm.setBlock b e).count p + (if p (sm.block b).state then 1 else 0) = sm.count p + (if p e.state then 1 else 0) := by
  have inside : b < sm.table.toList.length := by simpa using h
  unfold count setBlock setPlace
  rw [Vector.toList_setIfInBounds, List.countP_set inside, getElem_table inside]
  have counted : p (sm.block b).state = true → 1 ≤ sm.table.toList.countP fun e => p e.state := fun passes => by
    rw [Nat.one_le_iff_ne_zero, ← Nat.pos_iff_ne_zero, List.countP_pos_iff]
    exact ⟨_, List.getElem_mem inside, by rw [getElem_table inside]; exact passes⟩
  split
  · have := counted ‹_›
    omega
  · omega

theorem count_eq_zero_iff : sm.count p = 0 ↔ ∀ b, b < 640 → p (sm.block b).state = false := by
  rw [count, List.countP_eq_zero]
  constructor
  · intro none_passes b hb
    have inside : b < sm.table.toList.length := by simpa using hb
    rw [← Bool.not_eq_true, ← getElem_table inside]
    exact none_passes _ (List.getElem_mem inside)
  · intro none_passes e mem
    obtain ⟨b, inside, rfl⟩ := List.getElem_of_mem mem
    rw [Bool.not_eq_true, getElem_table inside]
    exact none_passes b (by simpa using inside)

theorem count_le : sm.count p ≤ 640 := by
  rw [count]
  exact Nat.le_trans List.countP_le_length (Nat.le_of_eq Vector.length_toList)

theorem mem_blocksIn {b : Nat} : b ∈ sm.blocksIn p ↔ b < 640 ∧ p (sm.block b).state = true := by
  unfold blocksIn
  rw [List.mem_map]
  constructor
  · rintro ⟨⟨e, i⟩, mem, rfl⟩
    obtain ⟨mem, passes⟩ := List.mem_filter.mp mem
    obtain ⟨inside, rfl⟩ := mem_table_zipIdx.mp mem
    exact ⟨inside, passes⟩
  · rintro ⟨inside, passes⟩
    exact ⟨(sm.block b, b), List.mem_filter.mpr ⟨mem_table_zipIdx.mpr ⟨inside, rfl⟩, passes⟩, rfl⟩

theorem blocksIn_ascending : (sm.blocksIn p).Pairwise (· < ·) := by
  have all : (sm.table.toList.zipIdx.map Prod.snd).Pairwise (· < ·) := by
    rw [List.zipIdx_map_snd]
    exact List.pairwise_lt_range'
  exact all.sublist (List.filter_sublist.map _)

end Sm

/-- The first of an ascending list is its least. -/
theorem head?_of_ascending {l : List Nat} (h : l.Pairwise (· < ·)) {b : Nat} (mem : b ∈ l) (least : ∀ a ∈ l, b ≤ a) :
    l.head? = some b := by
  cases l with
  | nil => cases mem
  | cons a l =>
    rcases List.mem_cons.mp mem with rfl | behind
    · rfl
    · have := (List.pairwise_cons.mp h).1 b behind
      have := least a List.mem_cons_self
      omega

theorem head?_eq_none_of_no_member {l : List Nat} (h : ∀ b, b ∉ l) : l.head? = none := by
  rw [List.eq_nil_iff_forall_not_mem.mpr h]
  rfl

namespace Sm

variable {sm : Sm}

/-- R25: the OPEN block. -/
theorem openBlock_eq_some {b : Nat} (inside : b < 640) (opened : (sm.block b).state = .opened)
    (only : ∀ a, a < 640 ∧ (sm.block a).state = .opened → a = b) : sm.openBlock = some b := by
  refine head?_of_ascending blocksIn_ascending (mem_blocksIn.mpr ⟨inside, beq_iff_eq.mpr opened⟩) fun a mem => ?_
  obtain ⟨ha, opened⟩ := mem_blocksIn.mp mem
  exact Nat.le_of_eq (only a ⟨ha, beq_iff_eq.mp opened⟩).symm

theorem openBlock_eq_none (none_open : ∀ b, ¬ (b < 640 ∧ (sm.block b).state = .opened)) : sm.openBlock = none :=
  head?_eq_none_of_no_member fun b mem => none_open b ((mem_blocksIn.mp mem).imp_right beq_iff_eq.mp)

theorem mem_free {b : Nat} : b ∈ sm.blocksIn (· == .free) ↔ b < 640 ∧ (sm.block b).state = .free := by
  rw [mem_blocksIn, beq_iff_eq]

/-- R26: the FREE block to open, none being above the last-opened or the least above it. -/
theorem nextFree_eq_some {b : Nat} (free : b < 640 ∧ (sm.block b).state = .free)
    (chosen : (sm.lastOpened < b ∧ ∀ a, a < 640 ∧ (sm.block a).state = .free → sm.lastOpened < a → b ≤ a)
      ∨ ((∀ a, a < 640 ∧ (sm.block a).state = .free → a ≤ sm.lastOpened) ∧ ∀ a, a < 640 ∧ (sm.block a).state = .free → b ≤ a)) :
    sm.nextFree = some b := by
  have mem := mem_free.mpr free
  unfold nextFree
  dsimp only
  rw [← List.head?_filter]
  rcases chosen with ⟨above, least⟩ | ⟨below, least⟩
  · have first : ((sm.blocksIn (· == .free)).filter fun b => decide (sm.lastOpened < b)).head? = some b :=
      head?_of_ascending (blocksIn_ascending.sublist List.filter_sublist) (List.mem_filter.mpr ⟨mem, decide_eq_true above⟩)
        fun a mem => by
          obtain ⟨mem, above⟩ := List.mem_filter.mp mem
          exact least a (mem_free.mp mem) (of_decide_eq_true above)
    rw [first]
  · have nothing : ((sm.blocksIn (· == .free)).filter fun b => decide (sm.lastOpened < b)).head? = none :=
      head?_eq_none_of_no_member fun a mem => by
        obtain ⟨mem, above⟩ := List.mem_filter.mp mem
        exact absurd (below a (mem_free.mp mem)) (Nat.not_le.mpr (of_decide_eq_true above))
    rw [nothing]
    exact head?_of_ascending blocksIn_ascending mem fun a mem => least a (mem_free.mp mem)

theorem nextFree_eq_none (none_free : ∀ b, ¬ (b < 640 ∧ (sm.block b).state = .free)) : sm.nextFree = none := by
  have empty : sm.blocksIn (· == .free) = [] :=
    List.eq_nil_iff_forall_not_mem.mpr fun b mem => none_free b (mem_free.mp mem)
  unfold nextFree
  rw [empty]
  rfl

end Sm

/-! ## The level (R155, R156) -/

/-- R155, R156: what the setting of the level leaves where SM holds `sm` and the level of `s`. -/
def LevelSet (s : State) (sm : Sm) (t : State) : Prop :=
  t.sm = { sm with pressure := pressureOf sm.freeCount,
                   reclaimDue := sm.reclaimDue || decide (pressureOf sm.freeCount ≠ s.sm.pressure) }
    ∧ (s.storeRuns = true → sm.freeCount < 2 → s.sm.pressure ≠ .tight →
        t.nu = s.nu.take s.noticeThreshold s.noticeDelay .storeFull)
    ∧ (s.storeRuns = true → 2 ≤ sm.freeCount → s.sm.pressure = .tight →
        t.nu = s.nu.take s.noticeThreshold s.noticeDelay .storeOk)
    ∧ (s.storeRuns = false ∨ (sm.freeCount < 2 ↔ s.sm.pressure = .tight) → t.nu = s.nu)
    ∧ t = { s with sm := t.sm, nu := t.nu }

theorem pressureOf_eq_tight_iff {free : Nat} : pressureOf free = .tight ↔ free < 2 := by
  unfold pressureOf
  split
  · exact ⟨nofun, fun few => by omega⟩
  · split
    · exact ⟨nofun, fun few => by omega⟩
    · exact ⟨fun _ => by omega, fun _ => rfl⟩

theorem State.setPressure_levelSet {s : State} {sm : Sm} (level : sm.pressure = s.sm.pressure) :
    LevelSet s sm (s.setSm sm).setPressure := by
  have tight := pressureOf_eq_tight_iff (free := sm.freeCount)
  have due : (pressureOf sm.freeCount != s.sm.pressure) = decide (pressureOf sm.freeCount ≠ s.sm.pressure) := (decide_not ..).symm
  have whole : (s.setSm sm).setPressure = { s with sm := (s.setSm sm).setPressure.sm, nu := (s.setSm sm).setPressure.nu } := by
    conv => lhs; rw [State.setPressure_same]
    rfl
  have nu : (s.setSm sm).setPressure.nu =
      if sm.freeCount < 2 ∧ s.sm.pressure ≠ .tight then (s.notify .storeFull).nu
      else if s.sm.pressure = .tight ∧ ¬ sm.freeCount < 2 then (s.notify .storeOk).nu else s.nu := by
    unfold State.setPressure
    rw [State.setSm_sm, level]
    simp only [Bool.and_eq_true, beq_iff_eq, bne_iff_ne, ne_eq, tight]
    split
    · rw [State.notify_eq, State.notify_eq]
      rfl
    · split
      · rw [State.notify_eq, State.notify_eq]
        rfl
      · rfl
  refine ⟨?_, fun runs few loose => ?_, fun runs many was => ?_, fun quiet => ?_, whole⟩
  · rw [← due, ← level]
    unfold State.setPressure
    dsimp only
    split
    · rw [State.notify_eq]
      rfl
    · split
      · rw [State.notify_eq]
        rfl
      · rfl
  · rw [nu, if_pos ⟨few, loose⟩, State.notify_of_running runs]
  · rw [nu, if_neg fun h => h.2 was, if_pos ⟨was, Nat.not_lt.mpr many⟩, State.notify_of_running runs]
  · rw [nu]
    rcases quiet with stopped | same
    · simp only [State.notify_of_not_running stopped, ite_self]
    · rw [if_neg fun h => h.2 (same.mp h.1), if_neg fun h => h.2 (same.mpr h.1)]

end Sys2Proof.Machine

namespace Sys2Proof.Proofs

open Sys2Proof.Machine Sys2Proof.Safety

/-- Settles O34: the level is set over the table that the opening or the erase leaves. -/
theorem pressureFollowsTheFreeCount : Obligations.PressureFollowsTheFreeCount := by
  refine ⟨fun s => State.setPressure_levelSet (s := s) (sm := s.sm) rfl, fun s b inside free =>
    ⟨State.setPressure_levelSet (s := s) rfl, ?_⟩, fun s b inside erasing => ⟨State.setPressure_levelSet (s := s) rfl, ?_⟩, fun s =>
    ⟨fun b opened only => ?_, fun closed stuck => ?_, fun closed stamps b free chosen => ?_⟩⟩
  · have := Sm.count_setBlock (sm := s.sm) (p := (· == .free)) inside
      { state := .opened, stamp := some (s.sm.stampHigh + 1), pages := 0, summary := [] }
    rw [free] at this
    exact this
  · have := Sm.count_setBlock (sm := s.sm) (p := (· == .free)) inside BlockEntry.reset
    rw [erasing] at this
    exact this
  · rw [State.withOpenBlock, Sm.openBlock_eq_some opened.1 opened.2 only]
  · rw [State.withOpenBlock, Sm.openBlock_eq_none closed]
    dsimp only
    split
    · rfl
    · rename_i stamps
      rw [Sm.nextFree_eq_none (stuck.resolve_left stamps)]
  · rw [State.withOpenBlock, Sm.openBlock_eq_none closed]
    dsimp only
    rw [if_neg (by exact stamps), Sm.nextFree_eq_some free chosen]

end Sys2Proof.Proofs

/-! The lookups one by one (R35 to R38), and a block selected for reclaim (R157 to R160). -/

namespace Sys2Proof.Machine

open Sys2Proof.Safety

/-! ## The lookup of one requester -/

theorem Sm.lookup_setLookup (sm : Sm) (who x : Requester) (l : Option Lookup) :
    (sm.setLookup who l).lookup x = if x = who then l else sm.lookup x := by cases who <;> cases x <;> rfl

theorem Fc.stepClaim_setStepClaim (fc : Fc) (who x : Requester) (c : Option StepClaim) :
    (fc.setStepClaim who c).stepClaim x = if x = who then c else fc.stepClaim x := by cases who <;> cases x <;> rfl

/-- What the lookup of `who` leaves of the other requester's. -/
structure LooksFor (who : Requester) (s t : State) : Prop extends Looks s t where
  lookup : ∀ x, x ≠ who → t.sm.lookup x = s.sm.lookup x
  claim : ∀ x, x ≠ who → t.fc.stepClaim x = s.fc.stepClaim x
  fetching : who = .fetch → t.rp = s.rp ∧ t.ap.counters = s.ap.counters
  serving : who = .serve → t.ap.fetch = s.ap.fetch

namespace LooksFor

variable {who : Requester} {s t u : State}

theorem refl (s : State) : LooksFor who s s := ⟨.refl s, fun _ _ => rfl, fun _ _ => rfl, fun _ => ⟨rfl, rfl⟩, fun _ => rfl⟩

theorem trans (h : LooksFor who s t) (k : LooksFor who t u) : LooksFor who s u where
  toLooks := h.toLooks.trans k.toLooks
  lookup x other := (k.lookup x other).trans (h.lookup x other)
  claim x other := (k.claim x other).trans (h.claim x other)
  fetching w := ⟨(k.fetching w).1.trans (h.fetching w).1, (k.fetching w).2.trans (h.fetching w).2⟩
  serving w := (k.serving w).trans (h.serving w)

theorem setLookup (s : State) (who : Requester) (l : Option Lookup) : LooksFor who s (s.setSm (s.sm.setLookup who l)) where
  toLooks := .setLookup s who l
  lookup x other := (s.sm.lookup_setLookup who x l).trans (if_neg other)
  claim _ _ := rfl
  fetching _ := ⟨rfl, rfl⟩
  serving _ := rfl

theorem setStepClaim (s : State) (who : Requester) (c : Option StepClaim) :
    LooksFor who s (s.setFc (s.fc.setStepClaim who c)) where
  toLooks := .setStepClaim s who c
  lookup _ _ := rfl
  claim x other := (s.fc.stepClaim_setStepClaim who x c).trans (if_neg other)
  fetching _ := ⟨rfl, rfl⟩
  serving _ := rfl

end LooksFor

namespace State

variable {s : State} {who : Requester} {l : Lookup}

theorem claimStep_looksFor (s : State) (who : Requester) (l : Lookup) (k : ReadKind) (p : PageAddr) :
    LooksFor who s (s.claimStep who l k p) := (LooksFor.setLookup s who _).trans (LooksFor.setStepClaim _ who _)

theorem lookup_claimStep (s : State) (who : Requester) (l : Lookup) (k : ReadKind) (p : PageAddr) :
    (s.claimStep who l k p).sm.lookup who = some { l with block := some p.block, page := p.page, step := .waiting } :=
  (Sm.lookup_setLookup ..).trans (if_pos rfl)

theorem stepClaim_claimStep (s : State) (who : Requester) (l : Lookup) (k : ReadKind) (p : PageAddr) :
    (s.claimStep who l k p).fc.stepClaim who = some { kind := k, page := p } :=
  (Fc.stepClaim_setStepClaim ..).trans (if_pos rfl)

/-- R39: a lookup ends, its state discarded; a step claim of it is no matter of the end. -/
theorem lookup_lookupEnds (s : State) (who : Requester) (l : Lookup) (r : LookupOutcome) :
    (s.lookupEnds who l r).sm.lookup who = none := by
  have set (x : Requester) : (s.sm.setLookup x none).lookup x = none := (Sm.lookup_setLookup ..).trans (if_pos rfl)
  cases who with
  | fetch => exact set .fetch
  | serve =>
    cases r with
    | found p =>
      rw [lookupEnds]
      unfold serveEnds
      dsimp only
      split <;> exact set .serve
    | damaged => exact set .serve
    | notFound => exact set .serve

theorem fc_lookupEnds (s : State) (who : Requester) (l : Lookup) (r : LookupOutcome) : (s.lookupEnds who l r).fc = s.fc := by
  cases who with
  | fetch => rfl
  | serve =>
    cases r with
    | found p =>
      rw [lookupEnds]
      unfold serveEnds
      dsimp only
      split <;> rfl
    | damaged => rfl
    | notFound => rfl

/-- R203: the end of the fetch's lookup without a record. -/
theorem fetch_lookupEnds (s : State) (l : Lookup) (damaged : Bool) :
    (s.lookupEnds .fetch l (if damaged then .damaged else .notFound)).ap =
      let outcome : FetchOutcome :=
        if (s.entry l.origin).settled l.seq = false then .notHeld else if damaged = true then .damaged else .lost
      { s.ap with fetch := .done l.origin l.seq outcome } := by
  unfold lookupEnds fetchEnds
  dsimp only
  rw [setSm_entry, setSm_ap]
  cases (s.entry l.origin).settled l.seq <;> cases damaged <;> rfl

/-- R180: the end of the serve's lookup without a record. -/
theorem serve_lookupEnds (s : State) (l : Lookup) (damaged : Bool) :
    let t := s.lookupEnds .serve l (if damaged then .damaged else .notFound)
    t.rp = { s.rp with notHeld := some { number := l.seq, older := s.rp.busy.length } }
      ∧ t.ap = if damaged then (s.bump .damagedReads).ap else s.ap := by
  cases damaged <;> exact ⟨rfl, rfl⟩

theorem lookupEnds_looksFor (s : State) (who : Requester) (l : Lookup) {r : LookupOutcome} (h : ∀ p, r ≠ .found p) :
    LooksFor who s (s.lookupEnds who l r) := by
  have looks := lookupEnds_looks s who l h
  cases who with
  | fetch =>
    refine ⟨looks, fun x other => ?_, fun _ _ => by rw [fc_lookupEnds], fun _ => ⟨rfl, rfl⟩, fun e => (by cases e)⟩
    exact (s.sm.lookup_setLookup .fetch x none).trans (if_neg other)
  | serve =>
    cases r with
    | found p => exact absurd rfl (h p)
    | damaged | notFound =>
      refine ⟨looks, fun x other => ?_, fun _ _ => by rw [fc_lookupEnds], fun e => (by cases e), fun _ => rfl⟩
      exact (s.sm.lookup_setLookup .serve x none).trans (if_neg other)

theorem choose_of_candidate {st b : Nat} (h : s.sm.candidate l.origin l.seq l.bound = some (st, b)) :
    s.choose who l = s.claimStep who { l with bound := some (st, b) } .spare { block := b, page := (s.sm.block b).pages - 1 } := by
  rw [choose, h]

theorem choose_of_none (h : s.sm.candidate l.origin l.seq l.bound = none) :
    s.choose who l = s.lookupEnds who l (if l.damaged then .damaged else .notFound) := by
  rw [choose, h]

theorem choose_looksFor (s : State) (who : Requester) (l : Lookup) : LooksFor who s (s.choose who l) := by
  unfold choose
  split
  · exact claimStep_looksFor ..
  · exact lookupEnds_looksFor s who l fun p => by split <;> exact fun e => by cases e

theorem leaveBlock_looksFor (s : State) (b : Nat) (who : Requester) : LooksFor who s (s.leaveBlock b who) := by
  unfold leaveBlock
  split
  · exact .refl s
  · split
    · split
      · exact (LooksFor.setStepClaim s who none).trans (choose_looksFor ..)
      · exact LooksFor.setLookup ..
      · exact .refl s
    · exact .refl s

end State

/-! ## A lookup leaves its block (R38) -/

/-- R38: what becomes of the lookup of `who` from `s` to `t` when block `b` is selected. -/
def LookupLeft (who : Requester) (b : Nat) (s t : State) : Prop :=
  ((∀ l, s.sm.lookup who = some l → l.block ≠ some b ∨ l.step = .leaving) →
      t.sm.lookup who = s.sm.lookup who ∧ t.fc.stepClaim who = s.fc.stepClaim who)
    ∧ ∀ l, s.sm.lookup who = some l → l.block = some b →
      (l.step = .running → t.sm.lookup who = some { l with step := .leaving } ∧ t.fc.stepClaim who = s.fc.stepClaim who)
      ∧ (l.step = .waiting →
          (∀ st a, t.sm.candidate l.origin l.seq l.bound = some (st, a) →
            let page := (t.sm.block a).pages - 1
            t.sm.lookup who = some { l with block := some a, page := page, bound := some (st, a), step := .waiting }
              ∧ t.fc.stepClaim who = some { kind := .spare, page := { block := a, page := page } })
          ∧ (t.sm.candidate l.origin l.seq l.bound = none →
              t.sm.lookup who = none ∧ t.fc.stepClaim who = none
              ∧ (who = .fetch → t.ap.fetch = .done l.origin l.seq
                  (if (t.entry l.origin).settled l.seq = false then .notHeld
                   else if l.damaged = true then .damaged else .lost))
              ∧ (who = .serve → t.rp.notHeld = some { number := l.seq, older := s.rp.busy.length }
                  ∧ t.counter .damagedReads
                    = if l.damaged = true then min 65535 (s.counter .damagedReads + 1) else s.counter .damagedReads)))

theorem Sm.candidate_congr {sm sm' : Sm} (h : sm'.table = sm.table) (o n : Nat) (bound : Option (Nat × Nat)) :
    sm'.candidate o n bound = sm.candidate o n bound := by rw [candidate, h, candidate]

namespace State

variable {s : State} {who : Requester} {b : Nat}

theorem leaveBlock_of_apart (h : ∀ l, s.sm.lookup who = some l → l.block ≠ some b ∨ l.step = .leaving) :
    s.leaveBlock b who = s := by
  unfold leaveBlock
  split
  · rfl
  · next l hl =>
    split
    · next here =>
      rw [(h l hl).resolve_left (not_not_intro (beq_iff_eq.mp here))]
    · rfl

theorem leaveBlock_running {l : Lookup} (hl : s.sm.lookup who = some l) (here : l.block = some b) (running : l.step = .running) :
    s.leaveBlock b who = s.setSm (s.sm.setLookup who (some { l with step := .leaving })) := by
  rw [leaveBlock, hl]
  dsimp only
  rw [here, beq_self_eq_true, if_pos rfl, running]

theorem leaveBlock_waiting {l : Lookup} (hl : s.sm.lookup who = some l) (here : l.block = some b) (waiting : l.step = .waiting) :
    s.leaveBlock b who = (s.setFc (s.fc.setStepClaim who none)).choose who l := by
  rw [leaveBlock, hl]
  dsimp only
  rw [here, beq_self_eq_true, if_pos rfl, waiting]

theorem leaveBlock_lookupLeft (s : State) (b : Nat) (who : Requester) : LookupLeft who b s (s.leaveBlock b who) := by
  have looks := leaveBlock_looks s b who
  refine ⟨fun apart => by rw [leaveBlock_of_apart apart]; exact ⟨rfl, rfl⟩, fun l hl here => ⟨fun running => ?_, fun waiting => ⟨?_, ?_⟩⟩⟩
  · rw [leaveBlock_running hl here running]
    exact ⟨(Sm.lookup_setLookup ..).trans (if_pos rfl), rfl⟩
  · intro st a found
    rw [Sm.candidate_congr looks.table] at found
    dsimp only
    rw [looks.block, leaveBlock_waiting hl here waiting, choose_of_candidate (s := s.setFc (s.fc.setStepClaim who none)) found]
    exact ⟨lookup_claimStep .., stepClaim_claimStep ..⟩
  · intro none_left
    rw [Sm.candidate_congr looks.table] at none_left
    have settled : ((s.leaveBlock b who).entry l.origin).settled l.seq = (s.entry l.origin).settled l.seq := by
      rw [State.entry, looks.hu, State.entry]
    rw [settled, leaveBlock_waiting hl here waiting, choose_of_none (s := s.setFc (s.fc.setStepClaim who none)) none_left]
    refine ⟨lookup_lookupEnds .., ?_, fun fetching => ?_, fun serving => ?_⟩
    · rw [fc_lookupEnds]
      exact (Fc.stepClaim_setStepClaim ..).trans (if_pos rfl)
    · subst fetching
      rw [fetch_lookupEnds]
      rfl
    · subst serving
      obtain ⟨rp, ap⟩ := serve_lookupEnds (s.setFc (s.fc.setStepClaim .serve none)) l l.damaged
      refine ⟨congrArg Rp.notHeld rp, ?_⟩
      rw [counter, ap]
      cases l.damaged with
      | false => rfl
      | true => exact counter_bump_self s .damagedReads

end State

end Sys2Proof.Machine

/-! What the selection of a block leaves (R32, R38, R88, R160), and how many selections one evaluation makes (R157). -/

namespace Sys2Proof.Machine

open Sys2Proof.Safety

/-! ## Floors raised for a summary (R88, R89) -/

namespace State

theorem entry_floorRaise (s : State) (o f p : Nat) : (s.floorRaise o f).entry p
    = if o = p ∧ (1 ≤ o ∧ o ≤ 24) ∧ o ≤ s.originLimit then (s.entry o).raiseFloor f else s.entry p := by
  unfold floorRaise
  by_cases beyond : s.originLimit < o
  · rw [if_pos beyond, if_neg (by omega)]
  · rw [if_neg beyond, entry_putEntry]
    refine ite_congr (propext ?_) (fun _ => rfl) fun _ => rfl
    omega

theorem originLimit_floorRaise (s : State) (o f : Nat) : (s.floorRaise o f).originLimit = s.originLimit := by
  rw [originLimit, (floorRaise_reclaims s o f).sc, originLimit]

theorem raiseFloors_cons (s : State) (l : SummaryLine) (m : List SummaryLine) :
    s.raiseFloors (l :: m) = (s.floorRaise l.origin (l.highest + 1)).raiseFloors m := rfl

/-- R88, R89: an origin without a line, or above N, keeps its entry. -/
theorem raiseFloors_entry_other {o : Nat} : (m : List SummaryLine) → (s : State) →
    s.originLimit < o ∨ (∀ l ∈ m, l.origin ≠ o) → (s.raiseFloors m).entry o = s.entry o
  | [], _, _ => rfl
  | l :: m, s, h => by
    rw [raiseFloors_cons, raiseFloors_entry_other m]
    · rw [entry_floorRaise, if_neg]
      rintro ⟨rfl, -, within⟩
      rcases h with beyond | absent
      · omega
      · exact absent l List.mem_cons_self rfl
    · rw [originLimit_floorRaise]
      exact h.imp_right fun absent l mem => absent l (List.mem_cons_of_mem _ mem)

/-- R88: with one line for each origin, a line's origin has its floor raised behind the line. -/
theorem raiseFloors_entry_line {l : SummaryLine} : (m : List SummaryLine) → (s : State) →
    m.Pairwise (fun l k => l.origin < k.origin) → l ∈ m → 1 ≤ l.origin → l.origin ≤ 24 → l.origin ≤ s.originLimit →
    (s.raiseFloors m).entry l.origin = (s.entry l.origin).raiseFloor (l.highest + 1)
  | [], _, _, mem, _, _, _ => by cases mem
  | k :: m, s, apart, mem, low, high, within => by
    obtain ⟨first, rest⟩ := List.pairwise_cons.mp apart
    rw [raiseFloors_cons]
    rcases List.mem_cons.mp mem with rfl | mem
    · rw [raiseFloors_entry_other m _ (.inr fun k mem => (Nat.ne_of_gt (first k mem))), entry_floorRaise,
        if_pos ⟨rfl, ⟨low, high⟩, within⟩]
    · have other := first l mem
      rw [raiseFloors_entry_line m _ rest mem low high (by rwa [originLimit_floorRaise]), entry_floorRaise, if_neg (by omega)]

end State

/-- What an entry's change may reach beside the entries: the waiting mark, the debts, D and its notice. -/
structure EntriesMove (s t : State) : Prop where
  same : t = { s with
    hu := t.hu, fc := { s.fc with programClaim := t.fc.programClaim }, rp := { s.rp with rerunDue := t.rp.rerunDue },
    nu := t.nu, sm := { s.sm with reclaimDue := t.sm.reclaimDue } }

namespace EntriesMove

theorem refl (s : State) : EntriesMove s s := ⟨rfl⟩

theorem trans {s t u : State} (h : EntriesMove s t) (k : EntriesMove t u) : EntriesMove s u where
  same := by
    conv => lhs; rw [k.same]
    conv => lhs; rw [h.same]

theorem putEntry (s : State) (o : Nat) (e : Entry) : EntriesMove s (s.putEntry o e) where
  same := by
    conv => lhs; rw [State.putEntry_same]
    rw [State.putEntry_same]

theorem floorRaise (s : State) (o f : Nat) : EntriesMove s (s.floorRaise o f) := by
  unfold State.floorRaise
  split
  · exact .refl s
  · exact putEntry ..

theorem raiseFloors : (m : List SummaryLine) → (s : State) → EntriesMove s (s.raiseFloors m)
  | [], s => .refl s
  | l :: m, s => (floorRaise s l.origin (l.highest + 1)).trans (raiseFloors m _)

end EntriesMove

namespace State

/-! ## The selection of a block -/

/-- R32, R160: the entry that a selected block gets. -/
def selectedEntry (e : BlockEntry) : BlockEntry :=
  if e.state = .retiring then retiredEntry .worn else { e with state := .erasing }

/-- Floors raised and the block taken, before the lookups leave it. -/
def taken (s : State) (b : Nat) : State :=
  (s.raiseFloors (s.sm.block b).summary).putBlock b (selectedEntry (s.sm.block b))

/-- The lookups have left the block. -/
def left (s : State) (b : Nat) : State := ((s.taken b).leaveBlock b .fetch).leaveBlock b .serve

theorem select_retiring {s : State} {b : Nat} (h : (s.sm.block b).state = .retiring) :
    s.select b = (s.left b).setFc { (s.left b).fc with markClaims := (s.left b).fc.markClaims ++ [{ block := b, value := 0x3C#8 }] } := by
  unfold select left taken selectedEntry
  simp only [h, beq_self_eq_true, if_true]

theorem select_sealed {s : State} {b : Nat} (h : (s.sm.block b).state = .sealed) :
    s.select b = (s.left b).setFc { (s.left b).fc with eraseClaim := some b } := by
  unfold select left taken selectedEntry
  simp only [h, beq_iff_eq, reduceCtorEq, if_false]

/-- The blocks take the selection as one claim of FC over the lookups left. -/
theorem select_eq {s : State} {b : Nat} (h : (s.sm.block b).state = .sealed ∨ (s.sm.block b).state = .retiring) :
    ∃ marks erase, s.select b = (s.left b).setFc { (s.left b).fc with markClaims := marks, eraseClaim := erase } := by
  rcases h with h | h
  · exact ⟨_, _, select_sealed h⟩
  · exact ⟨_, _, select_retiring h⟩

theorem taken_table (s : State) (b : Nat) : (s.taken b).sm.table = (s.sm.setBlock b (selectedEntry (s.sm.block b))).table := by
  unfold taken Sm.setBlock putBlock
  rw [setSm_sm, Sm.setBlock, raiseFloors_table]

theorem left_looks (s : State) (b : Nat) : Looks (s.taken b) (s.left b) := (leaveBlock_looks ..).trans (leaveBlock_looks ..)

variable {s : State} {b : Nat}

theorem select_sm (h : (s.sm.block b).state = .sealed ∨ (s.sm.block b).state = .retiring) : (s.select b).sm = (s.left b).sm := by
  obtain ⟨marks, erase, e⟩ := select_eq h
  rw [e, setFc_sm]

theorem select_table (h : (s.sm.block b).state = .sealed ∨ (s.sm.block b).state = .retiring) :
    (s.select b).sm.table = (s.sm.setBlock b (selectedEntry (s.sm.block b))).table := by
  rw [select_sm h, (left_looks s b).table, taken_table]

theorem select_block (h : (s.sm.block b).state = .sealed ∨ (s.sm.block b).state = .retiring) (a : Nat) :
    (s.select b).sm.block a = if b = a ∧ b < 640 then selectedEntry (s.sm.block b) else s.sm.block a := by
  rw [Sm.block, select_table h]
  exact Sm.block_setBlock ..

theorem select_reclaimDue (h : (s.sm.block b).state = .sealed ∨ (s.sm.block b).state = .retiring) :
    (s.select b).sm.reclaimDue = true := by
  rw [select_sm h, (left_looks s b).same]
  rfl

theorem select_entry (s : State) (b o : Nat) :
    (s.select b).entry o = (s.raiseFloors (s.sm.block b).summary).entry o := by
  rw [entry, select_hu, entry]

theorem taken_same (s : State) (b : Nat) : s.taken b = { s with
    hu := (s.taken b).hu, fc := { s.fc with programClaim := (s.taken b).fc.programClaim },
    rp := { s.rp with rerunDue := (s.taken b).rp.rerunDue }, nu := (s.taken b).nu,
    sm := { s.sm.setBlock b (selectedEntry (s.sm.block b)) with reclaimDue := true } } := by
  have floors := (EntriesMove.raiseFloors (s.sm.block b).summary s).same
  unfold taken putBlock
  generalize s.raiseFloors (s.sm.block b).summary = u at floors ⊢
  conv => lhs; rw [setSm, Sm.setBlock, floors]
  rfl

theorem left_markClaims (s : State) (b : Nat) : (s.left b).fc.markClaims = s.fc.markClaims := by
  rw [(left_looks s b).same, taken_same]

theorem left_eraseClaim (s : State) (b : Nat) : (s.left b).fc.eraseClaim = s.fc.eraseClaim := by
  rw [(left_looks s b).same, taken_same]

theorem left_lookupLeft (s : State) (b : Nat) (who : Requester) : LookupLeft who b (s.taken b) (s.left b) := by
  have serves := leaveBlock_looksFor ((s.taken b).leaveBlock b .fetch) b .serve
  have fetches := leaveBlock_looksFor (s.taken b) b .fetch
  cases who with
  | fetch =>
    obtain ⟨apart, here⟩ := leaveBlock_lookupLeft (s.taken b) b .fetch
    have entry (o : Nat) : (((s.taken b).leaveBlock b .fetch).leaveBlock b .serve).entry o
        = ((s.taken b).leaveBlock b .fetch).entry o := by rw [State.entry, serves.hu, State.entry]
    unfold LookupLeft left
    simp only [serves.lookup .fetch (by decide), serves.claim .fetch (by decide), entry, serves.block,
      Sm.candidate_congr serves.table, serves.serving rfl]
    refine ⟨apart, fun l hl hb => ⟨(here l hl hb).1, fun waiting => ?_⟩⟩
    obtain ⟨found, none_left⟩ := (here l hl hb).2 waiting
    exact ⟨found, fun h => ⟨(none_left h).1, (none_left h).2.1, fun _ => (none_left h).2.2.1 rfl, fun e => by cases e⟩⟩
  | serve =>
    obtain ⟨apart, here⟩ := leaveBlock_lookupLeft ((s.taken b).leaveBlock b .fetch) b .serve
    rw [fetches.lookup .serve (by decide), fetches.claim .serve (by decide)] at apart
    rw [fetches.lookup .serve (by decide), fetches.claim .serve (by decide), (fetches.fetching rfl).1] at here
    have counter : ((s.taken b).leaveBlock b .fetch).counter .damagedReads = (s.taken b).counter .damagedReads := by
      rw [State.counter, (fetches.fetching rfl).2, State.counter]
    rw [counter] at here
    exact ⟨apart, here⟩

/-- R38: what becomes of the lookup of either requester. -/
theorem select_lookupLeft (h : (s.sm.block b).state = .sealed ∨ (s.sm.block b).state = .retiring) (who : Requester) :
    LookupLeft who b s (s.select b) := by
  obtain ⟨marks, erase, e⟩ := select_eq h
  have taken := taken_same s b
  have lookup : (s.taken b).sm.lookup who = s.sm.lookup who := by
    rw [taken]
    cases who <;> rfl
  have claim : (s.taken b).fc.stepClaim who = s.fc.stepClaim who := by
    rw [taken]
    cases who <;> rfl
  have busy : (s.taken b).rp.busy = s.rp.busy := by rw [taken]
  have counter : (s.taken b).counter .damagedReads = s.counter .damagedReads := by
    rw [taken]
    rfl
  have left := left_lookupLeft s b who
  unfold LookupLeft at left
  rw [lookup, claim, busy, counter] at left
  rw [e]
  cases who <;> exact left

/-! ## The number of selections (R157) -/

/-- R157: a SEALED block selected becomes ERASING, and nothing is selected while it is; a RETIRING one is RETIRED. -/
theorem select_count (h : s.selection = some b) : (s.select b).sm.count BlockState.old + 1 = s.sm.count BlockState.old := by
  obtain ⟨inside, state, -⟩ := old_of_selection h
  have counted := Sm.count_setBlock (sm := s.sm) (p := BlockState.old) inside (selectedEntry (s.sm.block b))
  have young : (selectedEntry (s.sm.block b)).state.old = false := by
    unfold selectedEntry
    split <;> rfl
  rw [young, BlockState.old_iff.mpr state] at counted
  rw [Sm.count, select_table state]
  exact counted

theorem selection_eq_none (h : s.sm.count BlockState.old = 0) : s.selection = none := by
  rw [Option.eq_none_iff_forall_ne_some]
  intro b selected
  obtain ⟨inside, old, -⟩ := old_of_selection selected
  have := Sm.count_eq_zero_iff.mp h b inside
  rw [BlockState.old_iff.mpr old] at this
  cases this

theorem reclaimRounds_of_none (h : s.selection = none) : (n : Nat) → s.reclaimRounds n = s
  | 0 => rfl
  | n + 1 => by rw [reclaimRounds, h]

theorem reclaimRounds_of_some (h : s.selection = some b) (n : Nat) :
    s.reclaimRounds (n + 1) = (s.select b).reclaimRounds n := by rw [reclaimRounds, h]

/-- As many rounds as there are old blocks are enough. -/
theorem reclaimRounds_enough : (n m : Nat) → (s : State) → s.sm.count BlockState.old ≤ n → s.sm.count BlockState.old ≤ m →
    s.reclaimRounds n = s.reclaimRounds m
  | n, m, s, hn, hm => by
    cases selected : s.selection with
    | none => rw [reclaimRounds_of_none selected, reclaimRounds_of_none selected]
    | some b =>
      have fewer := select_count selected
      obtain ⟨n, rfl⟩ : ∃ k, n = k + 1 := ⟨n - 1, by omega⟩
      obtain ⟨m, rfl⟩ : ∃ k, m = k + 1 := ⟨m - 1, by omega⟩
      rw [reclaimRounds_of_some selected, reclaimRounds_of_some selected]
      exact reclaimRounds_enough n m _ (by omega) (by omega)

/-- R158: the block that reclaim looks at: the old block of the lowest stamp, of the lowest number. -/
theorem reclaimCandidate_eq_some_iff {sm : Sm} {b : Nat} : sm.reclaimCandidate = some b ↔
    (b < 640 ∧ (sm.block b).state.old = true) ∧ ∀ b', b' < 640 ∧ (sm.block b').state.old = true →
      (sm.block b).stamp.getD 0 < (sm.block b').stamp.getD 0
        ∨ ((sm.block b).stamp.getD 0 = (sm.block b').stamp.getD 0 ∧ b ≤ b') := by
  obtain ⟨absent, present⟩ := reclaimCandidate_spec sm
  constructor
  · intro e
    obtain ⟨inside, old, least⟩ := present b e
    exact ⟨⟨inside, old⟩, fun b' h => least b' h.1 h.2⟩
  · rintro ⟨⟨inside, old⟩, least⟩
    cases e : sm.reclaimCandidate with
    | none =>
      rw [absent e b inside] at old
      cases old
    | some c =>
      obtain ⟨inside', old', least'⟩ := present c e
      have le := least c ⟨inside', old'⟩
      have ge := least' b inside old
      rw [Option.some.injEq]
      omega

theorem eligible_iff : s.eligible b = true ↔
    (∀ l, l ∈ (s.sm.block b).summary → l.origin = s.own → l.highest ≤ s.hu.durable)
      ∧ ∀ p, s.sm.newestPage = some p → p.block ≠ b := by
  unfold eligible Sm.newestFlag
  rw [Bool.and_eq_true, List.all_eq_true, Bool.not_eq_true']
  refine and_congr (forall_congr' fun l => imp_congr_right fun _ => ?_) ?_
  · rw [Bool.or_eq_true, bne_iff_ne, decide_eq_true_eq]
    exact Decidable.imp_iff_not_or.symm
  · cases s.sm.newestPage <;> simp

end State

/-- R35: the blocks that a lookup searches below its bound. -/
theorem searched_iff {sm : Sm} {o n b : Nat} {bound : Option (Nat × Nat)} :
    ((sm.block b).state.searched && covers (sm.block b).summary o n && belowBound ((sm.block b).stamp.getD 0) b bound) = true ↔
      ((sm.block b).state = .opened ∨ (sm.block b).state = .sealed ∨ (sm.block b).state = .retiring)
        ∧ covers (sm.block b).summary o n = true
        ∧ ∀ st bb, bound = some (st, bb) →
          (sm.block b).stamp.getD 0 < st ∨ ((sm.block b).stamp.getD 0 = st ∧ b < bb) := by
  rw [Bool.and_eq_true, Bool.and_eq_true, and_assoc]
  refine and_congr ?_ (and_congr_right fun _ => ?_)
  · cases (sm.block b).state <;> simp [BlockState.searched]
  · cases bound with
    | none => simp [belowBound]
    | some k =>
      rw [belowBound_some]
      exact ⟨fun h st bb e => by cases e; exact h, fun h => h _ _ rfl⟩

end Sys2Proof.Machine

namespace Sys2Proof.Proofs

open Sys2Proof.Machine Sys2Proof.Safety

/-- Settles O38. -/
theorem blocksAreChosenAndReclaimed : Obligations.BlocksAreChosenAndReclaimed := by
  refine ⟨fun sm o n bound => ⟨fun st b found => ?_, fun none_left b fits => ?_⟩, fun s b => ?_, fun s b inside state => ?_,
    fun s n => ⟨fun none_left => State.reclaimRounds_of_none none_left n, fun b selected => State.reclaimRounds_of_some selected n,
      fun many => ?_⟩, fun s => ⟨fun idle => ?_, fun due runs => ?_, fun due stopped => ?_⟩⟩
  · obtain ⟨inside, stamp, fits, latest⟩ := (candidate_spec sm o n bound).2 st b found
    refine ⟨⟨inside, searched_iff.mp (stamp ▸ fits)⟩, stamp, fun b' fits' => ?_⟩
    exact latest b' fits'.1 (searched_iff.mpr fits'.2)
  · have := (candidate_spec sm o n bound).1 none_left b fits.1
    rw [searched_iff.mpr fits.2] at this
    cases this
  · rw [selection_eq_some_iff, Sm.count_eq_zero_iff, State.reclaimCandidate_eq_some_iff, State.eligible_iff]
    simp only [BlockState.old_iff, beq_eq_false_iff_ne, ne_eq, and_assoc]
  · have left (who : Requester) := State.select_lookupLeft state who
    refine ⟨fun sealed => ⟨?_, ?_, ?_⟩, fun retiring => ⟨?_, ?_, ?_⟩, fun a other => ?_, fun o other => ?_,
      fun apart l mem low high within => ?_, (State.select_reclaims state).newNotices, fun who => ?_, fun who l hl here => ?_, ?_⟩
    · rw [State.select_block state, if_pos ⟨rfl, inside⟩, State.selectedEntry, if_neg (by rw [sealed]; decide)]
    · rw [State.select_sealed sealed]
      rfl
    · rw [State.select_sealed sealed]
      exact State.left_markClaims s b
    · rw [State.select_block state, if_pos ⟨rfl, inside⟩, State.selectedEntry, if_pos retiring]
      rfl
    · rw [State.select_retiring retiring]
      exact congrArg (· ++ _) (State.left_markClaims s b)
    · rw [State.select_retiring retiring]
      exact State.left_eraseClaim s b
    · rw [State.select_block state, if_neg fun h => other h.1.symm]
    · rw [State.select_entry]
      exact State.raiseFloors_entry_other _ s other
    · rw [State.select_entry]
      exact State.raiseFloors_entry_line _ s apart mem low high within
    · cases who <;> exact (left _).1
    · cases who <;> exact (left _).2 l hl here
    · conv => lhs; rw [(State.select_reclaims state).same]
      rw [State.select_reclaimDue state]
  · exact State.reclaimRounds_enough n 641 s (Nat.le_trans Sm.count_le (by omega)) (Nat.le_trans Sm.count_le (by decide))
  · rw [State.evaluateReclaim, idle]
    rfl
  · rw [State.evaluateReclaim, if_pos due, runs]
    rfl
  · rw [State.evaluateReclaim, if_pos due, stopped]
    rfl

end Sys2Proof.Proofs

/-! Records and spare areas on flash read back (R20 to R22, R37, Tables 12-5 and 12-6). -/

namespace Sys2Proof.Machine

open Sys2Proof.Safety

/-! ## The record list (Table 12-6) -/

/-- `n` list entries from the front of `bytes`. -/
def listEntriesOf (n : Nat) (bytes : List Byte) : List ListEntry :=
  (List.range n).map fun i =>
    { origin := field bytes (7 * i) 1, seq := field bytes (7 * i + 1) 4, offset := field bytes (7 * i + 5) 2 }

theorem length_listEntryBytes (e : ListEntry) : (listEntryBytes e).length = 7 := by
  simp only [listEntryBytes, List.length_append, length_toBytes]

theorem length_flatMap_listEntryBytes : (l : List ListEntry) → (l.flatMap listEntryBytes).length = 7 * l.length
  | [] => rfl
  | e :: l => by
    rw [List.flatMap_cons, List.length_append, length_listEntryBytes, length_flatMap_listEntryBytes l, List.length_cons]
    omega

theorem listEntriesOf_cons {e : ListEntry} (origin : e.origin < 256) (seq : e.seq < 2 ^ 32) (offset : e.offset < 2 ^ 16) (n : Nat)
    (y : List Byte) : listEntriesOf (n + 1) (listEntryBytes e ++ y) = e :: listEntriesOf n y := by
  have behind (i off len : Nat) : field (listEntryBytes e ++ y) (7 * (i + 1) + off) len = field y (7 * i + off) len := by
    rw [field_append_skip (by rw [length_listEntryBytes]; omega), length_listEntryBytes]
    congr 1
    omega
  have first : ListEntry.mk (field (listEntryBytes e ++ y) 0 1) (field (listEntryBytes e ++ y) 1 4)
      (field (listEntryBytes e ++ y) 5 2) = e := by
    simp (decide := true) only [listEntryBytes, List.append_assoc, field_behind, Nat.reduceSub, Nat.reduceLeDiff]
    rw [field_toBytes origin, field_toBytes seq, field_toBytes offset]
  rw [listEntriesOf, List.range_succ_eq_map, List.map_cons, List.map_map]
  refine List.cons_eq_cons.mpr ⟨first, List.map_congr_left fun i _ => ?_⟩
  have origins := behind i 0 1
  have seqs := behind i 1 4
  have offsets := behind i 5 2
  show ListEntry.mk _ _ _ = ListEntry.mk _ _ _
  rw [← seqs, ← offsets]
  exact congrArg (ListEntry.mk · _ _) origins

theorem listEntriesOf_flatMap : (l : List ListEntry) → (y : List Byte) →
    (∀ e ∈ l, e.origin < 256 ∧ e.seq < 2 ^ 32 ∧ e.offset < 2 ^ 16) → listEntriesOf l.length (l.flatMap listEntryBytes ++ y) = l
  | [], _, _ => rfl
  | e :: l, y, small => by
    obtain ⟨origin, seq, offset⟩ := small e List.mem_cons_self
    rw [List.flatMap_cons, List.append_assoc, List.length_cons, listEntriesOf_cons origin seq offset,
      listEntriesOf_flatMap l y fun e mem => small e (List.mem_cons_of_mem _ mem)]

/-! ## The spare area (Table 12-6) -/

theorem length_erasedBytes (n : Nat) : (erasedBytes n).length = n := List.length_replicate

section
variable {list : List ListEntry} {stamp ownTop : Nat} {check : Check}

theorem spareArea_eq (list : List ListEntry) (stamp ownTop : Nat) (check : Check) : spareArea list stamp ownTop check =
    0xFF#8 :: (toBytes 1 list.length ++ (toBytes 4 stamp ++ (toBytes 4 ownTop ++ (checkBytes check
      ++ (list.flatMap listEntryBytes ++ (erasedBytes (56 - 7 * list.length) ++ erasedBytes 26)))))) := by
  simp only [spareArea, List.append_assoc, List.cons_append, List.nil_append]

theorem length_spareArea (few : list.length ≤ 8) : (spareArea list stamp ownTop check).length = 96 := by
  simp only [spareArea_eq, List.length_append, List.length_cons, length_toBytes, checkBytes, length_flatMap_listEntryBytes,
    length_erasedBytes]
  omega

theorem spareCount_spareArea (few : list.length ≤ 8) : spareCount (spareArea list stamp ownTop check) = list.length := by
  rw [spareCount, spareArea_eq, field_behind_byte (by decide)]
  exact field_toBytes (by omega) _

theorem spareStamp_spareArea (h : stamp < 2 ^ 32) : spareStamp (spareArea list stamp ownTop check) = stamp := by
  rw [spareStamp, spareArea_eq, field_behind_byte (by decide), field_behind (by decide)]
  exact field_toBytes h _

theorem spareOwnTop_spareArea (h : ownTop < 2 ^ 32) : spareOwnTop (spareArea list stamp ownTop check) = ownTop := by
  rw [spareOwnTop, spareArea_eq, field_behind_byte (by decide), field_behind (by decide), field_behind (by decide)]
  exact field_toBytes h _

theorem sparePageCheck_spareArea : sparePageCheck (spareArea list stamp ownTop check) = check := by
  rw [sparePageCheck, checkField, spareArea_eq, field_behind_byte (by decide), field_behind (by decide), field_behind (by decide),
    field_behind (by decide)]
  exact checkField_checkBytes ..

theorem spareList_spareArea (few : list.length ≤ 8) (small : ∀ e ∈ list, e.origin < 256 ∧ e.seq < 2 ^ 32 ∧ e.offset < 2 ^ 16) :
    spareList (spareArea list stamp ownTop check) = list := by
  have behind (off len : Nat) : field (spareArea list stamp ownTop check) (14 + off) len
      = field (list.flatMap listEntryBytes ++ (erasedBytes (56 - 7 * list.length) ++ erasedBytes 26)) off len := by
    rw [spareArea_eq, field_behind_byte (by omega), field_behind (by omega), field_behind (by omega), field_behind (by omega),
      checkBytes, field_behind (by omega)]
    congr 1
    omega
  refine Eq.trans ?_ (listEntriesOf_flatMap list (erasedBytes (56 - 7 * list.length) ++ erasedBytes 26) small)
  rw [spareList, spareCount_spareArea few, listEntriesOf]
  refine List.map_congr_left fun i _ => ?_
  rw [← behind, ← behind, ← behind]
  congr 2 <;> omega

end

/-! ## A record (Table 12-5, R37) -/

theorem length_recordBytes (origin seq : Nat) (check : Check) (payload : List Byte) :
    (recordBytes origin seq check payload).length = recordSpan payload.length := by
  simp only [recordBytes, List.length_append, length_toBytes, checkBytes, length_erasedBytes, List.length_singleton, recordSpan]
  omega

theorem recordBytes_eq (origin seq : Nat) (check : Check) (payload : List Byte) : recordBytes origin seq check payload =
    toBytes 1 origin ++ (0xA5#8 :: (toBytes 2 payload.length ++ (toBytes 4 seq ++ (checkBytes check
      ++ (payload ++ erasedBytes (recordSpan payload.length - (12 + payload.length))))))) := by
  simp only [recordBytes, List.append_assoc, List.cons_append, List.nil_append]

/-- The fields of a record at the front of `bytes`. -/
theorem record_fields {origin seq : Nat} {check : Check} {payload : List Byte} (ho : origin < 256) (hs : seq < 2 ^ 32)
    (hp : payload.length < 2 ^ 16) (y : List Byte) :
    let record := recordBytes origin seq check payload ++ y
    field record 0 1 = origin ∧ field record 1 1 = 0xA5 ∧ field record 2 2 = payload.length ∧ field record 4 4 = seq
      ∧ checkField record 8 = check ∧ slice record 12 payload.length = payload := by
  dsimp only
  rw [recordBytes_eq, checkField]
  simp (decide := true) only [List.append_assoc, List.cons_append, field_behind, field_behind_byte, Nat.reduceSub, Nat.reduceLeDiff]
  refine ⟨field_toBytes ho _, field_byte _ _, field_toBytes hp _, field_toBytes hs _, checkField_checkBytes .., ?_⟩
  have skip {k n off len : Nat} (h : k ≤ off) (y : List Byte) : slice (toBytes k n ++ y) off len = slice y (off - k) len := by
    rw [slice_append_skip (by rwa [length_toBytes]), length_toBytes]
  rw [skip (by decide), ← List.singleton_append, slice_append_skip (by decide), List.length_singleton, skip (by decide),
    skip (by decide), checkBytes, skip (by decide)]
  exact slice_append_head rfl

theorem length_paddedData {data : List Byte} (h : data.length ≤ 3072) : (paddedData data).length = 3072 := by
  rw [paddedData, List.length_append, length_erasedBytes]
  show data.length + (3072 - data.length) = 3072
  omega

end Sys2Proof.Machine

namespace Sys2Proof.Proofs

open Sys2Proof.Machine Sys2Proof.Safety

/-- Settles O36: the spare area and the record one field after the other. -/
theorem placedRecordReadsBack : Obligations.PlacedRecordReadsBack := by
  intro f r tail list stamp ownTop low high seq some_payload short check fits few small stamped topped
  have within : ((f.put r).data ++ tail).length ≤ 3072 := by
    rw [FillReg.put, List.length_append, List.length_append, length_recordBytes]
    exact fits
  refine ⟨length_paddedData within, length_spareArea few, rfl, spareList_spareArea few small, spareStamp_spareArea stamped,
    spareOwnTop_spareArea topped, sparePageCheck_spareArea, ?_⟩
  have here : (paddedData ((f.put r).data ++ tail)).drop f.data.length = recordBytes r.origin r.seq r.check r.payload
      ++ (tail ++ erasedBytes (3072 - ((f.put r).data ++ tail).length)) := by
    rw [paddedData, FillReg.put, List.append_assoc, List.append_assoc, List.drop_left]
    rfl
  obtain ⟨origin, format, length, number, told, payload⟩ := record_fields (check := r.check) (payload := r.payload)
    (show r.origin < 256 by omega) seq (by omega) (tail ++ erasedBytes (3072 - ((f.put r).data ++ tail).length))
  have inside : f.data.length + 12 + r.payload.length ≤ 3072 := by
    unfold recordSpan at fits
    omega
  unfold verifyCopy
  rw [here]
  dsimp only
  rw [origin, format, length, number, told, payload, sparePageCheck_spareArea, check, if_pos]
  simp only [beq_self_eq_true, Bool.true_and, Bool.and_true, Bool.and_eq_true, decide_eq_true_eq]
  exact ⟨⟨some_payload, short⟩, inside⟩

end Sys2Proof.Proofs

/-! The missing set (R165): runs apart from one another that hold exactly the missing numbers. -/

namespace Sys2Proof.Machine

open Sys2Proof.Safety

/-! ## Runs apart from one another -/

/-- `n` lies in a run of the list. -/
def inRuns (rs : List Range) (n : Nat) : Prop := ∃ r, r ∈ rs ∧ r.lo ≤ n ∧ n ≤ r.hi

/-- Runs in rising order from `lo` on, at least one number between any two. -/
def runsApart (lo : Nat) : List Range → Prop
  | [] => True
  | r :: rs => lo ≤ r.lo ∧ r.lo ≤ r.hi ∧ runsApart (r.hi + 2) rs

theorem inRuns_cons {r : Range} {rs : List Range} {n : Nat} : inRuns (r :: rs) n ↔ (r.lo ≤ n ∧ n ≤ r.hi) ∨ inRuns rs n := by
  unfold inRuns
  simp only [List.mem_cons, or_and_right, exists_or, exists_eq_left]

theorem inRuns_append {rs ts : List Range} {n : Nat} : inRuns (rs ++ ts) n ↔ inRuns rs n ∨ inRuns ts n := by
  unfold inRuns
  simp only [List.mem_append, or_and_right, exists_or]

theorem not_inRuns_nil (n : Nat) : ¬ inRuns [] n := fun ⟨_, mem, _⟩ => by cases mem

theorem inRuns_rangeOf {a b n : Nat} : inRuns (rangeOf a b) n ↔ a ≤ n ∧ n ≤ b := by
  unfold rangeOf
  split
  · rw [inRuns_cons, or_iff_left (not_inRuns_nil n)]
  · exact ⟨fun h => absurd h (not_inRuns_nil n), fun h => by omega⟩

namespace runsApart

variable {lo lo' : Nat} {rs : List Range}

theorem mono (h : lo ≤ lo') (w : runsApart lo' rs) : runsApart lo rs := by
  cases rs with
  | nil => trivial
  | cons r rs => exact ⟨Nat.le_trans h w.1, w.2⟩

theorem le_of_mem {r : Range} : {rs : List Range} → {lo : Nat} → runsApart lo rs → r ∈ rs → lo ≤ r.lo ∧ r.lo ≤ r.hi
  | k :: rs, lo, ⟨low, some_number, rest⟩, mem => by
    rcases List.mem_cons.mp mem with rfl | mem
    · exact ⟨low, some_number⟩
    · have := le_of_mem rest mem
      omega

theorem le_of_inRuns (w : runsApart lo rs) {n : Nat} (h : inRuns rs n) : lo ≤ n := by
  obtain ⟨r, mem, low, -⟩ := h
  exact Nat.le_trans (w.le_of_mem mem).1 low

/-- A run holds all of what it borders on. -/
theorem maximal {r : Range} : {rs : List Range} → {lo : Nat} → runsApart lo rs → r ∈ rs →
    ¬ inRuns rs (r.hi + 1) ∧ ∀ n, n + 1 = r.lo → ¬ inRuns rs n
  | k :: rs, lo, ⟨low, some_number, rest⟩, mem => by
    simp only [inRuns_cons]
    rcases List.mem_cons.mp mem with rfl | mem
    · refine ⟨fun h => ?_, fun n hn h => ?_⟩
      · rcases h with h | h
        · omega
        · have := rest.le_of_inRuns h
          omega
      · rcases h with h | h
        · omega
        · have := rest.le_of_inRuns h
          omega
    · have above := rest.le_of_mem mem
      obtain ⟨behind, before⟩ := maximal rest mem
      refine ⟨fun h => ?_, fun n hn h => ?_⟩
      · rcases h with h | h
        · omega
        · exact behind h
      · rcases h with h | h
        · omega
        · exact before n hn h

end runsApart

/-- A pending number taken out of a run. -/
theorem inRuns_minus {r : Range} {n m : Nat} : inRuns (r.minus n) m ↔ (r.lo ≤ m ∧ m ≤ r.hi) ∧ m ≠ n := by
  have below : inRuns (if r.lo < n then [({ lo := r.lo, hi := n - 1 } : Range)] else []) m ↔ r.lo ≤ m ∧ m < n := by
    split
    · rw [inRuns_cons, or_iff_left (not_inRuns_nil m)]
      show r.lo ≤ m ∧ m ≤ n - 1 ↔ _
      omega
    · exact ⟨fun h => absurd h (not_inRuns_nil m), fun h => by omega⟩
  have above : inRuns (if n < r.hi then [({ lo := n + 1, hi := r.hi } : Range)] else []) m ↔ n < m ∧ m ≤ r.hi := by
    split
    · rw [inRuns_cons, or_iff_left (not_inRuns_nil m)]
      show n + 1 ≤ m ∧ m ≤ r.hi ↔ _
      omega
    · exact ⟨fun h => absurd h (not_inRuns_nil m), fun h => by omega⟩
  unfold Range.minus
  split
  · rw [inRuns_append, below, above]
    omega
  · rw [inRuns_cons, or_iff_left (not_inRuns_nil m)]
    omega

theorem inRuns_flatMap_minus {n m : Nat} : {rs : List Range} →
    (inRuns (rs.flatMap (Range.minus n)) m ↔ inRuns rs m ∧ m ≠ n)
  | [] => ⟨fun h => absurd h (not_inRuns_nil m), fun h => absurd h.1 (not_inRuns_nil m)⟩
  | r :: rs => by
    rw [List.flatMap_cons, inRuns_append, inRuns_minus, inRuns_flatMap_minus, inRuns_cons, or_and_right]

theorem runsApart_minus {lo n : Nat} {r : Range} {rest : List Range} (low : lo ≤ r.lo) (some_number : r.lo ≤ r.hi)
    (w : runsApart (r.hi + 2) rest) : runsApart lo (r.minus n ++ rest) := by
  unfold Range.minus
  split
  · have above : runsApart (n + 1) ((if n < r.hi then [({ lo := n + 1, hi := r.hi } : Range)] else []) ++ rest) := by
      split
      · exact ⟨Nat.le_refl _, by assumption, w⟩
      · exact w.mono (by omega)
    rw [List.append_assoc]
    split
    · exact ⟨low, by show r.lo ≤ n - 1; omega, above.mono (by show n - 1 + 2 ≤ n + 1; omega)⟩
    · exact above.mono (by omega)
  · exact ⟨low, some_number, w⟩

theorem runsApart_flatMap_minus (n : Nat) : {rs : List Range} → {lo : Nat} → runsApart lo rs →
    runsApart lo (rs.flatMap (Range.minus n))
  | [], _, _ => trivial
  | r :: rs, lo, ⟨low, some_number, rest⟩ => by
    rw [List.flatMap_cons]
    exact runsApart_minus low some_number (runsApart_flatMap_minus n rest)

/-- R165: the pending numbers taken out one after the other. -/
theorem runs_without {m : Nat} : (ns : List Nat) → {rs : List Range} → {lo : Nat} → runsApart lo rs →
    runsApart lo (ns.foldl (fun rs n => rs.flatMap (Range.minus n)) rs)
      ∧ (inRuns (ns.foldl (fun rs n => rs.flatMap (Range.minus n)) rs) m ↔ inRuns rs m ∧ m ∉ ns)
  | [], _, _, w => ⟨w, by simp⟩
  | n :: ns, rs, lo, w => by
    obtain ⟨apart, covered⟩ := runs_without (m := m) ns (runsApart_flatMap_minus n w)
    refine ⟨apart, covered.trans ?_⟩
    rw [inRuns_flatMap_minus, List.mem_cons, not_or, and_assoc]

/-! ## The unsettled numbers (R165) -/

theorem le_foldl_max_iff {n : Nat} : {cs : List Nat} → {c : Nat} → (n ≤ cs.foldl max c ↔ n ≤ c ∨ ∃ x ∈ cs, n ≤ x)
  | [], c => by simp
  | x :: cs, c => by
    have larger : n ≤ max c x ↔ n ≤ c ∨ n ≤ x := by omega
    rw [List.foldl_cons, le_foldl_max_iff, larger, or_assoc]
    simp only [List.mem_cons, or_and_right, exists_or, exists_eq_left]

/-- R78: the gaps are runs apart, and apart from a run above T. -/
theorem runsApart_gaps {top b : Nat} : {gs : List Range} → {lo : Nat} → lo ≤ top + 1 → gapsOk lo top gs = true →
    runsApart lo (gs ++ rangeOf (top + 1) b)
  | [], lo, low, _ => by
    rw [List.nil_append, rangeOf]
    split
    · exact ⟨low, by assumption, trivial⟩
    · trivial
  | g :: gs, lo, _, w => by
    obtain ⟨low, some_number, high, rest⟩ := gapsOk_cons.mp w
    exact ⟨low, some_number, runsApart_gaps (by omega) rest⟩

theorem flatMap_floor {floor : Nat} : {rs : List Range} → runsApart floor rs →
    (rs.flatMap fun r => rangeOf (max r.lo floor) r.hi) = rs
  | [], _ => rfl
  | r :: rs, ⟨low, some_number, rest⟩ => by
    have floored : (rs.flatMap fun r => rangeOf (max r.lo floor) r.hi) = rs := flatMap_floor (rest.mono (by omega))
    rw [List.flatMap_cons, floored, Nat.max_eq_left low, rangeOf, if_pos some_number, List.singleton_append]

namespace State

variable {s : State} {o : Nat}

theorem le_bestFrontier {n : Nat} (above : (s.entry o).top < n) :
    n ≤ s.bestFrontier o ↔ ∃ c, c ∈ s.peers.filterMap (fun p => (s.cell p o).map Pair.frontier) ∧ n ≤ c := by
  unfold bestFrontier
  split
  · next none_known =>
    rw [none_known]
    exact ⟨fun h => absurd h (Nat.not_le.mpr above), fun ⟨c, mem, _⟩ => by cases mem⟩
  · next c cs known =>
    rw [known, le_foldl_max_iff]
    simp

theorem unsettledRanges_eq (w : entryOk (s.entry o) = true) :
    s.unsettledRanges o = (s.entry o).gaps ++ rangeOf ((s.entry o).top + 1) (s.bestFrontier o) := by
  obtain ⟨-, low, gaps, -⟩ := entryOk_iff.mp w
  exact flatMap_floor (runsApart_gaps low gaps)

theorem missingRuns_eq (low : 1 ≤ o) (high : o ≤ s.groupSize) (peer : o ≠ s.own) :
    s.missingRuns o = (s.pendingOf o).foldl (fun rs n => rs.flatMap (Range.minus n)) (s.unsettledRanges o) := by
  rw [missingRuns, if_neg]
  simp only [Bool.or_eq_true, beq_iff_eq, decide_eq_true_eq, not_or]
  omega

theorem missingRuns_own : s.missingRuns s.own = [] := by
  rw [missingRuns, beq_self_eq_true]
  rfl

section
variable (low : 1 ≤ o) (high : o ≤ s.groupSize) (peer : o ≠ s.own) (w : entryOk (s.entry o) = true)
include low high peer w

theorem missingRuns_apart : runsApart (s.entry o).floor (s.missingRuns o) := by
  obtain ⟨-, inside, gaps, -⟩ := entryOk_iff.mp w
  rw [missingRuns_eq low high peer, unsettledRanges_eq w]
  exact (runs_without (m := 0) _ (runsApart_gaps inside gaps)).1

/-- R165: the missing numbers: unsettled, at or below a known frontier where above T, and not pending. -/
theorem inRuns_missingRuns {n : Nat} : inRuns (s.missingRuns o) n ↔
    ((s.entry o).inGap n = true
      ∨ ((s.entry o).top < n ∧ ∃ c, c ∈ s.peers.filterMap (fun p => (s.cell p o).map Pair.frontier) ∧ n ≤ c))
      ∧ s.isPending o n = false := by
  obtain ⟨-, inside, gaps, -⟩ := entryOk_iff.mp w
  rw [missingRuns_eq low high peer, unsettledRanges_eq w, (runs_without _ (runsApart_gaps inside gaps)).2, inRuns_append,
    inRuns_rangeOf, Entry.inGap_iff, ← Bool.not_eq_true, isPending_iff]
  refine and_congr_left fun _ => or_congr_right (and_congr_right fun above => le_bestFrontier above)

end

end State

end Sys2Proof.Machine

namespace Sys2Proof.Proofs

open Sys2Proof.Machine Sys2Proof.Safety

/-- Settles O39. -/
theorem missingSet : Obligations.MissingSet := by
  intro s o low high peer w e rows missing
  have apart := State.missingRuns_apart low high peer w
  have held (n : Nat) : missing n ↔ inRuns (s.missingRuns o) n := by
    rw [State.inRuns_missingRuns low high peer w]
    refine and_iff_right_of_imp fun h => ?_
    exact apart.le_of_inRuns ((State.inRuns_missingRuns low high peer w).mpr h)
  refine ⟨held, fun r mem => ?_, State.missingRuns_own⟩
  obtain ⟨behind, before⟩ := apart.maximal mem
  exact ⟨(apart.le_of_mem mem).2, fun h => behind ((held _).mp h), fun n hn h => before n hn ((held n).mp h)⟩

end Sys2Proof.Proofs

/-! The block table that the end of the scan completes (R47): the newest written block, and the entry of each class. -/

namespace Sys2Proof.Machine

open Sys2Proof.Safety Sys2Proof.Laws

/-! ## The newest written block -/

def ScanClass.isWritten : ScanClass → Bool
  | .written .. => true
  | _ => false

/-- The open stamp of a written block. -/
def ScanClass.stamp : ScanClass → Nat
  | .written stamp .. => stamp
  | _ => 0

theorem ScanClass.isWritten_iff {c : ScanClass} :
    c.isWritten = true ↔ ∃ pages torn summary, c = .written c.stamp pages torn summary := by
  cases c <;> simp [isWritten, stamp]

theorem newestWritten_eq (classes : List (ScanClass × Nat)) : newestWritten classes =
    classes.foldl (fun best x => if x.1.isWritten then laterOf best (x.1.stamp, x.2) else best) none := by
  unfold newestWritten
  congr 1
  funext best x
  obtain ⟨c, b⟩ := x
  cases c <;> rfl

section
variable {classes : List ScanClass}

theorem mem_zipIdx_iff {c : ScanClass} {b : Nat} : (c, b) ∈ classes.zipIdx ↔ classes[b]? = some c :=
  List.mk_mem_zipIdx_iff_getElem?

theorem newestWritten_eq_none (h : newestWritten classes.zipIdx = none) (b : Nat) (c : ScanClass) (hc : classes[b]? = some c) :
    c.isWritten = false := by
  rw [newestWritten_eq] at h
  exact ((laterOf_picks.foldl_spec _ (fun x : ScanClass × Nat => (x.1.stamp, x.2)) classes.zipIdx none).1 h).2 (c, b)
    (mem_zipIdx_iff.mpr hc)

theorem newestWritten_eq_some {st b : Nat} (h : newestWritten classes.zipIdx = some (st, b)) :
    (∃ c, classes[b]? = some c ∧ c.isWritten = true ∧ c.stamp = st)
      ∧ ∀ b' c', classes[b']? = some c' → c'.isWritten = true → c'.stamp < st ∨ (c'.stamp = st ∧ b' ≤ b) := by
  rw [newestWritten_eq] at h
  obtain ⟨source, -, latest⟩ :=
    (laterOf_picks.foldl_spec _ (fun x : ScanClass × Nat => (x.1.stamp, x.2)) classes.zipIdx none).2 _ h
  obtain ⟨⟨c, i⟩, mem, written, key⟩ := source.resolve_left (by simp)
  cases key
  exact ⟨⟨c, mem_zipIdx_iff.mp mem, written, rfl⟩, fun b' c' hc' written' => latest (c', b') (mem_zipIdx_iff.mpr hc') written'⟩

/-- R47: a block is the newest written one where no written block is later. -/
theorem newestWritten_of_latest {st b : Nat} {c : ScanClass} (hc : classes[b]? = some c) (written : c.isWritten = true)
    (stamp : c.stamp = st)
    (latest : ∀ b' c', classes[b']? = some c' → c'.isWritten = true → c'.stamp < st ∨ (c'.stamp = st ∧ b' ≤ b)) :
    newestWritten classes.zipIdx = some (st, b) := by
  cases h : newestWritten classes.zipIdx with
  | none =>
    have := newestWritten_eq_none h b c hc
    rw [written] at this
    cases this
  | some k =>
    obtain ⟨st', b'⟩ := k
    obtain ⟨⟨c', hc', written', stamp'⟩, latest'⟩ := newestWritten_eq_some h
    have le := latest b' c' hc' written'
    have ge := latest' b c hc written
    rw [Option.some.injEq, Prod.mk.injEq]
    omega

/-- R47: no later written block than `b`, in terms of the classes. -/
def newestAt (classes : List ScanClass) (b : Nat) : Prop :=
  ∃ st pages torn summary, classes[b]? = some (ScanClass.written st pages torn summary)
    ∧ ∀ b' st' pages' torn' summary', classes[b']? = some (ScanClass.written st' pages' torn' summary') →
        st' < st ∨ (st' = st ∧ b' ≤ b)

theorem newestAt_iff {b : Nat} : newestAt classes b ↔ ∃ st, newestWritten classes.zipIdx = some (st, b) := by
  constructor
  · rintro ⟨st, pages, torn, summary, hc, latest⟩
    refine ⟨st, newestWritten_of_latest hc rfl rfl fun b' c' hc' written' => ?_⟩
    obtain ⟨pages', torn', summary', e⟩ := ScanClass.isWritten_iff.mp written'
    exact latest b' _ pages' torn' summary' (hc'.trans (congrArg some e))
  · rintro ⟨st, h⟩
    obtain ⟨⟨c, hc, written, stamp⟩, latest⟩ := newestWritten_eq_some h
    obtain ⟨pages, torn, summary, e⟩ := ScanClass.isWritten_iff.mp written
    exact ⟨st, pages, torn, summary, by rw [hc, e, stamp], fun b' st' pages' torn' summary' hc' =>
      latest b' _ hc' rfl⟩

theorem isNewest_iff {b : Nat} : isNewest classes b = true ↔ newestAt classes b := by
  rw [newestAt_iff, isNewest, beq_iff_eq, Option.map_eq_some_iff]
  constructor
  · rintro ⟨⟨st, b'⟩, h, rfl⟩
    exact ⟨st, h⟩
  · rintro ⟨st, h⟩
    exact ⟨(st, b), h, rfl⟩

theorem rebuilt_block_of_class (sm : Sm) (h : classes.length = 640) {b : Nat} {c : ScanClass} (hc : classes[b]? = some c) :
    (sm.rebuilt classes.zipIdx).block b = c.entry (isNewest classes b) := by
  obtain ⟨inside, e⟩ := List.getElem?_eq_some_iff.mp hc
  rw [rebuilt_block sm h b (h ▸ inside), e]

/-- R47: the values of SM that the newest written block gives. -/
theorem rebuilt_newest (sm : Sm) {st b : Nat} (h : newestWritten classes.zipIdx = some (st, b)) :
    (sm.rebuilt classes.zipIdx).stampHigh = st ∧ (sm.rebuilt classes.zipIdx).lastOpened = b
      ∧ (sm.rebuilt classes.zipIdx).newestPage = some { block := b, page := ((sm.rebuilt classes.zipIdx).block b).pages - 1 } := by
  unfold Sm.rebuilt
  rw [h]
  exact ⟨rfl, rfl, rfl⟩

theorem rebuilt_unwritten (sm : Sm) (h : newestWritten classes.zipIdx = none) :
    (sm.rebuilt classes.zipIdx).stampHigh = 0 ∧ (sm.rebuilt classes.zipIdx).lastOpened = 639
      ∧ (sm.rebuilt classes.zipIdx).newestPage = none := by
  unfold Sm.rebuilt
  rw [h]
  exact ⟨rfl, rfl, rfl⟩

/-- R47: the entry of a written block. -/
theorem written_entry (newest : Bool) (st pages : Nat) (torn : Bool) (summary : List SummaryLine) :
    (ScanClass.written st pages torn summary).entry newest = {
      state := if newest = true ∧ 1 ≤ pages ∧ pages ≤ 47 ∧ torn = false then .opened else .sealed
      stamp := some st, pages := pages, summary := summary } := by
  simp only [ScanClass.entry, Bool.and_eq_true, decide_eq_true_eq, Bool.not_eq_true', and_assoc]

end

end Sys2Proof.Machine

namespace Sys2Proof.Proofs

open Sys2Proof.Machine Sys2Proof.Safety Sys2Proof.Laws

/-- Settles O10: the table is that of the classes (`rebuilt_block`); the entries by `ownRebuilt_floor` and `peerRebuilt_walked`. -/
theorem storeRebuilt : Obligations.StoreRebuilt := by
  refine ⟨fun sm classes length => ⟨fun b hc => ?_, fun b cause hc => ?_, fun b st pages torn summary hc => ⟨fun opens => ?_,
    fun seals => ?_, fun newest => ?_⟩, fun unwritten => ?_⟩, fun found rising zero => ⟨fun mark => ?_, fun empty => ?_, fun ne => ?_⟩⟩
  · exact rebuilt_block_of_class sm length hc
  · exact rebuilt_block_of_class sm length hc
  · rw [rebuilt_block_of_class sm length hc, written_entry, if_pos (opens.imp_left isNewest_iff.mpr)]
  · rw [rebuilt_block_of_class sm length hc, written_entry, if_neg fun h => seals (And.imp_left isNewest_iff.mp h)]
  · obtain ⟨st', h⟩ := newestAt_iff.mp newest
    obtain ⟨⟨c, hc', -, stamp⟩, -⟩ := newestWritten_eq_some h
    rw [hc, Option.some.injEq] at hc'
    subst hc'
    have values := rebuilt_newest sm h
    rw [rebuilt_block_of_class sm length hc, written_entry] at values
    exact ⟨values.1.trans stamp.symm, values.2⟩
  · refine rebuilt_unwritten sm ?_
    rw [Option.eq_none_iff_forall_ne_some]
    rintro ⟨st, b⟩ h
    obtain ⟨⟨c, hc, written, -⟩, -⟩ := newestWritten_eq_some h
    obtain ⟨pages, torn, summary, e⟩ := ScanClass.isWritten_iff.mp written
    exact unwritten b _ pages torn summary (hc.trans (congrArg some e))
  · obtain ⟨absent, present⟩ := ownRebuilt_floor ⟨rising, zero⟩ mark
    refine ⟨ownRebuilt_top mark found, ownRebuilt_gaps mark found, absent, fun mem => ?_⟩
    obtain ⟨low, -, run, stops⟩ := present mem
    exact ⟨low, run, stops⟩
  · rw [empty]
    rfl
  · obtain ⟨walked, largest, top, stops⟩ := peerRebuilt_walked ⟨rising, zero⟩ ne
    refine ⟨walked.entryOk zero, top, walked.lo_found, largest, fun n => ?_, stops⟩
    rw [Entry.settled_iff]
    constructor
    · rintro ⟨low, high, clear⟩
      exact ⟨(walked.settled n low high).mp clear, low⟩
    · rintro ⟨mem, low⟩
      exact ⟨low, largest n mem, (walked.settled n low (largest n mem)).mpr mem⟩

end Sys2Proof.Proofs

/-! What the operations that end a command (reclaim, the grant, CE's next claim, the re-run) keep, refused re-drives included. -/

namespace Sys2Proof.Machine

open Sys2Proof.Safety

/-! ## Placement comes to rest (R143, R144) -/

namespace State

/-- Placement changes nothing. -/
def stuck (s : State) : Prop := ∀ k, s.placeRounds k = s

theorem stuck_of_placed {s : State} (h : s.placed) : s.stuck := placeRounds_of_placed h

theorem refRecord_congr {s t : State} (su : t.su = s.su) (ra : t.ra = s.ra) (sc : t.sc = s.sc) (ref : Ref) :
    t.refRecord ref = s.refRecord ref := by
  unfold refRecord own
  rw [su, ra, sc]

/-- Where placement rests: nothing to place, the register CLOSED, or a head that names no record. -/
theorem stuck_iff {s : State} : s.stuck ↔ s.placed ∨ ∃ ref refs, s.ce.queue = ref :: refs ∧ s.refRecord ref = none := by
  constructor
  · intro h
    refine Classical.byContradiction fun moving => ?_
    rw [not_or] at moving
    obtain ⟨open_head, record⟩ := moving
    have waits : s.ce.queue ≠ [] := fun e => open_head (.inl e)
    have opened : s.fc.fill.state ≠ .closed := fun e => open_head (.inr e)
    obtain ⟨ref, refs, hq⟩ := List.exists_cons_of_ne_nil waits
    cases hr : s.refRecord ref with
    | none => exact record ⟨ref, refs, hq, hr⟩
    | some r =>
      have fixed := h 1
      rw [placeRounds_succ hq hr opened] at fixed
      split at fixed
      · have longer : (s.placeHead ref r).fc.fill.list.length = s.fc.fill.list.length + 1 := by
          rw [placeHead_eq]
          exact List.length_append
        rw [show (s.placeHead ref r).placeRounds 0 = s.placeHead ref r from rfl] at fixed
        rw [fixed] at longer
        omega
      · exact opened (congrArg (fun u : State => u.fc.fill.state) fixed).symm
  · rintro (rest | ⟨ref, refs, hq, hr⟩)
    · exact stuck_of_placed rest
    · exact placeRounds_of_no_record hq hr

theorem stuck_congr {s t : State} (h : s.stuck) (su : t.su = s.su) (ra : t.ra = s.ra) (sc : t.sc = s.sc)
    (queue : t.ce.queue = s.ce.queue) (fill : t.fc.fill = s.fc.fill) : t.stuck := by
  rw [stuck_iff] at h ⊢
  refine h.imp (fun placed => ?_) fun ⟨ref, refs, hq, hr⟩ => ⟨ref, refs, by rw [queue, hq], by rw [refRecord_congr su ra sc, hr]⟩
  rw [State.placed, queue, fill]
  exact placed

/-- R144: as many rounds as a register has places, and one to close it, bring placement to rest. -/
theorem placeRounds_stuck {n : Nat} : {s : State} → 1 ≤ n → 9 ≤ n + s.fc.fill.list.length → (s.placeRounds n).stuck := by
  induction n with
  | zero => exact fun some_round => by omega
  | succ n ih =>
    intro s _ enough
    by_cases rest : s.stuck
    · rw [rest]
      exact rest
    · rw [stuck_iff, not_or] at rest
      obtain ⟨open_head, record⟩ := rest
      obtain ⟨ref, refs, hq⟩ := List.exists_cons_of_ne_nil fun e => open_head (.inl e)
      cases hr : s.refRecord ref with
      | none => exact absurd ⟨ref, refs, hq, hr⟩ record
      | some r =>
        rw [placeRounds_succ hq hr fun e => open_head (.inr e)]
        split
        · rename_i fits
          rw [FillReg.fits, Bool.and_eq_true, decide_eq_true_eq] at fits
          have room : s.fc.fill.list.length < 8 := fits.1
          have longer : (s.placeHead ref r).fc.fill.list.length = s.fc.fill.list.length + 1 := by
            rw [placeHead_eq]
            exact List.length_append
          exact ih (by omega) (by omega)
        · exact stuck_of_placed (closeFill_placed s)

end State

/-! ## The fill register grows -/

/-- The record `r` waits at the head of the queue before an EMPTY fill register. -/
structure HeadWaits (ref : Ref) (r : PathRecord) (s : State) : Prop where
  queue : ∃ refs, s.ce.queue = ref :: refs
  record : s.refRecord ref = some r
  empty : s.fc.fill = FillReg.reset

/-- The record `r` stands first in the fill register. -/
structure HeadPlaced (r : PathRecord) (s : State) : Prop where
  state : s.fc.fill.state ≠ .empty
  list : ∃ list, s.fc.fill.list = { origin := r.origin, seq := r.seq, offset := 0 } :: list
  data : ∃ data, s.fc.fill.data = recordBytes r.origin r.seq r.check r.payload ++ data

/-- Records join the fill register at its end, and the head of the queue first. -/
structure Fills (s t : State) : Prop where
  list : ∃ more, t.fc.fill.list = s.fc.fill.list ++ more
  data : ∃ more, t.fc.fill.data = s.fc.fill.data ++ more
  started : s.fc.fill.state ≠ .empty → t.fc.fill.state ≠ .empty
  head : ∀ ref r, r.payload.length ≤ 1920 → HeadWaits ref r s → HeadWaits ref r t ∨ HeadPlaced r t

namespace Fills

variable {s t u : State}

theorem of_eq (su : t.su = s.su) (ra : t.ra = s.ra) (sc : t.sc = s.sc) (queue : t.ce.queue = s.ce.queue)
    (fill : t.fc.fill = s.fc.fill) : Fills s t where
  list := ⟨[], by rw [fill, List.append_nil]⟩
  data := ⟨[], by rw [fill, List.append_nil]⟩
  started := by rw [fill]; exact id
  head ref r _ w := .inl ⟨by rw [queue]; exact w.queue, (State.refRecord_congr su ra sc ref).trans w.record, fill.trans w.empty⟩

theorem placed (h : Fills s t) {r : PathRecord} (w : HeadPlaced r s) : HeadPlaced r t := by
  obtain ⟨list, hlist⟩ := w.list
  obtain ⟨data, hdata⟩ := w.data
  obtain ⟨more, hmore⟩ := h.list
  obtain ⟨bytes, hbytes⟩ := h.data
  exact ⟨h.started w.state, ⟨list ++ more, by rw [hmore, hlist]; rfl⟩, ⟨data ++ bytes, by rw [hbytes, hdata, List.append_assoc]⟩⟩

theorem trans (h : Fills s t) (k : Fills t u) : Fills s u where
  list := by
    obtain ⟨more, hmore⟩ := h.list
    obtain ⟨more', hmore'⟩ := k.list
    exact ⟨more ++ more', by rw [hmore', hmore, List.append_assoc]⟩
  data := by
    obtain ⟨more, hmore⟩ := h.data
    obtain ⟨more', hmore'⟩ := k.data
    exact ⟨more ++ more', by rw [hmore', hmore, List.append_assoc]⟩
  started := k.started ∘ h.started
  head ref r short w := (h.head ref r short w).elim (k.head ref r short) fun w => .inr (k.placed w)

end Fills

/-- A record of any length fits an EMPTY fill register. -/
theorem fits_reset {n : Nat} (h : n ≤ 1920) : FillReg.reset.fits n = true := by
  have span : recordSpan n ≤ 3072 := by
    unfold recordSpan
    omega
  rw [FillReg.fits, Bool.and_eq_true, decide_eq_true_eq, decide_eq_true_eq]
  exact ⟨by decide, Nat.le_trans (Nat.le_of_eq (Nat.zero_add _)) span⟩

namespace State

theorem placeHead_fills {s : State} {ref : Ref} {refs : List Ref} {r : PathRecord} (hq : s.ce.queue = ref :: refs)
    (hr : s.refRecord ref = some r) : Fills s (s.placeHead ref r) := by
  rw [placeHead_eq]
  refine ⟨⟨_, rfl⟩, ⟨_, rfl⟩, fun _ => ?_, fun ref' r' _ w => .inr ?_⟩
  · dsimp only
    split <;> nofun
  · obtain ⟨refs', queue⟩ := w.queue
    have same : ref' = ref := (List.cons.inj (queue.symm.trans hq)).1
    have record : r = r' := Option.some.inj (hr.symm.trans (same ▸ w.record))
    subst record
    refine ⟨?_, ⟨[], ?_⟩, ⟨[], ?_⟩⟩
    · dsimp only
      split <;> nofun
    · show (s.fc.fill.put r).list = _
      rw [FillReg.put, w.empty]
      rfl
    · show (s.fc.fill.put r).data = _
      rw [FillReg.put, w.empty, List.append_nil]
      rfl

theorem closeFill_fills {s : State} {ref : Ref} {refs : List Ref} {r : PathRecord} (hq : s.ce.queue = ref :: refs)
    (hr : s.refRecord ref = some r) (full : ¬ s.fc.fill.fits r.payload.length = true) : Fills s s.closeFill where
  list := ⟨[], (List.append_nil _).symm⟩
  data := ⟨[], (List.append_nil _).symm⟩
  started _ := nofun
  head ref' r' short w := by
    obtain ⟨refs', queue⟩ := w.queue
    have same : ref' = ref := (List.cons.inj (queue.symm.trans hq)).1
    have record : r = r' := Option.some.inj (hr.symm.trans (same ▸ w.record))
    subst record
    rw [w.empty] at full
    exact absurd (fits_reset short) full

end State

/-! ## The frame -/

/-- The block is out of service, or will be. -/
def BlockState.leaving (st : BlockState) : Prop := st = .retiring ∨ st = .retired .worn

/-- What the operations that end a command keep. -/
structure Settles (s t : State) : Prop where
  keeps : Keeps s t
  su : t.su = s.su
  serving : t.rp.jobs = s.rp.jobs ∧ t.rp.busy = s.rp.busy ∧ t.rp.buffer = s.rp.buffer
  read : t.fc.read = s.fc.read
  image : t.fc.array.image = s.fc.array.image
  hu : t.hu = { s.hu with entries := t.hu.entries, reportPending := t.hu.reportPending, durable := t.hu.durable }
  reportKept : s.groupSize ≤ 24 → s.hu.reportPending = true → t.hu.reportPending = true
  counts : CountsUp [.damagedReads, .programFailures, .markFailures] s t
  notices : NoticesOn s t
  floor : ∀ o, (s.entry o).floor ≤ (t.entry o).floor
  settled : ∀ o n, (s.entry o).settled n = true → (t.entry o).floor ≤ n → (t.entry o).settled n = true
  stuck : s.stuck → t.stuck ∧ t.ra = s.ra ∧ t.ce.queue = s.ce.queue ∧ t.fc.fill = s.fc.fill ∧ t.ce.flushTimer = s.ce.flushTimer
  awaits : ∀ o n, s.awaits o n → t.awaits o n
  slots : ∀ i, place t.ra.slots .free i = place s.ra.slots .free i
    ∨ ((∃ d, place s.ra.slots .free i = .complete d) ∧ place t.ra.slots .free i = .free)
  leaving : ∀ b, (s.sm.block b).state.leaving → (t.sm.block b).state.leaving
  fills : Fills s t

namespace Settles

variable {s t u : State}

theorem refl (s : State) : Settles s s where
  keeps := .refl s
  su := rfl
  serving := ⟨rfl, rfl, rfl⟩
  read := rfl
  image := rfl
  hu := rfl
  reportKept _ := id
  counts := .refl s
  notices := .refl s
  floor _ := Nat.le_refl _
  settled _ _ h _ := h
  stuck h := ⟨h, rfl, rfl, rfl, rfl⟩
  awaits _ _ h := h
  slots _ := .inl rfl
  leaving _ h := h
  fills := .of_eq rfl rfl rfl rfl rfl

theorem trans (h : Settles s t) (k : Settles t u) : Settles s u where
  keeps := h.keeps.trans k.keeps
  su := k.su.trans h.su
  serving := by
    obtain ⟨jobs, busy, buffer⟩ := h.serving
    obtain ⟨jobs', busy', buffer'⟩ := k.serving
    exact ⟨jobs'.trans jobs, busy'.trans busy, buffer'.trans buffer⟩
  read := k.read.trans h.read
  image := k.image.trans h.image
  hu := by
    conv => lhs; rw [k.hu]
    conv => lhs; rw [h.hu]
  reportKept small w := k.reportKept (by rw [State.groupSize, h.keeps.sc]; exact small) (h.reportKept small w)
  counts := h.counts.trans k.counts
  notices := h.notices.trans k.notices
  floor o := Nat.le_trans (h.floor o) (k.floor o)
  settled o n w above := k.settled o n (h.settled o n w (Nat.le_trans (k.floor o) above)) above
  stuck w := by
    obtain ⟨rest, ra, queue, fill, flush⟩ := h.stuck w
    obtain ⟨rest', ra', queue', fill', flush'⟩ := k.stuck rest
    exact ⟨rest', ra'.trans ra, queue'.trans queue, fill'.trans fill, flush'.trans flush⟩
  awaits o n w := k.awaits o n (h.awaits o n w)
  slots i := by
    rcases k.slots i with same | ⟨⟨d, complete⟩, free⟩
    · rcases h.slots i with same' | ⟨complete, free⟩
      · exact .inl (same.trans same')
      · exact .inr ⟨complete, same.trans free⟩
    · rcases h.slots i with same' | ⟨_, free'⟩
      · exact .inr ⟨⟨d, same'.symm.trans complete⟩, free⟩
      · rw [free'] at complete
        cases complete
  leaving b w := k.leaving b (h.leaving b w)
  fills := h.fills.trans k.fills

/-- A change outside the holdings and the commit path. -/
theorem of_still (keeps : Keeps s t) (su : t.su = s.su) (rp : t.rp = s.rp) (read : t.fc.read = s.fc.read)
    (image : t.fc.array.image = s.fc.array.image) (hu : t.hu = s.hu)
    (counts : CountsUp [.damagedReads, .programFailures, .markFailures] s t) (notices : NoticesOn s t) (ra : t.ra = s.ra)
    (queue : t.ce.queue = s.ce.queue) (flush : t.ce.flushTimer = s.ce.flushTimer) (fill : t.fc.fill = s.fc.fill)
    (leaving : ∀ b, (s.sm.block b).state.leaving → (t.sm.block b).state.leaving) :
    Settles s t where
  keeps := keeps
  su := su
  serving := by rw [rp]; exact ⟨rfl, rfl, rfl⟩
  read := read
  image := image
  hu := by rw [hu]
  reportKept _ := by rw [hu]; exact id
  counts := counts
  notices := notices
  floor o := Nat.le_of_eq (by rw [State.entry, State.entry, hu])
  settled o n h _ := by rw [State.entry, hu]; exact h
  stuck h := ⟨State.stuck_congr h su ra keeps.sc queue fill, ra, queue, fill, flush⟩
  awaits o n h := by
    rw [State.awaits, ra, fill, Fc.imageList, image]
    exact h
  slots i := .inl (by rw [ra])
  leaving := leaving
  fills := .of_eq su ra keeps.sc queue fill

/-- Only a COMPLETE slot is freed. -/
theorem incomplete {x : Slot} (h : Settles s t) {i : Nat} (here : place s.ra.slots .free i = x) (incomplete : ∀ d, x ≠ .complete d) :
    place t.ra.slots .free i = x := by
  rcases h.slots i with same | ⟨⟨d, complete⟩, -⟩
  · exact same.trans here
  · exact absurd (here.symm.trans complete) (incomplete d)

end Settles

/-! ## Reclaim and repair -/

theorem Reclaims.settles {s t : State} (h : Reclaims s t) (keeps : Keeps s t) : Settles s t where
  keeps := keeps
  su := h.su
  serving := by rw [h.same]; exact ⟨rfl, rfl, rfl⟩
  read := by rw [h.same]
  image := by rw [h.array]
  hu := by conv => lhs; rw [h.same]
  reportKept small w := (h.reported small).mpr (.inl w)
  counts := h.counts.mono fun k mem => by rw [List.mem_singleton.mp mem]; decide
  notices := h.notices
  floor := h.floor
  settled o n w above := (h.settled o n).mpr ⟨above, w⟩
  stuck w := by
    have queue : t.ce.queue = s.ce.queue := by rw [h.ce]
    exact ⟨State.stuck_congr w h.su h.ra h.sc queue h.fill, h.ra, queue, h.fill, by rw [h.ce]⟩
  awaits o n w := by
    rw [State.awaits, h.ra, h.fill, Fc.imageList, h.array]
    exact w
  slots i := .inl (by rw [h.ra])
  leaving b w := by
    rcases w with retiring | retired
    · exact h.retiring b retiring
    · rw [h.blocks b (by rw [retired]; rfl)]
      exact .inr retired
  fills := .of_eq h.su h.ra h.sc (by rw [h.ce]) h.fill

theorem Repairs.settles {s t : State} (h : Repairs s t) (keeps : Keeps s t) : Settles s t where
  keeps := keeps
  su := h.su
  serving := by rw [h.rp]; exact ⟨rfl, rfl, rfl⟩
  read := by rw [h.fc]
  image := by rw [h.fc]
  hu := by conv => lhs; rw [h.hu]
           rw [h.hu]
  reportKept _ := h.reportKept
  counts := .of_eq (by rw [h.ap])
  notices := by
    obtain ⟨lost, queue, new⟩ := h.lost
    refine ⟨fun x _ w => w.imp (fun mem => ?_) h.overflow, fun q v mem => ?_⟩
    · rw [queue]
      exact List.mem_append_left _ mem
    · rw [queue, List.mem_append] at mem
      refine mem.resolve_right fun mem => ?_
      obtain ⟨o, a, b, e⟩ := new _ mem
      cases e
  floor o := Nat.le_of_eq (h.floor o).symm
  settled o n w _ := h.settled o n w
  stuck w := by
    have queue : t.ce.queue = s.ce.queue := by rw [h.ce]
    have fill : t.fc.fill = s.fc.fill := by rw [h.fc]
    exact ⟨State.stuck_congr w h.su h.ra h.sc queue fill, h.ra, queue, fill, by rw [h.ce]⟩
  awaits o n w := by
    rw [State.awaits, h.ra, h.fc]
    exact w
  slots i := .inl (by rw [h.ra])
  leaving b w := by rw [h.sm]; exact w
  fills := .of_eq h.su h.ra h.sc (by rw [h.ce]) (by rw [h.fc])

namespace State

theorem evaluateReclaim_settles (s : State) : Settles s s.evaluateReclaim :=
  (evaluateReclaim_reclaims s).settles (evaluateReclaim_keeps s)

theorem settleRepair_settles (s : State) : Settles s s.settleRepair := (settleRepair_repairs s).settles (settleRepair_keeps s)

/-! ## CE's events -/

theorem placeHead_settles {s : State} {ref : Ref} {refs : List Ref} {r : PathRecord} (hq : s.ce.queue = ref :: refs)
    (hr : s.refRecord ref = some r) (moving : ¬ s.stuck) : Settles s (s.placeHead ref r) := by
  have keeps := placeHead_keeps s ref r
  have fills := placeHead_fills hq hr
  rw [placeHead_eq] at keeps fills ⊢
  exact { Settles.refl s with
    keeps := keeps
    fills := fills
    stuck := fun w => absurd w moving
    counts := .of_eq rfl
    notices := .of_eq rfl
    awaits := fun o n a => by
      have listed : listedOf o (s.fc.fill.put r).list
          = listedOf o s.fc.fill.list ++ if r.origin = o then [r.seq] else [] :=
        (listedOf_append ..).trans (congrArg _ (listedOf_singleton ..))
      rcases a with ⟨i, d, data, ho, hn⟩ | mem | mem
      · by_cases head : ref = .slot i
        · subst head
          obtain ⟨d', hd, rfl⟩ := refRecord_slot hr
          rw [hd] at data
          cases data
          refine .inr (.inl ?_)
          show n ∈ listedOf o (s.fc.fill.put _).list
          rw [listed, List.mem_append]
          exact .inr (by rw [if_pos ho, List.mem_singleton]; exact hn.symm)
        · refine .inl ⟨i, d, ?_, ho, hn⟩
          show (place (ref.released s.ra.slots) .free i).data = _
          rw [Ref.place_released, if_neg head]
          exact data
      · refine .inr (.inl ?_)
        show n ∈ listedOf o (s.fc.fill.put r).list
        rw [listed]
        exact List.mem_append_left _ mem
      · exact .inr (.inr mem)
    slots := fun i => by
      show place (ref.released s.ra.slots) .free i = _ ∨ _ ∧ place (ref.released s.ra.slots) .free i = .free
      rw [Ref.place_released]
      by_cases head : ref = .slot i
      · subst head
        obtain ⟨d, hd, -⟩ := refRecord_slot hr
        exact .inr ⟨⟨d, hd⟩, if_pos rfl⟩
      · exact .inl (if_neg head) }

theorem closeFill_settles {s : State} (moving : ¬ s.stuck) (fills : Fills s s.closeFill) : Settles s s.closeFill :=
  { Settles.refl s with
    keeps := closeFill_keeps s
    fills := fills
    stuck := fun w => absurd w moving
    awaits := fun _ _ a => a
    counts := .of_eq rfl
    notices := .of_eq rfl }

theorem placeRounds_settles : (n : Nat) → (s : State) → Settles s (s.placeRounds n)
  | 0, s => .refl s
  | n + 1, s => by
    by_cases rest : s.stuck
    · rw [rest]
      exact .refl s
    · have moving := rest
      rw [stuck_iff, not_or] at rest
      obtain ⟨open_head, record⟩ := rest
      obtain ⟨ref, refs, hq⟩ := List.exists_cons_of_ne_nil fun e => open_head (.inl e)
      cases hr : s.refRecord ref with
      | none => exact absurd ⟨ref, refs, hq, hr⟩ record
      | some r =>
        rw [placeRounds_succ hq hr fun e => open_head (.inr e)]
        split
        · exact (placeHead_settles hq hr moving).trans (placeRounds_settles n _)
        · rename_i full
          exact closeFill_settles moving (closeFill_fills hq hr full)

/-! ## Opening a block, CE's claim -/

theorem setPressure_notices (s : State) : NoticesOn s s.setPressure := by
  have level : NoticesOn s (s.setSm { s.sm with
      pressure := pressureOf s.sm.freeCount, reclaimDue := s.sm.reclaimDue || pressureOf s.sm.freeCount != s.sm.pressure }) :=
    .of_eq rfl
  unfold setPressure
  dsimp only
  split
  · exact level.trans (.notify _ fun _ _ e => by cases e)
  · split
    · exact level.trans (.notify _ fun _ _ e => by cases e)
    · exact level

theorem setPressure_table (s : State) : s.setPressure.sm.table = s.sm.table := by
  obtain ⟨sm, -⟩ : LevelSet s s.sm s.setPressure := setPressure_levelSet (s := s) (sm := s.sm) rfl
  rw [sm]

theorem setPressure_settles (s : State) : Settles s s.setPressure := by
  have keeps := setPressure_keeps s
  have notices := setPressure_notices s
  have table := setPressure_table s
  rw [setPressure_same] at keeps notices ⊢
  exact .of_still keeps rfl rfl rfl rfl rfl (.of_eq rfl) notices rfl rfl rfl rfl
    fun b h => by rw [Sm.block] at h ⊢; rw [table]; exact h

theorem nextFree_free {sm : Sm} {b : Nat} (h : sm.nextFree = some b) : b < 640 ∧ (sm.block b).state = .free := by
  unfold Sm.nextFree at h
  dsimp only at h
  split at h
  · next a first =>
    cases h
    exact Sm.mem_free.mp (List.mem_of_find?_eq_some first)
  · exact Sm.mem_free.mp (List.mem_of_mem_head? h)

theorem putBlock_settles {s : State} {b : Nat} {e : BlockEntry} (keeps : Keeps s (s.putBlock b e))
    (leaving : (s.sm.block b).state.leaving → e.state.leaving) : Settles s (s.putBlock b e) := by
  refine .of_still keeps rfl rfl rfl rfl rfl (.of_eq rfl) (.of_eq rfl) rfl rfl rfl rfl fun a h => ?_
  show ((s.sm.setBlock b e).block a).state.leaving
  rw [Sm.block_setBlock]
  split
  · next here => exact leaving (here.1 ▸ h)
  · exact h

theorem openFree_table (s : State) (b : Nat) : (s.openFree b).sm.table
    = (s.sm.setBlock b { state := .opened, stamp := some (s.sm.stampHigh + 1), pages := 0, summary := [] }).table :=
  setPressure_table ..

theorem openFree_settles {s : State} {b : Nat} (closed : s.sm.openBlock = none) (free : s.sm.nextFree = some b) :
    Settles s (s.openFree b) := by
  have keeps := openFree_keeps s b closed
  have notices : NoticesOn s (s.openFree b) := by
    unfold openFree
    dsimp only
    refine NoticesOn.trans ?_ (setPressure_notices _)
    exact .of_eq rfl
  have table := openFree_table s b
  rw [openFree_same] at keeps notices ⊢
  refine .of_still keeps rfl rfl rfl rfl rfl (.of_eq rfl) notices rfl rfl rfl rfl fun a h => ?_
  rw [Sm.block]
  rw [table]
  show ((s.sm.setBlock b _).block a).state.leaving
  rw [Sm.block_setBlock, if_neg]
  · exact h
  · rintro ⟨rfl, -⟩
    rw [(nextFree_free free).2] at h
    rcases h with h | h <;> cases h

theorem withOpenBlock_settles (s : State) : Settles s s.withOpenBlock.1 := by
  unfold withOpenBlock
  split
  · exact .refl s
  · next closed =>
    split
    · exact .refl s
    · split
      · next b free => exact openFree_settles closed free
      · exact .refl s

theorem claimProgram_settles (s : State) (b : Nat) : Settles s (s.claimProgram b) :=
  .of_still (claimProgram_keeps s b) rfl rfl rfl rfl rfl (.of_eq rfl) (.of_eq rfl) rfl rfl rfl rfl fun _ h => h

theorem setCommitState_settles (s : State) (refused : Bool) : Settles s (s.setCommitState refused) :=
  .of_still (setCommitState_keeps s refused) rfl rfl rfl rfl rfl (.of_eq rfl) (.of_eq rfl) rfl rfl rfl rfl fun _ h => h

theorem claimIfNeeded_settles (s : State) : Settles s s.claimIfNeeded := by
  unfold claimIfNeeded
  split
  · have opens := withOpenBlock_settles s
    split
    · next s1 b e =>
      rw [e] at opens
      exact (opens.trans (claimProgram_settles ..)).trans (setCommitState_settles ..)
    · next s1 e =>
      rw [e] at opens
      exact opens.trans (setCommitState_settles ..)
  · exact setCommitState_settles ..

theorem runCommit_settles (s : State) : Settles s s.runCommit := (placeRounds_settles 9 s).trans (claimIfNeeded_settles _)

/-- Placement rests after an event of CE. -/
theorem runCommit_stuck (s : State) : s.runCommit.stuck :=
  ((claimIfNeeded_settles _).stuck (placeRounds_stuck (by decide) (by omega))).1

/-! ## Grants -/

theorem smProgramFailed_settles (s : State) (p : PageAddr) : Settles s (s.smProgramFailed p) := by
  have put : Settles s (s.putBlock p.block { s.sm.block p.block with state := .retiring, pages := p.page }) :=
    putBlock_settles (putBlock_keeps s p.block _ fun h => by cases h) fun _ => .inl rfl
  refine put.trans ?_
  have notices := NoticesOn.notify (s.putBlock p.block { s.sm.block p.block with state := .retiring, pages := p.page })
    (n := .blockRetired p.block .program) fun _ _ e => by cases e
  have keeps := notify_keeps (s.putBlock p.block { s.sm.block p.block with state := .retiring, pages := p.page })
    (.blockRetired p.block .program)
  unfold smProgramFailed
  rw [notify_eq] at notices keeps ⊢
  exact .of_still keeps rfl rfl rfl rfl rfl (.of_eq rfl) notices rfl rfl rfl rfl fun _ h => h

theorem programFailed_settles (s : State) (p : PageAddr) : Settles s (s.programFailed p) :=
  ((smProgramFailed_settles s p).trans (runCommit_settles _)).trans (evaluateReclaim_settles _)

/-- A change of FC outside the registers' contents and the read register. -/
theorem setFc_settles {s : State} {x : Fc} (keeps : Keeps s (s.setFc x)) (read : x.read = s.fc.read)
    (image : x.array.image = s.fc.array.image) (fill : x.fill = s.fc.fill) : Settles s (s.setFc x) :=
  .of_still keeps rfl rfl read image rfl (.of_eq rfl) (.of_eq rfl) rfl rfl rfl fill fun _ h => h

theorem bump_settles (s : State) {k : Counter} (h : k ∈ [Counter.damagedReads, .programFailures, .markFailures]) :
    Settles s (s.bump k) :=
  .of_still (bump_keeps s k) rfl rfl rfl rfl rfl (.bump s h) (.of_eq rfl) rfl rfl rfl rfl fun _ h => h

theorem fcProgramFails_settles {s : State} (free : s.fc.op = none) : Settles s s.fcProgramFails := by
  have counts : CountsUp [.damagedReads, .programFailures, .markFailures] s s.fcProgramFails := by
    unfold fcProgramFails
    refine CountsUp.trans ?_ (CountsUp.bump _ (by decide))
    exact .of_eq rfl
  exact .of_still (fcProgramFails_keeps s free) rfl rfl rfl rfl rfl counts (.of_eq rfl) rfl rfl rfl rfl fun _ h => h

theorem grantStep_settles {s : State} (who : Requester) (c : StepClaim) (free : s.fc.op = none) : Settles s (s.grantStep who c) := by
  have keeps := grantStep_keeps s who c free
  cases who <;> exact .of_still keeps rfl rfl rfl rfl rfl (.of_eq rfl) (.of_eq rfl) rfl rfl rfl rfl fun _ h => h

theorem grantRounds_settles : (n : Nat) → (s : State) → Settles s (s.grantRounds n)
  | 0, s => .refl s
  | n + 1, s => by
    unfold grantRounds
    split
    · exact .refl s
    · rename_i hc
      have free : s.fc.op = none := by
        rw [Bool.or_eq_true, not_or] at hc
        exact Option.not_isSome_iff_eq_none.mp hc.2
      split
      · rename_i c _
        have taken : Settles s (s.setFc { s.fc with programClaim := none }) := setFc_settles (.setFc s rfl rfl) rfl rfl rfl
        dsimp only
        split
        · exact taken.trans (setFc_settles (.setFcOp _ free rfl) rfl rfl rfl)
        · split
          · have fails := fcProgramFails_settles (s := s.setFc { s.fc with programClaim := none }) free
            exact ((taken.trans fails).trans (programFailed_settles ..)).trans (grantRounds_settles n _)
          · exact taken.trans (setFc_settles (beginProgram_keeps _ c free) rfl rfl rfl)
      · split
        · exact grantStep_settles _ _ free
        · split
          · exact grantStep_settles _ _ free
          · split
            · rename_i m rest _
              have taken : Settles s (s.setFc { s.fc with markClaims := rest }) := setFc_settles (.setFc s rfl rfl) rfl rfl rfl
              dsimp only
              split
              · exact (taken.trans (bump_settles _ (by decide))).trans (grantRounds_settles n _)
              · exact taken.trans (setFc_settles (.setFcOp _ free rfl) rfl rfl rfl)
            · split
              · split
                · exact .refl s
                · exact setFc_settles (beginErase_keeps s _ free) rfl rfl rfl
              · exact .refl s

theorem grant_settles (s : State) : Settles s s.grant := grantRounds_settles _ s

theorem settleAll_settles (s : State) : Settles s s.settleAll :=
  ((evaluateReclaim_settles s).trans (grant_settles _)).trans (settleRepair_settles _)

end State

end Sys2Proof.Machine

/-! CE has a claim or is STALLED at the end of its events, and the flush timer (R145, R147, R150). -/

namespace Sys2Proof.Machine

open Sys2Proof.Safety

/-- CE has a program claim or operation, or is STALLED. -/
def State.committing (s : State) : Prop := s.fc.programBusy = true ∨ s.ce.state = .stalled

namespace State

theorem committing_of_claim {s : State} {c : ProgramClaim} (h : s.fc.programClaim = some c) : s.committing :=
  .inl (by rw [Fc.programBusy, h]; rfl)

theorem committing_congr {s t : State} (op : t.fc.op = s.fc.op) (claim : t.fc.programClaim.isSome = s.fc.programClaim.isSome)
    (ce : t.ce = s.ce) (h : s.committing) : t.committing := by
  unfold committing Fc.programBusy
  rw [op, claim, ce]
  exact h

theorem evaluateReclaim_committing {s : State} (h : s.committing) : s.evaluateReclaim.committing := by
  have reclaims := evaluateReclaim_reclaims s
  have claim := congrArg Option.isSome reclaims.claim
  rw [Option.isSome_map, Option.isSome_map] at claim
  exact committing_congr reclaims.op claim reclaims.ce h

theorem settleRepair_committing {s : State} (h : s.committing) : s.settleRepair.committing := by
  have repairs := settleRepair_repairs s
  exact committing_congr (by rw [repairs.fc]) (by rw [repairs.fc]) repairs.ce h

/-- R147, R150: with the array register IDLE over something to program, CE has a claim or is STALLED after its event. -/
theorem claimIfNeeded_committing {s : State} (idle : s.fc.array.state = .idle)
    (work : s.fc.array.image.isSome = true ∨ s.fc.fill.state = .closed) : s.claimIfNeeded.committing := by
  unfold claimIfNeeded
  split
  · split
    · exact committing_of_claim rfl
    · exact .inr rfl
  · next no_need =>
    left
    refine Classical.byContradiction fun free => ?_
    refine no_need ?_
    have free : s.fc.programBusy = false := by rwa [Bool.not_eq_true] at free
    unfold needsTarget
    rw [free, idle]
    simpa using work

theorem placeRounds_array : (n : Nat) → (s : State) → (s.placeRounds n).fc.array = s.fc.array
  | 0, _ => rfl
  | n + 1, s => by
    by_cases rest : s.stuck
    · rw [rest]
    · rw [stuck_iff, not_or] at rest
      obtain ⟨open_head, record⟩ := rest
      obtain ⟨ref, refs, hq⟩ := List.exists_cons_of_ne_nil fun e => open_head (.inl e)
      cases hr : s.refRecord ref with
      | none => exact absurd ⟨ref, refs, hq, hr⟩ record
      | some r =>
        rw [placeRounds_succ hq hr fun e => open_head (.inr e)]
        split
        · rw [placeRounds_array n, placeHead_eq]
        · rfl

theorem runCommit_committing {s : State} (idle : s.fc.array.state = .idle)
    (work : s.fc.array.image.isSome = true ∨ (s.placeRounds 9).fc.fill.state = .closed) : s.runCommit.committing := by
  refine claimIfNeeded_committing ?_ ?_
  · rw [placeRounds_array, idle]
  · rw [placeRounds_array]
    exact work

theorem grantRounds_committing : (n : Nat) → {s : State} → s.committing → (s.grantRounds n).committing
  | 0, _, h => h
  | n + 1, s, h => by
    unfold grantRounds
    split
    · exact h
    · rename_i hc
      have free : s.fc.op = none := by
        rw [Bool.or_eq_true, not_or] at hc
        exact Option.not_isSome_iff_eq_none.mp hc.2
      split
      · rename_i c _
        dsimp only
        split
        · exact .inl rfl
        · next image kept =>
          split
          · refine grantRounds_committing n (evaluateReclaim_committing (runCommit_committing ?_ (.inl ?_)))
            · unfold smProgramFailed
              rw [notify_eq]
              rfl
            · unfold smProgramFailed
              rw [notify_eq]
              exact congrArg Option.isSome kept
          · exact .inl rfl
      · next no_claim =>
        have stalled : s.ce.state = .stalled := h.resolve_left (by
          rw [Fc.programBusy, no_claim, free]
          exact Bool.false_ne_true)
        split
        · exact .inr stalled
        · split
          · exact .inr stalled
          · split
            · dsimp only
              split
              · exact grantRounds_committing n (.inr stalled)
              · exact .inr stalled
            · split
              · split
                · exact h
                · exact .inr stalled
              · exact h

theorem settleAll_committing {s : State} (h : s.committing) : s.settleAll.committing :=
  settleRepair_committing (grantRounds_committing _ (evaluateReclaim_committing h))

theorem fits_iff {f : FillReg} {n : Nat} : f.fits n = true ↔ f.list.length < 8 ∧ f.data.length + recordSpan n ≤ 3072 := by
  rw [FillReg.fits, Bool.and_eq_true, decide_eq_true_eq, decide_eq_true_eq]
  rfl

end State

/-- A command's end leaves the fill register and the queue where placement rests. -/
theorem Settles.path {s t : State} (h : Settles s t) (rest : s.stuck) :
    t.ra = s.ra ∧ t.ce.queue = s.ce.queue ∧ t.fc.fill = s.fc.fill ∧ t.ce.flushTimer = s.ce.flushTimer := (h.stuck rest).2

theorem Keeps.stationKept {s t : State} (h : Keeps s t) : StationKept s t :=
  ⟨h.pending, h.sc, h.lc, h.slot, h.submitBuffer, h.configures, h.dataOut, h.matrix, h.presence, h.silence⟩

theorem Keeps.arrayKept {s t : State} (h : Keeps s t) : ArrayKept s t := by
  cases free : s.fc.op with
  | none => exact h.idle free
  | some op => exact .inl (h.busy (by rw [free]; rfl)).2

end Sys2Proof.Machine

namespace Sys2Proof.Proofs

open Sys2Proof.Machine Sys2Proof.Safety

/-- Settles O29. -/
theorem placementAndFlushTimer : Obligations.PlacementAndFlushTimer := by
  refine ⟨fun s ref refs r hq hr opened => ⟨fun fits k => ?_, fun full k => ?_, ?_, ?_, ?_, fun j => ?_, ?_⟩, fun s k rest => ?_,
    fun s k short enough => State.placeRounds_enough short enough, fun s => rfl, fun s running => ⟨_, if_pos running, ?_⟩⟩
  · rw [State.placeRounds_succ hq hr opened, if_pos (State.fits_iff.mpr fits)]
  · rw [State.placeRounds_succ hq hr opened, if_neg fun h => full (State.fits_iff.mp h)]
    rfl
  · rw [State.placeHead_eq, State.queueAfter, hq]
    rfl
  · rw [State.placeHead_eq, State.queueAfter, hq]
    rfl
  · rw [State.placeHead_eq]
  · rw [State.placeHead_eq]
    exact Ref.place_released ..
  · rw [State.placeHead_eq]
  · exact State.placeRounds_of_placed rest k
  · have claims := State.claimIfNeeded_settles s.closeFill
    have ends := claims.trans (State.settleAll_settles _)
    obtain ⟨-, queue, fill, flush⟩ := ends.path (State.stuck_of_placed (State.closeFill_placed s))
    have kept : Keeps s ((s.closeFill.claimIfNeeded).settleAll) := (State.closeFill_keeps s).trans ends.keeps
    exact ⟨fill, flush, queue, fun idle => State.settleAll_committing (State.claimIfNeeded_committing idle (.inr rfl)),
      kept.stationKept, kept.arrayKept⟩

end Sys2Proof.Proofs


namespace Sys2Proof.Machine

namespace State

theorem ask_putAsk (s : State) {i : Nat} (h : i < 4) (e : Option AskEntry) (j : Nat) :
    (s.putAsk i e).ask j = if j = i then e else s.ask j := by
  rw [ask, putAsk, setRp, place_setPlace]
  by_cases hj : j = i
  · rw [if_pos hj, if_pos ⟨hj.symm, h⟩]
  · rw [if_neg hj, if_neg fun k => hj k.1.symm]
    rfl

theorem place_putSlot (s : State) {i : Nat} (h : i < 8) (x : Slot) (j : Nat) :
    place (s.putSlot i x).ra.slots .free j = if j = i then x else place s.ra.slots .free j := by
  rw [putSlot, setRa, place_setPlace]
  by_cases hj : j = i
  · rw [if_pos hj, if_pos ⟨hj.symm, h⟩]
  · rw [if_neg hj, if_neg fun k => hj k.1.symm]

theorem slotExpires_of_filling {s : State} {i : Nat} {d : SlotData} (h : place s.ra.slots .free i = .filling d) :
    s.slotExpires i = ((s.putSlot i .free).bump .expired).tellRp := by
  rw [slotExpires, h]

theorem askExpires_of_running {s : State} {i p : Nat} {a : AskEntry} {due : Bool} (h : s.ask i = some a)
    (state : a.state = .asked p due true) :
    s.askExpires i = if a.tries + 1 < 3 then (s.bump .askTimeouts).putAsk i (some { a with
          tries := a.tries + 1, state := .asked p true false })
      else (s.bump .askTimeouts).skipResponder i a p a.first := by
  rw [askExpires, h]
  dsimp only
  rw [state]

end State

end Sys2Proof.Machine

namespace Sys2Proof.Proofs

open Sys2Proof.Machine Sys2Proof.Safety

/-- Settles O28. -/
theorem slotAndAskTimers : Obligations.SlotAndAskTimers := by
  refine fun s => ⟨fun i d hi filling => ?_, fun i a p due hi asked running paid => ?_⟩
  · have repairs := State.settleRepair_repairs (s.slotExpires i)
    have keeps : Keeps s (s.slotExpires i).settleRepair := (State.slotExpires_keeps s i).trans (State.settleRepair_keeps _)
    rw [State.slotExpires_of_filling filling] at repairs keeps
    have slots (j : Nat) : place (((s.putSlot i .free).bump .expired).tellRp.settleRepair).ra.slots .free j
        = if j = i then .free else place s.ra.slots .free j := by
      rw [repairs.ra]
      exact State.place_putSlot s hi .free j
    have counts (k : Counter) : (((s.putSlot i .free).bump .expired).tellRp.settleRepair).counter k
        = ((s.putSlot i .free).bump .expired).counter k := by
      rw [State.counter, repairs.ap]
      rfl
    refine ⟨_, congrArg Host.Outcome.next (congrArg State.settleRepair (State.slotExpires_of_filling filling)),
      (slots i).trans (if_pos rfl), fun j hj => (slots j).trans (if_neg hj), ?_, ?_, fun k hk => ?_, keeps.stationKept,
      repairs.fc, repairs.sm, repairs.su, repairs.ce⟩
    · rw [repairs.ra]
      rfl
    · exact (counts _).trans (State.counter_bump_self ..)
    · exact (counts k).trans (State.counter_bump_of_ne _ hk)
  · have expires := State.askExpires_of_running asked running
    have keeps : Keeps s (s.askExpires i) := State.askExpires_keeps s i
    have repairs : Repairs (s.bump .askTimeouts) (s.askExpires i) := by
      rw [expires]
      split
      · exact State.putAsk_repairs ..
      · exact State.skipResponder_repairs ..
    have ends := repairs.trans (State.settleRepair_repairs _)
    refine ⟨_, rfl, ?_, fun k hk => ?_, (keeps.trans (State.settleRepair_keeps _)).stationKept, ends.fc, ends.sm, ends.su,
      ends.ra, ends.ce, fun more => ?_, fun last => ?_⟩
    · rw [State.counter, ends.ap]
      exact State.counter_bump_self ..
    · rw [State.counter, ends.ap]
      exact State.counter_bump_of_ne _ hk
    · rw [expires, if_pos more, settleRepair_of_settled (s := (s.bump .askTimeouts).putAsk i _) paid]
      refine ⟨?_, fun j hj => ?_, rfl, rfl⟩
      · exact (State.ask_putAsk _ hi _ i).trans (if_pos rfl)
      · exact (State.ask_putAsk _ hi _ j).trans (if_neg hj)
    · rw [expires, if_neg (by omega)]
      rfl

end Sys2Proof.Proofs


namespace Sys2Proof.Machine

namespace State

/-- R172: an entry that the report of a sent ASK concerns gets its timer; there is none to concern where `askPlace` does not
find it ASKED of this responder with its ASK chosen. -/
theorem askSent_of_asked {s : State} {o target i : Nat} {a : AskEntry} {timer : Bool} (found : s.askPlace o = some i)
    (asked : s.ask i = some a) (state : a.state = .asked target false timer) :
    s.askSent o target = (s.bump .asksSent).putAsk i (some { a with state := .asked target false true }) := by
  rw [askSent, show (s.bump .asksSent).askPlace o = some i from found]
  dsimp only
  rw [show (s.bump .asksSent).ask i = some a from asked]
  dsimp only
  rw [state]
  exact if_pos (beq_self_eq_true target)

theorem askSent_of_unasked {s : State} {o target : Nat}
    (h : ∀ i a timer, s.askPlace o = some i → s.ask i = some a → a.state ≠ .asked target false timer) :
    s.askSent o target = s.bump .asksSent := by
  rw [askSent]
  split
  · rename_i i found
    split
    · rename_i a asked
      split
      · rename_i p timer state
        exact if_neg fun e => h i a timer found asked (by rw [state, eq_of_beq e])
      · rfl
    · rfl
  · rfl

theorem askSent_same (s : State) (o target : Nat) :
    s.askSent o target = (s.bump .asksSent).setRp { s.rp with asks := (s.askSent o target).rp.asks } := by
  rw [askSent]
  dsimp only
  split
  · split
    · split
      · split <;> rfl
      · rfl
    · rfl
  · rfl

theorem askPlace_lt {s : State} {o i : Nat} (h : s.askPlace o = some i) : i < 4 :=
  ((firstPlace_eq_some_iff none).mp h).1

end State

theorem Su.place_release (su : Su) (n i : Nat) : place (su.release n).entries .free i
    = match place su.entries .free i with
      | .sending r count next => if r.seq = n then .free else .sending r count next
      | e => e := by
  refine (place_mapPlaces _ _ rfl i).trans ?_
  cases place su.entries .free i <;> rfl

end Sys2Proof.Machine

namespace Sys2Proof.Proofs

open Sys2Proof.Machine Sys2Proof.Safety

/-- Settles O17. -/
theorem burstSentIsReported : Obligations.BurstSentIsReported := by
  intro s c sending chosen
  have ends : exec .burstSent s = .next (((((s.takeReference s.own).bump .burstsSent).setLc
      { (s.takeReference s.own).lc with chosen := none, fairness := fairnessAfter s.lc.fairness c })).reportSent c.item) := by
    show execBurstSent s = _
    rw [execBurstSent, sending, chosen]
    rfl
  refine ⟨_, ends, ?_⟩
  have counted : ((s.takeReference s.own).bump .burstsSent).counter .burstsSent = min 65535 (s.counter .burstsSent + 1) :=
    State.counter_bump_self ..
  have uncounted (k : Counter) (hk : k ≠ .burstsSent) : ((s.takeReference s.own).bump .burstsSent).counter k = s.counter k :=
    State.counter_bump_of_ne _ hk
  obtain ⟨item, bytes, contested⟩ := c
  have plain : ∀ k, k ≠ .burstsSent → k ≠ .asksSent → ((s.takeReference s.own).bump .burstsSent).counter k = s.counter k :=
    fun k hk _ => uncounted k hk
  cases item with
  | refuse => exact ⟨rfl, counted, rfl, rfl, rfl, ⟨rfl, uncounted _ (by decide)⟩, nofun, plain, rfl, rfl, rfl, rfl, rfl, rfl⟩
  | report => exact ⟨rfl, counted, rfl, rfl, rfl, ⟨rfl, uncounted _ (by decide)⟩, nofun, plain, rfl, rfl, rfl, rfl, rfl, rfl⟩
  | hail => exact ⟨rfl, counted, rfl, rfl, rfl, ⟨rfl, uncounted _ (by decide)⟩, nofun, plain, rfl, rfl, rfl, rfl, rfl, rfl⟩
  | resend => exact ⟨rfl, counted, rfl, rfl, rfl, ⟨rfl, uncounted _ (by decide)⟩, nofun, plain, rfl, rfl, rfl, rfl, rfl, rfl⟩
  | ownSeg n last =>
    cases last with
    | false => exact ⟨rfl, counted, rfl, rfl, rfl, ⟨rfl, uncounted _ (by decide)⟩, nofun, plain, rfl, rfl, rfl, rfl, rfl, rfl⟩
    | true =>
      exact ⟨rfl, counted, rfl, rfl, fun i => Su.place_release s.su n i, ⟨rfl, uncounted _ (by decide)⟩, nofun, plain, rfl, rfl, rfl,
        rfl, rfl, rfl⟩
  | ask o target =>
    dsimp only [State.reportSent]
    generalize hu : ((s.takeReference s.own).bump .burstsSent).setLc _ = u
    have same := State.askSent_same u o target
    have asks : u.ask = s.ask ∧ u.askPlace = s.askPlace ∧ u.rp = s.rp := by subst hu; exact ⟨rfl, rfl, rfl⟩
    have count (k : Counter) : (u.askSent o target).counter k = (u.bump .asksSent).counter k := by
      rw [same]
      rfl
    have kept : (u.askSent o target).lc = u.lc ∧ (u.askSent o target).hu = u.hu ∧ (u.askSent o target).sc = u.sc
        ∧ (u.askSent o target).su = u.su ∧ (u.askSent o target).fc = u.fc ∧ (u.askSent o target).sm = u.sm
        ∧ (u.askSent o target).ra = u.ra ∧ (u.askSent o target).ce = u.ce ∧ (u.askSent o target).nu = u.nu
        ∧ (u.askSent o target).pending = u.pending := by
      rw [same]
      exact ⟨rfl, rfl, rfl, rfl, rfl, rfl, rfl, rfl, rfl, rfl⟩
    obtain ⟨lc, hus, sc, su, fc, sm, ra, ce, nu, pending⟩ := kept
    have before (k : Counter) (hk : k ≠ .burstsSent) : u.counter k = s.counter k := by subst hu; exact uncounted k hk
    refine ⟨lc.trans (by subst hu; rfl), ?_, hus.trans (by subst hu; rfl), sc.trans (by subst hu; rfl), su.trans (by subst hu; rfl),
      ?_, fun o' target' e => ?_, fun k hk hk' => ?_, fc.trans (by subst hu; rfl), sm.trans (by subst hu; rfl),
      ra.trans (by subst hu; rfl), ce.trans (by subst hu; rfl), nu.trans (by subst hu; rfl), pending.trans (by subst hu; rfl)⟩
    · rw [count, State.counter_bump_of_ne _ (by decide)]
      subst hu
      exact counted
    · rw [count, State.counter_bump_self, before _ (by decide)]
    · cases e
      refine ⟨fun i a timer found asked state => ?_, fun unasked => ?_⟩
      · rw [State.askSent_of_asked (asks.2.1 ▸ found) (asks.1 ▸ asked) state]
        refine ⟨(State.ask_putAsk _ (State.askPlace_lt found) _ i).trans (if_pos rfl), fun j hj => ?_, ?_⟩
        · exact (State.ask_putAsk _ (State.askPlace_lt found) _ j).trans ((if_neg hj).trans (congrFun asks.1 j))
        · rw [← asks.2.2]
          rfl
      · rw [State.askSent_of_unasked (by rwa [asks.1, asks.2.1])]
        exact asks.2.2
    · rw [count, State.counter_bump_of_ne _ hk', before k hk]

end Sys2Proof.Proofs

/-! What the store scan makes of its reads, erases and mark programs (R43 to R46). -/

namespace Sys2Proof.Machine

open Sys2Proof.Safety

/-! ## One-time flags (R4) -/

namespace Fc

theorem markFlag_setMarkFlag (fc : Fc) (p : PageAddr) : (fc.setMarkFlag p).markFlag p = true := by
  rw [markFlag, setMarkFlag, List.contains_iff_mem]
  exact mem_insertRising.mpr (.inl rfl)

theorem flags_clearFlags (fc : Fc) {p : PageAddr} (h : p.page < 48) :
    (fc.clearFlags p.block).progFlag p = false ∧ (fc.clearFlags p.block).markFlag p = false := by
  have block : p.index / Config.pagesPerBlock = p.block := by
    show (p.block * 48 + p.page) / 48 = p.block
    omega
  have gone (l : List Nat) : (l.filter fun i => i / Config.pagesPerBlock != p.block).contains p.index = false := by
    rw [Bool.eq_false_iff, ne_eq, List.contains_iff_mem, List.mem_filter, block, bne_self_eq_false]
    exact fun h => Bool.false_ne_true h.2
  exact ⟨gone _, gone _⟩

end Fc

/-! ## Summaries (R30) -/

theorem covers_iff {m : List SummaryLine} {o n : Nat} :
    covers m o n = true ↔ ∃ l ∈ m, l.origin = o ∧ l.lowest ≤ n ∧ n ≤ l.highest := by
  simp only [covers, List.any_eq_true, Bool.and_eq_true, beq_iff_eq, decide_eq_true_eq, and_assoc]

theorem covers_enterSummary (o n : Nat) : (m : List SummaryLine) → covers (enterSummary o n m) o n = true
  | [] => covers_iff.mpr ⟨_, List.mem_singleton_self _, rfl, Nat.le_refl n, Nat.le_refl n⟩
  | l :: ls => by
    rw [enterSummary]
    split
    · exact covers_iff.mpr ⟨_, List.mem_cons_self, rfl, Nat.le_refl n, Nat.le_refl n⟩
    · split
      · exact covers_iff.mpr ⟨_, List.mem_cons_self, rfl, Nat.min_le_right .., Nat.le_max_right ..⟩
      · obtain ⟨x, mem, rest⟩ := covers_iff.mp (covers_enterSummary o n ls)
        exact covers_iff.mpr ⟨x, List.mem_cons_of_mem _ mem, rest⟩

theorem covers_enterSummary_of_covers {o n o' n' : Nat} :
    {m : List SummaryLine} → covers m o' n' = true → covers (enterSummary o n m) o' n' = true
  | [], h => by cases h
  | l :: ls, h => by
    obtain ⟨x, mem, origin, low, high⟩ := covers_iff.mp h
    rw [enterSummary]
    split
    · exact covers_iff.mpr ⟨x, List.mem_cons_of_mem _ mem, origin, low, high⟩
    · split
      · rename_i same
        rcases List.mem_cons.mp mem with rfl | mem
        · exact covers_iff.mpr ⟨_, List.mem_cons_self, same.trans origin, Nat.le_trans (Nat.min_le_left ..) low,
            Nat.le_trans high (Nat.le_max_left ..)⟩
        · exact covers_iff.mpr ⟨x, List.mem_cons_of_mem _ mem, origin, low, high⟩
      · rcases List.mem_cons.mp mem with rfl | mem
        · exact covers_iff.mpr ⟨x, List.mem_cons_self, origin, low, high⟩
        · obtain ⟨y, mem, rest⟩ := covers_iff.mp
            (covers_enterSummary_of_covers (o := o) (n := n) (covers_iff.mpr ⟨x, mem, origin, low, high⟩))
          exact covers_iff.mpr ⟨y, List.mem_cons_of_mem _ mem, rest⟩

theorem covers_enterList_of_covers {o n : Nat} : (list : List ListEntry) → {m : List SummaryLine} → covers m o n = true →
    covers (enterList list m) o n = true
  | [], _, h => h
  | _ :: list, _, h => covers_enterList_of_covers list (covers_enterSummary_of_covers h)

theorem covers_enterList {e : ListEntry} : {list : List ListEntry} → e ∈ list → (m : List SummaryLine) →
    covers (enterList list m) e.origin e.seq = true
  | x :: list, h, m => by
    rcases List.mem_cons.mp h with rfl | h
    · exact covers_enterList_of_covers list (covers_enterSummary ..)
    · exact covers_enterList h _

/-! ## The frame of the scan -/

/-- What every operation of the scan leaves alone, however the scan goes on. -/
structure ScanKept (s t : State) : Prop where
  same : t = { s with sc := { s.sc with scan := t.sc.scan }, fc := t.fc, ap := { s.ap with counters := t.ap.counters }, fresh := t.fresh }
  registers : t.fc.fill = s.fc.fill ∧ t.fc.array = s.fc.array

theorem ScanKept.frame {s t : State} (h : ScanKept s t) : ScanFrame s t := by
  obtain ⟨same, registers⟩ := h
  refine ⟨by rw [same], fun _ => ⟨?_, ?_, ?_, ?_, ?_, ?_, ?_, ?_, ?_, ?_, registers.1, registers.2⟩⟩
  all_goals conv => lhs; rw [same]

/-- The scan's operation frees the array and moves on from there. -/
theorem ScanKept.andThen {s t u : State} (h : ScanKept s t) (k : ScanFrame t u) : ScanFrame s u := by
  obtain ⟨pending, sm, hu, su, ra, ce, lc, rp, nu, ap, sc, fill, array⟩ :
      t.pending = s.pending ∧ t.sm = s.sm ∧ t.hu = s.hu ∧ t.su = s.su ∧ t.ra = s.ra ∧ t.ce = s.ce ∧ t.lc = s.lc ∧ t.rp = s.rp
        ∧ t.nu = s.nu ∧ t.ap = { s.ap with counters := t.ap.counters } ∧ t.sc = { s.sc with scan := t.sc.scan }
        ∧ t.fc.fill = s.fc.fill ∧ t.fc.array = s.fc.array := by
    refine ⟨?_, ?_, ?_, ?_, ?_, ?_, ?_, ?_, ?_, ?_, ?_, h.registers.1, h.registers.2⟩
    all_goals conv => lhs; rw [h.same]
  refine ⟨k.1.trans pending, fun scans => ?_⟩
  obtain ⟨sm', hu', su', ra', ce', lc', rp', nu', ap', sc', fill', array'⟩ := k.2 scans
  refine ⟨sm'.trans sm, hu'.trans hu, su'.trans su, ra'.trans ra, ce'.trans ce, lc'.trans lc, rp'.trans rp, nu'.trans nu, ?_, ?_,
    fill'.trans fill, array'.trans array⟩
  · rw [ap', ap]
  · rw [sc', sc]

theorem ScanKept.setFc (s : State) {x : Fc} (fill : x.fill = s.fc.fill) (array : x.array = s.fc.array) : ScanKept s (s.setFc x) :=
  ⟨rfl, fill, array⟩

theorem ScanKept.bump {s t : State} (h : ScanKept s t) (k : Counter) : ScanKept s (t.drawn.bump k) := by
  refine ⟨?_, h.registers⟩
  generalize counters : (t.drawn.bump k).ap.counters = counted
  have counts : t.drawn.bump k = { t with ap := { t.ap with counters := counted }, fresh := t.fresh + 1 } := by
    rw [← counters]
    rfl
  rw [counts]
  conv => lhs; rw [h.same]

/-- An operation of the array that fails: it is free again with content `m`, and `k` counts. -/
theorem ScanKept.failed {s u : State} (m : Memory) (k : Counter)
    (h : u = ((s.setFc { s.fc with op := none, mem := m }).drawn).bump k) :
    ScanKept s u ∧ u.fc.op = none ∧ u.fc.mem = m ∧ u.counter k = min 65535 (s.counter k + 1) := by
  subst h
  have kept : ScanKept s (s.setFc { s.fc with op := none, mem := m }) := .setFc s rfl rfl
  exact ⟨kept.bump k, rfl, rfl, State.counter_bump_self _ _⟩

namespace State

variable (s : State) (scan : Scan)

theorem scanSpare_kept (mode : ScanMode) (page : Nat) : ScanKept s (s.scanSpare scan mode page) := ⟨rfl, rfl, rfl⟩
theorem scanPage_kept (mode : ScanMode) (spare : List Byte) : ScanKept s (s.scanPage scan mode spare) := ⟨rfl, rfl, rfl⟩
theorem scanErase_kept : ScanKept s (s.scanErase scan) := ⟨rfl, rfl, rfl⟩

theorem scanErase_erases : ScanErases scan s (s.scanErase scan) := by
  refine ⟨rfl, rfl, rfl, fun p hp small => ?_⟩
  have flags := Fc.flags_clearFlags s.fc small
  rwa [hp] at flags

/-! ## A block classified -/

theorem scanBlockDone_of_more {scan : Scan} (h : scan.block + 1 < 640) (c : ScanClass) : s.scanBlockDone scan c
    = s.scanSpare { scan with classes := c :: scan.classes, block := scan.block + 1, stamp := 0, summary := [] } .first 0 :=
  if_pos h

theorem scanBlockDone_of_last {scan : Scan} (h : ¬ scan.block + 1 < 640) (c : ScanClass) : s.scanBlockDone scan c
    = s.scanEnds { scan with classes := c :: scan.classes } :=
  if_neg h

theorem scanEnds_settles : Settles (s.scanRebuilt scan) (s.scanEnds scan) :=
  (setPressure_settles _).trans (settleAll_settles _)

theorem scanEnds_scan : (s.scanEnds scan).sc.scan = none := by
  rw [(scanEnds_keeps s scan).sc]
  rfl

theorem scanRebuilt_phase : (s.scanRebuilt scan).sc.phase = .running .halted .storeUnusable
    ∨ (s.scanRebuilt scan).sc.phase = .running .awaitConfig .none := by
  rw [scanRebuilt, afterScan]
  show (if _ then Phase.running .halted .storeUnusable else .running .awaitConfig .none) = _
    ∨ (if _ then Phase.running .halted .storeUnusable else .running .awaitConfig .none) = _
  split
  · exact .inl rfl
  · exact .inr rfl

theorem scanEnds_station : (s.scanEnds scan).station ≠ some .scanning := by
  unfold station
  rw [(scanEnds_keeps s scan).sc]
  rcases scanRebuilt_phase s scan with h | h
  · rw [h]
    decide
  · rw [h]
    decide

variable {s} (free : s.fc.op = none) (c : ScanClass)
include free

theorem scanBlockDone_scanned : Scanned scan s.fc.mem (s.scanBlockDone scan c) c := by
  refine ⟨fun more => ?_, fun last => ?_⟩
  · rw [scanBlockDone_of_more s (by omega)]
    exact ⟨rfl, rfl, _, rfl, rfl, rfl, rfl, rfl, rfl, rfl⟩
  · rw [scanBlockDone_of_last s (by omega)]
    exact ⟨scanEnds_scan s _, scanEnds_station s _, (scanEnds_keeps s _).idle free⟩

omit free in
theorem scanBlockDone_frame : ScanFrame s (s.scanBlockDone scan c) := by
  by_cases more : scan.block + 1 < 640
  · rw [scanBlockDone_of_more s more]
    exact (scanSpare_kept ..).frame
  · rw [scanBlockDone_of_last s more]
    refine ⟨(scanEnds_keeps s _).pending, fun scans => ?_⟩
    rw [scanEnds_scan] at scans
    cases scans

omit free in
theorem scanBlockDone_read : (s.scanBlockDone scan c).fc.read = s.fc.read := by
  by_cases more : scan.block + 1 < 640
  · rw [scanBlockDone_of_more s more]
    rfl
  · rw [scanBlockDone_of_last s more]
    exact (scanEnds_settles s _).read

omit free in
/-- While the scan goes on, a block classified counts nothing. -/
theorem scanBlockDone_counter (h : (s.scanBlockDone scan c).sc.scan.isSome) (k : Counter) :
    (s.scanBlockDone scan c).counter k = s.counter k := by
  by_cases more : scan.block + 1 < 640
  · rw [scanBlockDone_of_more s more]
    rfl
  · rw [scanBlockDone_of_last s more, scanEnds_scan] at h
    cases h

/-! ## The next page of a block -/

section

/-- The scan goes on from page `scan.page` of its block as `now`: with the spare read of the next page, or, behind the last page, with the
block in class `done`. -/
def scanGoesOn (now : Scan) (next : ScanMode) (done : ScanClass) (m : Memory) (t : State) : Prop :=
  (now.page = 47 → Scanned now m t done)
    ∧ (now.page ≠ 47 → t.fc.op = some (.scanSpareRead { block := now.block, page := now.page + 1 }) ∧ t.fc.mem = m
        ∧ t.sc.scan = some { now with page := now.page + 1, step := .spare next })

theorem scanNextFree_goesOn : scanGoesOn scan .freeTest .free s.fc.mem (s.scanNextFree scan) := by
  unfold scanNextFree
  refine ⟨fun last => ?_, fun more => ?_⟩
  · rw [if_pos last]
    exact scanBlockDone_scanned scan free _
  · rw [if_neg more]
    exact ⟨rfl, rfl, rfl⟩

theorem scanNextWalk_goesOn :
    scanGoesOn scan .walk (.written scan.stamp 48 false scan.summary) s.fc.mem (s.scanNextWalk scan) := by
  unfold scanNextWalk
  refine ⟨fun last => ?_, fun more => ?_⟩
  · rw [if_pos last]
    exact scanBlockDone_scanned scan free _
  · rw [if_neg more]
    exact ⟨rfl, rfl, rfl⟩

omit free in
theorem scanNextFree_frame : ScanFrame s (s.scanNextFree scan) ∧ (s.scanNextFree scan).fc.read = s.fc.read := by
  unfold scanNextFree
  split
  · exact ⟨scanBlockDone_frame .., scanBlockDone_read ..⟩
  · exact ⟨(scanSpare_kept ..).frame, rfl⟩

omit free in
theorem scanNextWalk_frame : ScanFrame s (s.scanNextWalk scan) ∧ (s.scanNextWalk scan).fc.read = s.fc.read := by
  unfold scanNextWalk
  split
  · exact ⟨scanBlockDone_frame .., scanBlockDone_read ..⟩
  · exact ⟨(scanSpare_kept ..).frame, rfl⟩

end

end State

end Sys2Proof.Machine

namespace Sys2Proof.Proofs

open Sys2Proof.Machine Sys2Proof.Safety

/-- Settles O6. -/
theorem scanJudgesTheSpare : Obligations.ScanJudgesTheSpare := by
  intro s scan p mode op scanning step page valid spare
  have kept : ScanKept s (s.fcSpareRead p) := ⟨rfl, rfl, rfl⟩
  have free : (s.fcSpareRead p).fc.op = none := rfl
  have ends : exec .scanSpareReadDone s = .next ((s.fcSpareRead p).scanSpareRead scan mode spare) := by
    show execScanSpareReadDone s = _
    rw [execScanSpareReadDone, op, scanning]
    dsimp only
    rw [step]
    exact if_pos valid
  refine ⟨_, ends, ?_⟩
  -- the four ways on, each with what every way keeps
  have reads (mode : ScanMode) : ((s.fcSpareRead p).scanPage scan mode spare).fc.op = some (.scanPageRead p)
      ∧ ((s.fcSpareRead p).scanPage scan mode spare).fc.mem = s.fc.mem
      ∧ ((s.fcSpareRead p).scanPage scan mode spare).sc.scan = some { scan with step := .page mode spare } := by
    subst page
    exact ⟨rfl, rfl, rfl⟩
  have erases : ScanErases scan s ((s.fcSpareRead p).scanErase scan) := State.scanErase_erases (s.fcSpareRead p) scan
  have done (c : ScanClass) : Scanned scan s.fc.mem ((s.fcSpareRead p).scanBlockDone scan c) c :=
    State.scanBlockDone_scanned scan free c
  have frameRead (mode : ScanMode) : ScanFrame s ((s.fcSpareRead p).scanPage scan mode spare) :=
    kept.andThen (State.scanPage_kept ..).frame
  have frameErase : ScanFrame s ((s.fcSpareRead p).scanErase scan) := kept.andThen (State.scanErase_kept ..).frame
  have frameDone (c : ScanClass) : ScanFrame s ((s.fcSpareRead p).scanBlockDone scan c) :=
    kept.andThen (State.scanBlockDone_frame scan c)
  have readDone (c : ScanClass) : ((s.fcSpareRead p).scanBlockDone scan c).fc.read = { page := some p, spare := some spare, data := none } :=
    State.scanBlockDone_read scan c
  cases mode with
  | first =>
    show _ ∧ _ ∧ _ ∧ _ ∧ _ ∧ _
    unfold State.scanSpareRead
    dsimp only
    by_cases worn : spareMark spare = 0x3C#8
    · rw [if_pos worn]
      have not_erased : spareMark spare ≠ 0xFF#8 := by rw [worn]; decide
      exact ⟨readDone _, frameDone _, fun _ => done _, (absurd worn ·), (absurd · not_erased), (absurd · not_erased)⟩
    · rw [if_neg worn]
      by_cases factory : spareMark spare ≠ 0xFF#8
      · rw [if_pos factory]
        exact ⟨readDone _, frameDone _, (absurd · worn), fun _ _ => done _, (absurd · factory), (absurd · factory)⟩
      · rw [if_neg factory]
        by_cases whole : (allErased spare || spareGood spare) = true
        · rw [if_pos whole]
          refine ⟨rfl, frameRead _, (absurd · worn), fun _ h => absurd h factory, fun _ _ => reads .first, fun _ h1 h2 => ?_⟩
          rw [h1, h2] at whole
          cases whole
        · rw [if_neg whole]
          exact ⟨rfl, frameErase, (absurd · worn), fun _ h => absurd h factory, fun _ h => absurd (Bool.or_eq_true _ _ |>.mpr h) whole,
            fun _ _ _ => erases⟩
  | freeTest =>
    unfold State.scanSpareRead
    dsimp only
    cases erased : allErased spare with
    | true => exact ⟨rfl, frameRead _, fun _ => reads .freeTest, nofun⟩
    | false => exact ⟨rfl, frameErase, nofun, fun _ => erases⟩
  | walk =>
    unfold State.scanSpareRead
    dsimp only
    by_cases whole : (allErased spare || (spareGood spare && spareStamp spare == scan.stamp)) = true
    · rw [if_pos whole]
      refine ⟨rfl, frameRead _, fun _ => reads .walk, fun h1 h2 => ?_⟩
      rw [h1, Bool.false_or, Bool.and_eq_true, beq_iff_eq] at whole
      rcases h2 with h2 | h2
      · rw [h2] at whole
        cases whole.1
      · exact absurd whole.2 h2
    · rw [if_neg whole]
      refine ⟨readDone _, frameDone _, fun h => absurd ?_ whole, fun _ _ => done _⟩
      simpa using h

/-- Settles O7. -/
theorem scanJudgesThePage : Obligations.ScanJudgesThePage := by
  intro s scan p mode spare op scanning step page valid data erased matched full m
  have kept : ScanKept s (s.fcPageRead p) := ⟨rfl, rfl, rfl⟩
  have free : (s.fcPageRead p).fc.op = none := rfl
  have ends : exec .scanPageReadDone s = .next ((s.fcPageRead p).scanPageRead scan mode spare data) := by
    show execScanPageReadDone s = _
    rw [execScanPageReadDone, op, scanning]
    dsimp only
    rw [step]
    exact if_pos valid
  have good : full.ownTop = max scan.ownTop (spareOwnTop spare) ∧ full.block = scan.block ∧ full.classes = scan.classes
      ∧ (∀ e, e ∈ spareList spare → covers full.summary e.origin e.seq = true)
      ∧ ∀ o n, 1 ≤ o → o ≤ 24 → (n ∈ lineOf full.found [] o ↔
          n ∈ lineOf scan.found [] o ∨ ∃ e, e ∈ spareList spare ∧ e.origin = o ∧ e.seq = n) :=
    ⟨rfl, rfl, rfl, fun e he => covers_enterList he _, fun o n h1 h2 => mem_foundAfter h1 h2 _ _⟩
  have nextFree := State.scanNextFree_goesOn (s := s.fcPageRead p) scan free
  have nextFreeFrame := State.scanNextFree_frame (s := s.fcPageRead p) scan
  have nextWalk (now : Scan) := State.scanNextWalk_goesOn (s := s.fcPageRead p) now free
  have nextWalkFrame (now : Scan) := State.scanNextWalk_frame (s := s.fcPageRead p) now
  have done (c : ScanClass) := State.scanBlockDone_scanned (s := s.fcPageRead p) scan free c
  have doneFrame (c : ScanClass) : ScanFrame (s.fcPageRead p) ((s.fcPageRead p).scanBlockDone scan c) :=
    State.scanBlockDone_frame scan c
  have doneRead (c : ScanClass) : ((s.fcPageRead p).scanBlockDone scan c).fc.read = (s.fcPageRead p).fc.read :=
    State.scanBlockDone_read scan c
  have erases : ScanErases scan s ((s.fcPageRead p).scanErase scan) := State.scanErase_erases (s.fcPageRead p) scan
  have eraseFrame := kept.andThen (State.scanErase_kept (s.fcPageRead p) scan).frame
  have is_erased : (allErased spare && allErased data) = true ↔ erased := by
    rw [Bool.and_eq_true]
  have is_matched : (!allErased spare && crc32 data == sparePageCheck spare) = true ↔ matched := by
    rw [Bool.and_eq_true, Bool.not_eq_true', beq_iff_eq]
  have apart (h : erased) (k : matched) : False := Bool.false_ne_true (k.1.symm.trans h.1)
  refine ⟨_, ends, ?_⟩
  cases mode with
  | first =>
    unfold State.scanPageRead
    dsimp only
    by_cases h1 : erased
    · rw [if_pos (is_erased.mpr h1)]
      exact ⟨nextFreeFrame.2, kept.andThen nextFreeFrame.1, good, fun _ => nextFree, fun k => (apart h1 k).elim, (absurd h1 ·)⟩
    · rw [if_neg (mt is_erased.mp h1)]
      by_cases h2 : matched
      · rw [if_pos (is_matched.mpr h2)]
        exact ⟨(nextWalkFrame _).2, kept.andThen (nextWalkFrame _).1, good, (absurd · h1), fun _ => nextWalk { full with stamp := spareStamp spare },
          fun _ => (absurd h2 ·)⟩
      · rw [if_neg (mt is_matched.mp h2)]
        exact ⟨rfl, eraseFrame, good, (absurd · h1), (absurd · h2), fun _ _ => erases⟩
  | freeTest =>
    unfold State.scanPageRead
    dsimp only
    by_cases h1 : erased
    · rw [if_pos (is_erased.mpr h1)]
      exact ⟨nextFreeFrame.2, kept.andThen nextFreeFrame.1, good, fun _ => nextFree, (absurd h1 ·)⟩
    · rw [if_neg (mt is_erased.mp h1)]
      exact ⟨rfl, eraseFrame, good, (absurd · h1), fun _ => erases⟩
  | walk =>
    unfold State.scanPageRead
    dsimp only
    by_cases h1 : erased
    · rw [if_pos (is_erased.mpr h1)]
      exact ⟨doneRead _, kept.andThen (doneFrame _), good, fun _ => done _, fun k => (apart h1 k).elim, (absurd h1 ·)⟩
    · rw [if_neg (mt is_erased.mp h1)]
      by_cases h2 : matched
      · rw [if_pos (is_matched.mpr h2)]
        exact ⟨(nextWalkFrame _).2, kept.andThen (nextWalkFrame _).1, good, (absurd · h1), fun _ => nextWalk full, fun _ => (absurd h2 ·)⟩
      · rw [if_neg (mt is_matched.mp h2)]
        exact ⟨doneRead _, kept.andThen (doneFrame _), good, (absurd · h1), (absurd · h2), fun _ _ => done _⟩

/-- Settles O8. -/
theorem scanErasesAndMarks : Obligations.ScanErasesAndMarks := by
  intro s scan b scanning block small
  subst block
  refine ⟨fun op => ⟨?_, ?_⟩, fun v op => ⟨?_, ?_⟩⟩
  · have ends : exec (.scanEraseDone .pass) s = .next ((s.fcEraseDone scan.block .pass).scanBlockDone scan .free) := by
      show execScanEraseDone .pass s = _
      rw [execScanEraseDone, op, scanning]
      exact if_pos small
    exact ⟨_, ends, State.scanBlockDone_scanned (s := s.fcEraseDone scan.block .pass) scan rfl .free,
      ScanKept.andThen (t := s.fcEraseDone scan.block .pass) ⟨rfl, rfl, rfl⟩ (State.scanBlockDone_frame scan .free)⟩
  · have ends : exec (.scanEraseDone .fail) s = .next ((s.fcEraseDone scan.block .fail).scanErased scan .fail) := by
      show execScanEraseDone .fail s = _
      rw [execScanEraseDone, op, scanning]
      exact if_pos small
    have mem : (s.fcEraseDone scan.block .fail).fc.mem
        = (s.fc.mem.erasePages scan.block 0 1).writeRange (PageAddr.mk scan.block 1).base (freeBytes s.fresh (47 * 3168)) := by
      rw [show 47 * 3168 = (Config.pagesPerBlock - 1) * Config.pageBytes from rfl]
      rfl
    refine ⟨_, freeBytes s.fresh (47 * 3168), ends, length_freeBytes _ _, ?_⟩
    have kept : ScanKept s (s.fcEraseDone scan.block .fail) := ⟨rfl, rfl, rfl⟩
    have free : (s.fcEraseDone scan.block .fail).fc.op = none := rfl
    have same : (s.fcEraseDone scan.block .fail).fc.markFlag = s.fc.markFlag := rfl
    have counted : (s.fcEraseDone scan.block .fail).counter .eraseFailures = min 65535 (s.counter .eraseFailures + 1) :=
      State.counter_bump_self ..
    rw [← mem, ← same]
    generalize s.fcEraseDone scan.block .fail = u at *
    unfold State.scanErased
    dsimp only
    by_cases flag : u.fc.markFlag { block := scan.block, page := 0 } = true
    · rw [if_pos flag]
      have counts : ScanKept u (u.bump .markFailures) := ⟨rfl, rfl, rfl⟩
      refine ⟨kept.andThen (counts.andThen (State.scanBlockDone_frame scan _)), fun clear => ?_, fun _ => ?_⟩
      · exact absurd (flag.symm.trans clear) (by decide)
      · exact State.scanBlockDone_scanned (s := u.bump .markFailures) scan free _
    · rw [if_neg flag]
      refine ⟨kept.andThen (ScanKept.frame ⟨rfl, rfl, rfl⟩), fun _ => ⟨rfl, rfl, ?_, rfl, counted⟩, fun set => absurd set flag⟩
      exact Fc.markFlag_setMarkFlag ..
  · have ends : exec (.scanMarkDone .pass) s = .next ((s.fcMarkDone scan.block v .pass).scanBlockDone scan (.retired .worn)) := by
      show execScanMarkDone .pass s = _
      rw [execScanMarkDone, op, scanning]
      exact if_pos small
    have kept : ScanKept s (s.fcMarkDone scan.block v .pass) := .setFc s rfl rfl
    have free : (s.fcMarkDone scan.block v .pass).fc.op = none := rfl
    have mem : (s.fcMarkDone scan.block v .pass).fc.mem = s.fc.mem.markBlock scan.block v := by
      rw [State.fcMarkDone, State.setFc]
    rw [← mem]
    generalize s.fcMarkDone scan.block v .pass = u at *
    exact ⟨_, ends, State.scanBlockDone_scanned scan free _, kept.andThen (State.scanBlockDone_frame scan _)⟩
  · have ends : exec (.scanMarkDone .fail) s = .next ((s.fcMarkDone scan.block v .fail).scanBlockDone scan (.retired .worn)) := by
      show execScanMarkDone .fail s = _
      rw [execScanMarkDone, op, scanning]
      exact if_pos small
    obtain ⟨kept, free, mem, counted⟩ := ScanKept.failed (s := s) (u := s.fcMarkDone scan.block v .fail)
      (s.fc.mem.markFails scan.block v s.fresh) .markFailures (by rw [State.fcMarkDone])
    rw [Memory.markFails] at mem
    refine ⟨_, v ||| Config.freeByte s.fresh 0, ends, ?_⟩
    rw [← mem]
    generalize s.fcMarkDone scan.block v .fail = u at *
    refine ⟨?_, State.scanBlockDone_scanned scan free _, kept.andThen (State.scanBlockDone_frame scan _), fun scans => ?_⟩
    · ext i hi
      simp +contextual
    · rw [State.scanBlockDone_counter scan _ scans, counted]

end Sys2Proof.Proofs

/-! The arbiter (R5, R8, R10, R11, R16): a round of the grant for each class of claims, and the content of the array. -/

namespace Sys2Proof.Machine

open Sys2Proof.Safety

namespace State

theorem grantRounds_of_busy {s : State} (h : s.storeRuns = false ∨ s.fc.op.isSome) (n : Nat) : s.grantRounds n = s := by
  cases n with
  | zero => rfl
  | succ n =>
    rw [grantRounds, if_pos]
    rcases h with h | h
    · rw [h]
      rfl
    · rw [h, Bool.or_true]

section

variable {s : State} (running : s.storeRuns = true) (free : s.fc.op = none)
include running free

theorem grantRounds_transfer {c : ProgramClaim} (hc : s.fc.programClaim = some c) (empty : s.fc.array.image = none) (n : Nat) :
    s.grantRounds (n + 1) = s.setFc { s.fc with programClaim := none, op := some (.transfer c) } := by
  simp only [grantRounds, running, free, hc, empty, Option.isSome_none, Bool.not_true, Bool.or_self, Bool.false_eq_true, if_false]
  rfl

theorem grantRounds_program {c : ProgramClaim} (hc : s.fc.programClaim = some c) (kept : s.fc.array.image.isSome)
    (clear : s.fc.progFlag c.target = false) (n : Nat) :
    s.grantRounds (n + 1) = (s.setFc { s.fc with programClaim := none }).beginProgram c := by
  obtain ⟨image, kept⟩ := Option.isSome_iff_exists.mp kept
  simp only [grantRounds, running, free, hc, kept, clear, Option.isSome_none, Bool.not_true, Bool.or_self, Bool.false_eq_true, if_false]

theorem grantRounds_refused {c : ProgramClaim} (hc : s.fc.programClaim = some c) (kept : s.fc.array.image.isSome)
    (set : s.fc.progFlag c.target = true) (n : Nat) : s.grantRounds (n + 1)
      = (((s.setFc { s.fc with programClaim := none }).fcProgramFails).programFailed c.target).grantRounds n := by
  obtain ⟨image, kept⟩ := Option.isSome_iff_exists.mp kept
  simp only [grantRounds, running, free, hc, kept, set, Option.isSome_none, Bool.not_true, Bool.or_self, Bool.false_eq_true, if_false,
    if_true]

variable (unclaimed : s.fc.programClaim = none)
include unclaimed

theorem grantRounds_fetch {c : StepClaim} (hc : s.fc.fetchClaim = some c) (n : Nat) : s.grantRounds (n + 1) = s.grantStep .fetch c := by
  simp only [grantRounds, running, free, unclaimed, hc, Option.isSome_none, Bool.not_true, Bool.or_self, Bool.false_eq_true, if_false]

variable (noFetch : s.fc.fetchClaim = none)
include noFetch

theorem grantRounds_serve {c : StepClaim} (hc : s.fc.serveClaim = some c) (n : Nat) : s.grantRounds (n + 1) = s.grantStep .serve c := by
  simp only [grantRounds, running, free, unclaimed, noFetch, hc, Option.isSome_none, Bool.not_true, Bool.or_self, Bool.false_eq_true,
    if_false]

variable (noServe : s.fc.serveClaim = none)
include noServe

theorem grantRounds_mark {m : MarkClaim} {rest : List MarkClaim} (hm : s.fc.markClaims = m :: rest)
    (clear : s.fc.markFlag { block := m.block, page := 0 } = false) (n : Nat) : s.grantRounds (n + 1)
      = s.setFc { s.fc.setMarkFlag { block := m.block, page := 0 } with markClaims := rest, op := some (.mark m.block m.value) } := by
  simp only [grantRounds, running, free, unclaimed, noFetch, noServe, hm, clear, Option.isSome_none, Bool.not_true, Bool.or_self,
    Bool.false_eq_true, if_false, setFc, Fc.setMarkFlag]

theorem grantRounds_mark_refused {m : MarkClaim} {rest : List MarkClaim} (hm : s.fc.markClaims = m :: rest)
    (set : s.fc.markFlag { block := m.block, page := 0 } = true) (n : Nat) :
    s.grantRounds (n + 1) = ((s.setFc { s.fc with markClaims := rest }).bump .markFailures).grantRounds n := by
  simp only [grantRounds, running, free, unclaimed, noFetch, noServe, hm, set, Option.isSome_none, Bool.not_true, Bool.or_self,
    Bool.false_eq_true, if_false, if_true]

variable (noMark : s.fc.markClaims = [])
include noMark

theorem grantRounds_erase {b : Nat} (hb : s.fc.eraseClaim = some b) (apart : s.sm.lookupIn b = false) (n : Nat) :
    s.grantRounds (n + 1) = s.beginErase b := by
  simp only [grantRounds, running, free, unclaimed, noFetch, noServe, noMark, hb, apart, Option.isSome_none, Bool.not_true,
    Bool.or_self, Bool.false_eq_true, if_false]

theorem grantRounds_erase_waits {b : Nat} (hb : s.fc.eraseClaim = some b) (stands : s.sm.lookupIn b = true) (n : Nat) :
    s.grantRounds n = s := by
  cases n with
  | zero => rfl
  | succ n =>
    simp only [grantRounds, running, free, unclaimed, noFetch, noServe, noMark, hb, stands, Option.isSome_none, Bool.not_true,
      Bool.or_self, Bool.false_eq_true, if_false, if_true]

omit running in
theorem grantRounds_idle (noErase : s.fc.eraseClaim = none) (n : Nat) : s.grantRounds n = s := by
  cases n with
  | zero => rfl
  | succ n =>
    simp only [grantRounds, free, unclaimed, noFetch, noServe, noMark, noErase, ite_self]

end

/-! ## How many rounds are enough -/

/-- A round for each mark claim and one more grant all there is to grant, where no re-drive is refused. -/
theorem grantRounds_enough : (n m : Nat) → (s : State) → NoRefusal s → s.fc.markClaims.length < n → s.fc.markClaims.length < m →
    s.grantRounds n = s.grantRounds m
  | 0, _, _, _, h, _ => absurd h (Nat.not_lt_zero _)
  | _, 0, _, _, _, h => absurd h (Nat.not_lt_zero _)
  | n + 1, m + 1, s, w, hn, hm => by
    cases running : s.storeRuns with
    | false => rw [grantRounds_of_busy (.inl running), grantRounds_of_busy (.inl running)]
    | true =>
    cases free : s.fc.op with
    | some op => rw [grantRounds_of_busy (.inr (by rw [free]; rfl)), grantRounds_of_busy (.inr (by rw [free]; rfl))]
    | none =>
    cases claim : s.fc.programClaim with
    | some c =>
      cases image : s.fc.array.image with
      | none => rw [grantRounds_transfer running free claim image, grantRounds_transfer running free claim image]
      | some i =>
        have kept : s.fc.array.image.isSome := by rw [image]; rfl
        have clear := w c claim kept
        rw [grantRounds_program running free claim kept clear, grantRounds_program running free claim kept clear]
    | none =>
    cases fetch : s.fc.fetchClaim with
    | some c => rw [grantRounds_fetch running free claim fetch, grantRounds_fetch running free claim fetch]
    | none =>
    cases serve : s.fc.serveClaim with
    | some c => rw [grantRounds_serve running free claim fetch serve, grantRounds_serve running free claim fetch serve]
    | none =>
    cases marks : s.fc.markClaims with
    | cons x rest =>
      rw [marks, List.length_cons] at hn hm
      cases flag : s.fc.markFlag { block := x.block, page := 0 } with
      | false =>
        rw [grantRounds_mark running free claim fetch serve marks flag, grantRounds_mark running free claim fetch serve marks flag]
      | true =>
        rw [grantRounds_mark_refused running free claim fetch serve marks flag,
          grantRounds_mark_refused running free claim fetch serve marks flag]
        exact grantRounds_enough n m _ w (Nat.lt_of_succ_lt_succ hn) (Nat.lt_of_succ_lt_succ hm)
    | nil =>
    cases erase : s.fc.eraseClaim with
    | some b =>
      cases stands : s.sm.lookupIn b with
      | false =>
        rw [grantRounds_erase running free claim fetch serve marks erase stands,
          grantRounds_erase running free claim fetch serve marks erase stands]
      | true =>
        rw [grantRounds_erase_waits running free claim fetch serve marks erase stands,
          grantRounds_erase_waits running free claim fetch serve marks erase stands]
    | none => rw [grantRounds_idle free claim fetch serve marks erase, grantRounds_idle free claim fetch serve marks erase]

theorem grantRounds_eq_grant {s : State} (w : NoRefusal s) {n : Nat} (h : s.fc.markClaims.length < n) : s.grantRounds n = s.grant := by
  refine grantRounds_enough _ _ s w h ?_
  show _ < _ + 3 * 640
  omega

end State

/-! ## The content of the array (R2, R10, R11) -/

theorem read_programPage {m : Memory} (w : m.wf = true) {p : PageAddr} (h : p.valid = true) {image : List Byte}
    (size : image.length = 3168) (a : Nat) : (m.programPage p image).read a
      = if p.base ≤ a ∧ a < p.base + 3168 then m.read a &&& image.getD (a - p.base) 0xFF#8 else m.read a := by
  have len : (programOver (m.readRange p.base Config.pageBytes) image).length = 3168 := by
    rw [length_programOver, Memory.length_readRange, size]
    rfl
  have fits := base_add_lt h
  rw [Memory.programPage]
  split
  · rename_i inside
    have hi : a - p.base < (programOver (m.readRange p.base Config.pageBytes) image).length := by omega
    have at_a := Memory.read_writeRange_inside w p.base _ hi (by omega)
    rw [show p.base + (a - p.base) = a by omega, List.getElem?_eq_getElem hi] at at_a
    rw [at_a]
    simp only [programOver, Memory.readRange_eq w, List.getElem_zipWith, List.getElem_map, List.getElem_range, Option.getD_some]
    rw [show p.base + (a - p.base) = a by omega, List.getD_eq_getElem?_getD,
      List.getElem?_eq_getElem (by omega), Option.getD_some]
  · rename_i outside
    exact Memory.read_writeRange_outside w _ _ (by omega)

end Sys2Proof.Machine

namespace Sys2Proof.Proofs

open Sys2Proof.Machine Sys2Proof.Safety

/-- Settles O35. -/
theorem arbiterGrantsAndArrayOperations : Obligations.ArbiterGrantsAndArrayOperations := by
  refine ⟨fun s n => ⟨fun busy => State.grantRounds_of_busy busy n, fun running free => ⟨fun c claim => ⟨fun empty => ?_, fun kept clear => ?_,
    fun kept set => ?_⟩, fun unclaimed => ⟨fun c fetch => ?_, fun noFetch => ⟨fun c serve => ?_, fun noServe => ⟨fun m rest marks => ⟨fun clear => ?_,
    fun set => ?_⟩, fun noMark => ⟨fun b erase => ⟨fun stands => ?_, fun apart => ?_⟩, fun noErase => ?_⟩⟩⟩⟩⟩,
    fun w => State.grantRounds_eq_grant w⟩, fun s b v o op small => ?_, fun m w => ⟨fun p image a valid size => ?_, fun b a v small => ?_,
    fun b first count a => ?_⟩⟩
  · exact State.grantRounds_transfer running free claim empty n
  · exact State.grantRounds_program running free claim kept clear n
  · exact State.grantRounds_refused running free claim kept set n
  · exact State.grantRounds_fetch running free unclaimed fetch n
  · exact State.grantRounds_serve running free unclaimed noFetch serve n
  · exact State.grantRounds_mark running free unclaimed noFetch noServe marks clear n
  · exact State.grantRounds_mark_refused running free unclaimed noFetch noServe marks set n
  · exact State.grantRounds_erase_waits running free unclaimed noFetch noServe noMark erase ((Sm.lookupIn_iff ..).mpr stands) _
  · exact State.grantRounds_erase running free unclaimed noFetch noServe noMark erase
      (Bool.eq_false_iff.mpr (mt (Sm.lookupIn_iff ..).mp apart)) n
  · exact State.grantRounds_idle free unclaimed noFetch noServe noMark noErase _
  · refine ⟨((s.fcMarkDone b v o).grant).settleRepair, ?_, (State.settleRepair_repairs _).fc⟩
    show execMarkProgramDone o s = _
    rw [execMarkProgramDone, op]
    exact if_pos small
  · exact read_programPage w valid size a
  · exact Memory.read_markBlock w small v a
  · exact Memory.read_erasePages w b first count a

end Sys2Proof.Proofs

/-! The end of the store scan (R47, R50, R155 to R160): what the last reclaim evaluation and grant leave. -/

namespace Sys2Proof.Machine

open Sys2Proof.Safety

/-! ## The rebuilt table -/

theorem fold_setBlock_same (f : ScanClass × Nat → BlockEntry) : (l : List (ScanClass × Nat)) → (sm : Sm) →
    l.foldl (fun m x => m.setBlock x.2 (f x)) sm = { sm with table := (l.foldl (fun m x => m.setBlock x.2 (f x)) sm).table }
  | [], _ => rfl
  | x :: l, sm => by
    rw [List.foldl_cons, fold_setBlock_same f l]
    rfl

theorem Sm.rebuilt_same (sm : Sm) (classes : List (ScanClass × Nat)) : sm.rebuilt classes = { sm with
    table := (sm.rebuilt classes).table, newestPage := (sm.rebuilt classes).newestPage,
    stampHigh := (sm.rebuilt classes).stampHigh, lastOpened := (sm.rebuilt classes).lastOpened } := by
  unfold Sm.rebuilt
  cases newestWritten classes with
  | none =>
    dsimp only
    rw [fold_setBlock_same]
  | some x =>
    dsimp only
    rw [fold_setBlock_same]

theorem fold_setBlock_block (f : ScanClass × Nat → BlockEntry) (b : Nat) : (l : List (ScanClass × Nat)) → (sm : Sm) →
    (l.foldl (fun m x => m.setBlock x.2 (f x)) sm).block b = sm.block b
      ∨ ∃ x ∈ l, (l.foldl (fun m x => m.setBlock x.2 (f x)) sm).block b = f x
  | [], _ => .inl rfl
  | x :: l, sm => by
    rw [List.foldl_cons]
    rcases fold_setBlock_block f b l (sm.setBlock x.2 (f x)) with h | ⟨y, mem, h⟩
    · rw [Sm.block_setBlock] at h
      split at h
      · exact .inr ⟨x, List.mem_cons_self, h⟩
      · exact .inl h
    · exact .inr ⟨y, List.mem_cons_of_mem _ mem, h⟩

theorem ScanClass.entry_not_retiring (newest : Bool) (c : ScanClass) : (c.entry newest).state ≠ .retiring := by
  cases c with
  | free => nofun
  | retired cause => nofun
  | written stamp pages torn summary =>
    rw [written_entry]
    dsimp only
    split <;> nofun

/-- No block is RETIRING behind the scan. -/
theorem Sm.rebuilt_not_retiring {sm : Sm} (none : ∀ b, (sm.block b).state ≠ .retiring) (classes : List (ScanClass × Nat)) (b : Nat) :
    ((sm.rebuilt classes).block b).state ≠ .retiring := by
  have block : (sm.rebuilt classes).block b
      = (classes.foldl (fun m x => m.setBlock x.2 (x.1.entry ((newestWritten classes).map Prod.snd == some x.2))) sm).block b := by
    unfold Sm.rebuilt
    cases newestWritten classes <;> rfl
  rw [block]
  rcases fold_setBlock_block (fun x => x.1.entry ((newestWritten classes).map Prod.snd == some x.2)) b classes sm with h | ⟨x, -, h⟩
  · rw [h]
    exact none b
  · rw [h]
    exact ScanClass.entry_not_retiring _ _

namespace State

theorem setPressure_sm (s : State) : s.setPressure.sm = { s.sm with
    pressure := pressureOf s.sm.freeCount, reclaimDue := s.sm.reclaimDue || pressureOf s.sm.freeCount != s.sm.pressure } := by
  unfold setPressure
  dsimp only
  split
  · rw [notify_sm]
    rfl
  · split
    · rw [notify_sm]
      rfl
    · rfl

/-! ## A last evaluation that selects nothing -/

variable {s : State}

theorem evaluateReclaim_still (due : s.sm.reclaimDue = true) (rest : s.storeRuns = true → s.selection = none) :
    s.evaluateReclaim = s.setSm { s.sm with reclaimDue := false } := by
  rw [evaluateReclaim, if_pos due]
  dsimp only
  split
  · rename_i runs
    rw [reclaimRounds_of_none (rest runs)]
  · rfl

/-- No claim waits for the array. -/
def unclaimed (s : State) : Prop :=
  s.fc.programClaim = none ∧ s.fc.fetchClaim = none ∧ s.fc.serveClaim = none ∧ s.fc.markClaims = [] ∧ s.fc.eraseClaim = none

theorem settleAll_still (due : s.sm.reclaimDue = true) (rest : s.storeRuns = true → s.selection = none) (free : s.fc.op = none)
    (idle : s.unclaimed) (paid : s.rp.rerunDue = false) : s.settleAll = s.setSm { s.sm with reclaimDue := false } := by
  obtain ⟨program, fetch, serve, marks, erase⟩ := idle
  rw [settleAll, evaluateReclaim_still due rest, grant,
    grantRounds_idle (s := s.setSm { s.sm with reclaimDue := false }) free program fetch serve marks erase,
    settleRepair_of_settled (s := s.setSm { s.sm with reclaimDue := false }) paid]

/-! ## Floors before CONFIGURE -/

/-- A floor raise before CONFIGURE and beside no program claim moves entries only. -/
theorem floorRaise_unset (unset : s.sc.settings = none) (program : s.fc.programClaim = none) (o f : Nat) :
    s.floorRaise o f = s.setHu { s.hu with entries := (s.floorRaise o f).hu.entries } := by
  have unreported : s.reported o = false := by
    rw [reported, groupSize, unset, Bool.and_eq_false_iff]
    cases o with
    | zero => exact .inl rfl
    | succ o => exact .inr rfl
  have mark (t : State) (h : t.fc.programClaim = none) (h' : t.sc.settings = none) : t.raiseMark.evaluateDurable = t := by
    rw [evaluateDurable, raiseMark, setFc, h, h']
    obtain ⟨sc, fc⟩ := t
    dsimp only at h
    cases fc
    subst h
    rfl
  have written (e : Entry) : s.putEntry o e = s.setHu { s.hu with entries := setLine s.hu.entries o e } := by
    have write : s.writeEntry o e = s.setHu { s.hu with entries := setLine s.hu.entries o e } := by
      rw [writeEntry, unreported, Bool.false_and, Bool.or_false]
    rw [putEntry, unreported, Bool.false_and, write]
    dsimp only
    split
    · exact mark _ program unset
    · rfl
  rw [floorRaise]
  split
  · rfl
  · rw [written]
    rfl

theorem raiseFloors_unset : (m : List SummaryLine) → {s : State} → s.sc.settings = none → s.fc.programClaim = none →
    s.raiseFloors m = s.setHu { s.hu with entries := (s.raiseFloors m).hu.entries }
  | [], _, _, _ => rfl
  | l :: m, s, unset, program => by
    have first := floorRaise_unset unset program l.origin (l.highest + 1)
    rw [raiseFloors_cons, raiseFloors_unset m (by rw [first]; exact unset) (by rw [first]; exact program), first]
    rfl

theorem floor_raiseFloors {l : SummaryLine} {m : List SummaryLine} (mem : l ∈ m) (h1 : 1 ≤ l.origin) (h2 : l.origin ≤ 24) :
    (s : State) → l.origin ≤ s.originLimit → min (l.highest + 1) 4294967295 ≤ ((s.raiseFloors m).entry l.origin).floor := by
  induction m with
  | nil => cases mem
  | cons k m ih =>
    intro s small
    rw [raiseFloors_cons]
    rcases List.mem_cons.mp mem with rfl | mem
    · have raised := entry_floorRaise s l.origin (l.highest + 1) l.origin
      rw [if_pos ⟨rfl, ⟨h1, h2⟩, small⟩] at raised
      have first : min (l.highest + 1) 4294967295 ≤ ((s.floorRaise l.origin (l.highest + 1)).entry l.origin).floor := by
        rw [raised, Entry.floor_raiseFloor]
        exact Nat.le_max_right ..
      exact Nat.le_trans first ((raiseFloors_reclaims _ m).floor l.origin)
    · exact ih mem _ (by rwa [originLimit_floorRaise])

/-! ## A last evaluation that takes a block -/

theorem settleAll_takes {b : Nat} (due : s.sm.reclaimDue = true) (runs : s.storeRuns = true) (selected : s.selection = some b)
    (sealed : (s.sm.block b).state = .sealed) (lookups : s.sm.fetchLookup = none ∧ s.sm.serveLookup = none) (free : s.fc.op = none)
    (idle : s.unclaimed) (paid : s.rp.rerunDue = false) (unset : s.sc.settings = none) : s.settleAll = { s with
      hu := { s.hu with entries := (s.raiseFloors (s.sm.block b).summary).hu.entries }
      sm := { s.sm.setBlock b { s.sm.block b with state := .erasing } with reclaimDue := false }
      fc := { s.fc.clearFlags b with eraseClaim := none, mem := s.fc.mem.erasePages b 0 1, op := some (.erase b) } } := by
  obtain ⟨program, fetch, serve, marks, erase⟩ := idle
  have floors := raiseFloors_unset (s.sm.block b).summary unset program
  have taken : s.taken b = (s.setHu { s.hu with entries := (s.raiseFloors (s.sm.block b).summary).hu.entries }).setSm
      { s.sm.setBlock b { s.sm.block b with state := .erasing } with reclaimDue := true } := by
    rw [State.taken, selectedEntry, sealed]
    conv => lhs; rw [floors]
    rfl
  have left : s.left b = s.taken b := by
    have nowhere (who : Requester) : (s.taken b).sm.lookup who = none := by
      rw [taken]
      cases who with
      | fetch => exact lookups.1
      | serve => exact lookups.2
    have stays (who : Requester) : (s.taken b).leaveBlock b who = s.taken b :=
      leaveBlock_of_apart fun l hl => by rw [nowhere who] at hl; cases hl
    rw [State.left, stays .fetch, stays .serve]
  have chosen : s.select b = (s.taken b).setFc { s.fc with eraseClaim := some b } := by
    rw [select_sealed sealed, left, taken]
    rfl
  have inside : b < 640 := ((old_of_selection selected)).1
  have last : (s.select b).selection = none := by
    rw [Option.eq_none_iff_forall_ne_some]
    intro c hc
    have erasing := Sm.count_eq_zero_iff.mp (selection_eq_some_iff.mp hc).2.1 b inside
    rw [select_block (.inl sealed), if_pos ⟨rfl, inside⟩, selectedEntry, sealed] at erasing
    cases erasing
  have evaluated : s.evaluateReclaim = (s.select b).setSm { (s.select b).sm with reclaimDue := false } := by
    rw [evaluateReclaim, if_pos due]
    dsimp only
    rw [if_pos runs, show Config.blocks + 1 = 640 + 1 from rfl, reclaimRounds_of_some selected, reclaimRounds_of_none last]
  generalize hu : (s.select b).setSm { (s.select b).sm with reclaimDue := false } = u at evaluated
  have same : u = { s with
      hu := { s.hu with entries := (s.raiseFloors (s.sm.block b).summary).hu.entries }
      sm := { s.sm.setBlock b { s.sm.block b with state := .erasing } with reclaimDue := false }
      fc := { s.fc with eraseClaim := some b } } := by
    rw [← hu, chosen, taken]
    rfl
  have apart : u.sm.lookupIn b = false := by
    rw [same]
    show ((s.sm.fetchLookup.bind Lookup.block) == some b || (s.sm.serveLookup.bind Lookup.block) == some b) = false
    rw [lookups.1, lookups.2]
    rfl
  have granted : u.grant = u.beginErase b := by
    rw [grant]
    refine grantRounds_erase (n := u.fc.markClaims.length + 1919) (b := b) ?_ ?_ ?_ ?_ ?_ ?_ ?_ apart
    · rw [same]
      exact runs
    · rw [same]
      exact free
    · rw [same]
      exact program
    · rw [same]
      exact fetch
    · rw [same]
      exact serve
    · rw [same]
      exact marks
    · rw [same]
  rw [settleAll, evaluated, granted, settleRepair_of_settled (by rw [same]; exact paid), same]
  rfl

/-! ## The state the scan leaves before its last evaluation -/

/-- The scan's outcome with the level set, before reclaim is evaluated. -/
def scanLevelled (u : State) (scan : Scan) : State := (u.scanRebuilt scan).setPressure

theorem scanEnds_eq (u : State) (scan : Scan) : u.scanEnds scan = (u.scanLevelled scan).settleAll := rfl

theorem scanRebuilt_same (u : State) (scan : Scan) : u.scanRebuilt scan = { u with
    sc := { u.sc with
      scan := none
      phase := if 640 - (u.sm.rebuilt scan.classes.reverse.zipIdx).retiredCount < 8 then .running .halted .storeUnusable
        else .running .awaitConfig .none }
    sm := { u.sm.rebuilt scan.classes.reverse.zipIdx with reclaimDue := true }
    hu := { u.hu with entries := (u.scanRebuilt scan).hu.entries }
    ap := { u.ap with counters := (u.scanRebuilt scan).ap.counters } } := rfl

theorem scanLevelled_same (u : State) (scan : Scan) : u.scanLevelled scan = { u with
    sc := { u.sc with
      scan := none
      phase := if 640 - (u.sm.rebuilt scan.classes.reverse.zipIdx).retiredCount < 8 then .running .halted .storeUnusable
        else .running .awaitConfig .none }
    sm := { u.sm.rebuilt scan.classes.reverse.zipIdx with
      pressure := pressureOf (u.sm.rebuilt scan.classes.reverse.zipIdx).freeCount, reclaimDue := true }
    hu := { u.hu with entries := (u.scanRebuilt scan).hu.entries }
    ap := { u.ap with counters := (u.scanRebuilt scan).ap.counters }
    nu := (u.scanLevelled scan).nu } := by
  rw [scanLevelled, setPressure_same]
  conv => lhs; rw [setPressure_sm]
  rfl

theorem scanLevelled_entry (u : State) (scan : Scan) {o : Nat} (h1 : 1 ≤ o) (h2 : o ≤ 24) :
    (u.scanLevelled scan).entry o = scan.entryOf u.own o := by
  rw [scanLevelled_same]
  exact (entry_scanRebuilt u scan o).trans (if_pos ⟨h1, h2⟩)

theorem scanLevelled_orphaned (u : State) (scan : Scan) : (u.scanLevelled scan).counter .orphaned
    = min 65535 (u.counter .orphaned + ((upFrom 1 24).map (scan.orphansOf u.own)).foldl (· + ·) 0) := by
  rw [scanLevelled_same]
  show (u.scanRebuilt scan).counter .orphaned = _
  exact (counter_raise _ .orphaned _ .orphaned).trans (if_pos rfl)

/-- The store runs behind the scan unless the station halts. -/
theorem storeRuns_of_phase {t : State} {halts : Prop} [Decidable halts]
    (h : t.sc.phase = if halts then .running .halted .storeUnusable else .running .awaitConfig .none) :
    t.storeRuns = !decide halts := by
  unfold storeRuns station
  rw [h]
  by_cases halts : halts
  · rw [if_pos halts, decide_eq_true halts]
    rfl
  · rw [if_neg halts, decide_eq_false halts]
    rfl

theorem scanLevelled_nu {u : State} (scan : Scan) (normal : u.sm.pressure = .normal) (unset : u.sc.settings = none) :
    (u.scanLevelled scan).nu = if 640 - (u.sm.rebuilt scan.classes.reverse.zipIdx).retiredCount < 8
        ∨ pressureOf (u.sm.rebuilt scan.classes.reverse.zipIdx).freeCount ≠ .tight then u.nu
      else u.nu.take 1 0 .storeFull := by
  have before : (u.scanRebuilt scan).sm.pressure = .normal := by
    show (u.sm.rebuilt scan.classes.reverse.zipIdx).pressure = .normal
    rw [Sm.rebuilt_same]
    exact normal
  have free : (u.scanRebuilt scan).sm.freeCount = (u.sm.rebuilt scan.classes.reverse.zipIdx).freeCount := rfl
  rw [scanLevelled, setPressure, before, free]
  generalize pressureOf (u.sm.rebuilt scan.classes.reverse.zipIdx).freeCount = level
  cases level with
  | normal => exact (if_pos (.inr nofun)).symm
  | low => exact (if_pos (.inr nofun)).symm
  | tight =>
    dsimp only
    rw [if_pos (by decide), notify_eq]
    have threshold : ((u.scanRebuilt scan).setSm { (u.scanRebuilt scan).sm with
        pressure := .tight, reclaimDue := (u.scanRebuilt scan).sm.reclaimDue || Pressure.tight != .normal }).noticeThreshold = 1 := by
      show (u.sc.settings.map Settings.noticeThreshold).getD 1 = 1
      rw [unset]
      rfl
    have delay : ((u.scanRebuilt scan).setSm { (u.scanRebuilt scan).sm with
        pressure := .tight, reclaimDue := (u.scanRebuilt scan).sm.reclaimDue || Pressure.tight != .normal }).noticeDelay = 0 := by
      show (u.sc.settings.map Settings.noticeDelay).getD 0 = 0
      rw [unset]
      rfl
    rw [threshold, delay, storeRuns_of_phase (halts := 640 - (u.sm.rebuilt scan.classes.reverse.zipIdx).retiredCount < 8) rfl]
    by_cases halts : 640 - (u.sm.rebuilt scan.classes.reverse.zipIdx).retiredCount < 8
    · refine Eq.trans ?_ (if_pos (.inl halts)).symm
      rw [decide_eq_true halts]
      rfl
    · refine Eq.trans ?_ (if_neg fun h => h.elim halts fun tight => tight rfl).symm
      rw [decide_eq_false halts]
      rfl

/-- What the erase of the last block leaves to the end of the scan. -/
theorem scanLevelled_rest (s : State) (scan : Scan) : let p := (s.fcEraseDone 639 .pass).scanLevelled scan
    p.fc = { s.fc with op := none, mem := s.fc.mem.erasePages 639 0 48 } ∧ p.hu = { s.hu with entries := p.hu.entries }
      ∧ p.su = s.su ∧ p.ra = s.ra ∧ p.ce = s.ce ∧ p.lc = s.lc ∧ p.rp = s.rp ∧ p.pending = s.pending := by
  have same := scanLevelled_same (s.fcEraseDone 639 .pass) scan
  refine ⟨?_, ?_, ?_, ?_, ?_, ?_, ?_, ?_⟩
  all_goals conv => lhs; rw [same]
  · rfl
  · rw [same]
    rfl
  all_goals rfl

end State

end Sys2Proof.Machine

namespace Sys2Proof.Proofs

open Sys2Proof.Machine Sys2Proof.Safety

/-- The command whose scan ends. -/
theorem scanEndsAtLastErase {s : State} {scan : Scan} (op : s.fc.op = some (.scanErase 639)) (scanning : s.sc.scan = some scan)
    (last : scan.block = 639) : exec (.scanEraseDone .pass) s
      = .next ((s.fcEraseDone 639 .pass).scanEnds { scan with classes := .free :: scan.classes }) := by
  show execScanEraseDone .pass s = _
  rw [execScanEraseDone, op, scanning]
  refine (if_pos (by decide)).trans (congrArg Host.Outcome.next ?_)
  exact State.scanBlockDone_of_last _ (by omega) _

/-- Settles O9. -/
theorem scanEnds : Obligations.ScanEnds := by
  constructor
  · intro s scan op scanning last program fetch serve marks erase paid sm free
    refine ⟨_, scanEndsAtLastErase op scanning last, ?_⟩
    rw [State.scanEnds_eq]
    have same := State.scanLevelled_same (s.fcEraseDone 639 .pass) { scan with classes := .free :: scan.classes }
    have entries (o : Nat) := State.scanLevelled_entry (s.fcEraseDone 639 .pass) { scan with classes := .free :: scan.classes } (o := o)
    have orphans := State.scanLevelled_orphaned (s.fcEraseDone 639 .pass) { scan with classes := .free :: scan.classes }
    have rest := State.scanLevelled_rest s { scan with classes := .free :: scan.classes }
    generalize (s.fcEraseDone 639 .pass).scanLevelled { scan with classes := .free :: scan.classes } = p at *
    have normal : pressureOf sm.freeCount = .normal := if_pos free
    have level : p.sm = { sm with pressure := .normal, reclaimDue := true } := by
      rw [← normal, same]
      rfl
    have none_selected : p.selection = none := by
      rw [Option.eq_none_iff_forall_ne_some]
      intro c hc
      have pressed := (selection_eq_some_iff.mp hc).1
      rw [level] at pressed
      exact pressed rfl
    obtain ⟨fc, hu, su, ra, ce, lc, rp, pending⟩ := rest
    have still := State.settleAll_still (s := p) (by rw [level]) (fun _ => none_selected) (by rw [fc])
      (by unfold State.unclaimed; rw [fc]; exact ⟨program, fetch, serve, marks, erase⟩) (by rw [rp]; exact paid)
    rw [still]
    refine ⟨?_, ?_, fun o h1 h2 => entries o h1 h2, orphans, hu, ?_, ?_, su, ra, ce, lc, rp, pending⟩
    · show p.sc = _
      rw [same]
      rfl
    · show { p.sm with reclaimDue := false } = _
      rw [level]
    · show p.fc.op = none
      rw [fc]
    · show p.fc.mem = _
      rw [fc]
  · intro s scan op scanning last rests sm level halts m
    refine ⟨_, scanEndsAtLastErase op scanning last, ?_⟩
    rw [State.scanEnds_eq]
    have unset := settings_atRest rests
    have looks : sm.fetchLookup = none ∧ sm.serveLookup = none := by
      show (s.sm.rebuilt _).fetchLookup = none ∧ (s.sm.rebuilt _).serveLookup = none
      rw [Sm.rebuilt_same, sm_atRest rests]
      exact ⟨rfl, rfl⟩
    have before := sm_atRest rests
    have same := State.scanLevelled_same (s.fcEraseDone 639 .pass) { scan with classes := .free :: scan.classes }
    have entries (o : Nat) := State.scanLevelled_entry (s.fcEraseDone 639 .pass) { scan with classes := .free :: scan.classes } (o := o)
    have orphans := State.scanLevelled_orphaned (s.fcEraseDone 639 .pass) { scan with classes := .free :: scan.classes }
    have nu := State.scanLevelled_nu (u := s.fcEraseDone 639 .pass) { scan with classes := .free :: scan.classes }
      (by show s.sm.pressure = _; rw [before]; rfl) unset
    obtain ⟨fc, hu, su, ra, ce, lc, rp, pending⟩ := State.scanLevelled_rest s { scan with classes := .free :: scan.classes }
    generalize (s.fcEraseDone 639 .pass).scanLevelled { scan with classes := .free :: scan.classes } = p at *
    have psm : p.sm = { sm with pressure := level, reclaimDue := true } := by
      rw [same]
      rfl
    have psc : p.sc = { s.sc with
        scan := none
        phase := if halts then .running .halted .storeUnusable else .running .awaitConfig .none } := by
      rw [same]
      rfl
    have runs : p.storeRuns = !decide halts := State.storeRuns_of_phase (by rw [psc])
    have selection : p.selection = ({ s with sm := { sm with pressure := level } } : State).selection := by
      unfold State.selection State.eligible State.own
      rw [psm, psc, hu]
      rfl
    obtain ⟨-, -, -, -, -, -, hrp, hnu, -, -, -, -, -, -, -, program, fetch, serve, marks, erase, -⟩ := rests
    have idle : p.unclaimed := by
      unfold State.unclaimed
      rw [fc]
      exact ⟨program, fetch, serve, marks, erase⟩
    have free : p.fc.op = none := by rw [fc]
    have paid : p.rp.rerunDue = false := by rw [rp, hrp]; rfl
    have notices : p.nu = if halts ∨ level ≠ .tight then s.nu
        else { queue := [.storeFull], overflow := false, delayTimer := .expired, attn := true } := by
      refine nu.trans (ite_congr rfl (fun _ => rfl) fun _ => ?_)
      show s.nu.take 1 0 .storeFull = _
      rw [hnu]
      rfl
    generalize chosen : (if halts then none else ({ s with sm := { sm with pressure := level } } : State).selection) = choice
    cases choice with
    | none =>
      have none_selected : p.storeRuns = true → p.selection = none := fun h => by
        rw [runs, Bool.not_eq_true', decide_eq_false_iff_not] at h
        rw [if_neg h] at chosen
        rw [selection, chosen]
      rw [State.settleAll_still (by rw [psm]) none_selected free idle paid]
      refine ⟨psc, ?_, ?_, notices, orphans, hu, su, ra, ce, lc, rp, pending, ?_, free, ?_, fun o h1 h2 => entries o h1 h2⟩
      · show p.sm.pressure = level
        rw [psm]
      · show p.sm.freeCount = sm.freeCount
        rw [psm]
        rfl
      · show { p.sm with reclaimDue := false } = _
        rw [psm]
      · show p.fc.mem = _
        rw [fc]
    | some b =>
      have running : ¬ halts := fun h => by
        rw [if_pos h] at chosen
        cases chosen
      rw [if_neg running, ← selection] at chosen
      have block (a : Nat) : p.sm.block a = sm.block a := by
        rw [psm]
        rfl
      obtain ⟨inside, old, -⟩ := old_of_selection chosen
      have sealed : (p.sm.block b).state = .sealed := by
        refine old.resolve_right ?_
        rw [block]
        refine Sm.rebuilt_not_retiring (fun a => ?_) _ b
        show (s.sm.block a).state ≠ _
        rw [before, show Sm.reset.block a = BlockEntry.reset from place_replicate 640 _ a]
        nofun
      have takes := State.settleAll_takes (s := p) (by rw [psm]) (by rw [runs, decide_eq_false running]; rfl) chosen sealed
        (by rw [psm]; exact ⟨looks.1, looks.2⟩) free idle paid (by rw [psc]; exact unset)
      have entry (o : Nat) : p.settleAll.entry o = (p.raiseFloors (sm.block b).summary).entry o := by
        rw [takes, ← block]
        rfl
      rw [takes]
      refine ⟨psc, ?_, ?_, notices, orphans, ?_, su, ra, ce, lc, rp, pending, ?_, rfl, ?_, fun o h1 h2 apart => ?_,
        fun l mem h1 h2 => ?_⟩
      · show p.sm.pressure = level
        rw [psm]
      · have count := Sm.count_setBlock (sm := p.sm) (p := (· == .free)) inside { p.sm.block b with state := .erasing }
        rw [sealed] at count
        have same : p.sm.count (· == .free) = sm.count (· == .free) := by
          rw [psm]
          rfl
        exact count.trans same
      · show { p.hu with entries := (p.raiseFloors (p.sm.block b).summary).hu.entries } = _
        conv => lhs; rw [hu]
      · show { p.sm.setBlock b { p.sm.block b with state := .erasing } with reclaimDue := false } = _
        rw [block, psm]
        rfl
      · show p.fc.mem.erasePages b 0 1 = m.erasePages b 0 1
        rw [fc]
      · rw [← takes, entry, State.raiseFloors_entry_other _ _ (.inr apart)]
        exact entries o h1 h2
      · rw [← takes, entry]
        refine State.floor_raiseFloors mem h1 h2 p ?_
        rw [State.originLimit, psc]
        show l.origin ≤ (s.sc.settings.map Settings.groupSize).getD 24
        rw [unset]
        exact h2

end Sys2Proof.Proofs

/-! What a grant leaves (R5, R16), where no re-drive is refused. -/

namespace Sys2Proof.Machine

open Sys2Proof.Safety

theorem Fc.progFlag_setProgFlag (fc : Fc) (p : PageAddr) : (fc.setProgFlag p).progFlag p = true := by
  rw [progFlag, setProgFlag, List.contains_iff_mem]
  exact mem_insertRising.mpr (.inl rfl)

theorem Fc.programBusy_eq_false {fc : Fc} :
    fc.programBusy = false ↔ fc.programClaim = none ∧ ∀ c, fc.op ≠ some (.transfer c) ∧ fc.op ≠ some (.program c) := by
  rw [programBusy, Bool.or_eq_false_iff, Option.isSome_eq_false_iff, Option.isNone_iff_eq_none]
  refine and_congr_right fun _ => ⟨fun h c => ⟨fun e => ?_, fun e => ?_⟩, fun h => ?_⟩
  · rw [e] at h
    cases h
  · rw [e] at h
    cases h
  · split
    · next c op => exact absurd op (h c).1
    · next c op => exact absurd op (h c).2
    · rfl

/-- What the grant of an array leaves of `s`, with no re-drive refused: at most one claim becomes the operation, and the mark claims before
it that their flag refuses are gone. -/
structure Grants (s t : State) : Prop where
  same : t = { s with
    sm := { s.sm with fetchLookup := t.sm.fetchLookup, serveLookup := t.sm.serveLookup },
    fc := { s.fc with
      mem := t.fc.mem, progFlags := t.fc.progFlags, markFlags := t.fc.markFlags, op := t.fc.op, array := t.fc.array,
      programClaim := t.fc.programClaim, fetchClaim := t.fc.fetchClaim, serveClaim := t.fc.serveClaim,
      markClaims := t.fc.markClaims, eraseClaim := t.fc.eraseClaim },
    ap := { s.ap with counters := t.ap.counters } }
  busy : s.fc.op.isSome → t = s
  counts : CountsUp [.markFailures] s t
  image : t.fc.array.image = s.fc.array.image
  lookups : ∀ who, (t.sm.lookup who = s.sm.lookup who ∧ t.fc.stepClaim who = s.fc.stepClaim who)
    ∨ ∃ c, s.fc.stepClaim who = some c ∧ t.fc.stepClaim who = none ∧ t.fc.op = some (.lookupRead who c.kind c.page)
      ∧ t.sm.lookup who = (s.sm.lookup who).map fun l => { l with step := .running }
  program : (t.fc.programClaim = s.fc.programClaim ∧ t.fc.array = s.fc.array)
    ∨ ∃ c, s.fc.programClaim = some c ∧ t.fc.programClaim = none
      ∧ ((s.fc.array.image = none ∧ t.fc.op = some (.transfer c) ∧ t.fc.array = s.fc.array)
        ∨ (s.fc.array.image.isSome ∧ t.fc.op = some (.program c) ∧ t.fc.array.state = .programming
          ∧ t.fc.array.target = some c.target ∧ t.fc.progFlag c.target = true))
  programBusy : s.fc.programBusy = false → t.fc.programBusy = false
  marks : ∀ m ∈ s.fc.markClaims, m ∈ t.fc.markClaims ∨ s.fc.markFlag { block := m.block, page := 0 } = true
    ∨ (t.fc.op = some (.mark m.block m.value) ∧ t.fc.markFlag { block := m.block, page := 0 } = true)
  erase : ∀ b, t.fc.op = some (.erase b) → s.fc.op = some (.erase b) ∨ (s.fc.eraseClaim = some b ∧ s.sm.lookupIn b = false)
  flags : s.fc.op = none → t.fc.op = none → t.fc.markFlags = s.fc.markFlags ∧ t.fc.progFlags = s.fc.progFlags

namespace Grants

variable {s t u : State}

theorem refl (s : State) : Grants s s where
  same := rfl
  busy _ := rfl
  counts := .refl s
  image := rfl
  lookups _ := .inl ⟨rfl, rfl⟩
  program := .inl ⟨rfl, rfl⟩
  programBusy h := h
  marks _ mem := .inl mem
  erase _ h := .inl h
  flags _ _ := ⟨rfl, rfl⟩

theorem sc (h : Grants s t) : t.sc = s.sc := by rw [h.same]
theorem hu (h : Grants s t) : t.hu = s.hu := by rw [h.same]
theorem su (h : Grants s t) : t.su = s.su := by rw [h.same]
theorem ra (h : Grants s t) : t.ra = s.ra := by rw [h.same]
theorem ce (h : Grants s t) : t.ce = s.ce := by rw [h.same]
theorem rp (h : Grants s t) : t.rp = s.rp := by rw [h.same]
theorem nu (h : Grants s t) : t.nu = s.nu := by rw [h.same]
theorem table (h : Grants s t) : t.sm.table = s.sm.table := by rw [h.same]
theorem fill (h : Grants s t) : t.fc.fill = s.fc.fill := by rw [h.same]
theorem read (h : Grants s t) : t.fc.read = s.fc.read := by rw [h.same]
theorem fetch (h : Grants s t) : t.ap.fetch = s.ap.fetch := by rw [h.same]
theorem block (h : Grants s t) (b : Nat) : t.sm.block b = s.sm.block b := by rw [Sm.block, h.table, Sm.block]
theorem entry (h : Grants s t) (o : Nat) : t.entry o = s.entry o := by rw [State.entry, h.hu, State.entry]
theorem fresh (h : Grants s t) : t.fresh = s.fresh := by rw [h.same]

/-- A refused mark program uses its claim up. -/
theorem refusedMark {m : MarkClaim} {rest : List MarkClaim} (hm : s.fc.markClaims = m :: rest)
    (set : s.fc.markFlag { block := m.block, page := 0 } = true) (free : s.fc.op = none)
    (k : Grants ((s.setFc { s.fc with markClaims := rest }).bump .markFailures) t) : Grants s t where
  same := by
    conv => lhs; rw [k.same]
    rfl
  busy h := by rw [free] at h; cases h
  counts := by
    have left : CountsUp [.markFailures] s (s.setFc { s.fc with markClaims := rest }) := .of_eq rfl
    exact (left.trans (CountsUp.bump _ (List.mem_singleton_self _))).trans k.counts
  image := k.image
  lookups := k.lookups
  program := k.program
  programBusy := k.programBusy
  marks x mem := by
    rcases List.mem_cons.mp (hm ▸ mem) with rfl | mem
    · exact .inr (.inl set)
    · exact k.marks x mem
  erase b h := k.erase b h
  flags h h' := k.flags h h'

end Grants

namespace State

theorem grantStep_grants {s : State} {who : Requester} {c : StepClaim} (free : s.fc.op = none)
    (hc : s.fc.stepClaim who = some c) : Grants s (s.grantStep who c) where
  same := by cases who <;> rfl
  busy h := by rw [free] at h; cases h
  counts := .of_eq rfl
  image := by cases who <;> rfl
  lookups x := by
    by_cases hx : x = who
    · subst hx
      refine .inr ⟨c, hc, ?_, rfl, ?_⟩
      · exact (s.fc.stepClaim_setStepClaim x x none).trans (if_pos rfl)
      · exact (Sm.lookup_setLookup ..).trans (if_pos rfl)
    · refine .inl ⟨?_, ?_⟩
      · exact (Sm.lookup_setLookup ..).trans (if_neg hx)
      · exact (s.fc.stepClaim_setStepClaim who x none).trans (if_neg hx)
  program := by cases who <;> exact .inl ⟨rfl, rfl⟩
  programBusy h := Fc.programBusy_eq_false.mpr ⟨by cases who <;> exact (Fc.programBusy_eq_false.mp h).1, fun _ => ⟨nofun, nofun⟩⟩
  marks m mem := by cases who <;> exact .inl mem
  erase b h := by cases h
  flags _ h := by cases h

theorem grantRounds_grants : (n : Nat) → (s : State) → NoRefusal s → Grants s (s.grantRounds n)
  | 0, s, _ => .refl s
  | n + 1, s, w => by
    cases running : s.storeRuns with
    | false =>
      rw [grantRounds_of_busy (.inl running)]
      exact .refl s
    | true =>
    cases free : s.fc.op with
    | some op =>
      rw [grantRounds_of_busy (.inr (by rw [free]; rfl))]
      exact .refl s
    | none =>
    have idle {P : Prop} (h : s.fc.op.isSome) : P := by rw [free] at h; cases h
    cases claim : s.fc.programClaim with
    | some c =>
      have claimed {P : Prop} (h : s.fc.programBusy = false) : P := by
        rw [(Fc.programBusy_eq_false.mp h).1] at claim
        cases claim
      cases image : s.fc.array.image with
      | none =>
        rw [grantRounds_transfer running free claim image]
        exact {
          same := rfl, busy := idle, counts := .of_eq rfl, image := rfl, lookups := fun who => .inl ⟨rfl, by cases who <;> rfl⟩
          program := .inr ⟨c, claim, rfl, .inl ⟨image, rfl, rfl⟩⟩, programBusy := claimed, marks := fun _ mem => .inl mem, erase := nofun
          flags := nofun }
      | some i =>
        have kept : s.fc.array.image.isSome := by rw [image]; rfl
        rw [grantRounds_program running free claim kept (w c claim kept)]
        exact {
          same := rfl, busy := idle, counts := .of_eq rfl, image := rfl, lookups := fun who => .inl ⟨rfl, by cases who <;> rfl⟩
          program := .inr ⟨c, claim, rfl, .inr ⟨kept, rfl, rfl, rfl, Fc.progFlag_setProgFlag s.fc c.target⟩⟩
          programBusy := claimed, marks := fun _ mem => .inl mem, erase := nofun, flags := nofun }
    | none =>
    cases fetch : s.fc.fetchClaim with
    | some c =>
      rw [grantRounds_fetch running free claim fetch]
      exact grantStep_grants free fetch
    | none =>
    cases serve : s.fc.serveClaim with
    | some c =>
      rw [grantRounds_serve running free claim fetch serve]
      exact grantStep_grants free serve
    | none =>
    cases marks : s.fc.markClaims with
    | cons x rest =>
      cases flag : s.fc.markFlag { block := x.block, page := 0 } with
      | false =>
        rw [grantRounds_mark running free claim fetch serve marks flag]
        exact {
          same := rfl, busy := idle, counts := .of_eq rfl, image := rfl, lookups := fun who => .inl ⟨rfl, by cases who <;> rfl⟩
          program := .inl ⟨rfl, rfl⟩, programBusy := fun _ => Fc.programBusy_eq_false.mpr ⟨claim, fun _ => ⟨nofun, nofun⟩⟩
          marks := fun m mem => by
            rcases List.mem_cons.mp (marks ▸ mem) with rfl | mem
            · exact .inr (.inr ⟨rfl, Fc.markFlag_setMarkFlag s.fc _⟩)
            · exact .inl mem
          erase := nofun, flags := nofun }
      | true =>
        rw [grantRounds_mark_refused running free claim fetch serve marks flag]
        exact .refusedMark marks flag free (grantRounds_grants n _ w)
    | nil =>
    cases erase : s.fc.eraseClaim with
    | some b =>
      cases stands : s.sm.lookupIn b with
      | false =>
        rw [grantRounds_erase running free claim fetch serve marks erase stands]
        exact {
          same := rfl, busy := idle, counts := .of_eq rfl, image := rfl, lookups := fun who => .inl ⟨rfl, by cases who <;> rfl⟩
          program := .inl ⟨rfl, rfl⟩, programBusy := fun _ => Fc.programBusy_eq_false.mpr ⟨claim, fun _ => ⟨nofun, nofun⟩⟩
          marks := fun _ mem => .inl mem
          erase := fun a h => by cases h; exact .inr ⟨erase, stands⟩
          flags := nofun }
      | true =>
        rw [grantRounds_erase_waits running free claim fetch serve marks erase stands]
        exact .refl s
    | none =>
      rw [grantRounds_idle free claim fetch serve marks erase]
      exact .refl s

theorem grant_grants {s : State} (w : NoRefusal s) : Grants s s.grant := grantRounds_grants _ s w

end State

end Sys2Proof.Machine

/-! The durable frontier (R185 to R187): the k-th largest member, and that D and T_own only rise while the store runs. -/

namespace Sys2Proof.Machine

open Sys2Proof.Safety

/-! ## The k-th largest member (R186) -/

theorem exists_least_number {p : Nat → Prop} (h : ∃ n, p n) : ∃ m, p m ∧ ∀ n, p n → m ≤ n := by
  obtain ⟨n, hn⟩ := h
  induction n using Nat.strongRecOn with
  | ind n ih =>
    by_cases smaller : ∃ m, m < n ∧ p m
    · obtain ⟨m, below, hm⟩ := smaller
      exact ih m below hm
    · exact ⟨n, hn, fun k hk => Nat.le_of_not_lt fun below => smaller ⟨k, below, hk⟩⟩

section

variable {l : List Nat}

theorem exists_least {p : Nat → Prop} (h : ∃ w ∈ l, p w) : ∃ m ∈ l, p m ∧ ∀ w ∈ l, p w → m ≤ w := by
  obtain ⟨m, ⟨mem, hm⟩, least⟩ := exists_least_number h
  exact ⟨m, mem, hm, fun w mem hp => least w ⟨mem, hp⟩⟩

theorem foldl_max_mem : (l : List Nat) → (a : Nat) → l.foldl max a = a ∨ l.foldl max a ∈ l
  | [], _ => .inl rfl
  | x :: l, a => by
    rw [List.foldl_cons]
    rcases foldl_max_mem l (max a x) with h | h
    · rw [h]
      rcases Nat.le_total a x with le | le
      · exact .inr (by rw [Nat.max_eq_right le]; exact List.mem_cons_self)
      · exact .inl (Nat.max_eq_left le)
    · exact .inr (List.mem_cons_of_mem _ h)

/-- How many members reach `v`, counting equal members one by one. -/
def reach (l : List Nat) (v : Nat) : Nat := l.countP fun w => decide (v ≤ w)

theorem mem_reaching {k v : Nat} : (v ∈ l.filter fun v => decide (k ≤ l.countP fun w => decide (v ≤ w))) ↔ v ∈ l ∧ k ≤ reach l v := by
  rw [List.mem_filter, decide_eq_true_eq, reach]

theorem kthLargest_of_short {k : Nat} (h : l.length < k) : kthLargest k l = 0 := by
  have none_reach : (l.filter fun v => decide (k ≤ l.countP fun w => decide (v ≤ w))) = [] := by
    refine List.eq_nil_iff_forall_not_mem.mpr fun v mem => ?_
    have most : reach l v ≤ l.length := List.countP_le_length
    have := (mem_reaching.mp mem).2
    omega
  rw [kthLargest, none_reach]
  rfl

/-- R186: the k-th largest member: `k` members reach it, and fewer are larger. -/
theorem kthLargest_spec {k : Nat} (h1 : 1 ≤ k) (h2 : k ≤ l.length) : kthLargest k l ∈ l ∧ k ≤ reach l (kthLargest k l)
    ∧ (l.countP fun w => decide (kthLargest k l < w)) < k := by
  obtain ⟨x, mem⟩ := List.exists_mem_of_length_pos (l := l) (by omega)
  obtain ⟨m, hm, -, least⟩ := exists_least (p := fun _ => True) ⟨x, mem, trivial⟩
  have all_reach : reach l m = l.length := List.countP_eq_length.mpr fun w hw => decide_eq_true (least w hw trivial)
  have low : m ∈ l.filter fun v => decide (k ≤ l.countP fun w => decide (v ≤ w)) := mem_reaching.mpr ⟨hm, by omega⟩
  have reached : kthLargest k l ∈ l ∧ k ≤ reach l (kthLargest k l) := by
    refine mem_reaching.mp ?_
    rcases foldl_max_mem (l.filter fun v => decide (k ≤ l.countP fun w => decide (v ≤ w))) 0 with zero | mem
    · have := (le_foldl_max_iff (c := 0)).mpr (.inr ⟨_, low, Nat.le_refl m⟩)
      rw [zero, Nat.le_zero] at this
      rw [kthLargest, zero, ← this]
      exact low
    · exact mem
  refine ⟨reached.1, reached.2, Nat.lt_of_not_le fun more => ?_⟩
  obtain ⟨w, hw, above⟩ : ∃ w ∈ l, kthLargest k l < w := by
    obtain ⟨w, hw, above⟩ := List.countP_pos_iff.mp (Nat.lt_of_lt_of_le h1 more)
    exact ⟨w, hw, of_decide_eq_true above⟩
  obtain ⟨m', hm', above', least'⟩ := exists_least (p := fun w => kthLargest k l < w) ⟨w, hw, above⟩
  have wide : (l.countP fun w => decide (kthLargest k l < w)) ≤ reach l m' :=
    List.countP_mono_left fun w hw above => decide_eq_true (least' w hw (of_decide_eq_true above))
  exact absurd ((le_foldl_max_iff (c := 0)).mpr (.inr ⟨m', mem_reaching.mpr ⟨hm', Nat.le_trans more wide⟩, Nat.le_refl _⟩)) (Nat.not_le.mpr above')

end

/-! ## An evaluation of D (R187) -/

namespace State

theorem evaluateDurable_of_not_above {s : State} {c : Settings} (hc : s.sc.settings = some c)
    (h : kthLargest c.target s.durableMembers ≤ s.hu.durable) : s.evaluateDurable = s := by
  rw [evaluateDurable, hc]
  dsimp only
  rw [Nat.max_eq_left h, if_neg (Nat.lt_irrefl _)]

theorem evaluateDurable_of_above {s : State} {c : Settings} (hc : s.sc.settings = some c)
    (h : s.hu.durable < kthLargest c.target s.durableMembers) :
    s.evaluateDurable.hu.durable = kthLargest c.target s.durableMembers ∧ s.evaluateDurable.sm.reclaimDue = true
      ∧ (s.storeRuns = true → (∃ d, .durable d ∈ s.evaluateDurable.nu.queue ∧ kthLargest c.target s.durableMembers ≤ d)
        ∨ s.evaluateDurable.nu.overflow = true) := by
  rw [evaluateDurable, hc]
  dsimp only
  rw [Nat.max_eq_right (Nat.le_of_lt h), if_pos h]
  refine ⟨?_, rfl, fun runs => ?_⟩
  · show ((s.setHu { s.hu with durable := kthLargest c.target s.durableMembers }).notify _).hu.durable = _
    rw [notify_hu]
    rfl
  · show (∃ d, .durable d ∈ ((s.setHu { s.hu with durable := kthLargest c.target s.durableMembers }).notify _).nu.queue ∧ _)
      ∨ ((s.setHu { s.hu with durable := kthLargest c.target s.durableMembers }).notify _).nu.overflow = true
    rw [notify_of_running (s := s.setHu { s.hu with durable := kthLargest c.target s.durableMembers }) runs]
    generalize kthLargest c.target s.durableMembers = v
    show (∃ d, .durable d ∈ (s.nu.take _ _ (.durable v)).queue ∧ v ≤ d) ∨ (s.nu.take _ _ (.durable v)).overflow = true
    rcases Nu.take_queue s.nu _ _ (.durable v) with ⟨before, x, after, -, partner, queue⟩ | ⟨-, queue | ⟨-, overflow⟩⟩
    · cases x with
      | durable d =>
        refine .inl ⟨max d v, ?_, Nat.le_max_right ..⟩
        rw [queue]
        exact List.mem_append_right _ List.mem_cons_self
      | _ => cases partner
    · exact .inl ⟨v, by rw [queue]; exact List.mem_append_right _ List.mem_cons_self, Nat.le_refl v⟩
    · exact .inr overflow

end State

/-! ## D and T_own along a run -/

/-- Neither D nor T_own goes back. -/
def Rises (s t : State) : Prop := s.hu.durable ≤ t.hu.durable ∧ s.ownTop ≤ t.ownTop

theorem Rises.trans {s t u : State} (h : Rises s t) (k : Rises t u) : Rises s u := ⟨Nat.le_trans h.1 k.1, Nat.le_trans h.2 k.2⟩

theorem Keeps.rises {s t : State} (h : Keeps s t) : Rises s t := ⟨h.durable, h.ownTop⟩

theorem ReportTaken.rises {s t : State} {p : Nat} (h : ReportTaken s p t) : Rises s t := by
  cases h with
  | bad keeps => exact keeps.rises
  | stored u pairs before after _ => exact before.rises.trans after.rises

theorem Moves.rises {s t : State} (h : Moves Keeps s t) : Rises s t := by
  induction h with
  | op h => exact h.rises
  | report s isHail p body => exact (State.takeReport_taken s isHail p body).rises
  | trans _ _ ih1 ih2 => exact ih1.trans ih2
  | _ => exact ⟨Nat.le_refl _, Nat.le_refl _⟩

theorem Completes.rises {s t : State} (h : Completes s t) : Rises s t := by
  obtain ⟨u, ends, keeps⟩ := h
  have same : Rises s u := ⟨Nat.le_of_eq (by rw [ends.hu]), Nat.le_of_eq ends.ownTop.symm⟩
  exact same.trans keeps.rises

/-- R23, R187: from one state in which the store runs to the next. -/
theorem Course.rises {s t : State} {c : Instr} (h : Course s c t) (runs : s.storeRuns = true) (scan : s.sc.scan = none)
    (after : t.storeRuns = true) : Rises s t := by
  cases h with
  | moves h => exact h.rises
  | reset kind out _ => cases after
  | release straps held =>
    rw [State.storeRuns, State.station, held] at runs
    cases runs
  | scan h =>
    cases h with
    | idle => exact ⟨Nat.le_refl _, Nat.le_refl _⟩
    | goesOn _ scanning => rw [scan] at scanning; cases scanning
    | ends _ scanning => rw [scan] at scanning; cases scanning
  | completes h _ => exact h.rises
  | hailSent _ h => exact h.rises
  | listenEnd _ => exact (State.settleRepair_keeps s.becomeActive).rises
  | @configured carrier c x _ _ _ range moves =>
    have joins : Rises s ((s.setAp x).joined c carrier) :=
      ⟨Nat.le_refl _, Nat.le_of_eq (State.ownTop_joined (s := s.setAp x) carrier range).symm⟩
    exact (joins.trans (State.accept_keeps ..).rises).trans moves.rises

end Sys2Proof.Machine

namespace Sys2Proof.Proofs

open Sys2Proof.Machine Sys2Proof.Safety

/-- Settles O23. -/
theorem durableFrontierRises : Obligations.DurableFrontierRises := by
  constructor
  · intro s c hc positive members t
    refine ⟨fun few => ?_, fun enough => ?_⟩
    · refine State.evaluateDurable_of_not_above hc ?_
      exact Nat.le_trans (Nat.le_of_eq (kthLargest_of_short few)) (Nat.zero_le _)
    · obtain ⟨mem, reached, exceeded⟩ := kthLargest_spec positive enough
      refine ⟨kthLargest c.target members, mem, reached, exceeded, ?_, State.evaluateDurable_of_not_above hc, fun above => ?_⟩
      · rcases Nat.lt_or_ge s.hu.durable (kthLargest c.target members) with above | not_above
        · exact (State.evaluateDurable_of_above hc above).1.trans (Nat.max_eq_right (Nat.le_of_lt above)).symm
        · rw [Nat.max_eq_left not_above]
          exact congrArg (fun u : State => u.hu.durable) (State.evaluateDurable_of_not_above hc not_above)
      · exact (State.evaluateDurable_of_above hc above).2
  · exact fun c s t runs scan moves after => (exec_course moves).rises runs scan after

end Sys2Proof.Proofs

/-! A reference joins the commit queue (R109, R133, R141 to R145). -/

namespace Sys2Proof.Machine

open Sys2Proof.Safety

/-- `u` is `s` with the reference `ref` to the record `r` behind the commit queue. -/
structure Joined (s u : State) (ref : Ref) (r : PathRecord) : Prop where
  queue : u.ce.queue = s.ce.queue ++ [ref]
  flush : u.ce.flushTimer = s.ce.flushTimer
  fill : u.fc.fill = s.fc.fill
  waits : u.ra.waitList = s.ra.waitList
  delay : u.flushDelay = s.flushDelay
  record : u.refRecord ref = some r

namespace State

/-- What an event of CE and the end of its command leave of the path is what the placement leaves. -/
theorem path_runCommit {u t : State} (h : Settles u.runCommit t) : t.ra = (u.placeRounds 9).ra ∧ t.ce.queue = (u.placeRounds 9).ce.queue
    ∧ t.fc.fill = (u.placeRounds 9).fc.fill ∧ t.ce.flushTimer = (u.placeRounds 9).ce.flushTimer := by
  have rest : (u.placeRounds 9).stuck := placeRounds_stuck (by omega) (by omega)
  exact ((claimIfNeeded_settles (u.placeRounds 9)).trans h).path rest

/-- R143, R144: one reference alone before a register that is not CLOSED. -/
theorem placeRounds_alone {u : State} {ref : Ref} {r : PathRecord} (hq : u.ce.queue = [ref]) (hw : u.ra.waitList = [])
    (hr : u.refRecord ref = some r) (opened : u.fc.fill.state ≠ .closed) :
    u.placeRounds 9 = if u.fc.fill.fits r.payload.length then u.placeHead ref r else u.closeFill := by
  have empty : u.queueAfter = [] := by
    rw [queueAfter, hq, hw]
    rfl
  rw [placeRounds_succ hq hr opened]
  split
  · exact placeRounds_of_placed (.inl (by rw [placeHead_eq]; exact empty)) 8
  · rfl

theorem referenceJoins {s u t : State} {ref : Ref} {r : PathRecord} (joins : Joined s u ref r) (h : Settles u.runCommit t) :
    ReferenceJoins s t ref r := by
  obtain ⟨-, queue, fill, flush⟩ := path_runCommit h
  refine ⟨fun closed => ?_, fun opened empty none_waits => ⟨fun fits => ?_, fun full => ?_⟩⟩
  · rw [placeRounds_of_placed (.inr (by rw [joins.fill]; exact closed))] at queue fill
    exact ⟨queue.trans joins.queue, fill.trans joins.fill⟩
  all_goals
    have hq : u.ce.queue = [ref] := by rw [joins.queue, empty]; rfl
    have hw : u.ra.waitList = [] := joins.waits.trans none_waits
    rw [placeRounds_alone hq hw joins.record (by rw [joins.fill]; exact opened)] at queue fill flush
    have after : u.queueAfter = [] := by rw [queueAfter, hq, hw]; rfl
  · have room : u.fc.fill.fits r.payload.length = true := by
      rw [joins.fill]
      exact fits_iff.mpr fits
    rw [if_pos room, placeHead_eq] at queue fill flush
    dsimp only at queue fill flush
    rw [after, joins.flush, joins.delay] at flush
    rw [after, joins.flush, joins.delay, joins.fill] at fill
    refine ⟨queue.trans after, by rw [fill]; rfl, by rw [fill]; rfl, fun starts => ⟨?_, ?_⟩, fun stopped soon => ⟨?_, ?_⟩⟩
    · rw [fill]
      refine if_neg fun h => ?_
      rcases starts with runs | later
      · exact Bool.false_ne_true (h.1.2.symm.trans runs)
      · exact later h.2
    · rw [flush]
      rcases Bool.eq_false_or_eq_true s.ce.flushTimer with runs | stopped
      · rw [runs]
        rfl
      · rw [stopped] at starts ⊢
        have later := starts.resolve_left Bool.false_ne_true
        rw [decide_eq_true ⟨⟨rfl, rfl⟩, later⟩]
        rfl
    · rw [fill]
      exact if_pos ⟨⟨rfl, stopped⟩, soon⟩
    · rw [flush, stopped, decide_eq_false fun h => h.2 soon]
      rfl
  · have crowded : ¬ u.fc.fill.fits r.payload.length = true := by
      rw [joins.fill]
      exact fun h => full (fits_iff.mp h)
    rw [if_neg crowded] at queue fill flush
    refine ⟨queue.trans hq, fill.trans ?_, flush⟩
    show { u.fc.fill with state := .closed } = _
    rw [joins.fill]

end State

end Sys2Proof.Machine

namespace Sys2Proof.Proofs

open Sys2Proof.Machine Sys2Proof.Safety

/-- Settles O25. -/
theorem submitAccepted : Obligations.SubmitAccepted := by
  intro s h i handed active nonempty short room pressure queue inside free lower n
  have first : firstPlace s.su.entries (· == .free) = some i := by
    refine (firstPlace_eq_some_iff .free).mpr ⟨inside, by rw [free]; rfl, fun j hj => ?_⟩
    exact beq_eq_false_iff_ne.mpr (lower j hj)
  let taken := s.setAp { s.ap with submitBuffer := none }
  have accepted : s.submitRefusal h.length = none := by
    rw [State.submitRefusal_of_active active, if_neg (by omega), if_neg (by omega), if_neg pressure, first, if_neg]
    exact fun busy => busy.elim nofun (by omega)
  have ends := exec_submitTaken_accepted handed accepted first
  let r : OwnRecord := { seq := n, check := crc32 h.payload, payload := h.payload }
  let stored := (taken.setSu { entries := setPlace s.su.entries i (.queued r) }).setCe { s.ce with queue := s.ce.queue ++ [.entry i] }
  have settles : Settles stored.runCommit (taken.acceptSubmit i h.payload) := State.settleAll_settles _
  have keeps : Keeps stored (taken.acceptSubmit i h.payload) := (State.runCommit_settles stored).keeps.trans settles.keeps
  have su := (settles.su.trans (State.runCommit_settles stored).su)
  have entries (j : Nat) : place (taken.acceptSubmit i h.payload).su.entries .free j
      = if i = j ∧ i < 8 then .queued r else place s.su.entries .free j := by
    rw [su]
    exact place_setPlace ..
  have here : place (taken.acceptSubmit i h.payload).su.entries .free i = .queued r := (entries i).trans (if_pos ⟨rfl, inside⟩)
  have joins : Joined s stored (.entry i) { origin := s.own, seq := n, check := crc32 h.payload, payload := h.payload } := by
    refine ⟨rfl, rfl, rfl, rfl, rfl, ?_⟩
    have entry : place stored.su.entries .free i = .queued r := (place_setPlace ..).trans (if_pos ⟨rfl, inside⟩)
    rw [State.refRecord, entry]
    rfl
  have reference : ReferenceJoins s (taken.acceptSubmit i h.payload) (.entry i)
      { origin := s.own, seq := n, check := crc32 h.payload, payload := h.payload } := State.referenceJoins joins settles
  have pends : (taken.acceptSubmit i h.payload).isPending s.own n = true := by
    have own : (taken.acceptSubmit i h.payload).own = s.own := congrArg Sc.number keeps.sc
    rw [State.isPending, List.contains_iff_mem]
    refine mem_pendingOf.mpr (.inr (.inr (.inr (.inr ⟨own.symm, i, ?_⟩))))
    rw [here]
    rfl
  refine ⟨_, ends, ?_⟩
  rw [State.answer_eq]
  refine ⟨here, fun j hj => (entries j).trans (if_neg fun k => hj k.1.symm), pends, reference, keeps.submitBuffer, ?_, keeps.sc,
    keeps.lc, keeps.matrix, keeps.presence, keeps.configures, keeps.pending, keeps.arrayKept⟩
  show (if h.owed then _ else (taken.acceptSubmit i h.payload).ap.slot) = _
  rw [keeps.slot]
  rfl

end Sys2Proof.Proofs

/-! A good SEG burst at RA (R125 to R134). -/

namespace Sys2Proof.Machine

open Sys2Proof.Safety

/-! ## A good burst is heard (R59 to R61, R98) -/

/-- What the sender of a good burst leaves at HU before the burst's body is taken. -/
structure Hears (s u : State) : Prop where
  same : u = { s with
    hu := { s.hu with presence := u.hu.presence, silence := u.hu.silence }
    nu := u.nu, rp := { s.rp with rerunDue := u.rp.rerunDue } }

theorem State.heard_hears (s : State) (p : Nat) : Hears s (s.heard p) := by
  refine ⟨?_⟩
  unfold State.heard
  dsimp only
  split
  · rfl
  · rw [State.notify_eq]
    rfl

/-- LC's part of a good burst, before HU is told: the reference and the count (R59 to R61). -/
def State.referred (s : State) (p : CarrierPeriod) (l : Nat) : State := (s.setLc (Referenced s p l)).bump .goodBursts

/-- The L that LC takes from a good burst (R61, R69). -/
def State.lastSenderOf (s : State) (b : Burst) : Nat := if s.lc.state = .hearing ∨ s.lc.quietLimit = true then b.sender else 0

/-- What the body of a good burst does at the block of its kind (R60). -/
def State.handBody (s : State) (b : Burst) : State :=
  match b.kind with
  | .hail => (s.takeReport true b.sender b.body).settleAll
  | .report => (s.takeReport false b.sender b.body).settleAll
  | .seg => s.takeSegment b.body
  | .ask => (s.takeAsk b.sender b.target b.body).settleAll
  | .refuse => (s.takeRefuse b.sender b.target b.body).settleAll

theorem carrierEnd_of_good {s : State} {p : CarrierPeriod} {b : Burst}
    (listens : s.lc.state = .hearing ∨ (s.lc.state = .seeking ∧ s.lc.tracked = .fromStart))
    (good : classify s.own s.groupSize p = .good b) :
    exec (.carrierEnd p) s = .next (((s.referred p (s.lastSenderOf b)).heard b.sender).handBody b) := by
  have ends (late : Bool) (l : Nat) (h : (if late then 0 else b.sender) = l) : (s.setLc { s.lc with rx := p }).endPeriod late p
      = ((s.referred p l).heard b.sender).handBody b := by
    unfold State.endPeriod
    rw [show classify (s.setLc { s.lc with rx := p }).own (s.setLc { s.lc with rx := p }).groupSize p = .good b from good]
    dsimp only
    rw [h]
    unfold State.handOn State.handBody
    cases b.kind <;> rfl
  show execCarrierEnd p s = _
  rcases listens with st | ⟨st, tracked⟩
  · simp only [execCarrierEnd, st]
    rw [State.lastSenderOf, if_pos (.inl st)]
    exact congrArg Host.Outcome.next (ends false _ rfl)
  · simp only [execCarrierEnd, st, tracked]
    refine congrArg Host.Outcome.next (ends _ _ ?_)
    rw [State.lastSenderOf, st]
    cases s.lc.quietLimit <;> simp

/-! ## The end of a segment's command -/

/-- What follows the matching of a segment: the end of the command, and a resend's report to RP. -/
structure SegmentEnds (m t : State) : Prop where
  settles : Settles m t
  path : NoClaim m → KeepsPath m t

theorem Repairs.keepsPath {s t : State} (h : Repairs s t) : KeepsPath s t where
  su := h.su
  ra := h.ra
  ce := h.ce
  fill := by rw [h.fc]
  array := by rw [h.fc]
  noClaim w := by
    unfold NoClaim
    rw [h.fc]
    exact w

namespace State

theorem settleAll_segmentEnds (m : State) : SegmentEnds m m.settleAll := ⟨settleAll_settles m, settleAll_keepsPath⟩

theorem resendHeard_repairs (s : State) (o n : Nat) : Repairs s (s.resendHeard o n) := by
  unfold resendHeard
  split
  · split
    · split
      · split
        · exact putAsk_repairs ..
        · exact .refl s
      · exact .refl s
    · exact .refl s
  · exact .refl s

theorem resendHeard_segmentEnds {m s : State} (h : SegmentEnds m s) (o n : Nat) : SegmentEnds m (s.resendHeard o n) := by
  have repairs := resendHeard_repairs s o n
  exact ⟨h.settles.trans (repairs.settles (resendHeard_keeps s o n)), fun w => (h.path w).trans repairs.keepsPath⟩

theorem takeSegment_own {s : State} {body : List Byte} (own : (segmentOf body).origin = s.own) :
    s.takeSegment body = s.settleAll := by
  rw [takeSegment]
  exact if_pos (beq_iff_eq.mpr own)

theorem takeSegment_inconsistent {s : State} {body : List Byte} (peer : (segmentOf body).origin ≠ s.own)
    (bad : (segmentOf body).consistent s.groupSize = false) : s.takeSegment body = (s.bump .mismatch).settleAll := by
  rw [takeSegment]
  dsimp only
  rw [if_neg (by rwa [beq_iff_eq]), bad]
  rfl

theorem takeSegment_matched {s : State} {body : List Byte} (peer : (segmentOf body).origin ≠ s.own)
    (good : (segmentOf body).consistent s.groupSize = true) :
    SegmentEnds (s.matchSegment (segmentOf body)) (s.takeSegment body) := by
  rw [takeSegment]
  dsimp only
  rw [if_neg (by rwa [beq_iff_eq]), good]
  simp only [Bool.not_true, Bool.false_eq_true, if_false]
  split
  · exact resendHeard_segmentEnds (settleAll_segmentEnds _) _ _
  · exact settleAll_segmentEnds _

end State

/-! ## The match with a slot (R125 to R129) -/

/-- What of `s` the tests on a segment and its storing read is as in `w`. -/
structure Alike (s w : State) : Prop where
  ra : w.ra = s.ra
  ce : w.ce = s.ce
  fc : w.fc = s.fc
  su : w.su = s.su
  sc : w.sc = s.sc
  entries : w.hu.entries = s.hu.entries
  counter : ∀ k, k ≠ .goodBursts → w.counter k = s.counter k

namespace Alike

variable {s w : State}

theorem own (h : Alike s w) : w.own = s.own := congrArg Sc.number h.sc
theorem noClaim (h : Alike s w) (n : NoClaim s) : NoClaim w := by unfold NoClaim; rw [h.fc]; exact n
theorem groupSize (h : Alike s w) : w.groupSize = s.groupSize := congrArg (fun x : Sc => (x.settings.map Settings.groupSize).getD 0) h.sc
theorem slotOf (h : Alike s w) (o n : Nat) : w.slotOf o n = s.slotOf o n := by rw [State.slotOf, h.ra, State.slotOf]
theorem entry (h : Alike s w) (o : Nat) : w.entry o = s.entry o := by rw [State.entry, h.entries, State.entry]

theorem pendingOf (h : Alike s w) (o : Nat) : w.pendingOf o = s.pendingOf o := by
  have record : w.refRecord = s.refRecord := by
    funext ref
    cases ref with
    | slot i => rw [State.refRecord, State.refRecord, h.ra]
    | entry i => rw [State.refRecord, State.refRecord, h.su, h.own]
  rw [State.pendingOf, State.pendingOf, h.ra, h.ce, h.fc, h.su, h.own, record]

theorem acceptance (h : Alike s w) (o n : Nat) : w.acceptance o n = s.acceptance o n := by
  rw [State.acceptance, State.acceptance, h.entry, h.own, State.isPending, h.pendingOf, State.isPending]

theorem tellRp (h : Alike s w) : Alike s w.tellRp := ⟨h.ra, h.ce, h.fc, h.su, h.sc, h.entries, h.counter⟩

end Alike

/-- What a segment that stores nothing leaves of the path. -/
theorem SegmentEnds.untouched {s w m t : State} (ends : SegmentEnds m t) (alike : Alike s w) (ra : m.ra = w.ra) (ce : m.ce = w.ce)
    (fc : m.fc = w.fc) (n : NoClaim s) : t.ra = s.ra ∧ t.ce = s.ce ∧ t.fc.fill = s.fc.fill := by
  have claim := alike.noClaim n
  have path := ends.path (by unfold NoClaim at *; rw [fc]; exact claim)
  exact ⟨path.ra.trans (ra.trans alike.ra), path.ce.trans (ce.trans alike.ce),
    path.fill.trans ((congrArg Fc.fill fc).trans (congrArg Fc.fill alike.fc))⟩

/-- The counters that a command's end may raise. -/
def endCounters : List Counter := [.damagedReads, .programFailures, .markFailures]

theorem SegmentEnds.counter {m t : State} (ends : SegmentEnds m t) {k : Counter} (h : k ∉ endCounters) : t.counter k = m.counter k :=
  ends.settles.counts.same k h

/-! ## Storing and completion (R130, R132, R133) -/

namespace State

variable {s w t : State} {i : Nat} {d : SlotData}

theorem finishSlot_wrong (h : crc32 (d.payload.take d.length) ≠ d.check) :
    w.finishSlot i d = ((w.putSlot i .free).bump .checkFailures).tellRp := if_neg h

theorem finishSlot_waits (h : crc32 (d.payload.take d.length) = d.check) (full : 12 ≤ w.ce.queue.length ∨ w.ra.waitList ≠ []) :
    w.finishSlot i d = (w.putSlot i (.complete d)).setRa { (w.putSlot i (.complete d)).ra with waitList := w.ra.waitList ++ [i] } := by
  rw [finishSlot, if_pos h, enqueueSlot]
  refine if_neg fun room => ?_
  rcases full with full | waits
  · exact absurd room.1 (Nat.not_lt.mpr full)
  · exact waits room.2

theorem finishSlot_joins (h : crc32 (d.payload.take d.length) = d.check) (room : w.ce.queue.length < 12) (empty : w.ra.waitList = []) :
    w.finishSlot i d = ((w.putSlot i (.complete d)).setCe { w.ce with queue := w.ce.queue ++ [.slot i] }).runCommit := by
  rw [finishSlot, if_pos h, enqueueSlot]
  exact if_pos ⟨room, empty⟩

theorem finishSlot_counter {k : Counter} (h : k ∉ endCounters) (h' : k ≠ .checkFailures) :
    (w.finishSlot i d).counter k = w.counter k := by
  by_cases right : crc32 (d.payload.take d.length) = d.check
  · by_cases room : w.ce.queue.length < 12 ∧ w.ra.waitList = []
    · rw [finishSlot_joins right room.1 room.2, (runCommit_settles _).counts.same k h]
      rfl
    · rw [finishSlot_waits right (by
        rw [Classical.not_and_iff_not_or_not, Nat.not_lt] at room
        exact room)]
      rfl
  · rw [finishSlot_wrong right]
    exact counter_bump_of_ne _ h'

/-- R130, R132 to R134: a slot that holds every segment of a peer's record. -/
theorem finishSlot_completes (alike : Alike s w) (inside : i < 8) (peer : d.origin ≠ s.own) (ends : SegmentEnds (w.finishSlot i d) t) :
    SlotCompletes s t i d := by
  have counted := ends.counter (k := .checkFailures) (by decide)
  refine ⟨fun wrong => ?_, fun right => ?_⟩
  · rw [finishSlot_wrong wrong] at ends counted
    refine ⟨?_, ?_⟩
    · exact ends.settles.incomplete ((place_putSlot w inside .free i).trans (if_pos rfl)) nofun
    · rw [counted, ← alike.counter _ (by decide)]
      exact counter_bump_self ..
  · have complete (j : Nat) : place (w.putSlot i (.complete d)).ra.slots .free j
        = if j = i then .complete d else place w.ra.slots .free j := place_putSlot w inside _ j
    have named : t.awaits d.origin d.seq → t.isPending d.origin d.seq = true := fun a => by
      have own : t.own = s.own := by
        rw [State.own, ends.settles.keeps.sc, (finishSlot_keeps w i d).sc, alike.sc, State.own]
      rw [isPending, List.contains_iff_mem]
      exact (mem_pendingOf_peer (by rwa [own])).mpr a
    by_cases room : w.ce.queue.length < 12 ∧ w.ra.waitList = []
    · rw [finishSlot_joins right room.1 room.2] at ends counted
      rw [alike.ce, alike.ra] at room
      generalize hu : (w.putSlot i (.complete d)).setCe { w.ce with queue := w.ce.queue ++ [.slot i] } = u at ends counted
      have settles := ends.settles
      have held : place u.ra.slots .free i = .complete d := by
        rw [← hu]
        exact (complete i).trans (if_pos rfl)
      have joins : Joined s u (.slot i) { origin := d.origin, seq := d.seq, check := d.check, payload := d.payload } := by
        have record : u.refRecord (.slot i) = some { origin := d.origin, seq := d.seq, check := d.check, payload := d.payload } := by
          rw [refRecord, held]
        refine ⟨?_, ?_, ?_, ?_, ?_, record⟩
        · rw [← hu, ← alike.ce]
          rfl
        · rw [← hu, ← alike.ce]
          rfl
        · rw [← hu, ← alike.fc]
          rfl
        · rw [← hu, ← alike.ra]
          rfl
        · rw [← hu, flushDelay, flushDelay, ← alike.sc]
          rfl
      refine ⟨?_, named ?_, fun _ full => ?_, fun _ _ => ⟨referenceJoins joins settles, fun near => ?_⟩⟩
      · rw [counted, (runCommit_settles u).counts.same _ (by decide), ← alike.counter _ (by decide), ← hu]
        rfl
      · exact settles.awaits _ _ ((runCommit_settles u).awaits _ _ (.inl ⟨i, d, by rw [held]; rfl, rfl, rfl⟩))
      · exact full.elim (fun h => absurd room.1 (Nat.not_lt.mpr h)) (absurd room.2 ·)
      · obtain ⟨ra, queue, -, -⟩ := path_runCommit settles
        rw [ra, queue]
        by_cases closed : s.fc.fill.state = .closed
        · rw [placeRounds_of_placed (.inr (by rw [joins.fill]; exact closed)), held, joins.queue]
          exact (if_pos (List.mem_append_right _ (List.mem_singleton_self _))).symm
        · have hq : u.ce.queue = [.slot i] := by rw [joins.queue, near.resolve_left closed]; rfl
          have hw : u.ra.waitList = [] := joins.waits.trans room.2
          rw [placeRounds_alone hq hw joins.record (by rw [joins.fill]; exact closed)]
          split
          · rw [placeHead_eq]
            show place ((Ref.slot i).released u.ra.slots) .free i = if .slot i ∈ u.queueAfter then .complete d else .free
            rw [Ref.place_released, if_pos rfl, queueAfter, hq, hw]
            rfl
          · show place u.ra.slots .free i = if .slot i ∈ u.ce.queue then .complete d else .free
            rw [held, hq]
            exact (if_pos (List.mem_singleton_self _)).symm
    · rw [finishSlot_waits right (by rwa [Classical.not_and_iff_not_or_not, Nat.not_lt] at room)] at ends counted
      generalize hm : (w.putSlot i (.complete d)).setRa _ = m at ends counted
      have slots : m.ra.slots = (w.putSlot i (.complete d)).ra.slots := by rw [← hm]; rfl
      have held : place m.ra.slots .free i = .complete d := by
        rw [slots]
        exact (complete i).trans (if_pos rfl)
      rw [alike.ce, alike.ra] at room
      refine ⟨?_, named (ends.settles.awaits _ _ (.inl ⟨i, d, by rw [held]; rfl, rfl, rfl⟩)), fun quiet _ => ?_,
        fun short empty => absurd ⟨short, empty⟩ room⟩
      · rw [counted, ← alike.counter _ (by decide), ← hm]
        rfl
      · have fc : m.fc = w.fc := by rw [← hm]; rfl
        have path := ends.path (by unfold NoClaim; rw [fc]; exact alike.noClaim quiet)
        refine ⟨?_, ?_, ?_⟩
        · rw [path.ra]
          exact held
        · rw [path.ra, ← hm, ← alike.ra]
          rfl
        · rw [path.ce, ← hm, ← alike.ce]
          rfl

/-! ## What a segment is matched with (R127 to R130) -/

theorem storeSegment_more {g : Segment} (h : (insertPart g.index g.payload d.parts).length ≠ d.count) :
    w.storeSegment i d g = w.putSlot i (.filling { d with parts := insertPart g.index g.payload d.parts }) := if_neg h

theorem storeSegment_last {g : Segment} (h : (insertPart g.index g.payload d.parts).length = d.count) :
    w.storeSegment i d g = w.finishSlot i { d with parts := insertPart g.index g.payload d.parts } := if_pos h

theorem slotOf_spec {o n : Nat} (h : w.slotOf o n = some i) :
    i < 8 ∧ ∀ d, (place w.ra.slots .free i).data = some d → d.origin = o ∧ d.seq = n := by
  obtain ⟨inside, named, -⟩ := (firstPlace_eq_some_iff .free).mp h
  refine ⟨inside, fun d hd => ?_⟩
  rw [hd, Bool.and_eq_true, beq_iff_eq, beq_iff_eq] at named
  exact named

section

variable {g : Segment}

section

variable (unslotted : w.slotOf g.origin g.seq = none)
include unslotted

theorem matchSegment_refused (h : w.acceptance g.origin g.seq = some .belowFloor ∨ w.acceptance g.origin g.seq = some .span
    ∨ w.acceptance g.origin g.seq = some .gapsFull) : w.matchSegment g = w.bump .refused := by
  rw [matchSegment, unslotted]
  rcases h with h | h | h
  all_goals rw [h]

theorem matchSegment_duplicate (h : w.acceptance g.origin g.seq = some .duplicate) : w.matchSegment g = w := by
  rw [matchSegment, unslotted]
  dsimp only
  rw [h]

theorem matchSegment_noSlot (h : w.acceptance g.origin g.seq = none) (full : firstPlace w.ra.slots (· == .free) = none) :
    w.matchSegment g = w.bump .noSlot := by
  rw [matchSegment, unslotted]
  dsimp only
  rw [h]
  dsimp only
  rw [allocateSlot, full]

theorem matchSegment_takes (h : w.acceptance g.origin g.seq = none) (free : firstPlace w.ra.slots (· == .free) = some i) :
    w.matchSegment g = w.tellRp.storeSegment i
      { origin := g.origin, seq := g.seq, count := g.count, length := g.length, check := g.check, parts := [] } g := by
  rw [matchSegment, unslotted]
  dsimp only
  rw [h]
  dsimp only
  rw [allocateSlot, free]

end

theorem agrees_iff : d.agrees g = true ↔ d.count = g.count ∧ d.length = g.length ∧ d.check = g.check := by
  rw [SlotData.agrees, Bool.and_eq_true, Bool.and_eq_true, beq_iff_eq, beq_iff_eq, beq_iff_eq, and_assoc]

theorem received_iff {n : Nat} : d.received n = true ↔ ∃ bytes, (n, bytes) ∈ d.parts := by
  rw [SlotData.received, List.any_eq_true]
  constructor
  · rintro ⟨⟨m, bytes⟩, mem, e⟩
    have same : m = n := beq_iff_eq.mp e
    exact ⟨bytes, same ▸ mem⟩
  · rintro ⟨bytes, mem⟩
    exact ⟨_, mem, beq_self_eq_true n⟩

variable (slotted : w.slotOf g.origin g.seq = some i) (holds : (place w.ra.slots .free i).data = some d)
include slotted holds

theorem matchSegment_mismatch (h : ¬ (d.count = g.count ∧ d.length = g.length ∧ d.check = g.check)) :
    w.matchSegment g = w.bump .mismatch := by
  rw [matchSegment, slotted]
  dsimp only
  rw [holds]
  dsimp only
  rw [Bool.eq_false_iff.mpr (mt agrees_iff.mp h)]
  rfl

theorem matchSegment_received (h : d.count = g.count ∧ d.length = g.length ∧ d.check = g.check)
    (known : ∃ bytes, (g.index, bytes) ∈ d.parts) : w.matchSegment g = w := by
  rw [matchSegment, slotted]
  dsimp only
  rw [holds]
  dsimp only
  rw [agrees_iff.mpr h, received_iff.mpr known]
  rfl

theorem matchSegment_stores (h : d.count = g.count ∧ d.length = g.length ∧ d.check = g.check)
    (new : ¬ ∃ bytes, (g.index, bytes) ∈ d.parts) : w.matchSegment g = w.storeSegment i d g := by
  rw [matchSegment, slotted]
  dsimp only
  rw [holds]
  dsimp only
  rw [agrees_iff.mpr h, Bool.eq_false_iff.mpr (mt received_iff.mp new)]
  rfl

end

theorem alike_heard (s : State) (p : CarrierPeriod) (l q : Nat) : Alike s ((s.referred p l).heard q) := by
  have h := heard_hears (s.referred p l) q
  refine ⟨?_, ?_, ?_, ?_, ?_, ?_, fun k hk => ?_⟩
  · rw [h.same]
    rfl
  · rw [h.same]
    rfl
  · rw [h.same]
    rfl
  · rw [h.same]
    rfl
  · rw [h.same]
    rfl
  · rw [h.same]
    rfl
  · rw [h.same]
    exact counter_bump_of_ne _ hk

end State

end Sys2Proof.Machine

namespace Sys2Proof.Proofs

open Sys2Proof.Machine Sys2Proof.Safety

/-- Settles O27. -/
theorem segmentTakesASlot : Obligations.SegmentTakesASlot := by
  intro p b s listens good seg small g untouched
  have ends := carrierEnd_of_good listens good
  have alike := State.alike_heard s p (s.lastSenderOf b) b.sender
  generalize hw : (s.referred p (s.lastSenderOf b)).heard b.sender = w at ends alike
  have body : w.handBody b = w.takeSegment b.body := by
    unfold State.handBody
    rw [seg]
  rw [body] at ends
  have count (k : Counter) (h : k ≠ .goodBursts) : w.counter k = s.counter k := alike.counter k h
  have bumped (k : Counter) (h : k ≠ .goodBursts) : (w.bump k).counter k = min 65535 (s.counter k + 1) := by
    rw [State.counter_bump_self, count k h]
  refine ⟨_, ends, fun own => ?_, fun peer bad => ?_, fun peer fine unslotted => ⟨fun refused => ?_, fun duplicate => ?_, fun accepted =>
    ⟨fun full => ?_, fun i inside free lower => ?_⟩⟩, fun peer fine i d slotted holds => ?_⟩
  · rw [State.takeSegment_own (by rwa [alike.own])]
    have ends := State.settleAll_segmentEnds w
    exact ⟨(ends.counter (by decide)).trans (count _ (by decide)), (ends.counter (by decide)).trans (count _ (by decide)),
      ends.untouched alike rfl rfl rfl⟩
  · rw [State.takeSegment_inconsistent (by rwa [alike.own]) (by rwa [alike.groupSize])]
    have ends := State.settleAll_segmentEnds (w.bump .mismatch)
    exact ⟨(ends.counter (by decide)).trans (bumped _ (by decide)), ends.untouched alike rfl rfl rfl⟩
  all_goals
    have ends := State.takeSegment_matched (s := w) (body := b.body) (by rwa [alike.own]) (by rwa [alike.groupSize])
  · rw [State.matchSegment_refused (by rwa [alike.slotOf]) (by rwa [alike.acceptance])] at ends
    exact ⟨(ends.counter (by decide)).trans (bumped _ (by decide)), ends.untouched alike rfl rfl rfl⟩
  · rw [State.matchSegment_duplicate (by rwa [alike.slotOf]) (by rwa [alike.acceptance])] at ends
    exact ⟨(ends.counter (by decide)).trans (count _ (by decide)), ends.untouched alike rfl rfl rfl⟩
  · have none_free : firstPlace w.ra.slots (· == .free) = none := by
      refine (firstPlace_eq_none_iff .free).mpr fun i hi => beq_eq_false_iff_ne.mpr ?_
      rw [alike.ra]
      exact full i hi
    rw [State.matchSegment_noSlot (by rwa [alike.slotOf]) (by rwa [alike.acceptance]) none_free] at ends
    exact ⟨(ends.counter (by decide)).trans (bumped _ (by decide)), ends.untouched alike rfl rfl rfl⟩
  · have first_free : firstPlace w.ra.slots (· == .free) = some i := by
      refine (firstPlace_eq_some_iff .free).mpr ⟨inside, ?_, fun j hj => beq_eq_false_iff_ne.mpr ?_⟩
      · rw [alike.ra, free]
        rfl
      · rw [alike.ra]
        exact lower j hj
    rw [State.matchSegment_takes (by rwa [alike.slotOf]) (by rwa [alike.acceptance]) first_free] at ends
    refine ⟨fun more => ?_, fun single => ?_⟩
    · have more' : (insertPart g.index g.payload []).length ≠ g.count := Nat.ne_of_lt more
      rw [State.storeSegment_more more'] at ends
      have held := ends.settles.incomplete ((State.place_putSlot w.tellRp inside _ i).trans (if_pos rfl)) nofun
      have own : (w.takeSegment b.body).own = s.own := (congrArg Sc.number ends.settles.keeps.sc).trans alike.own
      refine ⟨held, ?_⟩
      rw [State.isPending, List.contains_iff_mem]
      exact (mem_pendingOf_peer (by rwa [own])).mpr (.inl ⟨i, _, by rw [held]; rfl, rfl, rfl⟩)
    · have last : (insertPart g.index g.payload []).length = g.count := single.symm
      rw [State.storeSegment_last last] at ends
      let first : SlotData := {
        origin := g.origin, seq := g.seq, count := g.count, length := g.length, check := g.check, parts := [(g.index, g.payload)] }
      have completes : SlotCompletes s (w.takeSegment b.body) i first := State.finishSlot_completes alike.tellRp inside peer ends
      have payload : first.payload = g.payload := List.append_nil _
      refine ⟨?_, completes⟩
      have counts := completes
      unfold SlotCompletes at counts
      rw [payload] at counts
      split
      · rename_i right
        exact (counts.2 right).1
      · rename_i wrong
        exact (counts.1 wrong).2
  · intro agrees received stored
    have origin : d.origin = g.origin := ((State.slotOf_spec slotted).2 d holds).1
    have inside := (State.slotOf_spec slotted).1
    refine ⟨fun differs => ?_, fun same => ?_⟩
    · rw [State.matchSegment_mismatch (by rwa [alike.slotOf]) (by rwa [alike.ra]) differs] at ends
      exact ⟨(ends.counter (by decide)).trans (bumped _ (by decide)), ends.untouched alike rfl rfl rfl⟩
    · by_cases known : received
      · rw [State.matchSegment_received (by rwa [alike.slotOf]) (by rwa [alike.ra]) same known] at ends
        refine ⟨(ends.counter (by decide)).trans (count _ (by decide)), (ends.counter (by decide)).trans (count _ (by decide)),
          fun _ => ⟨(ends.counter (by decide)).trans (count _ (by decide)), ends.untouched alike rfl rfl rfl⟩, (absurd known ·)⟩
      · rw [State.matchSegment_stores (by rwa [alike.slotOf]) (by rwa [alike.ra]) same known] at ends
        by_cases last : stored.parts.length = d.count
        · rw [State.storeSegment_last last] at ends
          refine ⟨?_, ?_, (absurd · known), fun _ => ⟨(absurd last ·), fun _ => ?_⟩⟩
          · rw [ends.counter (by decide), State.finishSlot_counter (by decide) (by decide), count _ (by decide)]
          · rw [ends.counter (by decide), State.finishSlot_counter (by decide) (by decide), count _ (by decide)]
          · exact State.finishSlot_completes alike inside (by rwa [show stored.origin = g.origin from origin]) ends
        · rw [State.storeSegment_more last] at ends
          have slots (j : Nat) := State.place_putSlot w inside (.filling stored) j
          refine ⟨(ends.counter (by decide)).trans (count _ (by decide)), (ends.counter (by decide)).trans (count _ (by decide)),
            (absurd · known), fun _ => ⟨fun _ => ⟨?_, (ends.counter (by decide)).trans (count _ (by decide)), fun quiet => ?_⟩,
              (absurd · last)⟩⟩
          · exact ends.settles.incomplete ((slots i).trans (if_pos rfl)) nofun
          · have path := ends.path (alike.noClaim quiet)
            refine ⟨path.ce.trans alike.ce, ?_, fun j hj => ?_⟩
            · rw [path.ra, ← alike.ra]
              rfl
            · rw [path.ra, ← alike.ra]
              exact (slots j).trans (if_neg hj)

end Sys2Proof.Proofs

/-! A transfer ends (R5, R8, R143, R144). -/

namespace Sys2Proof.Machine

open Sys2Proof.Safety

/-! ## An event of CE touches the path, the block table and its own claim -/

namespace State

theorem placeRounds_same (n : Nat) : (s : State) → s.placeRounds n = { s with
    fc := { s.fc with fill := (s.placeRounds n).fc.fill }, ce := (s.placeRounds n).ce, ra := (s.placeRounds n).ra } := by
  induction n with
  | zero => exact fun _ => rfl
  | succ n ih =>
    intro s
    by_cases rest : s.stuck
    · rw [rest]
    · rw [stuck_iff, not_or] at rest
      obtain ⟨open_head, record⟩ := rest
      obtain ⟨ref, refs, hq⟩ := List.exists_cons_of_ne_nil fun e => open_head (.inl e)
      cases hr : s.refRecord ref with
      | none => exact absurd ⟨ref, refs, hq, hr⟩ record
      | some r =>
        rw [placeRounds_succ hq hr fun e => open_head (.inr e)]
        split
        · conv => lhs; rw [ih, placeHead_eq]
          rw [placeHead_eq]
        · rfl

theorem claimIfNeeded_same (s : State) : s.claimIfNeeded = { s with
    fc := { s.fc with programClaim := s.claimIfNeeded.fc.programClaim }, sm := s.claimIfNeeded.sm, nu := s.claimIfNeeded.nu,
    ce := s.claimIfNeeded.ce } := by
  unfold claimIfNeeded
  split
  · have opened := withOpenBlock_same s
    generalize s.withOpenBlock = p at opened
    obtain ⟨t, b⟩ := p
    dsimp only at opened
    generalize t.sm = sm at opened
    generalize t.nu = nu at opened
    subst opened
    cases b <;> rfl
  · rfl

theorem runCommit_same (s : State) : s.runCommit = { s with
    fc := { s.fc with fill := s.runCommit.fc.fill, programClaim := s.runCommit.fc.programClaim }, ce := s.runCommit.ce,
    ra := s.runCommit.ra, sm := s.runCommit.sm, nu := s.runCommit.nu } := by
  unfold runCommit
  conv => lhs; rw [claimIfNeeded_same, placeRounds_same]
  conv => rhs; rw [claimIfNeeded_same, placeRounds_same]

theorem settleAll_busy {s : State} (busy : s.fc.op.isSome) : s.settleAll.fc.op = s.fc.op ∧ s.settleAll.fc.mem = s.fc.mem
    ∧ s.settleAll.fc.array = s.fc.array ∧ s.settleAll.fc.progFlags = s.fc.progFlags := by
  have reclaims := evaluateReclaim_reclaims s
  have granted : s.evaluateReclaim.grant = s.evaluateReclaim := grantRounds_of_busy (.inr (by rw [reclaims.op]; exact busy)) _
  have repairs := settleRepair_repairs s.evaluateReclaim.grant
  rw [settleAll, repairs.fc, granted, reclaims.same]
  exact ⟨rfl, rfl, rfl, rfl⟩

/-! ## A program failure retires its block (R29, R153) -/

theorem programFailed_leaving (s : State) {p : PageAddr} (h : p.valid = true) : ((s.programFailed p).sm.block p.block).state.leaving := by
  have failed : ((s.smProgramFailed p).sm.block p.block).state = .retiring := by
    rw [smProgramFailed, notify_sm]
    show ((s.sm.setBlock p.block _).block p.block).state = _
    rw [Sm.block_setBlock, if_pos ⟨rfl, ((valid_iff p).mp h).1⟩]
  exact ((runCommit_settles _).trans (evaluateReclaim_settles _)).leaving _ (.inl failed)

/-- BLOCK-RETIRED stands in the queue, or the overflow flag tells of it. -/
def retiredNoticed (s : State) (b : Nat) (cause : NoticeCause) : Prop :=
  .blockRetired b cause ∈ s.nu.queue ∨ s.nu.overflow = true

theorem retiredNoticed_of_settles {s t : State} (h : Settles s t) {b : Nat} {cause : NoticeCause} (w : s.retiredNoticed b cause) :
    t.retiredNoticed b cause :=
  h.notices.kept _ (fun y => by cases y <;> rfl) w

theorem notify_retiredNoticed {s : State} (runs : s.storeRuns = true) (b : Nat) (cause : NoticeCause) :
    (s.notify (.blockRetired b cause)).retiredNoticed b cause := by
  unfold retiredNoticed
  rw [notify_of_running runs]
  exact Nu.mem_take _ _ _ fun x h => by cases x <;> cases h

theorem storeRuns_congr {s t : State} (h : t.sc = s.sc) : t.storeRuns = s.storeRuns := by
  rw [storeRuns, station, h, storeRuns, station]

theorem programFailed_retiredNoticed {s : State} (runs : s.storeRuns = true) (p : PageAddr) :
    (s.programFailed p).retiredNoticed p.block .program :=
  retiredNoticed_of_settles ((runCommit_settles _).trans (evaluateReclaim_settles _))
    (notify_retiredNoticed (s := s.putBlock p.block _) runs p.block .program)

/-- What the end of a command with a program failure keeps, in either order of its claims and its grant (log 11): placement has been
taken as far as it goes, and the block is out of service and noticed. -/
theorem completion_programFailed (s : State) {p : PageAddr} (h : p.valid = true) :
    let t := (s.completion fun u => u.programFailed p).settleRepair
    Settles s.drawn t ∧ t.stuck ∧ (t.sm.block p.block).state.leaving
      ∧ (s.storeRuns = true → t.retiredNoticed p.block .program) := by
  have ends (u : State) : Settles (u.programFailed p) ((u.programFailed p).grant.settleRepair) :=
    (grant_settles _).trans (settleRepair_settles _)
  have stuck (u : State) : (u.programFailed p).stuck := ((evaluateReclaim_settles _).stuck (runCommit_stuck _)).1
  have noticed {u : State} (runs : u.storeRuns = true) : ((u.programFailed p).grant.settleRepair).retiredNoticed p.block .program :=
    retiredNoticed_of_settles (ends u) (programFailed_retiredNoticed runs p)
  dsimp only
  unfold completion
  split
  · exact ⟨(programFailed_settles ..).trans (ends _), ((ends _).stuck (stuck _)).1, (ends _).leaving _ (programFailed_leaving _ h),
      fun runs => noticed (u := s.drawn) runs⟩
  · have first := grant_settles s.drawn
    exact ⟨(first.trans (programFailed_settles ..)).trans (ends _), ((ends _).stuck (stuck _)).1,
      (ends _).leaving _ (programFailed_leaving _ h), fun runs => noticed ((storeRuns_congr first.keeps.sc).trans runs)⟩

/-- R144: an EMPTY register and a record at the head do not rest. -/
theorem placed_of_stuck {s : State} {ref : Ref} {r : PathRecord} (rest : s.stuck) (w : HeadWaits ref r s ∨ HeadPlaced r s) :
    HeadPlaced r s := by
  refine w.resolve_left fun w => ?_
  obtain ⟨refs, queue⟩ := w.queue
  rcases stuck_iff.mp rest with (empty | closed) | ⟨ref', refs', queue', none_there⟩
  · rw [queue] at empty
    cases empty
  · rw [w.empty] at closed
    cases closed
  · rw [queue] at queue'
    cases queue'
    rw [w.record] at none_there
    cases none_there

end State

theorem Completes.stationKept {s t : State} (h : Completes s t) : StationKept s t := by
  obtain ⟨u, ends, keeps⟩ := h
  obtain ⟨pending, sc, lc, slot, submitBuffer, configures, dataOut, matrix, presence, silence⟩ := keeps.stationKept
  have same := ends.same
  have port := ends.port
  have port' : u.ap.slot = s.ap.slot ∧ u.ap.submitBuffer = s.ap.submitBuffer ∧ u.ap.configures = s.ap.configures
      ∧ u.ap.dataOut = s.ap.dataOut := by
    rw [port]
    exact ⟨rfl, rfl, rfl, rfl⟩
  have still : u.pending = s.pending ∧ u.sc = s.sc ∧ u.lc = s.lc ∧ u.hu = s.hu := by
    rw [same]
    exact ⟨rfl, rfl, rfl, rfl⟩
  exact ⟨pending.trans still.1, sc.trans still.2.1, lc.trans still.2.2.1, slot.trans port'.1, submitBuffer.trans port'.2.1,
    configures.trans port'.2.2.1, dataOut.trans port'.2.2.2, matrix.trans (congrArg Hu.matrix still.2.2.2),
    presence.trans (congrArg Hu.presence still.2.2.2), silence.trans (congrArg Hu.silence still.2.2.2)⟩

end Sys2Proof.Machine

namespace Sys2Proof.Proofs

open Sys2Proof.Machine Sys2Proof.Safety

/-- Settles O30. -/
theorem transferEnds : Obligations.TransferEnds := by
  intro s c op valid
  have ends : exec .transferEnd s = .next (s.transferEnds c) := by
    show execTransferEnd s = _
    rw [execTransferEnd, op]
    exact if_pos valid
  have completes := State.transferEnds_completes s c
  -- the fill register as the transfer leaves it, and what the end of the command makes of it
  have outcome : ∃ u, Settles u (s.transferEnds c) ∧ (s.transferEnds c).stuck ∧ u.ce = s.ce ∧ u.ra = s.ra ∧ u.su = s.su ∧ u.sc = s.sc
      ∧ u.fc.fill = FillReg.reset ∧ u.fc.array.image = some { data := s.fc.fill.data, list := s.fc.fill.list } := by
    unfold State.transferEnds
    split
    · obtain ⟨settles, rest, -⟩ := State.completion_programFailed (s.fcTransferred.fcProgramFails) valid
      exact ⟨_, settles, rest, rfl, rfl, rfl, rfl, rfl, rfl⟩
    · have settles := State.settleAll_settles ((s.fcTransferred).beginProgram c).runCommit
      exact ⟨(s.fcTransferred).beginProgram c, (State.runCommit_settles _).trans settles, (settles.stuck (State.runCommit_stuck _)).1,
        rfl, rfl, rfl, rfl, rfl, rfl⟩
  obtain ⟨u, settles, rest, ce, ra, su, sc, fill, image⟩ := outcome
  refine ⟨_, ends, completes.completes.stationKept, settles.image.trans image, fun empty => ?_, fun ref refs r queue record short => ?_,
    fun clear => ?_, fun set => ⟨completes.arrayKept, ?_⟩⟩
  · have placed : u.stuck := State.stuck_of_placed (.inl (by rw [ce]; exact empty))
    obtain ⟨-, queue, fill', -⟩ := settles.path placed
    exact ⟨fill'.trans fill, by rw [queue, ce, empty]⟩
  · have waits : HeadWaits ref r u := ⟨⟨refs, by rw [ce]; exact queue⟩, (State.refRecord_congr su ra sc ref).trans record, fill⟩
    obtain ⟨state, ⟨list, hlist⟩, ⟨data, hdata⟩⟩ := State.placed_of_stuck rest (settles.fills.head ref r short waits)
    exact ⟨list, data, state, hlist, hdata⟩
  · have begins : s.transferEnds c = (((s.fcTransferred).beginProgram c).runCommit).settleAll := by
      rw [State.transferEnds, clear]
      rfl
    have runs := State.runCommit_same ((s.fcTransferred).beginProgram c)
    have busy : (((s.fcTransferred).beginProgram c).runCommit).fc.op = some (.program c) := by
      rw [runs]
      rfl
    obtain ⟨op', mem, array, flags⟩ := State.settleAll_busy (s := ((s.fcTransferred).beginProgram c).runCommit) (by rw [busy]; rfl)
    rw [begins]
    refine ⟨op'.trans busy, ?_, ?_, ?_, ?_⟩
    · rw [array, runs]
      rfl
    · rw [array, runs]
      rfl
    · rw [Fc.progFlag, flags, runs]
      exact Fc.progFlag_setProgFlag s.fcTransferred.fc c.target
    · rw [mem, runs]
      rfl
  · have failed := (State.completion_programFailed (s.fcTransferred.fcProgramFails) valid).2.2.1
    rw [State.transferEnds, if_pos set]
    exact failed

/-- Settles O32. -/
theorem programFails : Obligations.ProgramFails := by
  intro s c op valid
  have ends : exec (.programDone .fail) s = .next (s.programEndsFail c) := by
    show execProgramDone .fail s = _
    rw [execProgramDone, op]
    exact if_pos valid
  obtain ⟨settles, -, leaving, noticed⟩ := State.completion_programFailed (s.fcProgramTears c) valid
  have counted : (s.fcProgramTears c).counter .programFailures = min 65535 (s.counter .programFailures + 1) :=
    State.counter_bump_self ..
  have mem : (s.fcProgramTears c).fc.mem
      = s.fc.mem.writeRange c.target.base (tornBytes (s.fc.mem.readRange c.target.base Config.pageBytes) s.fresh) := rfl
  have before : (s.fcProgramTears c).fc.array.image = s.fc.array.image ∧ (s.fcProgramTears c).su = s.su
      ∧ (s.fcProgramTears c).storeRuns = s.storeRuns ∧ (s.fcProgramTears c).fc.op = none := ⟨rfl, rfl, rfl, rfl⟩
  refine ⟨_, tornBytes (s.fc.mem.readRange c.target.base Config.pageBytes) s.fresh, ends,
    (State.programEndsFail_completes s c).stationKept, ?_, looksWhole_tornBytes (Memory.length_pageBytes ..) _, ?_, ?_, ?_, leaving,
    fun runs => noticed (before.2.2.1.trans runs), settles.su.trans before.2.1⟩
  · rw [length_tornBytes, Memory.length_pageBytes]
  · rw [← mem]
    exact settles.keeps.idle before.2.2.2
  · exact settles.image.trans before.1
  · exact settles.counts.up .programFailures _ (Nat.min_le_left ..) (Nat.le_of_eq counted.symm)

end Sys2Proof.Proofs

/-! The end of a lookup's read (R35 to R39, R180, R203). -/

namespace Sys2Proof.Machine

open Sys2Proof.Safety

/-! ## A completion in which no re-drive is refused -/

/-- The grant that is to come meets no program claim that it would refuse (R5). -/
def Unrefused (s : State) : Prop := s.storeRuns = false ∨ NoClaim s ∨ NoRefusal s

theorem Unrefused.of_fc {s t : State} (w : Unrefused s) (sc : t.sc = s.sc) (op : t.fc.op = s.fc.op)
    (claim : t.fc.programClaim = s.fc.programClaim) (array : t.fc.array = s.fc.array) (flags : t.fc.progFlags = s.fc.progFlags) :
    Unrefused t := by
  unfold Unrefused NoClaim NoRefusal Fc.progFlag at *
  rw [State.storeRuns_congr sc, op, claim, array, flags]
  exact w

theorem Unrefused.of_looks {s t : State} (w : Unrefused s) (h : Looks s t) : Unrefused t := by
  refine w.of_fc h.sc ?_ ?_ ?_ ?_ <;> rw [h.same]

namespace State

variable {s u : State}

theorem grant_of_off (off : s.storeRuns = false) : s.grant = s := grantRounds_of_busy (.inl off) _

theorem grant_of_busy (busy : s.fc.op.isSome) : s.grant = s := grantRounds_of_busy (.inr busy) _

theorem grant_of_unrefused (w : Unrefused s) : Grants s s.grant := by
  rcases w with off | (busy | unclaimed) | calm
  · rw [grant_of_off off]
    exact .refl s
  · rw [grant_of_busy busy]
    exact .refl s
  · exact grant_grants fun c h => by rw [unclaimed] at h; cases h
  · exact grant_grants calm

/-- R16: with a program claim and no refusal the grant begins a transfer or a program. -/
theorem grant_program (w : NoRefusal s) (running : s.storeRuns = true) (free : s.fc.op = none) {c : ProgramClaim}
    (claim : s.fc.programClaim = some c) : s.grant.fc.op = some (.transfer c) ∨ s.grant.fc.op = some (.program c) := by
  rw [← grantRounds_eq_grant w (Nat.lt_succ_self _)]
  cases image : s.fc.array.image with
  | none =>
    rw [grantRounds_transfer running free claim image]
    exact .inl rfl
  | some i =>
    have kept : s.fc.array.image.isSome := by rw [image]; rfl
    rw [grantRounds_program running free claim kept (w c claim kept)]
    exact .inr rfl

theorem unrefused_grant (w : NoRefusal s) : Unrefused s.grant := by
  cases running : s.storeRuns with
  | false =>
    rw [grant_of_off running]
    exact .inl running
  | true =>
  cases free : s.fc.op with
  | some op =>
    have busy : s.fc.op.isSome := by rw [free]; rfl
    rw [grant_of_busy busy]
    exact .inr (.inl (.inl busy))
  | none =>
  cases claim : s.fc.programClaim with
  | none =>
    refine .inr (.inl (.inr ?_))
    rcases (grant_grants w).program with ⟨same, -⟩ | ⟨c, hc, -⟩
    · rw [same, claim]
    · rw [claim] at hc
      cases hc
  | some c =>
    refine .inr (.inl (.inl ?_))
    rcases grant_program w running free claim with h | h <;> rw [h] <;> rfl

/-- R16: a step claim comes before an erase. -/
theorem grant_not_erase (w : Unrefused s) {who : Requester} {c : StepClaim} (hc : s.fc.stepClaim who = some c) {b : Nat}
    (h : s.fc.op ≠ some (.erase b)) : s.grant.fc.op ≠ some (.erase b) := by
  cases running : s.storeRuns with
  | false => rwa [grant_of_off running]
  | true =>
  cases free : s.fc.op with
  | some op => rwa [grant_of_busy (by rw [free]; rfl)]
  | none =>
  have calm : NoRefusal s := by
    rcases w with off | (busy | unclaimed) | calm
    · rw [running] at off
      cases off
    · rw [free] at busy
      cases busy
    · exact fun c h => by rw [unclaimed] at h; cases h
    · exact calm
  cases claim : s.fc.programClaim with
  | some p => rcases grant_program calm running free claim with h | h <;> rw [h] <;> exact nofun
  | none =>
    rw [← grantRounds_eq_grant calm (Nat.lt_succ_self _)]
    cases fetch : s.fc.fetchClaim with
    | some f =>
      rw [grantRounds_fetch running free claim fetch]
      exact nofun
    | none =>
      cases who with
      | fetch => exact absurd (hc.symm.trans fetch) nofun
      | serve =>
        rw [grantRounds_serve running free claim fetch hc]
        exact nofun

/-- R16: the claims of a completion come before the grant or after one (log 11); a grant follows them in either case. -/
theorem completion_eq (s : State) (effects : State → State) :
    ∃ v, (v = s.drawn ∨ v = s.drawn.grant) ∧ s.completion effects = (effects v).grant := by
  unfold completion
  split
  · exact ⟨_, .inl rfl, rfl⟩
  · exact ⟨_, .inr rfl, rfl⟩

theorem granted_of_completion (w : NoRefusal s) {v : State} (h : v = s.drawn ∨ v = s.drawn.grant) :
    Grants s.drawn v ∧ Unrefused v := by
  have w' : NoRefusal s.drawn := w
  rcases h with rfl | rfl
  · exact ⟨.refl _, .inr (.inr w')⟩
  · exact ⟨grant_grants w', unrefused_grant w'⟩

end State

/-! ## What the end of a completion leaves of the lookups -/

/-- The read that the lookup of `who` goes on with is claimed. -/
def Claimed (who : Requester) (kind : ReadKind) (p : PageAddr) (l : Lookup) (s : State) : Prop :=
  s.sm.lookup who = some { l with step := .waiting } ∧ s.fc.stepClaim who = some { kind := kind, page := p }

/-- The read that the lookup of `who` goes on with is claimed or begun. -/
def GoesOn (who : Requester) (kind : ReadKind) (p : PageAddr) (l : Lookup) (s : State) : Prop :=
  Claimed who kind p l s
    ∨ (s.sm.lookup who = some { l with step := .running } ∧ s.fc.op = some (.lookupRead who kind p) ∧ s.fc.stepClaim who = none)

/-- What the last grant of a completion and the repairs after it leave of the lookups and their outcomes. -/
structure Closes (u t : State) : Prop where
  claimed : ∀ who kind p l, Claimed who kind p l u → GoesOn who kind p l t
  gone : ∀ who, u.sm.lookup who = none → t.sm.lookup who = none
  unclaimed : ∀ who, u.fc.stepClaim who = none → t.fc.stepClaim who = none
  fetch : t.ap.fetch = u.ap.fetch
  notHeld : t.rp.notHeld = u.rp.notHeld
  buffer : t.rp.buffer = u.rp.buffer
  damaged : t.counter .damagedReads = u.counter .damagedReads
  op : t.fc.op = u.grant.fc.op

theorem closes {u : State} (w : Unrefused u) : Closes u u.grant.settleRepair := by
  have granted := State.grant_of_unrefused w
  have repairs := State.settleRepair_repairs u.grant
  have sm := repairs.sm
  have fc := repairs.fc
  refine ⟨fun who kind p l ⟨lookup, claim⟩ => ?_, fun who gone => ?_, fun who unclaimed => ?_, ?_, ?_, ?_, ?_, congrArg Fc.op fc⟩
  · unfold GoesOn Claimed
    rw [sm, fc]
    rcases granted.lookups who with ⟨same, same'⟩ | ⟨c, hc, taken, op, running⟩
    · exact .inl ⟨same.trans lookup, same'.trans claim⟩
    · cases hc.symm.trans claim
      exact .inr ⟨by rw [running, lookup]; rfl, op, taken⟩
  · rw [sm]
    rcases granted.lookups who with ⟨same, -⟩ | ⟨c, -, -, -, running⟩
    · exact same.trans gone
    · rw [running, gone]
      rfl
  · rw [fc]
    rcases granted.lookups who with ⟨-, same⟩ | ⟨c, -, taken, -⟩
    · exact same.trans unclaimed
    · exact taken
  · rw [repairs.ap, granted.fetch]
  · rw [repairs.rp]
    show u.grant.rp.notHeld = _
    rw [granted.rp]
  · rw [repairs.rp]
    show u.grant.rp.buffer = _
    rw [granted.rp]
  · rw [State.counter, repairs.ap]
    exact granted.counts.same .damagedReads (by decide)

/-! ## The ways in which a lookup goes on -/

/-- The lookup of `who` has ended, and no step of it is claimed unless one was before. -/
def LookupEnded (who : Requester) (s t : State) : Prop :=
  t.sm.lookup who = none ∧ (s.fc.stepClaim who = none → t.fc.stepClaim who = none)

/-- R178: REFUSE NOT-HELD of the lookup's number has been made due behind the answers that stand. -/
def MadeNotHeld (s t : State) (l : Lookup) : Prop := t.rp.notHeld = some { number := l.seq, older := s.rp.busy.length }

/-- R35: the lookup `l` chooses the next candidate below its bound, or ends. -/
def ChoosesAnew (who : Requester) (s t : State) (l : Lookup) (damaged : Bool) : Prop :=
  (∀ st b, s.sm.candidate l.origin l.seq l.bound = some (st, b) →
      GoesOn who .spare { block := b, page := (s.sm.block b).pages - 1 }
        { l with block := some b, page := (s.sm.block b).pages - 1, bound := some (st, b), damaged := damaged } t)
    ∧ (s.sm.candidate l.origin l.seq l.bound = none →
        LookupEnded who s t
        ∧ (who = .fetch → t.ap.fetch = .done l.origin l.seq
            (if (s.entry l.origin).settled l.seq = false then .notHeld else if damaged = true then .damaged else .lost))
        ∧ (who = .serve → MadeNotHeld s t l
            ∧ t.counter .damagedReads
                = if damaged = true then min 65535 (s.counter .damagedReads + 1) else s.counter .damagedReads))

/-- A state in which the arbiter may have granted claims since `s`, but for the free value drawn at the completion. -/
structure Granted (s v : State) : Prop where
  table : v.sm.table = s.sm.table
  hu : v.hu = s.hu
  rp : v.rp = s.rp
  damaged : v.counter .damagedReads = s.counter .damagedReads
  unclaimed : ∀ who, s.fc.stepClaim who = none → v.fc.stepClaim who = none
  running : ∀ who l, s.sm.lookup who = some l → l.step = .running → v.sm.lookup who = some l
  leaving : ∀ who l, s.sm.lookup who = some l → s.fc.stepClaim who = none → v.sm.lookup who = some l
  erase : ∀ who l b, s.sm.lookup who = some l → l.block = some b → v.fc.op ≠ some (.erase b)

theorem Grants.granted {s r v : State} (h : Grants r v) (sm : r.sm = s.sm) (hu : r.hu = s.hu) (rp : r.rp = s.rp) (ap : r.ap = s.ap)
    (claims : ∀ who, r.fc.stepClaim who = s.fc.stepClaim who) (free : r.fc.op = none) : Granted s v where
  table := by rw [h.table, sm]
  hu := h.hu.trans hu
  rp := h.rp.trans rp
  damaged := (h.counts.same .damagedReads (by decide)).trans (by rw [State.counter, ap, State.counter])
  unclaimed who none_there := by
    rcases h.lookups who with ⟨-, same⟩ | ⟨c, -, taken, -⟩
    · rw [same, claims, none_there]
    · exact taken
  running who l hl running := by
    rw [← sm] at hl
    rcases h.lookups who with ⟨same, -⟩ | ⟨c, -, -, -, runs⟩
    · exact same.trans hl
    · rw [runs, hl, Option.map_some, ← running]
  leaving who l hl none_there := by
    rw [← sm] at hl
    rcases h.lookups who with ⟨same, -⟩ | ⟨c, hc, -⟩
    · exact same.trans hl
    · rw [claims, none_there] at hc
      cases hc
  erase who l b hl here erasing := by
    rcases h.erase b erasing with erasing | ⟨-, apart⟩
    · rw [free] at erasing
      cases erasing
    · rw [sm] at apart
      exact absurd ((Sm.lookupIn_iff ..).mpr ⟨who, l, hl, here⟩) (by rw [apart]; exact nofun)

namespace State

variable {s v t : State} {who : Requester} {l : Lookup} {damaged : Bool}

theorem candidate_of_granted (h : Granted s v) (o n : Nat) (bound : Option (Nat × Nat)) :
    v.sm.candidate o n bound = s.sm.candidate o n bound := Sm.candidate_congr h.table ..

theorem choose_choosesAnew (h : Granted s v) (c : Closes (v.choose who { l with damaged := damaged }) t) :
    ChoosesAnew who s t l damaged := by
  refine ⟨fun st b found => ?_, fun none_left => ?_⟩
  · have pages : v.sm.block b = s.sm.block b := by rw [Sm.block, h.table, Sm.block]
    rw [choose_of_candidate (l := { l with damaged := damaged }) ((candidate_of_granted h ..).trans found), pages] at c
    exact c.claimed _ _ _ _ ⟨lookup_claimStep .., stepClaim_claimStep ..⟩
  · rw [choose_of_none (l := { l with damaged := damaged }) ((candidate_of_granted h ..).trans none_left)] at c
    refine ⟨⟨c.gone _ (lookup_lookupEnds ..), fun unclaimed => c.unclaimed _ ?_⟩, fun fetching => ?_, fun serving => ?_⟩
    · rw [fc_lookupEnds]
      exact h.unclaimed who unclaimed
    · subst fetching
      rw [c.fetch, fetch_lookupEnds, State.entry, h.hu]
      rfl
    · subst serving
      obtain ⟨rp, ap⟩ := serve_lookupEnds v { l with damaged := damaged } damaged
      refine ⟨?_, ?_⟩
      · rw [MadeNotHeld, c.notHeld, rp, h.rp]
      · rw [c.damaged, ← h.damaged, counter, ap]
        cases damaged with
        | false => rfl
        | true => exact counter_bump_self v .damagedReads

/-- R36: page `p` passed over. -/
theorem passOver_goesOn {p : PageAddr} (c : Closes (v.passOver who { l with damaged := damaged } p) t) (below : 1 ≤ p.page) :
    GoesOn who .spare { block := p.block, page := p.page - 1 }
      { l with block := some p.block, page := p.page - 1, damaged := damaged } t := by
  rw [passOver, if_neg (Nat.one_le_iff_ne_zero.mp below)] at c
  exact c.claimed _ _ _ _ ⟨lookup_claimStep .., stepClaim_claimStep ..⟩

theorem passOver_choosesAnew (h : Granted s v) {p : PageAddr} (c : Closes (v.passOver who { l with damaged := damaged } p) t)
    (last : p.page = 0) : ChoosesAnew who s t l damaged := by
  rw [passOver, if_pos last] at c
  exact choose_choosesAnew h c

theorem choose_unrefused (w : Unrefused v) (l : Lookup) : Unrefused (v.choose who l) := w.of_looks (choose_looksFor v who l).toLooks

/-- R38: a lookup that leaves its block chooses anew, and the erase of the block is not begun before. -/
theorem choose_leaves (h : Granted s v) (w : Unrefused v) (hl : s.sm.lookup who = some l)
    (end_ : t = (v.choose who l).grant.settleRepair) :
    ChoosesAnew who s t l l.damaged
      ∧ ∀ b, l.block = some b → (s.sm.candidate l.origin l.seq l.bound).isSome → t.fc.op ≠ some (.erase b) := by
  have c : Closes (v.choose who l) t := end_ ▸ closes (choose_unrefused w l)
  refine ⟨choose_choosesAnew h c, fun b here some_left => ?_⟩
  obtain ⟨⟨st, a⟩, found⟩ := Option.isSome_iff_exists.mp some_left
  have found' := (candidate_of_granted h ..).trans found
  rw [c.op]
  refine grant_not_erase (choose_unrefused w l) (who := who) (c := { kind := .spare, page := { block := a, page := (v.sm.block a).pages - 1 } })
    ?_ ?_
  · rw [choose_of_candidate found']
    exact stepClaim_claimStep ..
  · have op : (v.choose who l).fc.op = v.fc.op := by rw [(choose_looksFor v who l).toLooks.same]
    rw [op]
    exact h.erase who l b hl here

/-! ## The reads -/

theorem lookupGoesOn_of_leaving (use : Lookup → State → State) (hl : v.sm.lookup who = some l) (leaving : l.step = .leaving) :
    v.lookupGoesOn who use = v.choose who l := by
  rw [lookupGoesOn, hl]
  dsimp only
  rw [leaving]

theorem lookupGoesOn_of_running (use : Lookup → State → State) (hl : v.sm.lookup who = some l) (running : l.step = .running) :
    v.lookupGoesOn who use = use l v := by
  rw [lookupGoesOn, hl]
  dsimp only
  rw [running]

theorem choose_fc_read (s : State) (who : Requester) (l : Lookup) : (s.choose who l).fc.read = s.fc.read := by
  rw [(choose_looksFor s who l).toLooks.same]

theorem lookupGoesOn_read (use : Lookup → State → State) (h : ∀ l, (use l v).fc.read = v.fc.read) :
    (v.lookupGoesOn who use).fc.read = v.fc.read := by
  unfold lookupGoesOn
  split
  · rfl
  · split
    · exact choose_fc_read ..
    · exact h _
    · rfl

theorem completion_read (s : State) (effects : State → State) (h : ∀ v, (effects v).fc.read = v.fc.read) :
    (s.completion effects).settleRepair.fc.read = s.fc.read := by
  obtain ⟨v, granted, same⟩ := completion_eq s effects
  rw [same]
  have ends : (effects v).grant.settleRepair.fc.read = v.fc.read :=
    ((grant_settles _).trans (settleRepair_settles _)).read.trans (h v)
  rcases granted with rfl | rfl
  · exact ends
  · exact ends.trans (grant_settles s.drawn).read

theorem lookupPage_fc_read (s : State) (who : Requester) (l : Lookup) (p : PageAddr) (data spare : List Byte) :
    (s.lookupPage who l p data spare).fc.read = s.fc.read := by
  unfold lookupPage
  split
  · rw [fc_lookupEnds]
  · unfold passOver
    split
    · exact choose_fc_read ..
    · cases who <;> rfl

theorem lookupSpare_listed {p : PageAddr} {spare : List Byte} {e : ListEntry} (readable : spareReadable spare = true)
    (listed : (spareList spare).find? (fun e => e.origin == l.origin && e.seq == l.seq) = some e) :
    v.lookupSpare who l p spare = v.claimStep who { l with offset := e.offset } .page p := by
  rw [lookupSpare, if_pos readable, listed]

theorem lookupSpare_unlisted {p : PageAddr} {spare : List Byte} (h : spareReadable spare = false
    ∨ (spareList spare).find? (fun e => e.origin == l.origin && e.seq == l.seq) = none) :
    v.lookupSpare who l p spare = v.passOver who l p := by
  rw [lookupSpare]
  rcases h with h | h
  · rw [h]
    rfl
  · rw [h, ite_self]

end State

/-- What the obligation asks of a lookup whose spare read ends. -/
def SpareReadEnds (who : Requester) (p : PageAddr) (spare : List Byte) (l : Lookup) (s t : State) : Prop :=
  let entry := (spareList spare).find? (fun e => e.origin == l.origin && e.seq == l.seq)
  (∀ e, spareReadable spare = true → entry = some e →
      GoesOn who .page { block := p.block, page := p.page }
        { l with block := some p.block, page := p.page, offset := e.offset, damaged := l.damaged } t)
    ∧ (spareReadable spare = false ∨ entry = none →
        (1 ≤ p.page → GoesOn who .spare { block := p.block, page := p.page - 1 }
          { l with block := some p.block, page := p.page - 1, offset := l.offset, damaged := l.damaged } t)
        ∧ (p.page = 0 → ChoosesAnew who s t l l.damaged))

/-- What the obligation asks of a lookup whose page read ends. -/
def PageReadEnds (who : Requester) (p : PageAddr) (data spare : List Byte) (l : Lookup) (s t : State) : Prop :=
  let settled := (s.entry l.origin).settled l.seq
  (∀ payload, verifyCopy l.origin l.seq l.offset data spare = some payload →
      LookupEnded who s t
      ∧ (who = .fetch → t.ap.fetch = .done l.origin l.seq (if settled = true then .ok payload else .notHeld))
      ∧ (who = .serve → settled = true →
          t.rp.buffer = some { origin := l.origin, seq := l.seq, check := crc32 payload, payload := payload, next := 0 })
      ∧ (who = .serve → settled = false → MadeNotHeld s t l))
    ∧ (verifyCopy l.origin l.seq l.offset data spare = none →
        (1 ≤ p.page → GoesOn who .spare { block := p.block, page := p.page - 1 }
          { l with block := some p.block, page := p.page - 1, offset := l.offset, damaged := true } t)
        ∧ (p.page = 0 → ChoosesAnew who s t l true))

namespace State

variable {s v t : State} {who : Requester} {l : Lookup}

theorem lookupSpare_ends (h : Granted s v) (p : PageAddr) (spare : List Byte) (c : Closes (v.lookupSpare who l p spare) t) :
    SpareReadEnds who p spare l s t := by
  refine ⟨fun e readable listed => ?_, fun unlisted => ?_⟩
  · rw [lookupSpare_listed readable listed] at c
    exact c.claimed _ _ _ _ ⟨lookup_claimStep .., stepClaim_claimStep ..⟩
  · rw [lookupSpare_unlisted unlisted] at c
    exact ⟨passOver_goesOn (damaged := l.damaged) c, passOver_choosesAnew h c⟩

theorem lookupPage_ends (h : Granted s v) (p : PageAddr) (data spare : List Byte)
    (c : Closes (v.lookupPage who l p data spare) t) : PageReadEnds who p data spare l s t := by
  have entry (o : Nat) : v.entry o = s.entry o := by rw [State.entry, h.hu, State.entry]
  refine ⟨fun payload found => ?_, fun bad => ?_⟩
  · rw [lookupPage, found] at c
    refine ⟨⟨c.gone _ (lookup_lookupEnds ..), fun unclaimed => c.unclaimed _ ?_⟩, fun fetching => ?_, fun serving settled => ?_,
      fun serving unsettled => ?_⟩
    · rw [fc_lookupEnds]
      exact h.unclaimed who unclaimed
    · subst fetching
      rw [c.fetch, ← entry]
      rfl
    · subst serving
      rw [← entry] at settled
      rw [c.buffer]
      dsimp only [lookupEnds, serveEnds]
      rw [setSm_entry, if_pos settled]
      rfl
    · subst serving
      rw [← entry] at unsettled
      rw [MadeNotHeld, c.notHeld, ← h.rp]
      dsimp only [lookupEnds, serveEnds]
      rw [setSm_entry, unsettled]
      rfl
  · rw [lookupPage, bad] at c
    exact ⟨passOver_goesOn (damaged := true) c, passOver_choosesAnew h c⟩

theorem lookupSpare_unrefused (w : Unrefused v) (l : Lookup) (p : PageAddr) (spare : List Byte) :
    Unrefused (v.lookupSpare who l p spare) := w.of_looks (lookupSpare_looks ..)

theorem lookupPage_unrefused (w : Unrefused v) (l : Lookup) (p : PageAddr) (data spare : List Byte) :
    Unrefused (v.lookupPage who l p data spare) := by
  unfold lookupPage
  split
  · have fc := fc_lookupEnds v who l
    refine w.of_fc ?_ ?_ ?_ ?_ ?_
    · cases who with
      | fetch => rfl
      | serve =>
        unfold lookupEnds serveEnds
        dsimp only
        split <;> rfl
    all_goals rw [fc]
  · exact w.of_looks (passOver_looks ..)

/-- R38: a lookup whose read was to be discarded leaves its block. -/
def Leaves (who : Requester) (l : Lookup) (s t : State) : Prop :=
  ChoosesAnew who s t l l.damaged
    ∧ ∀ b, l.block = some b → (s.sm.candidate l.origin l.seq l.bound).isSome → t.fc.op ≠ some (.erase b)

/-- R36 to R38: what becomes of the lookup at the end of a read, in a command in which no re-drive is refused: it goes on as `use`
says, or it leaves its block. -/
theorem readEnds {r : State} (use : Lookup → State → State) (w : NoRefusal r) (hl : s.sm.lookup who = some l)
    (sm : r.sm = s.sm) (hu : r.hu = s.hu) (rp : r.rp = s.rp) (ap : r.ap = s.ap)
    (claims : ∀ who, r.fc.stepClaim who = s.fc.stepClaim who) (free : r.fc.op = none) :
    (l.step = .leaving → s.fc.stepClaim who = none →
        Leaves who l s (r.completion fun t => t.lookupGoesOn who use).settleRepair)
    ∧ (l.step = .running → (∀ v, Unrefused v → Unrefused (use l v)) →
        ∃ v, Granted s v ∧ Closes (use l v) (r.completion fun t => t.lookupGoesOn who use).settleRepair) := by
  obtain ⟨v, cases, same⟩ := completion_eq r fun t => t.lookupGoesOn who use
  obtain ⟨grants, unrefused⟩ := granted_of_completion w cases
  have granted : Granted s v := grants.granted sm hu rp ap claims free
  rw [same]
  refine ⟨fun leaving unclaimed => ?_, fun running keeps => ⟨v, granted, ?_⟩⟩
  · rw [lookupGoesOn_of_leaving use (granted.leaving who l hl unclaimed) leaving]
    exact choose_leaves granted unrefused hl rfl
  · rw [lookupGoesOn_of_running use (granted.running who l hl running) running]
    exact closes (keeps v unrefused)

theorem lookupSpareReadEnds_lookup (w : NoRefusal s) (p : PageAddr) (hl : s.sm.lookup who = some l) :
    (l.step = .leaving → s.fc.stepClaim who = none → Leaves who l s (s.lookupSpareReadEnds who p))
      ∧ (l.step = .running → SpareReadEnds who p (s.fc.mem.spareOf p) l s (s.lookupSpareReadEnds who p)) := by
  obtain ⟨leaves, runs⟩ := readEnds (r := s.fcSpareRead p) (fun l u => u.lookupSpare who l p (s.fc.mem.spareOf p)) w hl rfl rfl rfl rfl
    (fun _ => rfl) rfl
  refine ⟨leaves, fun running => ?_⟩
  obtain ⟨v, granted, closes⟩ := runs running fun v w => lookupSpare_unrefused w l p _
  exact lookupSpare_ends granted p _ closes

theorem lookupPageReadEnds_lookup (w : NoRefusal s) (p : PageAddr) (hl : s.sm.lookup who = some l) :
    (l.step = .leaving → s.fc.stepClaim who = none → Leaves who l s (s.lookupPageReadEnds who p))
      ∧ (l.step = .running →
          PageReadEnds who p (s.fc.mem.dataOf p) (s.fc.mem.spareOf p) l s (s.lookupPageReadEnds who p)) := by
  obtain ⟨leaves, runs⟩ := readEnds (r := s.fcPageRead p)
    (fun l u => u.lookupPage who l p (s.fc.mem.dataOf p) (s.fc.mem.spareOf p)) w hl rfl rfl rfl rfl (fun _ => rfl) rfl
  refine ⟨leaves, fun running => ?_⟩
  obtain ⟨v, granted, closes⟩ := runs running fun v w => lookupPage_unrefused w l p _ _
  exact lookupPage_ends granted p _ _ closes

theorem lookupSpareReadEnds_read (s : State) (who : Requester) (p : PageAddr) :
    (s.lookupSpareReadEnds who p).fc.read = { page := some p, spare := some (s.fc.mem.spareOf p), data := none } := by
  rw [lookupSpareReadEnds, completion_read]
  · rfl
  · exact fun v => lookupGoesOn_read _ fun l => by rw [(lookupSpare_looks v who l p _).same]

theorem completion_lookupPage_read (r : State) (who : Requester) (p : PageAddr) (data spare : List Byte) :
    (r.completion fun t => t.lookupGoesOn who fun l u => u.lookupPage who l p data spare).settleRepair.fc.read = r.fc.read :=
  completion_read r _ fun _ => lookupGoesOn_read _ fun _ => lookupPage_fc_read ..

theorem lookupPageReadEnds_read (s : State) (who : Requester) (p : PageAddr) :
    (s.lookupPageReadEnds who p).fc.read
      = { page := some p, spare := some (s.fc.mem.spareOf p), data := some (s.fc.mem.dataOf p) } := by
  rw [lookupPageReadEnds, completion_lookupPage_read]
  rfl

end State

end Sys2Proof.Machine

namespace Sys2Proof.Proofs

open Sys2Proof.Machine Sys2Proof.Safety

/-- Settles O37. -/
theorem lookupReadsEnd : Obligations.LookupReadsEnd := by
  intro s who p valid spare data claim goesOn ends stands notHeld choosesAnew leaves
  refine ⟨fun op => ?_, fun op => ?_⟩
  · have done : exec .lookupSpareReadDone s = .next (s.lookupSpareReadEnds who p) := by
      show execLookupSpareReadDone s = _
      rw [execLookupSpareReadDone, op]
      exact if_pos valid
    have completes := State.lookupSpareReadEnds_completes s who p
    have read := State.lookupSpareReadEnds_read s who p
    have lookup {l : Lookup} (w : NoRefusal s) := State.lookupSpareReadEnds_lookup (who := who) (l := l) w p
    generalize s.lookupSpareReadEnds who p = t at done completes read lookup
    refine ⟨t, done, completes.completes.stationKept, completes.arrayKept, read, fun l hl => ?_⟩
    cases who <;> exact ⟨fun w => (lookup w hl).1, fun w => (lookup w hl).2⟩
  · have done : exec .lookupPageReadDone s = .next (s.lookupPageReadEnds who p) := by
      show execLookupPageReadDone s = _
      rw [execLookupPageReadDone, op]
      exact if_pos valid
    have completes := State.lookupPageReadEnds_completes s who p
    have read := State.lookupPageReadEnds_read s who p
    have lookup {l : Lookup} (w : NoRefusal s) := State.lookupPageReadEnds_lookup (who := who) (l := l) w p
    generalize s.lookupPageReadEnds who p = t at done completes read lookup
    refine ⟨t, done, completes.completes.stationKept, completes.arrayKept, read, fun l hl => ?_⟩
    cases who <;> exact ⟨fun w => (lookup w hl).1, fun w => (lookup w hl).2⟩

end Sys2Proof.Proofs

/-! A mark program and an erase of SM end (R10, R11, R33, R34, R150). -/

namespace Sys2Proof.Machine

open Sys2Proof.Safety

/-! ## The mark class through a grant -/

/-- What a grant, refused re-drives among it, leaves of the mark class. -/
structure KeepsMarks (s t : State) : Prop where
  marks : ∀ m ∈ s.fc.markClaims, s.fc.markFlag { block := m.block, page := 0 } = false → m ∈ t.fc.markClaims
    ∨ (t.fc.op = some (.mark m.block m.value) ∧ t.fc.markFlag { block := m.block, page := 0 } = true)
  flags : s.fc.op = none → t.fc.op = none → t.fc.markFlags = s.fc.markFlags

theorem KeepsMarks.refl (s : State) : KeepsMarks s s := ⟨fun _ mem _ => .inl mem, fun _ _ => rfl⟩

theorem Grants.keepsMarks {s t : State} (h : Grants s t) : KeepsMarks s t where
  marks m mem clear := (h.marks m mem).imp_right fun w => w.resolve_left (by rw [clear]; exact nofun)
  flags free free' := (h.flags free free').1

/-- Effects at a free array, before a grant. -/
theorem KeepsMarks.after {s t u : State} (k : KeepsMarks t u) (free : t.fc.op = none) (flags : t.fc.markFlags = s.fc.markFlags)
    (more : ∃ more, t.fc.markClaims = s.fc.markClaims ++ more) : KeepsMarks s u where
  marks m mem clear := by
    obtain ⟨more, hmore⟩ := more
    refine k.marks m (hmore ▸ List.mem_append_left _ mem) ?_
    rw [Fc.markFlag, flags]
    exact clear
  flags _ free' := (k.flags free free').trans flags

/-- What a mark program that fails writes keeps the ones of its value (R10). -/
theorem byte_and_or_self (v w : Byte) : v &&& (v ||| w) = v := by
  ext i h
  rw [BitVec.getElem_and, BitVec.getElem_or]
  cases v[i] <;> rfl

namespace State

theorem programFailed_fc (s : State) (p : PageAddr) : (s.programFailed p).fc.op = s.fc.op
    ∧ (s.programFailed p).fc.markFlags = s.fc.markFlags ∧ ∃ more, (s.programFailed p).fc.markClaims = s.fc.markClaims ++ more := by
  have failed : (s.smProgramFailed p).fc = s.fc := by
    rw [smProgramFailed, notify_eq]
    rfl
  have ran : (s.smProgramFailed p).runCommit.fc.op = s.fc.op ∧ (s.smProgramFailed p).runCommit.fc.markFlags = s.fc.markFlags
      ∧ (s.smProgramFailed p).runCommit.fc.markClaims = s.fc.markClaims := by
    rw [runCommit_same, ← failed]
    exact ⟨rfl, rfl, rfl⟩
  obtain ⟨op, flags, marks⟩ := ran
  have reclaims := evaluateReclaim_reclaims (s.smProgramFailed p).runCommit
  obtain ⟨more, hmore⟩ := reclaims.marks
  refine ⟨reclaims.op.trans op, Eq.trans ?_ flags, more, by rw [programFailed, hmore, marks]⟩
  rw [programFailed, reclaims.same]

theorem refusal_of_not_noRefusal {s : State} (w : ¬ NoRefusal s) :
    ∃ c, s.fc.programClaim = some c ∧ s.fc.array.image.isSome = true ∧ s.fc.progFlag c.target = true := by
  refine Classical.byContradiction fun none => w fun c claim kept => ?_
  exact Bool.eq_false_iff.mpr fun set => none ⟨c, claim, kept, set⟩

theorem grantRounds_keepsMarks : (n : Nat) → (s : State) → KeepsMarks s (s.grantRounds n)
  | 0, s => .refl s
  | n + 1, s => by
    by_cases w : NoRefusal s
    · exact (grantRounds_grants (n + 1) s w).keepsMarks
    · cases running : s.storeRuns with
      | false =>
        rw [grantRounds_of_busy (.inl running)]
        exact .refl s
      | true =>
      cases free : s.fc.op with
      | some op =>
        rw [grantRounds_of_busy (.inr (by rw [free]; rfl))]
        exact .refl s
      | none =>
        obtain ⟨c, claim, kept, set⟩ := refusal_of_not_noRefusal w
        rw [grantRounds_refused running free claim kept set]
        obtain ⟨op, flags, marks⟩ := programFailed_fc ((s.setFc { s.fc with programClaim := none }).fcProgramFails) c.target
        exact (grantRounds_keepsMarks n _).after op flags marks

theorem grant_keepsMarks (s : State) : KeepsMarks s s.grant := grantRounds_keepsMarks _ s

/-! ## The block that CE's request opens -/

/-- A block without a page: as an erase leaves it, or OPEN. -/
def Blank (e : BlockEntry) : Prop := e.pages = 0 ∧ e.summary = [] ∧ (e.state = .free ∨ e.state = .opened)

theorem Blank.young {e : BlockEntry} (h : Blank e) : e.state.old = false := by
  rcases h.2.2 with h | h <;> rw [h] <;> rfl

theorem block_openFree (s : State) (b a : Nat) : (s.openFree b).sm.block a
    = if b = a ∧ b < 640 then { state := .opened, stamp := some (s.sm.stampHigh + 1), pages := 0, summary := [] } else s.sm.block a := by
  rw [Sm.block, openFree_table, ← Sm.block, Sm.block_setBlock]

theorem withOpenBlock_block (s : State) (a : Nat) (h : Blank (s.sm.block a)) : Blank (s.withOpenBlock.1.sm.block a) := by
  unfold withOpenBlock
  split
  · exact h
  · split
    · exact h
    · split
      · dsimp only
        rw [block_openFree]
        split
        · exact ⟨rfl, rfl, .inr rfl⟩
        · exact h
      · exact h

theorem claimIfNeeded_block (s : State) (a : Nat) (h : Blank (s.sm.block a)) : Blank (s.claimIfNeeded.sm.block a) := by
  have opened := withOpenBlock_block s a h
  unfold claimIfNeeded
  split
  · split <;> rename_i eq <;> rw [eq] at opened <;> exact opened
  · exact h

theorem runCommit_block (s : State) (a : Nat) (h : Blank (s.sm.block a)) : Blank (s.runCommit.sm.block a) := by
  refine claimIfNeeded_block _ a ?_
  rw [placeRounds_same]
  exact h

/-- R147: with its claim made already CE asks for no target. -/
theorem runCommit_claim {s : State} {c : ProgramClaim} (claim : s.fc.programClaim = some c) : s.runCommit.fc.programClaim = some c := by
  have placed : (s.placeRounds 9).fc.programClaim = some c := by
    rw [placeRounds_same]
    exact claim
  have served : (s.placeRounds 9).needsTarget = false := by
    rw [needsTarget, Fc.programBusy, placed]
    rfl
  rw [runCommit, claimIfNeeded, served]
  exact placed

/-! ## The end of an erase -/

theorem eraseApplied_same (s : State) (b : Nat) :
    s.eraseApplied b = { s with sm := (s.eraseApplied b).sm, nu := (s.eraseApplied b).nu } := by
  conv => lhs; rw [eraseApplied, setPressure_same]
  rfl

theorem eraseApplied_sm (s : State) (b : Nat) : (s.eraseApplied b).sm.table = (s.sm.setBlock b BlockEntry.reset).table
    ∧ (s.eraseApplied b).sm.stampHigh = s.sm.stampHigh := by
  rw [eraseApplied, setPressure_sm]
  exact ⟨rfl, rfl⟩

theorem block_eraseApplied (s : State) (b a : Nat) :
    (s.eraseApplied b).sm.block a = if b = a ∧ b < 640 then BlockEntry.reset else s.sm.block a := by
  rw [Sm.block, (eraseApplied_sm s b).1, ← Sm.block, Sm.block_setBlock]

theorem eraseRefused_same (s : State) (b : Nat) : s.eraseRefused b = { s with
    sm := { s.sm.setBlock b (retiredEntry .worn) with reclaimDue := true },
    fc := { s.fc with markClaims := s.fc.markClaims ++ [{ block := b, value := 0x3C#8 }] },
    nu := (s.eraseRefused b).nu } := by
  unfold eraseRefused
  dsimp only
  rw [notify_eq]
  rfl

/-- What CE's request at the end of an erase and the reclaim evaluation after it leave of the array and of a block without a page. -/
theorem erasePass_frame (v : State) {b : Nat} (h : b < 640) :
    let u := v.eraseOutcome b .pass
    Blank (u.sm.block b) ∧ u.sc = v.sc ∧ u.fc.op = v.fc.op ∧ u.fc.array = v.fc.array ∧ u.fc.progFlags = v.fc.progFlags
      ∧ ∀ c, v.fc.programClaim = some c → ∃ c', u.fc.programClaim = some c' ∧ c'.target = c.target := by
  have reclaims := evaluateReclaim_reclaims (v.eraseApplied b).runCommit
  have applied : Blank ((v.eraseApplied b).sm.block b) := by
    rw [block_eraseApplied, if_pos ⟨rfl, h⟩]
    exact ⟨rfl, rfl, .inl rfl⟩
  have ran := runCommit_block _ b applied
  have frame : (v.eraseApplied b).runCommit.sc = v.sc ∧ (v.eraseApplied b).runCommit.fc.op = v.fc.op
      ∧ (v.eraseApplied b).runCommit.fc.array = v.fc.array ∧ (v.eraseApplied b).runCommit.fc.progFlags = v.fc.progFlags := by
    rw [runCommit_same, eraseApplied_same]
    exact ⟨rfl, rfl, rfl, rfl⟩
  obtain ⟨sc, op, array, flags⟩ := frame
  dsimp only [eraseOutcome]
  refine ⟨?_, reclaims.sc.trans sc, reclaims.op.trans op, reclaims.array.trans array, Eq.trans ?_ flags, fun c claim => ?_⟩
  · rw [reclaims.blocks b ran.young]
    exact ran
  · rw [reclaims.same]
  · have claimed : (v.eraseApplied b).runCommit.fc.programClaim = some c := by
      refine runCommit_claim ?_
      rw [eraseApplied_same]
      exact claim
    have kept := reclaims.claim
    rw [claimed] at kept
    obtain ⟨c', hc', same⟩ := Option.map_eq_some_iff.mp kept
    exact ⟨c', hc', congrArg Prod.fst same⟩

/-- With an empty array register, or with CE's own claim waiting, no re-drive is refused after an erase that passes. -/
theorem erasePass_unrefused {v : State} {b : Nat} (h : b < 640)
    (w : v.fc.array.image = none ∨ v.storeRuns = false ∨ v.fc.op.isSome ∨ (NoRefusal v ∧ v.fc.programClaim.isSome)) :
    Unrefused (v.eraseOutcome b .pass) := by
  obtain ⟨-, sc, op, array, flags, claims⟩ := erasePass_frame v h
  rcases w with empty | off | busy | ⟨calm, claimed⟩
  · refine .inr (.inr fun c _ kept => ?_)
    rw [array, empty] at kept
    cases kept
  · exact .inl ((storeRuns_congr sc).trans off)
  · exact .inr (.inl (.inl (op ▸ busy)))
  · obtain ⟨c, claim⟩ := Option.isSome_iff_exists.mp claimed
    obtain ⟨c', hc', target⟩ := claims c claim
    refine .inr (.inr fun x hx kept => ?_)
    cases hx.symm.trans hc'
    rw [target, Fc.progFlag, flags]
    exact calm c claim (array ▸ kept)

/-- R33: what the end of an erase that passes makes of the block. -/
theorem erasePass_block {s : State} {b : Nat} (h : b < 640) (free : s.fc.op = none)
    (w : s.fc.array.image = none ∨ (NoRefusal s ∧ s.fc.programClaim.isSome)) :
    Blank (((s.completion fun t => t.eraseOutcome b .pass).settleRepair).sm.block b) := by
  obtain ⟨v, cases, same⟩ := completion_eq s fun t => t.eraseOutcome b .pass
  have unrefused : Unrefused (v.eraseOutcome b .pass) := by
    refine erasePass_unrefused h ?_
    rcases cases with rfl | rfl
    · exact w.imp_right fun w => .inr (.inr w)
    · refine w.imp (fun empty => (grant_settles s.drawn).image.trans empty) fun ⟨calm, claimed⟩ => ?_
      cases running : s.drawn.storeRuns with
      | false => exact .inl ((grant_of_off running).symm ▸ running)
      | true =>
        obtain ⟨c, claim⟩ := Option.isSome_iff_exists.mp claimed
        refine .inr (.inl ?_)
        rcases grant_program (s := s.drawn) calm running free claim with op | op <;> rw [op] <;> rfl
  rw [same, (settleRepair_repairs _).sm, (grant_of_unrefused unrefused).block]
  exact (erasePass_frame v h).1

/-- The re-drive that the erase of block `b` has let CE claim (R150). -/
structure Redrives (b stamp : Nat) (u : State) : Prop where
  block : u.sm.block b = { state := .opened, stamp := some stamp, pages := 0, summary := [] }
  stampHigh : u.sm.stampHigh = stamp
  state : u.ce.state = .programming
  claim : ∃ c : ProgramClaim, c.target = { block := b, page := 0 } ∧ c.stamp = stamp ∧ u.fc.programClaim = some c

theorem stampHigh_openFree (s : State) (b : Nat) : (s.openFree b).sm.stampHigh = s.sm.stampHigh + 1 := by
  rw [openFree, setPressure_sm]
  rfl

theorem claimProgram_redrives {u : State} {b stamp : Nat}
    (block : u.sm.block b = { state := .opened, stamp := some stamp, pages := 0, summary := [] }) (high : u.sm.stampHigh = stamp) :
    Redrives b stamp ((u.claimProgram b).setCommitState false) := by
  refine ⟨block, high, rfl, _, ?_, ?_, rfl⟩
  · show PageAddr.mk b (u.sm.block b).pages = _
    rw [block]
  · show (u.sm.block b).stamp.getD 0 = _
    rw [block]
    rfl

theorem claimIfNeeded_redrives {p : State} {b : Nat} (h : b < 640) (needs : p.needsTarget = true)
    (opens : p.withOpenBlock = (p.openFree b, some b)) : Redrives b (p.sm.stampHigh + 1) p.claimIfNeeded := by
  rw [claimIfNeeded, needs, opens]
  refine claimProgram_redrives ?_ (stampHigh_openFree p b)
  rw [block_openFree, if_pos ⟨rfl, h⟩]

/-- CE STALLED over a kept image, with no block to take it. -/
structure Stalled (b : Nat) (v : State) : Prop where
  kept : v.fc.array.image.isSome
  idle : v.fc.array.state = .idle
  unbegun : v.fc.programBusy = false
  closed : ∀ a, a < 640 → (v.sm.block a).state ≠ .opened ∧ (v.sm.block a).state ≠ .free
  stamps : v.sm.stampHigh ≠ 4294967294

theorem Stalled.granted {s v : State} {b : Nat} (h : Stalled b s) (g : Grants s v) : Stalled b v where
  kept := g.image ▸ h.kept
  idle := by
    rcases g.program with ⟨-, same⟩ | ⟨c, claim, -⟩
    · rw [same, h.idle]
    · rw [(Fc.programBusy_eq_false.mp h.unbegun).1] at claim
      cases claim
  unbegun := g.programBusy h.unbegun
  closed a ha := by
    rw [g.block]
    exact h.closed a ha
  stamps := by
    rw [g.same]
    exact h.stamps

theorem erasePass_redrives {v : State} {b : Nat} (h : b < 640) (w : Stalled b v) :
    Redrives b (v.sm.stampHigh + 1) (v.eraseOutcome b .pass) := by
  have table := eraseApplied_sm v b
  have state (a : Nat) : ((v.eraseApplied b).sm.block a).state = if b = a ∧ b < 640 then .free else (v.sm.block a).state := by
    rw [block_eraseApplied]
    split <;> rfl
  have none_open : (v.eraseApplied b).sm.openBlock = none := Sm.openBlock_eq_none fun a ⟨ha, opened⟩ => by
    rw [state] at opened
    split at opened
    · cases opened
    · exact (w.closed a ha).1 opened
  have only (a : Nat) (ha : a < 640 ∧ ((v.eraseApplied b).sm.block a).state = .free) : a = b := by
    obtain ⟨ha, free⟩ := ha
    rw [state] at free
    split at free
    · next here => exact here.1.symm
    · exact absurd free (w.closed a ha).2
  have b_free : b < 640 ∧ ((v.eraseApplied b).sm.block b).state = .free := ⟨h, by rw [state, if_pos ⟨rfl, h⟩]⟩
  have next_free : (v.eraseApplied b).sm.nextFree = some b := by
    refine Sm.nextFree_eq_some b_free ?_
    by_cases above : (v.eraseApplied b).sm.lastOpened < b
    · exact .inl ⟨above, fun a ha _ => Nat.le_of_eq (only a ha).symm⟩
    · exact .inr ⟨fun a ha => (only a ha).symm ▸ Nat.not_lt.mp above, fun a ha => Nat.le_of_eq (only a ha).symm⟩
  -- CE's request opens the block, and its claim is for page 0 of it
  have opens : ((v.eraseApplied b).placeRounds 9).withOpenBlock = (((v.eraseApplied b).placeRounds 9).openFree b, some b) := by
    have sm : ((v.eraseApplied b).placeRounds 9).sm = (v.eraseApplied b).sm := by rw [placeRounds_same]
    rw [withOpenBlock, sm, none_open, next_free, table.2]
    exact if_neg w.stamps
  have needs : ((v.eraseApplied b).placeRounds 9).needsTarget = true := by
    have fc : ((v.eraseApplied b).placeRounds 9).fc.programBusy = v.fc.programBusy
        ∧ ((v.eraseApplied b).placeRounds 9).fc.array = v.fc.array := by
      rw [placeRounds_same, eraseApplied_same]
      exact ⟨rfl, rfl⟩
    rw [needsTarget, fc.1, fc.2, w.unbegun, w.idle, w.kept]
    rfl
  have ran : Redrives b (v.sm.stampHigh + 1) (v.eraseApplied b).runCommit := by
    have sm : ((v.eraseApplied b).placeRounds 9).sm = (v.eraseApplied b).sm := by rw [placeRounds_same]
    have redrives := claimIfNeeded_redrives h needs opens
    rwa [sm, table.2] at redrives
  have reclaims := evaluateReclaim_reclaims (v.eraseApplied b).runCommit
  obtain ⟨c, target, stamp, claim⟩ := ran.claim
  have kept := reclaims.claim
  rw [claim] at kept
  obtain ⟨c', hc', same⟩ := Option.map_eq_some_iff.mp kept
  refine ⟨?_, ?_, ?_, c', (congrArg Prod.fst same).trans target, (congrArg Prod.snd same).trans stamp, hc'⟩
  · refine (reclaims.blocks b ?_).trans ran.block
    rw [ran.block]
    rfl
  · dsimp only [eraseOutcome]
    rw [reclaims.same]
    exact ran.stampHigh
  · exact (congrArg Ce.state reclaims.ce).trans ran.state

/-- R150: the erase that passes while CE is STALLED opens its block for the re-drive, which waits or has begun. -/
theorem erasePass_stalled {s : State} {b : Nat} (h : b < 640) (free : s.fc.op = none) (w : Stalled b s)
    (clear : s.fc.progFlag { block := b, page := 0 } = false) :
    let t := (s.completion fun t => t.eraseOutcome b .pass).settleRepair
    t.sm.block b = { state := .opened, stamp := some (s.sm.stampHigh + 1), pages := 0, summary := [] }
      ∧ t.sm.stampHigh = s.sm.stampHigh + 1 ∧ t.ce.state = .programming
      ∧ ∃ c : ProgramClaim, c.target = { block := b, page := 0 } ∧ c.stamp = s.sm.stampHigh + 1
          ∧ (t.fc.programClaim = some c ∨ (t.fc.op = some (.program c) ∧ t.fc.array.state = .programming
              ∧ t.fc.array.target = some c.target ∧ t.fc.progFlag c.target = true)) := by
  obtain ⟨v, cases, same⟩ := completion_eq s fun t => t.eraseOutcome b .pass
  have unclaimed := (Fc.programBusy_eq_false.mp w.unbegun).1
  have granted : Grants s.drawn v := by
    rcases cases with rfl | rfl
    · exact .refl _
    · exact grant_grants fun c hc => by cases unclaimed.symm.trans hc
  have high : v.sm.stampHigh = s.sm.stampHigh := by
    rw [granted.same]
    rfl
  have stalled : Stalled b v := Stalled.granted (s := s.drawn) ⟨w.kept, w.idle, w.unbegun, w.closed, w.stamps⟩ granted
  obtain ⟨block, stampHigh, state, c, target, stamp, claim⟩ := high ▸ erasePass_redrives h stalled
  obtain ⟨-, sc, op, array, flags, -⟩ := erasePass_frame v h
  have unrefused : Unrefused (v.eraseOutcome b .pass) := by
    cases busy : v.fc.op with
    | some x => exact .inr (.inl (.inl (by rw [op, busy]; rfl)))
    | none =>
      refine .inr (.inr fun x hx _ => ?_)
      cases claim.symm.trans hx
      rw [target, Fc.progFlag, flags, (granted.flags free busy).2]
      exact clear
  have last := grant_of_unrefused unrefused
  have repairs := settleRepair_repairs (v.eraseOutcome b .pass).grant
  dsimp only
  rw [same, repairs.sm, repairs.fc, repairs.ce, last.block, last.ce]
  refine ⟨block, ?_, state, c, target, stamp, ?_⟩
  · rw [last.same]
    exact stampHigh
  · rcases last.program with ⟨same, -⟩ | ⟨c', claim', -, begun⟩
    · exact .inl (same.trans claim)
    · cases claim.symm.trans claim'
      refine .inr ?_
      rcases begun with ⟨empty, -⟩ | ⟨-, op, programming, bound, flag⟩
      · have kept := stalled.kept
        rw [← array, empty] at kept
        cases kept
      · exact ⟨op, programming, bound, flag⟩

/-- R33, R161: what an erase that fails leaves of the block, SM's mark claim and the re-drive. -/
theorem eraseFail_frame (v : State) (b : Nat) :
    let u := v.eraseOutcome b .fail
    u.sc = v.sc ∧ u.fc.op = v.fc.op ∧ u.fc.array = v.fc.array ∧ u.fc.progFlags = v.fc.progFlags ∧ u.fc.markFlags = v.fc.markFlags
      ∧ u.fc.programClaim.map (fun c => (c.target, c.stamp)) = v.fc.programClaim.map (fun c => (c.target, c.stamp))
      ∧ { block := b, value := 0x3C#8 } ∈ u.fc.markClaims
      ∧ (b < 640 → u.sm.block b = { state := .retired .worn, stamp := none, pages := 0, summary := [] })
      ∧ (v.storeRuns = true → u.retiredNoticed b .erase) ∧ u.counter .eraseFailures = v.counter .eraseFailures := by
  have reclaims := evaluateReclaim_reclaims (v.eraseRefused b)
  have refused := eraseRefused_same v b
  have block (h : b < 640) : (v.eraseRefused b).sm.block b = retiredEntry .worn := by
    rw [refused]
    show (v.sm.setBlock b (retiredEntry .worn)).block b = _
    rw [Sm.block_setBlock, if_pos ⟨rfl, h⟩]
  have frame : (v.eraseRefused b).sc = v.sc
      ∧ (v.eraseRefused b).fc.markClaims = v.fc.markClaims ++ [{ block := b, value := 0x3C#8 }]
      ∧ (v.eraseRefused b).fc.op = v.fc.op ∧ (v.eraseRefused b).fc.array = v.fc.array
      ∧ (v.eraseRefused b).fc.progFlags = v.fc.progFlags ∧ (v.eraseRefused b).fc.markFlags = v.fc.markFlags
      ∧ (v.eraseRefused b).fc.programClaim = v.fc.programClaim ∧ (v.eraseRefused b).ap = v.ap := by
    rw [refused]
    exact ⟨rfl, rfl, rfl, rfl, rfl, rfl, rfl, rfl⟩
  obtain ⟨sc, claimed, op, array, flags, markFlags, claim, ap⟩ := frame
  obtain ⟨more, marks⟩ := reclaims.marks
  have kept : (v.eraseRefused b).evaluateReclaim.fc.progFlags = (v.eraseRefused b).fc.progFlags
      ∧ (v.eraseRefused b).evaluateReclaim.fc.markFlags = (v.eraseRefused b).fc.markFlags := by
    rw [reclaims.same]
    exact ⟨rfl, rfl⟩
  refine ⟨reclaims.sc.trans sc, reclaims.op.trans op, reclaims.array.trans array, kept.1.trans flags, kept.2.trans markFlags,
    reclaims.claim.trans (by rw [claim]), ?_, fun h => ?_, fun runs => ?_, ?_⟩
  · dsimp only [eraseOutcome]
    rw [marks, claimed]
    exact List.mem_append_left _ (List.mem_append_right _ (List.mem_singleton_self _))
  · refine (reclaims.blocks b ?_).trans (block h)
    rw [block h]
    rfl
  · refine retiredNoticed_of_settles (evaluateReclaim_settles (v.eraseRefused b)) ?_
    exact notify_retiredNoticed (s := (v.putBlock b (retiredEntry .worn)).setFc { v.fc with
      markClaims := v.fc.markClaims ++ [{ block := b, value := 0x3C#8 }] }) runs b .erase
  · refine (reclaims.counts.same .eraseFailures (by decide)).trans ?_
    rw [counter, ap, counter]

/-- R33, R161: the end of an erase that fails, re-drives refused in it or not. -/
theorem eraseFail_ends {s : State} {b : Nat} (h : b < 640) (free : s.fc.op = none) :
    let t := (s.completion fun t => t.eraseOutcome b .fail).settleRepair
    t.counter .eraseFailures = s.counter .eraseFailures
      ∧ (s.storeRuns = true → t.retiredNoticed b .erase)
      ∧ (NoRefusal s → t.sm.block b = { state := .retired .worn, stamp := none, pages := 0, summary := [] })
      ∧ (s.fc.markFlag { block := b, page := 0 } = false → { block := b, value := 0x3C#8 } ∈ t.fc.markClaims
          ∨ (t.fc.op = some (.mark b 0x3C#8) ∧ t.fc.markFlag { block := b, page := 0 } = true)) := by
  obtain ⟨v, cases, same⟩ := completion_eq s fun t => t.eraseOutcome b .fail
  have before : Settles s.drawn v := by
    rcases cases with rfl | rfl
    · exact .refl _
    · exact grant_settles _
  have ends := (grant_settles (v.eraseOutcome b .fail)).trans (settleRepair_settles _)
  have repairs := settleRepair_repairs (v.eraseOutcome b .fail).grant
  obtain ⟨sc, op, array, flags, markFlags, claims, marks, block, noticed, counts⟩ := eraseFail_frame v b
  dsimp only
  rw [same]
  refine ⟨?_, fun runs => ?_, fun calm => ?_, fun clear => ?_⟩
  · rw [ends.counts.same .eraseFailures (by decide), counts]
    exact before.counts.same .eraseFailures (by decide)
  · exact retiredNoticed_of_settles ends (noticed ((storeRuns_congr before.keeps.sc).trans runs))
  · have unrefused : Unrefused (v.eraseOutcome b .fail) := by
      rcases (granted_of_completion calm cases).2 with off | (busy | unclaimed) | calm
      · exact .inl ((storeRuns_congr sc).trans off)
      · exact .inr (.inl (.inl (op ▸ busy)))
      · rw [unclaimed] at claims
        exact .inr (.inl (.inr (Option.map_eq_none_iff.mp claims)))
      · refine .inr (.inr fun x hx kept => ?_)
        rw [hx] at claims
        obtain ⟨c, hc, target⟩ := Option.map_eq_some_iff.mp claims.symm
        have target : c.target = x.target := congrArg Prod.fst target
        rw [← target, Fc.progFlag, flags]
        exact calm c hc (array ▸ kept)
    rw [repairs.sm, (grant_of_unrefused unrefused).block]
    exact block h
  · rw [repairs.fc]
    cases busy : v.fc.op with
    | some x =>
      rw [grant_of_busy (by rw [op, busy]; rfl)]
      exact .inl marks
    | none =>
      refine (grant_keepsMarks _).marks _ marks ?_
      have flags' : v.fc.markFlags = s.fc.markFlags := by
        rcases cases with rfl | rfl
        · rfl
        · exact (grant_keepsMarks s.drawn).flags free busy
      rw [Fc.markFlag, markFlags, flags']
      exact clear

theorem eraseDone_arrayIs (s : State) (b : Nat) (o o' : FlashOutcome) :
    ArrayIs (s.fcEraseDone b o).fc.mem (((s.fcEraseDone b o).completion fun t => t.eraseOutcome b o').settleRepair) :=
  ((completion_keeps _ _ fun t => eraseOutcome_keeps t b o').trans (settleRepair_keeps _)).idle (by cases o <;> rfl)

theorem eraseOutcome_image (v : State) (b : Nat) (o : FlashOutcome) : (v.eraseOutcome b o).fc.array.image = v.fc.array.image := by
  cases o with
  | pass =>
    refine (evaluateReclaim_settles _).image.trans ((runCommit_settles _).image.trans ?_)
    rw [eraseApplied_same]
  | fail =>
    refine (evaluateReclaim_settles _).image.trans ?_
    rw [eraseRefused_same]

theorem completion_erase_image (s : State) (b : Nat) (o : FlashOutcome) :
    (s.completion fun t => t.eraseOutcome b o).settleRepair.fc.array.image = s.fc.array.image := by
  obtain ⟨v, cases, same⟩ := completion_eq s fun t => t.eraseOutcome b o
  rw [same]
  refine ((grant_settles _).trans (settleRepair_settles _)).image.trans ((eraseOutcome_image ..).trans ?_)
  rcases cases with rfl | rfl
  · rfl
  · exact (grant_settles s.drawn).image

/-- R10: the end of a mark program. -/
theorem grant_ends {s u : State} {m : Memory} (free : u.fc.op = none) (mem : u.fc.mem = m)
    (image : u.fc.array.image = s.fc.array.image) (table : u.sm.table = s.sm.table) (calm : NoRefusal s → NoRefusal u) :
    ArrayIs m u.grant.settleRepair ∧ u.grant.settleRepair.fc.array.image = s.fc.array.image
      ∧ (NoRefusal s → u.grant.settleRepair.sm.table = s.sm.table)
      ∧ ∀ n, n ≤ 65535 → n ≤ u.counter .markFailures → n ≤ u.grant.settleRepair.counter .markFailures := by
  have settles := (grant_settles u).trans (settleRepair_settles _)
  refine ⟨mem ▸ settles.keeps.idle free, settles.image.trans image, fun w => ?_, settles.counts.up .markFailures⟩
  rw [(settleRepair_repairs _).sm, (grant_grants (calm w)).table, table]

theorem fcMarkDone_pass (s : State) (b : Nat) (v : Byte) :
    s.fcMarkDone b v .pass = s.setFc { s.fc with op := none, mem := s.fc.mem.markBlock b v } := by rw [fcMarkDone]

theorem fcMarkDone_fail (s : State) (b : Nat) (v : Byte) : s.fcMarkDone b v .fail
    = ((s.setFc { s.fc with op := none, mem := s.fc.mem.markBlock b (v ||| Config.freeByte s.fresh 0) }).drawn).bump .markFailures := by
  rw [fcMarkDone, Memory.markFails]

theorem fcEraseDone_counted (s : State) (b : Nat) :
    (s.fcEraseDone b .fail).counter .eraseFailures = min 65535 (s.counter .eraseFailures + 1) := by
  unfold fcEraseDone
  rw [counter_bump_self]
  rfl

end State

end Sys2Proof.Machine

namespace Sys2Proof.Proofs

open Sys2Proof.Machine Sys2Proof.Safety

/-- Settles O33. -/
theorem markAndEraseEnd : Obligations.MarkAndEraseEnd := by
  intro s b inside
  have markDone (o : FlashOutcome) {v : Byte} (op : s.fc.op = some (.mark b v)) :
      exec (.markProgramDone o) s = .next ((s.fcMarkDone b v o).grant).settleRepair := by
    show execMarkProgramDone o s = _
    rw [execMarkProgramDone, op]
    exact if_pos inside
  have eraseDone (o : FlashOutcome) (op : s.fc.op = some (.erase b)) :
      exec (.eraseDone o) s = .next ((s.fcEraseDone b o).completion fun t => t.eraseOutcome b o).settleRepair := by
    show execEraseDone o s = _
    rw [execEraseDone, op]
    exact if_pos inside
  refine ⟨fun v op => ⟨?_, ?_⟩, fun op => ⟨?_, ?_⟩⟩
  · have ends (m : Memory) := State.grant_ends (s := s) (m := m) (u := s.setFc { s.fc with op := none, mem := m }) rfl rfl rfl rfl id
    obtain ⟨array, image, table, -⟩ := ends (s.fc.mem.markBlock b v)
    rw [← State.fcMarkDone_pass] at array image table
    exact ⟨_, markDone .pass op, (State.markEnds_completes s b v .pass).stationKept, array, image, table⟩
  · have ends (m : Memory) := State.grant_ends (s := s) (m := m)
      (u := ((s.setFc { s.fc with op := none, mem := m }).drawn).bump .markFailures) rfl rfl rfl rfl id
    have counted (m : Memory) : (((s.setFc { s.fc with op := none, mem := m }).drawn).bump .markFailures).counter .markFailures
        = min 65535 (s.counter .markFailures + 1) := State.counter_bump_self ..
    have counted := counted (s.fc.mem.markBlock b (v ||| Config.freeByte s.fresh 0))
    obtain ⟨array, image, table, counts⟩ := ends (s.fc.mem.markBlock b (v ||| Config.freeByte s.fresh 0))
    rw [← State.fcMarkDone_fail] at array image table counts counted
    exact ⟨_, v ||| Config.freeByte s.fresh 0, markDone .fail op, (State.markEnds_completes s b v .fail).stationKept,
      byte_and_or_self .., array, image, table, counts _ (Nat.min_le_left ..) (Nat.le_of_eq counted.symm)⟩
  · have blank := State.erasePass_block (s := s.fcEraseDone b .pass) inside rfl
    have stalled := State.erasePass_stalled (s := s.fcEraseDone b .pass) inside rfl
    have image := State.completion_erase_image (s.fcEraseDone b .pass) b .pass
    have array := State.eraseDone_arrayIs s b .pass .pass
    have mem : (s.fcEraseDone b .pass).fc.mem = s.fc.mem.erasePages b 0 48 := rfl
    rw [mem] at array
    refine ⟨_, eraseDone .pass op, (State.eraseEnds_completes s b .pass).stationKept, array, image, blank,
      fun kept unclaimed idle _ closed stamps clear _ => stalled ⟨kept, idle, ?_, closed, stamps⟩ clear⟩
    exact Fc.programBusy_eq_false.mpr ⟨unclaimed, fun _ => ⟨nofun, nofun⟩⟩
  · have image := State.completion_erase_image (s.fcEraseDone b .fail) b .fail
    obtain ⟨counts, noticed, block, marks⟩ := State.eraseFail_ends (s := s.fcEraseDone b .fail) inside rfl
    have array := State.eraseDone_arrayIs s b .fail .fail
    have mem : (s.fcEraseDone b .fail).fc.mem
        = (s.fc.mem.erasePages b 0 1).writeRange (PageAddr.mk b 1).base (freeBytes s.fresh (47 * 3168)) := rfl
    rw [mem] at array
    exact ⟨_, freeBytes s.fresh (47 * 3168), eraseDone .fail op, (State.eraseEnds_completes s b .fail).stationKept, length_freeBytes ..,
      array, image, counts.trans (State.fcEraseDone_counted s b), noticed, block, marks⟩

end Sys2Proof.Proofs

/-! A program that passes (R9, R28, R86, R87, R112, R151). -/

namespace Sys2Proof.Machine

open Sys2Proof.Safety

/-! ## The commit of one record -/

theorem SubmitEntry.committed_eq (n : Nat) (settled : Bool) (x : SubmitEntry) :
    x.committed n settled = match x with
      | .queued r => if r.seq = n then (if settled then .sending r (segmentCount r.payload.length) 0 else .free) else .queued r
      | x => x := by
  cases x <;> rfl

/-- R190: ARRIVED stands with a number at least as high, or the overflow flag tells of it. -/
theorem mem_take_arrived (nu : Nu) (th d o n : Nat) :
    (∃ m, .arrived o m ∈ (nu.take th d (.arrived o n)).queue ∧ n ≤ m) ∨ (nu.take th d (.arrived o n)).overflow = true := by
  rcases Nu.take_queue nu th d (.arrived o n) with ⟨before, x, after, -, partner, ht⟩ | ⟨-, ht | ⟨-, ht⟩⟩
  · left
    cases x with
    | arrived o' b =>
      refine ⟨max b n, ?_, Nat.le_max_right ..⟩
      rw [ht]
      exact List.mem_append_right _ List.mem_cons_self
    | _ => cases partner
  · left
    refine ⟨n, ?_, Nat.le_refl n⟩
    rw [ht]
    exact List.mem_append_right _ (List.mem_singleton_self _)
  · exact .inr ht

namespace State

theorem commitRecord_peer {s : State} {e : ListEntry} (peer : e.origin ≠ s.own) : s.commitRecord e = s.commitPeer e.origin e.seq :=
  if_neg (by rwa [beq_iff_eq])

theorem commitRecord_own {s : State} {e : ListEntry} (own : e.origin = s.own) : s.commitRecord e = s.commitOwn e.seq :=
  if_pos (beq_iff_eq.mpr own)

theorem counter_putEntry (s : State) (o : Nat) (e : Entry) (k : Counter) : (s.putEntry o e).counter k = s.counter k := by
  rw [counter, putEntry_counters, counter]

/-- R86: the commit of an acceptable record of a peer. -/
theorem commitPeer_accepted {s : State} {o n : Nat} (h : s.acceptance o n = none) : s.commitPeer o n
    = if (s.sc.settings.map Settings.arrivalNotices).getD false then (s.putEntry o ((s.entry o).settle n n)).notify (.arrived o n)
      else s.putEntry o ((s.entry o).settle n n) := by
  rw [commitPeer, h]

/-- R86: a record of a peer that is refused is an orphan. -/
theorem commitPeer_refused {s : State} {o n : Nat} (h : s.acceptance o n ≠ none) : s.commitPeer o n = (s.orphans 1).tellRp := by
  unfold commitPeer
  split
  · next accepted => exact absurd accepted h
  · rfl

/-- R87, R112: the commit of an own record above T_own. -/
theorem commitOwn_next {s : State} {n : Nat} {e : Entry} (h : (s.entry s.own).commitOwn n = some e) : s.commitOwn n
    = (s.putEntry s.own e).setSu { s.su with entries := mapPlaces s.su.entries (SubmitEntry.committed n true) } := by
  have su : (s.putEntry s.own e).su = s.su := by rw [putEntry_same]
  rw [commitOwn, h]
  dsimp only
  rw [su]

/-- R87, R112: an own record at or below T_own is an orphan. -/
theorem commitOwn_orphan {s : State} {n : Nat} (h : (s.entry s.own).commitOwn n = none) : s.commitOwn n
    = (s.orphans 1).setSu { s.su with entries := mapPlaces s.su.entries (SubmitEntry.committed n false) } := by
  rw [commitOwn, h]
  rfl

theorem commitOwn_eq_none {e : Entry} {n : Nat} : e.commitOwn n = none ↔ n ≤ e.top := by
  unfold Entry.commitOwn
  split
  · next low => exact iff_of_true rfl low
  · next high => split <;> exact iff_of_false nofun high

theorem commitOwn_top {e e' : Entry} {n : Nat} (h : e.commitOwn n = some e') : e'.top = n := by
  unfold Entry.commitOwn at h
  split at h
  · cases h
  · split at h <;> cases h <;> rfl

theorem entry_commitRecord_of_ne {s : State} {e : ListEntry} {o : Nat} (other : o ≠ e.origin) :
    (s.commitRecord e).entry o = s.entry o := by
  have put (x : Entry) : (s.putEntry e.origin x).entry o = s.entry o := by
    rw [entry_putEntry, if_neg fun h => other h.1.symm]
  by_cases own : e.origin = s.own
  · rw [commitRecord_own own]
    cases h : (s.entry s.own).commitOwn e.seq with
    | some x =>
      rw [commitOwn_next h, ← own]
      exact put x
    | none =>
      rw [commitOwn_orphan h]
      rfl
  · rw [commitRecord_peer own]
    by_cases accepted : s.acceptance e.origin e.seq = none
    · rw [commitPeer_accepted accepted]
      split
      · rw [notify_eq]
        exact put _
      · exact put _
    · rw [commitPeer_refused accepted]
      rfl

theorem su_commitPeer (s : State) (o n : Nat) : (s.commitPeer o n).su = s.su := by
  by_cases accepted : s.acceptance o n = none
  · rw [commitPeer_accepted accepted]
    split
    · rw [notify_eq, putEntry_same]
      rfl
    · rw [putEntry_same]
  · rw [commitPeer_refused accepted]
    rfl

/-- What the commit of an acceptable record of peer `o` leaves. -/
structure PeerCommits (v w : State) (o n : Nat) : Prop where
  entry : w.entry o = (v.entry o).settle n n
  orphaned : w.counter .orphaned = v.counter .orphaned
  silent : (v.sc.settings.map Settings.arrivalNotices).getD false = false → w.nu = v.nu
  arrived : (v.sc.settings.map Settings.arrivalNotices).getD false = true → v.storeRuns = true →
    (∃ m, .arrived o m ∈ w.nu.queue ∧ n ≤ m) ∨ w.nu.overflow = true

theorem commitPeer_commits {v : State} {o n : Nat} (peer : o ≠ v.own) (low : 1 ≤ o) (high : o ≤ 24)
    (accepted : v.acceptance o n = none) : PeerCommits v (v.commitPeer o n) o n := by
  have entry : (v.putEntry o ((v.entry o).settle n n)).entry o = (v.entry o).settle n n := by
    rw [entry_putEntry, if_pos ⟨rfl, low, high⟩]
  have orphaned := counter_putEntry v o ((v.entry o).settle n n) .orphaned
  have nu : (v.putEntry o ((v.entry o).settle n n)).nu = v.nu := by
    rw [putEntry_of_ne_own peer]
    rfl
  have sc : (v.putEntry o ((v.entry o).settle n n)).sc = v.sc := by rw [putEntry_same]
  rw [commitPeer_accepted accepted]
  cases on : (v.sc.settings.map Settings.arrivalNotices).getD false with
  | false => exact ⟨entry, orphaned, fun _ => nu, fun h => by rw [on] at h; cases h⟩
  | true =>
    rw [if_pos rfl]
    refine ⟨?_, ?_, fun h => ?_, fun _ runs => ?_⟩
    · rw [notify_eq]
      exact entry
    · rw [notify_eq]
      exact orphaned
    · rw [on] at h
      cases h
    · rw [notify_of_running ((storeRuns_congr sc).trans runs)]
      exact mem_take_arrived ..

/-- The places of the submit entries after the commit of an own record. -/
theorem place_commitOwn (s : State) (n : Nat) (i : Nat) : place (s.commitOwn n).su.entries .free i
    = (place s.su.entries .free i).committed n ((s.entry s.own).commitOwn n).isSome := by
  cases h : (s.entry s.own).commitOwn n with
  | some x =>
    rw [commitOwn_next h]
    exact place_mapPlaces _ _ rfl i
  | none =>
    rw [commitOwn_orphan h]
    exact place_mapPlaces _ _ rfl i

theorem ownTop_commitOwn {s : State} (low : 1 ≤ s.own) (high : s.own ≤ 24) (n : Nat) : (s.commitOwn n).ownTop = max s.ownTop n := by
  cases h : (s.entry s.own).commitOwn n with
  | some x =>
    have above : ¬ n ≤ s.ownTop := fun le => by
      rw [commitOwn_eq_none.mpr le] at h
      cases h
    have top : (s.commitOwn n).ownTop = (s.putEntry s.own x).ownTop := by
      rw [commitOwn_next h]
      rfl
    rw [top, ownTop_putEntry, if_pos ⟨rfl, low, high⟩, commitOwn_top h]
    omega
  | none =>
    have below : n ≤ s.ownTop := commitOwn_eq_none.mp h
    have top : (s.commitOwn n).ownTop = s.ownTop := by
      rw [commitOwn_orphan h]
      rfl
    omega

/-! ## The commits of a page's records -/

variable {s : State}

theorem own_commitRecord (s : State) (e : ListEntry) : (s.commitRecord e).own = s.own := (commitRecord_keeps s e).own

theorem ownTop_commitRecord (low : 1 ≤ s.own) (high : s.own ≤ 24) (e : ListEntry) :
    (s.commitRecord e).ownTop = if e.origin = s.own then max s.ownTop e.seq else s.ownTop := by
  by_cases own : e.origin = s.own
  · rw [if_pos own, commitRecord_own own, ownTop_commitOwn low high]
  · rw [if_neg own, ownTop, own_commitRecord, entry_commitRecord_of_ne (Ne.symm own), ownTop]

theorem ownTop_commits : (l : List ListEntry) → {s : State} → 1 ≤ s.own → s.own ≤ 24 →
    s.ownTop ≤ (l.foldl commitRecord s).ownTop ∧ ∀ e ∈ l, e.origin = s.own → e.seq ≤ (l.foldl commitRecord s).ownTop
  | [], _, _, _ => ⟨Nat.le_refl _, nofun⟩
  | x :: l, s, low, high => by
    have own := own_commitRecord s x
    obtain ⟨grows, listed⟩ := ownTop_commits l (s := s.commitRecord x) (own ▸ low) (own ▸ high)
    have first := ownTop_commitRecord low high x
    refine ⟨?_, fun e mem mine => ?_⟩
    · refine Nat.le_trans ?_ grows
      rw [first]
      split <;> omega
    · rcases List.mem_cons.mp mem with rfl | mem
      · refine Nat.le_trans ?_ grows
        rw [first, if_pos mine]
        exact Nat.le_max_right ..
      · exact listed e mem (mine.trans own.symm)

theorem place_commitRecord (s : State) (e : ListEntry) (i : Nat) : place (s.commitRecord e).su.entries .free i
    = if e.origin = s.own then (place s.su.entries .free i).committed e.seq ((s.entry s.own).commitOwn e.seq).isSome
      else place s.su.entries .free i := by
  by_cases own : e.origin = s.own
  · rw [if_pos own, commitRecord_own own, place_commitOwn]
  · rw [if_neg own, commitRecord_peer own, su_commitPeer]

/-- R112: an entry whose number is not listed stays QUEUED. -/
theorem place_commits_apart {i : Nat} {r : OwnRecord} : (l : List ListEntry) → {s : State} →
    place s.su.entries .free i = .queued r → r.seq ∉ listedOf s.own l → place (l.foldl commitRecord s).su.entries .free i = .queued r
  | [], _, here, _ => here
  | x :: l, s, here, apart => by
    rw [listedOf_cons] at apart
    refine place_commits_apart l ?_ ?_
    · rw [place_commitRecord, here]
      split
      · next own =>
        rw [if_pos own, List.mem_cons, not_or] at apart
        rw [SubmitEntry.committed, if_neg apart.1]
      · rfl
    · rw [own_commitRecord]
      split at apart
      · exact fun mem => apart (List.mem_cons_of_mem _ mem)
      · exact apart

/-- R112: once SENDING an entry stays so. -/
theorem place_commits_sending {i : Nat} {r : OwnRecord} {n k : Nat} : (l : List ListEntry) → {s : State} →
    place s.su.entries .free i = .sending r n k → place (l.foldl commitRecord s).su.entries .free i = .sending r n k
  | [], _, here => here
  | x :: l, s, here => by
    refine place_commits_sending l ?_
    rw [place_commitRecord, here]
    split <;> rfl

/-- R112: an entry listed above T_own, the own numbers rising, becomes SENDING. -/
theorem place_commits_listed {i : Nat} {r : OwnRecord} : (l : List ListEntry) → {s : State} → 1 ≤ s.own → s.own ≤ 24 →
    place s.su.entries .free i = .queued r → r.seq ∈ listedOf s.own l → s.ownTop < r.seq → (listedOf s.own l).Pairwise (· < ·) →
    place (l.foldl commitRecord s).su.entries .free i = .sending r (segmentCount r.payload.length) 0
  | [], _, _, _, _, mem, _, _ => by cases mem
  | x :: l, s, low, high, here, mem, above, rising => by
    have own := own_commitRecord s x
    have top := ownTop_commitRecord low high x
    have place := place_commitRecord s x i
    rw [listedOf_cons] at mem rising
    rw [here] at place
    by_cases mine : x.origin = s.own
    · rw [if_pos mine] at mem rising top place
      by_cases first : r.seq = x.seq
      · refine place_commits_sending l ?_
        have commits : ((s.entry s.own).commitOwn x.seq).isSome := by
          rw [Option.isSome_iff_ne_none, Ne, commitOwn_eq_none]
          have : s.ownTop = (s.entry s.own).top := rfl
          omega
        rw [place, commits, SubmitEntry.committed, if_pos first, if_pos rfl]
      · obtain ⟨least, rising⟩ := List.pairwise_cons.mp rising
        have mem := (List.mem_cons.mp mem).resolve_left first
        have := least r.seq mem
        refine place_commits_listed l (own ▸ low) (own ▸ high) ?_ (own ▸ mem) (by omega) (own ▸ rising)
        rw [place, SubmitEntry.committed, if_neg first]
    · rw [if_neg mine] at mem rising top place
      exact place_commits_listed l (own ▸ low) (own ▸ high) place (own ▸ mem) (by omega) (own ▸ rising)

end State

end Sys2Proof.Machine

/-! A program that passes: the commands that end it (R28, R151, R157). -/

namespace Sys2Proof.Machine

open Sys2Proof.Safety

/-! ## What the commits depend on -/

/-- What the commits of records read and change, in two states: the holdings, SU's entries, the pending numbers, the orphans. -/
structure SameHoldings (v w : State) : Prop where
  sc : w.sc = v.sc
  hu : w.hu = v.hu
  su : w.su = v.su
  ra : w.ra = v.ra
  ce : w.ce = v.ce
  fill : w.fc.fill = v.fc.fill
  image : w.fc.array.image = v.fc.array.image
  orphaned : w.counter .orphaned = v.counter .orphaned

namespace SameHoldings

variable {v w : State}

theorem own (h : SameHoldings v w) : w.own = v.own := congrArg Sc.number h.sc
theorem groupSize (h : SameHoldings v w) : w.groupSize = v.groupSize :=
  congrArg (fun x : Sc => (x.settings.map Settings.groupSize).getD 0) h.sc
theorem entry (h : SameHoldings v w) (o : Nat) : w.entry o = v.entry o := by rw [State.entry, h.hu, State.entry]

theorem pendingOf (h : SameHoldings v w) (o : Nat) : w.pendingOf o = v.pendingOf o := by
  have record : w.refRecord = v.refRecord := funext (State.refRecord_congr h.su h.ra h.sc)
  rw [State.pendingOf, State.pendingOf, h.ra, h.ce, h.fill, h.image, h.su, h.own, record]

theorem acceptance (h : SameHoldings v w) (o n : Nat) : w.acceptance o n = v.acceptance o n := by
  rw [State.acceptance, State.acceptance, h.entry, h.own, State.isPending, h.pendingOf, State.isPending]

theorem ownTop (h : SameHoldings v w) : w.ownTop = v.ownTop := by rw [State.ownTop, h.own, h.entry, State.ownTop]

theorem evaluateDurable_hu (h : SameHoldings v w) : w.evaluateDurable.hu = v.evaluateDurable.hu := by
  have members : w.durableMembers = v.durableMembers := by
    rw [State.durableMembers, State.durableMembers, h.ownTop, h.own, State.peers, State.peers, h.groupSize, h.own]
    congr 1
    refine filterMap_eq_of_mem fun p _ => ?_
    unfold State.cell State.row
    rw [h.hu]
  unfold State.evaluateDurable
  rw [h.sc, members, h.hu]
  split
  · exact h.hu
  · dsimp only
    split
    · rw [State.notify_eq, State.notify_eq]
      rfl
    · exact h.hu

theorem writeEntry_hu (h : SameHoldings v w) (o : Nat) (e : Entry) : (w.writeEntry o e).hu = (v.writeEntry o e).hu := by
  unfold State.writeEntry
  rw [State.setHu_hu, State.setHu_hu, h.hu, h.entry, State.reported, h.groupSize, State.reported]

theorem written (h : SameHoldings v w) (o : Nat) (e : Entry) : SameHoldings (v.writeEntry o e) (w.writeEntry o e) :=
  { h with hu := h.writeEntry_hu o e }

theorem putEntry_hu (h : SameHoldings v w) (o : Nat) (e : Entry) : (w.putEntry o e).hu = (v.putEntry o e).hu := by
  have reported : (w.reported o && e != w.entry o) = (v.reported o && e != v.entry o) := by
    rw [h.entry, State.reported, h.groupSize, State.reported]
  have top : (o == w.own && e.top != (w.entry o).top) = (o == v.own && e.top != (v.entry o).top) := by rw [h.own, h.entry]
  have first : SameHoldings (if v.reported o && e != v.entry o then (v.writeEntry o e).tellRp else v.writeEntry o e)
      (if w.reported o && e != w.entry o then (w.writeEntry o e).tellRp else w.writeEntry o e) := by
    rw [reported]
    split
    · exact { h.written o e with }
    · exact h.written o e
  unfold State.putEntry
  dsimp only
  rw [top]
  split
  · exact evaluateDurable_hu { first with }
  · exact first.hu

/-- A change of the holdings alone. -/
theorem ofPutEntry (h : SameHoldings v w) (o : Nat) (e : Entry) : SameHoldings (v.putEntry o e) (w.putEntry o e) where
  sc := by rw [State.putEntry_same, State.putEntry_same v]; exact h.sc
  hu := h.putEntry_hu o e
  su := by rw [State.putEntry_same, State.putEntry_same v]; exact h.su
  ra := by rw [State.putEntry_same, State.putEntry_same v]; exact h.ra
  ce := by rw [State.putEntry_same, State.putEntry_same v]; exact h.ce
  fill := by rw [State.putEntry_same, State.putEntry_same v]; exact h.fill
  image := by rw [State.putEntry_same, State.putEntry_same v]; exact h.image
  orphaned := by rw [State.counter_putEntry, State.counter_putEntry, h.orphaned]

theorem ofNotify (h : SameHoldings v w) (n : Notice) : SameHoldings (v.notify n) (w.notify n) := by
  rw [State.notify_eq, State.notify_eq]
  exact { h with }

theorem ofOrphans (h : SameHoldings v w) (n : Nat) : SameHoldings (v.orphans n) (w.orphans n) :=
  { h with orphaned := by rw [State.orphans, State.counter_raise, State.orphans, State.counter_raise, h.orphaned] }

theorem commitRecord (h : SameHoldings v w) (e : ListEntry) : SameHoldings (v.commitRecord e) (w.commitRecord e) := by
  by_cases own : e.origin = v.own
  · rw [State.commitRecord_own own, State.commitRecord_own (own.trans h.own.symm)]
    cases commits : (v.entry v.own).commitOwn e.seq with
    | some x =>
      rw [State.commitOwn_next commits, State.commitOwn_next (s := w) (by rw [h.own, h.entry]; exact commits), h.own, h.su]
      exact { h.ofPutEntry v.own x with su := rfl }
    | none =>
      rw [State.commitOwn_orphan commits, State.commitOwn_orphan (s := w) (by rw [h.own, h.entry]; exact commits), h.su]
      exact { h.ofOrphans 1 with su := rfl }
  · rw [State.commitRecord_peer own, State.commitRecord_peer (h.own ▸ own)]
    by_cases accepted : v.acceptance e.origin e.seq = none
    · rw [State.commitPeer_accepted accepted, State.commitPeer_accepted (s := w) (by rw [h.acceptance]; exact accepted), h.sc, h.entry]
      split
      · exact (h.ofPutEntry ..).ofNotify _
      · exact h.ofPutEntry ..
    · rw [State.commitPeer_refused accepted, State.commitPeer_refused (s := w) (by rw [h.acceptance]; exact accepted)]
      exact { h.ofOrphans 1 with }

theorem commits : (l : List ListEntry) → {v w : State} → SameHoldings v w →
    SameHoldings (l.foldl State.commitRecord v) (l.foldl State.commitRecord w)
  | [], _, _, h => h
  | x :: l, _, _, h => commits l (h.commitRecord x)

end SameHoldings

theorem Grants.sameHoldings {s v : State} (h : Grants s v) : SameHoldings s v where
  sc := h.sc
  hu := h.hu
  su := h.su
  ra := h.ra
  ce := h.ce
  fill := h.fill
  image := h.image
  orphaned := h.counts.same .orphaned (by decide)

/-! ## What the commits and a request for a target leave of the block table -/

namespace State

variable {s : State}

theorem commitRecord_store (s : State) (e : ListEntry) : (s.commitRecord e).sm = { s.sm with reclaimDue := (s.commitRecord e).sm.reclaimDue }
    ∧ (s.commitRecord e).fc.array = s.fc.array ∧ (s.commitRecord e).fc.op = s.fc.op := by
  have put (o : Nat) (x : Entry) : (s.putEntry o x).sm = { s.sm with reclaimDue := (s.putEntry o x).sm.reclaimDue }
      ∧ (s.putEntry o x).fc.array = s.fc.array ∧ (s.putEntry o x).fc.op = s.fc.op := by
    rw [putEntry_same]
    exact ⟨rfl, rfl, rfl⟩
  by_cases own : e.origin = s.own
  · rw [commitRecord_own own]
    cases commits : (s.entry s.own).commitOwn e.seq with
    | some x =>
      rw [commitOwn_next commits]
      exact put ..
    | none =>
      rw [commitOwn_orphan commits]
      exact ⟨rfl, rfl, rfl⟩
  · rw [commitRecord_peer own]
    by_cases accepted : s.acceptance e.origin e.seq = none
    · rw [commitPeer_accepted accepted]
      split
      · rw [notify_eq]
        exact put ..
      · exact put ..
    · rw [commitPeer_refused accepted]
      exact ⟨rfl, rfl, rfl⟩

theorem commits_store : (l : List ListEntry) → (s : State) →
    (l.foldl commitRecord s).sm = { s.sm with reclaimDue := (l.foldl commitRecord s).sm.reclaimDue }
      ∧ (l.foldl commitRecord s).fc.array = s.fc.array ∧ (l.foldl commitRecord s).fc.op = s.fc.op
  | [], _ => ⟨rfl, rfl, rfl⟩
  | x :: l, s => by
    obtain ⟨sm, array, op⟩ := commitRecord_store s x
    obtain ⟨sm', array', op'⟩ := commits_store l (s.commitRecord x)
    refine ⟨?_, array'.trans array, op'.trans op⟩
    rw [List.foldl_cons, sm', sm]

/-- CE's request for a target opens a FREE block or none. -/
theorem runCommit_sm (s : State) : (s.runCommit.sm.newestPage = s.sm.newestPage)
    ∧ ∀ b, (s.sm.block b).state ≠ .free → s.runCommit.sm.block b = s.sm.block b := by
  have placed : (s.placeRounds 9).sm = s.sm := by rw [placeRounds_same]
  have opened : ((s.placeRounds 9).withOpenBlock.1.sm.newestPage = s.sm.newestPage)
      ∧ ∀ b, (s.sm.block b).state ≠ .free → (s.placeRounds 9).withOpenBlock.1.sm.block b = s.sm.block b := by
    unfold withOpenBlock
    split
    · exact ⟨by rw [placed], fun b _ => by rw [placed]⟩
    · split
      · exact ⟨by rw [placed], fun b _ => by rw [placed]⟩
      · split
        · next a free =>
          refine ⟨?_, fun b busy => ?_⟩
          · rw [← placed, openFree, setPressure_sm]
            rfl
          · dsimp only
            rw [block_openFree, placed, if_neg]
            rintro ⟨rfl, -⟩
            rw [placed] at free
            exact busy (nextFree_free free).2
        · exact ⟨by rw [placed], fun b _ => by rw [placed]⟩
  rw [runCommit]
  unfold claimIfNeeded
  split
  · split <;> rename_i eq <;> rw [eq] at opened <;> exact opened
  · exact ⟨congrArg Sm.newestPage placed, fun b _ => congrArg (fun x : Sm => x.block b) placed⟩

/-- R159: the block of the newest page is not selected. -/
theorem reclaimRounds_newest {p : PageAddr} : (n : Nat) → {s : State} → s.sm.newestPage = some p →
    (s.reclaimRounds n).sm.block p.block = s.sm.block p.block
  | 0, _, _ => rfl
  | n + 1, s, newest => by
    cases selected : s.selection with
    | none => rw [reclaimRounds_of_none selected]
    | some b =>
      obtain ⟨-, old, eligible⟩ := old_of_selection selected
      have apart : b ≠ p.block := by
        rintro rfl
        rw [State.eligible, Bool.and_eq_true, Sm.newestFlag, newest] at eligible
        have := eligible.2
        simp at this
      have kept : (s.select b).sm.newestPage = some p := by
        rw [(select_reclaims old).same]
        exact newest
      rw [reclaimRounds_of_some selected, reclaimRounds_newest n kept, select_block old, if_neg fun h => apart h.1]

theorem evaluateReclaim_newest {p : PageAddr} (newest : s.sm.newestPage = some p) :
    s.evaluateReclaim.sm.block p.block = s.sm.block p.block := by
  unfold evaluateReclaim
  split
  · dsimp only
    split
    · exact reclaimRounds_newest _ newest
    · rfl
  · rfl

/-- R157, R158: with the level NORMAL an evaluation selects nothing. -/
theorem evaluateReclaim_normal (normal : s.sm.pressure = .normal) : s.evaluateReclaim.hu = s.hu := by
  cases due : s.sm.reclaimDue with
  | false =>
    rw [evaluateReclaim, due]
    rfl
  | true =>
    rw [evaluateReclaim_still due fun _ => ?_]
    · rfl
    · cases selected : s.selection with
      | none => rfl
      | some b => exact absurd normal (selection_eq_some_iff.mp selected).1

/-! ## The end of the command -/

/-- What CE and SM do about a pass for page `p` of an image with this record list. -/
def passApplied (p : PageAddr) (list : List ListEntry) (v : State) : State :=
  ((v.programPassed p list).runCommit).evaluateReclaim

theorem passApplied_keeps (p : PageAddr) (list : List ListEntry) (v : State) : Keeps v (v.passApplied p list) :=
  ((programPassed_keeps v p list).trans (runCommit_keeps _)).trans (evaluateReclaim_keeps _)

theorem passApplied_settles (p : PageAddr) (list : List ListEntry) (v : State) : Settles (v.programPassed p list) (v.passApplied p list) :=
  (runCommit_settles _).trans (evaluateReclaim_settles _)

/-- R28, R157, R159: the page's block and the newest page after a pass, and the array register. -/
theorem passApplied_store {v : State} {p : PageAddr} (h : p.valid = true) (opened : (v.sm.block p.block).state = .opened)
    (list : List ListEntry) :
    let u := v.passApplied p list
    u.sm.newestPage = some p
      ∧ u.sm.block p.block = { v.sm.block p.block with
          pages := p.page + 1, summary := enterList list (v.sm.block p.block).summary,
          state := if p.page = 47 then .sealed else .opened }
      ∧ u.fc.array = v.fc.array ∧ u.sm.pressure = (v.programPassed p list).runCommit.sm.pressure := by
  obtain ⟨sm, array, -⟩ := commits_store list (v.smProgramPassed p list)
  have newest : (v.programPassed p list).sm.newestPage = some p := by
    rw [programPassed, sm]
    rfl
  have block : (v.programPassed p list).sm.block p.block = { v.sm.block p.block with
      pages := p.page + 1, summary := enterList list (v.sm.block p.block).summary,
      state := if p.page = 47 then .sealed else .opened } := by
    rw [programPassed, sm]
    refine (Sm.block_setBlock ..).trans ?_
    rw [if_pos ⟨rfl, ((valid_iff p).mp h).1⟩, opened]
  obtain ⟨ranNewest, ran⟩ := runCommit_sm (v.programPassed p list)
  have busy : ((v.programPassed p list).sm.block p.block).state ≠ .free := by
    rw [block]
    dsimp only
    split <;> exact nofun
  have reclaims := evaluateReclaim_reclaims (v.programPassed p list).runCommit
  have runArray : (v.programPassed p list).runCommit.fc.array = v.fc.array := by
    rw [runCommit_same]
    exact array
  dsimp only [passApplied]
  refine ⟨?_, ?_, reclaims.array.trans runArray, ?_⟩
  · rw [reclaims.same]
    exact ranNewest.trans newest
  · rw [evaluateReclaim_newest (ranNewest.trans newest), ran _ busy, block]
  · rw [reclaims.same]

/-- R157, R158: with the level NORMAL at the end nothing after the commits touches the holdings. -/
theorem passApplied_hu {v : State} {p : PageAddr} {list : List ListEntry}
    (normal : (v.programPassed p list).runCommit.sm.pressure = .normal) : (v.passApplied p list).hu = (v.programPassed p list).hu := by
  rw [passApplied, evaluateReclaim_normal normal, runCommit_same]

theorem settleRepair_idle (idle : s.station ≠ some .active) : s.settleRepair.hu = s.hu := by
  unfold settleRepair
  split
  · have off : (s.station == some .active) = false := beq_eq_false_iff_ne.mpr idle
    rw [off]
    rfl
  · rfl

end State

theorem Grants.array_of_empty {s t : State} (h : Grants s t) (empty : s.fc.array.image = none) : t.fc.array = s.fc.array := by
  rcases h.program with ⟨-, same⟩ | ⟨c, -, -, ⟨-, -, same⟩ | ⟨kept, -⟩⟩
  · exact same
  · exact same
  · rw [empty] at kept
    cases kept

/-- The command has ended with the pass applied in `v`, a state that the commits cannot tell from `r`. -/
structure PassEnds (r : State) (p : PageAddr) (list : List ListEntry) (v t : State) : Prop where
  granted : Grants r.drawn v
  before : Settles r.drawn v
  last : Grants (v.passApplied p list) (v.passApplied p list).grant
  ends : t = (v.passApplied p list).grant.settleRepair

theorem completion_passEnds {r : State} (empty : r.fc.array.image = none) {p : PageAddr} (h : p.valid = true)
    (opened : (r.sm.block p.block).state = .opened) (list : List ListEntry) :
    ∃ v, PassEnds r p list v (r.completion fun t => t.passApplied p list).settleRepair := by
  obtain ⟨v, cases, same⟩ := State.completion_eq r fun t => t.passApplied p list
  have calm : NoRefusal r := fun c _ kept => by rw [empty] at kept; cases kept
  have granted := (State.granted_of_completion calm cases).1
  have before : Settles r.drawn v := by
    rcases cases with rfl | rfl
    · exact .refl _
    · exact State.grant_settles _
  obtain ⟨-, -, array, -⟩ := State.passApplied_store h (by rw [granted.block]; exact opened) list
  refine ⟨v, granted, before, State.grant_grants fun c _ kept => ?_, by rw [same]⟩
  rw [array, granted.array_of_empty empty] at kept
  exact absurd kept (by show ¬ r.fc.array.image.isSome; rw [empty]; exact nofun)

namespace PassEnds

variable {r v t : State} {p : PageAddr} {list : List ListEntry}

theorem after (h : PassEnds r p list v t) : Settles (v.programPassed p list) t := by
  rw [h.ends]
  exact (State.passApplied_settles p list v).trans ((State.grant_settles _).trans (State.settleRepair_settles _))

theorem alike (h : PassEnds r p list v t) : SameHoldings (r.programPassed p list) (v.programPassed p list) := by
  have granted := h.granted.sameHoldings
  refine SameHoldings.commits list ?_
  exact { granted with }

theorem keeps (h : PassEnds r p list v t) : Keeps r t :=
  (Keeps.drawn r).trans (h.before.keeps.trans ((State.programPassed_keeps v p list).trans h.after.keeps))

theorem array (h : PassEnds r p list v t) (empty : r.fc.array.image = none) (valid : p.valid = true)
    (opened : (r.sm.block p.block).state = .opened) : t.fc.array = r.fc.array := by
  obtain ⟨-, -, array, -⟩ := State.passApplied_store valid (by rw [h.granted.block]; exact opened) list
  have held := array.trans (h.granted.array_of_empty empty)
  rw [h.ends, (State.settleRepair_repairs _).fc, h.last.array_of_empty ((congrArg ArrayReg.image held).trans empty)]
  exact held

theorem store (h : PassEnds r p list v t) (valid : p.valid = true) (opened : (r.sm.block p.block).state = .opened) :
    t.sm.newestPage = some p ∧ t.sm.block p.block = { r.sm.block p.block with
      pages := p.page + 1, summary := enterList list (r.sm.block p.block).summary,
      state := if p.page = 47 then .sealed else .opened } := by
  have before : v.sm.block p.block = r.sm.block p.block := h.granted.block _
  obtain ⟨newest, block, -⟩ := State.passApplied_store valid (by rw [before]; exact opened) list
  rw [h.ends, (State.settleRepair_repairs _).sm]
  refine ⟨?_, ?_⟩
  · rw [h.last.same]
    exact newest
  · rw [h.last.block, block, before]

theorem su (h : PassEnds r p list v t) : t.su = (r.programPassed p list).su := h.after.su.trans h.alike.su

theorem orphaned (h : PassEnds r p list v t) : t.counter .orphaned = (r.programPassed p list).counter .orphaned :=
  (h.after.counts.same .orphaned (by decide)).trans h.alike.orphaned

theorem settled (h : PassEnds r p list v t) (o n : Nat) (w : ((r.programPassed p list).entry o).settled n = true)
    (above : (t.entry o).floor ≤ n) : (t.entry o).settled n = true :=
  h.after.settled o n (by rw [h.alike.entry]; exact w) above

theorem normal (h : PassEnds r p list v t) (valid : p.valid = true) (opened : (r.sm.block p.block).state = .opened)
    (normal : t.sm.pressure = .normal) :
    (∀ o, (t.entry o).floor = ((r.programPassed p list).entry o).floor)
      ∧ (r.station ≠ some .active → t.hu.entries = (r.programPassed p list).hu.entries) := by
  have repairs := State.settleRepair_repairs (v.passApplied p list).grant
  have level : (v.programPassed p list).runCommit.sm.pressure = .normal := by
    obtain ⟨-, -, -, pressure⟩ := State.passApplied_store valid (by rw [h.granted.block]; exact opened) list
    have last := congrArg (fun x : State => x.sm.pressure) h.last.same
    rw [← pressure, ← normal, h.ends, repairs.sm]
    exact last.symm
  have hu : (v.passApplied p list).grant.hu = (r.programPassed p list).hu :=
    h.last.hu.trans ((State.passApplied_hu level).trans h.alike.hu)
  refine ⟨fun o => ?_, fun idle => ?_⟩
  · rw [h.ends, repairs.floor, State.entry, hu, State.entry]
  · have sc : (v.passApplied p list).grant.sc = r.sc :=
      h.last.sc.trans ((State.passApplied_keeps p list v).sc.trans h.granted.sc)
    have station : (v.passApplied p list).grant.station = r.station := by rw [State.station, sc, State.station]
    rw [h.ends, State.settleRepair_idle (station ▸ idle), hu]

end PassEnds

end Sys2Proof.Machine

namespace Sys2Proof.Proofs

open Sys2Proof.Machine Sys2Proof.Safety

/-- Settles O31. -/
theorem programPasses : Obligations.ProgramPasses := by
  refine ⟨fun v e low high elow ehigh => ?_, fun s c image op valid kept opened low high => ?_⟩
  · refine ⟨fun o other => State.entry_commitRecord_of_ne other, fun peer => ?_, fun own => ?_⟩
    · rw [State.commitRecord_peer peer]
      refine ⟨State.su_commitPeer .., fun accepted => ?_, fun refused => ?_⟩
      · obtain ⟨entry, orphaned, silent, arrived⟩ := State.commitPeer_commits peer elow ehigh accepted
        exact ⟨entry, orphaned, silent, arrived⟩
      · rw [State.commitPeer_refused refused]
        exact ⟨rfl, (State.counter_raise v .orphaned 1 .orphaned).trans (if_pos rfl)⟩
    · have top := State.ownTop_commitOwn low high e.seq
      have places := State.place_commitOwn v e.seq
      rw [State.commitRecord_own own]
      refine ⟨fun below => ?_, fun above => ?_⟩
      · have orphan : (v.entry v.own).commitOwn e.seq = none := State.commitOwn_eq_none.mpr below
        rw [orphan] at places
        refine ⟨?_, ?_, fun i => ?_⟩
        · rw [State.commitOwn_orphan orphan]
          rfl
        · rw [State.commitOwn_orphan orphan]
          exact (State.counter_raise v .orphaned 1 .orphaned).trans (if_pos rfl)
        · refine (places i).trans ?_
          cases place v.su.entries .free i <;> rfl
      · obtain ⟨x, commits⟩ : ∃ x, (v.entry v.own).commitOwn e.seq = some x := by
          refine Option.ne_none_iff_exists'.mp fun none => ?_
          exact absurd (State.commitOwn_eq_none.mp none) (Nat.not_le.mpr above)
        rw [commits] at places
        refine ⟨?_, top.trans (Nat.max_eq_right (Nat.le_of_lt above)), ?_, fun i => ?_⟩
        · rw [commits, State.commitOwn_next commits]
          show some x = some ((v.putEntry v.own x).entry v.own)
          rw [State.entry_putEntry, if_pos ⟨rfl, low, high⟩]
        · rw [State.commitOwn_next commits]
          exact State.counter_putEntry ..
        · refine (places i).trans ?_
          cases place v.su.entries .free i <;> rfl
  · have ends : exec (.programDone .pass) s = .next (s.programEndsPass c) := by
      show execProgramDone .pass s = _
      rw [execProgramDone, op]
      exact if_pos valid
    have listed : s.fc.imageList = image.list := by
      rw [Fc.imageList, kept]
      rfl
    have station := (State.programEndsPass_completes s c).stationKept
    have mem : (s.fcProgramPasses c).fc.mem = s.fc.mem.programPage c.target (image.bytes c) := by
      unfold State.fcProgramPasses
      rw [kept]
      rfl
    obtain ⟨v, passEnds⟩ : ∃ v, PassEnds (s.fcProgramPasses c) c.target image.list v (s.programEndsPass c) := by
      rw [State.programEndsPass, listed]
      exact completion_passEnds (r := s.fcProgramPasses c) rfl valid opened image.list
    have free : (s.fcProgramPasses c).fc.op = none := rfl
    have same : (s.fcProgramPasses c).own = s.own ∧ (s.fcProgramPasses c).ownTop = s.ownTop ∧ (s.fcProgramPasses c).su = s.su
        ∧ (s.fcProgramPasses c).hu = s.hu ∧ (s.fcProgramPasses c).station = s.station
        ∧ (s.fcProgramPasses c).sm = s.sm ∧ (s.fcProgramPasses c).fc.array = ArrayReg.reset := ⟨rfl, rfl, rfl, rfl, rfl, rfl, rfl⟩
    generalize s.programEndsPass c = t at ends station passEnds
    generalize s.fcProgramPasses c = r at mem passEnds free same
    obtain ⟨own, ownTop, su, hu, active, sm, array⟩ := same
    have opened' : (r.sm.block c.target.block).state = .opened := by rw [sm]; exact opened
    obtain ⟨newest, block⟩ := passEnds.store valid opened'
    have keeps := passEnds.keeps
    have own_top : (r.programPassed c.target image.list).ownTop ≤ t.ownTop := by
      rw [← passEnds.alike.ownTop]
      exact passEnds.after.keeps.ownTop
    have commits := State.ownTop_commits image.list (s := r.smProgramPassed c.target image.list) (own ▸ low) (own ▸ high)
    have place (i : Nat) : place t.su.entries .free i = place (r.programPassed c.target image.list).su.entries .free i := by
      rw [passEnds.su]
    refine ⟨t, ends, station, ?_, (passEnds.array (by rw [array]; rfl) valid opened').trans array, newest, ?_, ?_, fun e mem => ?_,
      fun e mem mine => ?_, ownTop ▸ keeps.ownTop, hu ▸ keeps.durable,
      ⟨passEnds.su, passEnds.orphaned, passEnds.settled, fun normal => ?_⟩, fun i entry here => ⟨fun apart => ?_, fun mem above rising => ?_⟩⟩
    · exact mem ▸ keeps.idle free
    · rw [block]
    · rw [block]
    · rw [block]
      exact covers_enterList mem _
    · exact Nat.le_trans (commits.2 e mem (mine.trans own.symm)) own_top
    · rw [← active]
      exact passEnds.normal valid opened' normal
    · rw [place]
      exact State.place_commits_apart image.list (s := r.smProgramPassed c.target image.list) (su.symm ▸ here) (own.symm ▸ apart)
    · rw [place]
      exact State.place_commits_listed image.list (s := r.smProgramPassed c.target image.list) (own.symm ▸ low) (own.symm ▸ high)
        (su.symm ▸ here) (own.symm ▸ mem) (ownTop.symm ▸ above) (own.symm ▸ rising)

end Sys2Proof.Proofs

/-! An ask entry evaluated (R90, R166 to R171): the lowest missing run, the responder, what is abandoned. -/

namespace Sys2Proof.Machine

open Sys2Proof.Safety

/-! ## The lowest missing number from `u` on (R169) -/

theorem lowestFrom_cons (u : Nat) (r : Range) (rs : List Range) :
    lowestFrom u (r :: rs) = if u ≤ r.hi then some { lo := max u r.lo, hi := r.hi } else lowestFrom u rs := by
  rw [lowestFrom, List.findSome?_cons]
  split <;> rename_i h <;> split at h
  · rw [if_pos ‹_›, ← h]
  · cases h
  · cases h
  · rw [if_neg ‹_›]
    rfl

/-- The part from `u` on of the first run that reaches `u`. -/
structure LowestRun (u : Nat) (rs : List Range) (r : Range) : Prop where
  above : u ≤ r.lo
  runs : ∀ n, r.lo ≤ n → n ≤ r.hi → inRuns rs n
  some_number : r.lo ≤ r.hi
  lowest : ∀ n, u ≤ n → n < r.lo → ¬ inRuns rs n
  ends : ¬ inRuns rs (r.hi + 1)

theorem lowestFrom_eq_some {u lo : Nat} {r : Range} : {rs : List Range} → runsApart lo rs → lowestFrom u rs = some r → LowestRun u rs r
  | [], _, h => by cases h
  | x :: rs, w, h => by
    have apart := w.maximal List.mem_cons_self
    have valid := w.le_of_mem List.mem_cons_self
    rw [lowestFrom_cons] at h
    split at h
    · next reach =>
      cases h
      refine ⟨Nat.le_max_left .., fun n low high => inRuns_cons.mpr (.inl ⟨Nat.le_trans (Nat.le_max_right ..) low, high⟩),
        Nat.max_le.mpr ⟨reach, valid.2⟩, fun n from_u below => ?_, apart.1⟩
      intro inside
      rcases inRuns_cons.mp inside with ⟨low, -⟩ | later
      · exact absurd below (Nat.not_lt.mpr (Nat.max_le.mpr ⟨from_u, low⟩))
      · have := (show runsApart (x.hi + 2) rs from w.2.2).le_of_inRuns later
        have : max u x.lo ≤ x.hi := Nat.max_le.mpr ⟨reach, valid.2⟩
        have below : n < max u x.lo := below
        omega
    · next past =>
      obtain ⟨above, runs, number, lowest, ends⟩ := lowestFrom_eq_some w.2.2 h
      refine ⟨above, fun n low high => inRuns_cons.mpr (.inr (runs n low high)), number, fun n from_u below inside => ?_, fun inside => ?_⟩
      · rcases inRuns_cons.mp inside with ⟨-, high⟩ | later
        · omega
        · exact lowest n from_u below later
      · rcases inRuns_cons.mp inside with ⟨-, high⟩ | later
        · omega
        · exact ends later

theorem lowestFrom_eq_none {u : Nat} : {rs : List Range} → lowestFrom u rs = none → ∀ n, u ≤ n → ¬ inRuns rs n
  | [], _, n, _, inside => not_inRuns_nil n inside
  | x :: rs, h, n, from_u, inside => by
    rw [lowestFrom_cons] at h
    split at h
    · cases h
    · next past =>
      rcases inRuns_cons.mp inside with ⟨-, high⟩ | later
      · omega
      · exact lowestFrom_eq_none h n from_u later

theorem lowestFrom_of_none {u lo : Nat} {rs : List Range} (w : runsApart lo rs) (h : ∀ n, u ≤ n → ¬ inRuns rs n) :
    lowestFrom u rs = none := by
  cases found : lowestFrom u rs with
  | none => rfl
  | some r =>
    have run := lowestFrom_eq_some w found
    exact absurd (run.runs r.lo (Nat.le_refl _) run.some_number) (h _ run.above)

/-- The lowest missing number and the end of its run determine the run. -/
theorem lowestFrom_of_run {u lo q : Nat} {rs : List Range} (w : runsApart lo rs) (above : u ≤ q)
    (lowest : ∀ n, u ≤ n → n < q → ¬ inRuns rs n) (missing : inRuns rs q) : ∃ e, lowestFrom u rs = some { lo := q, hi := e } := by
  cases found : lowestFrom u rs with
  | none => exact absurd missing (lowestFrom_eq_none found q above)
  | some r =>
    have run := lowestFrom_eq_some w found
    have : q = r.lo := by
      rcases Nat.lt_trichotomy q r.lo with less | same | more
      · exact absurd missing (run.lowest q above less)
      · exact same
      · exact absurd (run.runs r.lo (Nat.le_refl _) run.some_number) (lowest _ run.above more)
    exact ⟨r.hi, by rw [this]⟩

theorem lowestFrom_of_ends {u lo q e : Nat} {rs : List Range} (w : runsApart lo rs) (above : u ≤ q)
    (lowest : ∀ n, u ≤ n → n < q → ¬ inRuns rs n) (number : q ≤ e) (missing : ∀ n, q ≤ n → n ≤ e → inRuns rs n)
    (ends : ¬ inRuns rs (e + 1)) : lowestFrom u rs = some { lo := q, hi := e } := by
  obtain ⟨hi, found⟩ := lowestFrom_of_run w above lowest (missing q (Nat.le_refl _) number)
  have run := lowestFrom_eq_some w found
  have : hi = e := by
    have number : q ≤ hi := run.some_number
    rcases Nat.lt_trichotomy hi e with less | same | more
    · exact absurd (missing (hi + 1) (by omega) (by omega)) run.ends
    · exact same
    · exact absurd (run.runs (e + 1) (by show q ≤ e + 1; omega) (by show e + 1 ≤ hi; omega)) ends
  rw [found, this]

/-! ## The responder (R169) -/

/-- The place of station `p` in the cyclic order after the station `own` of `n`. -/
def cyclicPlace (own n p : Nat) : Nat := (p + n - own - 1) % n

theorem cyclicPlace_lt {own n p : Nat} (h : 1 ≤ n) : cyclicPlace own n p < n := Nat.mod_lt _ h

theorem mod_of_lt_two_mul {x n : Nat} (h : x < 2 * n) : x % n = if x < n then x else x - n := by
  split
  · exact Nat.mod_eq_of_lt ‹_›
  · rw [Nat.mod_eq_sub_mod (by omega), Nat.mod_eq_of_lt (by omega)]

theorem cyclicPlace_station {own n i : Nat} (low : 1 ≤ own) (high : own ≤ n) (h : i < n) :
    cyclicPlace own n ((own + i) % n + 1) = i := by
  rw [cyclicPlace, mod_of_lt_two_mul (x := own + i) (by omega)]
  split
  · rw [mod_of_lt_two_mul (by omega)]
    split <;> omega
  · rw [mod_of_lt_two_mul (by omega)]
    split <;> omega

theorem station_cyclicPlace {own n p : Nat} (low : 1 ≤ own) (high : own ≤ n) (plow : 1 ≤ p) (phigh : p ≤ n) :
    (own + cyclicPlace own n p) % n + 1 = p := by
  rw [cyclicPlace, mod_of_lt_two_mul (x := p + n - own - 1) (by omega)]
  split
  · rw [mod_of_lt_two_mul (by omega)]
    split <;> omega
  · rw [mod_of_lt_two_mul (by omega)]
    split <;> omega

namespace State

variable {s : State} {o : Nat}

theorem mem_afterOwn {p : Nat} (h : p ∈ s.afterOwn) : 1 ≤ p ∧ p ≤ s.groupSize := by
  obtain ⟨i, hi, rfl⟩ := List.mem_map.mp h
  have := Nat.mod_lt (s.own + i) (show 0 < s.groupSize by have := List.mem_range.mp hi; omega)
  omega

/-- R169: the first candidate after the own number. -/
theorem afterOwn_find? (low : 1 ≤ s.own) (high : s.own ≤ s.groupSize) {f : Nat → Bool} {p : Nat} (plow : 1 ≤ p) (phigh : p ≤ s.groupSize)
    (fits : f p = true)
    (first : ∀ x, 1 ≤ x → x ≤ s.groupSize → f x = true → cyclicPlace s.own s.groupSize p ≤ cyclicPlace s.own s.groupSize x) :
    s.afterOwn.find? f = some p := by
  have station := station_cyclicPlace low high plow phigh
  have inside : cyclicPlace s.own s.groupSize p < s.groupSize := cyclicPlace_lt (by omega)
  have found : (List.range s.groupSize).find? (f ∘ fun i => (s.own + i) % s.groupSize + 1)
      = some (cyclicPlace s.own s.groupSize p) := by
    refine List.find?_range_eq_some.mpr ⟨?_, List.mem_range.mpr inside, fun j before => ?_⟩
    · rw [Function.comp_apply, station]
      exact fits
    · rw [Function.comp_apply, Bool.not_eq_true']
      cases hf : f ((s.own + j) % s.groupSize + 1) with
      | false => rfl
      | true =>
        have range := Nat.mod_lt (s.own + j) (show 0 < s.groupSize by omega)
        have := first _ (by omega) (by omega) hf
        rw [cyclicPlace_station low high (by omega)] at this
        omega
  rw [afterOwn, List.find?_map, found, Option.map_some, station]

/-- R170: the row of `p`, a peer that is not on the skip list, covers number `n` of origin `o`. -/
def Unskipped (s : State) (skip : List Nat) (o p n : Nat) : Prop :=
  1 ≤ p ∧ p ≤ s.groupSize ∧ p ≠ s.own ∧ p ∉ skip ∧ ∃ c, s.cell p o = some c ∧ c.floor ≤ n ∧ n ≤ c.frontier

/-- R169: a responder that can be asked. -/
def Candidate (s : State) (skip : List Nat) (o p n : Nat) : Prop := s.Unskipped skip o p n ∧ s.presenceOf p = .present

theorem rowCovers_iff {p n : Nat} : s.rowCovers p o n = true ↔ ∃ c, s.cell p o = some c ∧ c.floor ≤ n ∧ n ≤ c.frontier := by
  unfold rowCovers
  split
  · next c hc =>
    rw [Bool.and_eq_true, decide_eq_true_eq, decide_eq_true_eq]
    exact ⟨fun h => ⟨c, hc, h⟩, fun ⟨x, hx, h⟩ => by rw [hc] at hx; cases hx; exact h⟩
  · next none_there =>
    exact ⟨nofun, fun ⟨x, hx, _⟩ => by rw [none_there] at hx; cases hx⟩

theorem isCandidate_iff {skip : List Nat} {p n : Nat} (low : 1 ≤ p) (high : p ≤ s.groupSize) :
    s.isCandidate skip o n p = true ↔ s.Candidate skip o p n := by
  unfold isCandidate Candidate Unskipped
  simp only [Bool.and_eq_true, bne_iff_ne, beq_iff_eq, Bool.not_eq_true', List.contains_iff_mem, ← Bool.not_eq_true, rowCovers_iff]
  exact ⟨fun ⟨⟨⟨peer, present⟩, apart⟩, covers⟩ => ⟨⟨low, high, peer, apart, covers⟩, present⟩,
    fun ⟨⟨_, _, peer, apart, covers⟩, present⟩ => ⟨⟨⟨peer, present⟩, apart⟩, covers⟩⟩

theorem mem_unskipped {skip : List Nat} {p : Nat} : p ∈ s.unskipped skip ↔ 1 ≤ p ∧ p ≤ s.groupSize ∧ p ≠ s.own ∧ p ∉ skip := by
  unfold unskipped peers
  simp only [List.mem_filter, mem_upFrom, bne_iff_ne, Bool.not_eq_true', List.contains_iff_mem, ← Bool.not_eq_true]
  constructor
  · rintro ⟨⟨⟨low, high⟩, peer⟩, apart⟩
    exact ⟨low, by omega, peer, apart⟩
  · rintro ⟨low, high, peer, apart⟩
    exact ⟨⟨⟨low, by omega⟩, peer⟩, apart⟩

theorem covered_iff {skip : List Nat} {n : Nat} :
    ((s.unskipped skip).any fun p => s.rowCovers p o n) = true ↔ ∃ p, s.Unskipped skip o p n := by
  simp only [List.any_eq_true, mem_unskipped, rowCovers_iff, Unskipped, and_assoc]

theorem responderFor_of_first {skip : List Nat} {n p : Nat} (low : 1 ≤ s.own) (high : s.own ≤ s.groupSize) (olow : 1 ≤ o)
    (ohigh : o ≤ s.groupSize) (fits : s.Candidate skip o p n) (first : p = o ∨ (¬ s.Candidate skip o o n
      ∧ ∀ x, s.Candidate skip o x n → cyclicPlace s.own s.groupSize p ≤ cyclicPlace s.own s.groupSize x)) :
    s.responderFor skip o n = some p := by
  unfold responderFor
  rcases first with rfl | ⟨other, first⟩
  · rw [if_pos ((isCandidate_iff olow ohigh).mpr fits)]
  · obtain ⟨plow, phigh, -⟩ := fits.1
    rw [if_neg fun h => other ((isCandidate_iff olow ohigh).mp h)]
    exact afterOwn_find? low high plow phigh ((isCandidate_iff plow phigh).mpr fits)
      fun x xlow xhigh hx => first x ((isCandidate_iff xlow xhigh).mp hx)

theorem responderFor_of_none {skip : List Nat} {n : Nat} (olow : 1 ≤ o) (ohigh : o ≤ s.groupSize)
    (h : ∀ p, ¬ s.Candidate skip o p n) : s.responderFor skip o n = none := by
  unfold responderFor
  rw [if_neg fun x => h o ((isCandidate_iff olow ohigh).mp x), List.find?_eq_none]
  intro p mem fits
  obtain ⟨low, high⟩ := mem_afterOwn mem
  exact h p ((isCandidate_iff low high).mp fits)

/-! ## How far a run is abandoned (R170) -/

/-- The step of `abandonEnd`: one row below whose floor the abandonment ends. -/
def abandonStep (s : State) (o q b p : Nat) : Nat :=
  match s.cell p o with
  | some c => if q < c.floor ∧ c.floor ≤ b ∧ c.floor ≤ c.frontier then c.floor - 1 else b
  | none => b

theorem abandonEnd_eq (s : State) (skip : List Nat) (o q e : Nat) :
    s.abandonEnd skip o q e = (s.unskipped skip).foldl (s.abandonStep o q) e := rfl

/-- No row covers a number of (q, b]. -/
theorem le_abandonStep {q b x p : Nat} (low : b ≤ x)
    (uncovered : ∀ n, q < n → n ≤ b → s.rowCovers p o n = false) : b ≤ s.abandonStep o q x p := by
  unfold abandonStep
  split
  · next c hc =>
    split
    · next inside =>
      refine Classical.byContradiction fun short => ?_
      have := uncovered c.floor inside.1 (by omega)
      rw [Bool.eq_false_iff] at this
      exact this (rowCovers_iff.mpr ⟨c, hc, Nat.le_refl _, inside.2.2⟩)
    · exact low
  · exact low

theorem abandonStep_le {q x p : Nat} : s.abandonStep o q x p ≤ x := by
  unfold abandonStep
  split
  · split <;> omega
  · exact Nat.le_refl _

/-- A row that covers b + 1 ends the abandonment at `b`. -/
theorem abandonStep_eq {q b x p : Nat} (low : b ≤ x) (number : q ≤ b) (covers : s.rowCovers p o (b + 1) = true)
    (apart : s.rowCovers p o q = false) (uncovered : ∀ n, q < n → n ≤ b → s.rowCovers p o n = false) :
    s.abandonStep o q x p = b := by
  obtain ⟨c, hc, floor, frontier⟩ := rowCovers_iff.mp covers
  have above : q < c.floor := by
    refine Classical.byContradiction fun below => ?_
    rw [Bool.eq_false_iff] at apart
    exact apart (rowCovers_iff.mpr ⟨c, hc, by omega, by omega⟩)
  have last : c.floor = b + 1 := by
    refine Classical.byContradiction fun other => ?_
    have := uncovered c.floor above (by omega)
    rw [Bool.eq_false_iff] at this
    exact this (rowCovers_iff.mpr ⟨c, hc, Nat.le_refl _, by omega⟩)
  unfold abandonStep
  rw [hc]
  dsimp only
  split <;> omega

theorem abandonFold_eq {q b : Nat} (number : q ≤ b) : (ps : List Nat) → {x : Nat} → b ≤ x →
    (∀ p ∈ ps, s.rowCovers p o q = false ∧ ∀ n, q < n → n ≤ b → s.rowCovers p o n = false) →
    x = b ∨ (∃ p ∈ ps, s.rowCovers p o (b + 1) = true) → ps.foldl (s.abandonStep o q) x = b
  | [], _, _, _, stops => stops.elim id fun ⟨_, mem, _⟩ => by cases mem
  | p :: ps, x, low, uncovered, stops => by
    obtain ⟨apart, free⟩ := uncovered p List.mem_cons_self
    refine abandonFold_eq number ps (le_abandonStep low free) (fun p mem => uncovered p (List.mem_cons_of_mem _ mem)) ?_
    rcases stops with rfl | ⟨y, mem, covers⟩
    · exact .inl (Nat.le_antisymm abandonStep_le (le_abandonStep low free))
    · rcases List.mem_cons.mp mem with rfl | mem
      · exact .inl (abandonStep_eq low number covers apart free)
      · exact .inr ⟨y, mem, covers⟩

/-- The abandonment ends within the run, and below it some row covers the next number. -/
theorem abandonFold_spec {q : Nat} : (ps : List Nat) → {x : Nat} → q ≤ x → q ≤ ps.foldl (s.abandonStep o q) x
    ∧ ps.foldl (s.abandonStep o q) x ≤ x
    ∧ (ps.foldl (s.abandonStep o q) x = x ∨ ∃ p ∈ ps, s.rowCovers p o (ps.foldl (s.abandonStep o q) x + 1) = true)
  | [], _, h => ⟨h, Nat.le_refl _, .inl rfl⟩
  | p :: ps, x, h => by
    have step : q ≤ s.abandonStep o q x p
        ∧ (s.abandonStep o q x p = x ∨ s.rowCovers p o (s.abandonStep o q x p + 1) = true) := by
      unfold abandonStep
      split
      · next c hc =>
        split
        · next inside =>
          refine ⟨by omega, .inr (rowCovers_iff.mpr ⟨c, hc, by omega, by omega⟩)⟩
        · exact ⟨h, .inl rfl⟩
      · exact ⟨h, .inl rfl⟩
    obtain ⟨low, high, stops⟩ := abandonFold_spec ps step.1
    refine ⟨low, Nat.le_trans high abandonStep_le, ?_⟩
    rcases stops with same | ⟨y, mem, covers⟩
    · refine step.2.imp (fun kept => same.trans kept) fun covers => ⟨p, List.mem_cons_self, ?_⟩
      rw [List.foldl_cons, same]
      exact covers
    · exact .inr ⟨y, List.mem_cons_of_mem _ mem, covers⟩

theorem abandonEnd_spec {skip : List Nat} {q e : Nat} (h : q ≤ e) : q ≤ s.abandonEnd skip o q e ∧ s.abandonEnd skip o q e ≤ e
    ∧ (s.abandonEnd skip o q e = e
      ∨ ((s.unskipped skip).any fun p => s.rowCovers p o (s.abandonEnd skip o q e + 1)) = true) := by
  obtain ⟨low, high, stops⟩ := abandonFold_spec (s := s) (o := o) (s.unskipped skip) h
  rw [abandonEnd_eq]
  exact ⟨low, high, stops.imp_right fun ⟨p, mem, covers⟩ => List.any_eq_true.mpr ⟨p, mem, covers⟩⟩

theorem abandonEnd_of_run {skip : List Nat} {q b e : Nat} (number : q ≤ b) (inside : b ≤ e) (none_covers : ∀ p, ¬ s.Unskipped skip o p q)
    (uncovered : ∀ p n, q < n → n ≤ b → ¬ s.Unskipped skip o p n) (stops : b = e ∨ ∃ p, s.Unskipped skip o p (b + 1)) :
    s.abandonEnd skip o q e = b := by
  have row {p n : Nat} (mem : p ∈ s.unskipped skip) (h : ¬ s.Unskipped skip o p n) : s.rowCovers p o n = false := by
    obtain ⟨low, high, peer, apart⟩ := mem_unskipped.mp mem
    rw [Bool.eq_false_iff]
    exact fun covers => h ⟨low, high, peer, apart, rowCovers_iff.mp covers⟩
  rw [abandonEnd_eq]
  refine abandonFold_eq number _ inside (fun p mem => ⟨row mem (none_covers p), fun n low high => row mem (uncovered p n low high)⟩) ?_
  refine stops.imp Eq.symm fun ⟨p, low, high, peer, apart, covers⟩ => ⟨p, mem_unskipped.mpr ⟨low, high, peer, apart⟩, rowCovers_iff.mpr covers⟩

end State

end Sys2Proof.Machine

/-! The rounds of an evaluation (R169, R170, log 25). -/

namespace Sys2Proof.Machine

open Sys2Proof.Safety

/-! ## The ends of the runs from `u` on -/

/-- The last numbers of the runs that reach `u`. -/
def endsFrom (u : Nat) (rs : List Range) : List Nat := (rs.filter fun r => decide (u ≤ r.hi)).map Range.hi

theorem length_endsFrom_le (u : Nat) (rs : List Range) : (endsFrom u rs).length ≤ rs.length := by
  rw [endsFrom, List.length_map]
  exact List.length_filter_le ..

theorem mem_endsFrom {u lo n : Nat} {rs : List Range} (w : runsApart lo rs) :
    n ∈ endsFrom u rs ↔ u ≤ n ∧ inRuns rs n ∧ ¬ inRuns rs (n + 1) := by
  simp only [endsFrom, List.mem_map, List.mem_filter, decide_eq_true_eq]
  constructor
  · rintro ⟨r, ⟨mem, reach⟩, rfl⟩
    exact ⟨reach, ⟨r, mem, (w.le_of_mem mem).2, Nat.le_refl _⟩, (w.maximal mem).1⟩
  · rintro ⟨reach, ⟨r, mem, low, high⟩, ends⟩
    have : r.hi = n := by
      refine Classical.byContradiction fun other => ?_
      exact ends ⟨r, mem, by omega, by omega⟩
    exact ⟨r, ⟨mem, this ▸ reach⟩, this⟩

theorem endsFrom_nodup {u : Nat} : {rs : List Range} → {lo : Nat} → runsApart lo rs → (endsFrom u rs).Nodup
  | [], _, _ => List.nodup_nil
  | r :: rs, lo, w => by
    have rest : runsApart (r.hi + 2) rs := w.2.2
    have later : r.hi ∉ endsFrom u rs := fun mem => by
      have := rest.le_of_inRuns ((mem_endsFrom rest).mp mem).2.1
      omega
    rw [endsFrom, List.filter_cons]
    split
    · exact List.nodup_cons.mpr ⟨later, endsFrom_nodup rest⟩
    · exact endsFrom_nodup rest

theorem length_le_of_subset : {l m : List Nat} → l.Nodup → l ⊆ m → l.length ≤ m.length
  | [], _, _, _ => Nat.zero_le _
  | a :: l, m, nodup, inside => by
    obtain ⟨fresh, rest⟩ := List.nodup_cons.mp nodup
    have mem : a ∈ m := inside List.mem_cons_self
    have others := length_le_of_subset (m := m.erase a) rest fun b hb =>
      (List.mem_erase_of_ne (by rintro rfl; exact fresh hb)).mpr (inside (List.mem_cons_of_mem a hb))
    rw [List.length_erase_of_mem mem] at others
    have some_place := List.length_pos_of_mem mem
    rw [List.length_cons]
    omega

/-- A run whose end `e` lies at or above `u` is no longer counted from `e + 1` on. -/
theorem length_endsFrom_lt {u e lo lo' : Nat} {rs rs' : List Range} (w : runsApart lo rs) (w' : runsApart lo' rs')
    (same : ∀ n, e < n → (inRuns rs' n ↔ inRuns rs n)) (above : u ≤ e) (run : inRuns rs e) (ends : ¬ inRuns rs (e + 1)) :
    (endsFrom (e + 1) rs').length < (endsFrom u rs).length := by
  have nodup : (e :: endsFrom (e + 1) rs').Nodup := List.nodup_cons.mpr ⟨fun mem => by
    have := ((mem_endsFrom w').mp mem).1
    omega, endsFrom_nodup w'⟩
  have subset : (e :: endsFrom (e + 1) rs') ⊆ endsFrom u rs := by
    intro n mem
    rw [mem_endsFrom w]
    rcases List.mem_cons.mp mem with rfl | mem
    · exact ⟨above, run, ends⟩
    · obtain ⟨low, inside, out⟩ := (mem_endsFrom w').mp mem
      exact ⟨by omega, (same n (by omega)).mp inside, fun h => out ((same (n + 1) (by omega)).mpr h)⟩
  exact length_le_of_subset nodup subset

namespace Entry

/-- R82: settling [a, b] changes nothing above `b`. -/
theorem settle_above {e : Entry} {a b n : Nat} (hab : a ≤ b) (h : b < n) :
    ((e.settle a b).inGap n = true ↔ e.inGap n = true) ∧ ((e.settle a b).top < n ↔ e.top < n) := by
  unfold settle
  split
  · next beyond =>
    refine ⟨?_, iff_of_true h (by omega)⟩
    rw [inGap_iff, inGap_iff]
    refine ⟨fun ⟨g, mem, low, high⟩ => ?_, fun ⟨g, mem, inside⟩ => ⟨g, List.mem_append_left _ mem, inside⟩⟩
    rcases List.mem_append.mp mem with mem | mem
    · exact ⟨g, mem, low, high⟩
    · have := inRuns_rangeOf.mp ⟨g, mem, low, high⟩
      omega
  · refine ⟨?_, Iff.rfl⟩
    rw [inGap_iff, inGap_iff]
    dsimp only
    simp only [List.mem_flatMap]
    refine ⟨fun ⟨x, ⟨g, mem, piece⟩, low, high⟩ => ?_, fun ⟨g, mem, low, high⟩ => ?_⟩
    · have := Range.without_sub hab piece
      exact ⟨g, mem, by omega, by omega⟩
    · by_cases inside : g.lo ≤ a ∧ b ≤ g.hi
      · refine ⟨{ lo := b + 1, hi := g.hi }, ⟨g, mem, ?_⟩, by show b + 1 ≤ n; omega, high⟩
        rw [Range.without, if_pos inside]
        refine List.mem_append_right _ ?_
        rw [if_pos (by omega)]
        exact List.mem_singleton_self _
      · refine ⟨g, ⟨g, mem, ?_⟩, low, high⟩
        rw [Range.without, if_neg inside]
        exact List.mem_singleton_self _

end Entry

namespace State

variable {s t : State} {o : Nat}

/-! ## One round -/

section

variable {i u : Nat} {a : AskEntry} {r : Range} (found : lowestFrom u (s.missingRuns a.origin) = some r)

theorem evaluate_nothing (none_left : lowestFrom u (s.missingRuns a.origin) = none) (n : Nat) :
    s.evaluateAskRounds (n + 1) i a u = s.removeAsk i a.origin := by rw [evaluateAskRounds, none_left]

include found

theorem evaluate_asks {p : Nat} (responder : s.responderFor a.skip a.origin r.lo = some p) (n : Nat) :
    s.evaluateAskRounds (n + 1) i a u
      = s.putAsk i (some (a.askFrom p r.lo r.hi (((s.cell p a.origin).map Pair.frontier).getD r.lo))) := by
  rw [evaluateAskRounds, found]
  dsimp only
  rw [responder]

theorem evaluate_waits (nobody : s.responderFor a.skip a.origin r.lo = none)
    (covered : ((s.unskipped a.skip).any fun p => s.rowCovers p a.origin r.lo) = true) (n : Nat) :
    s.evaluateAskRounds (n + 1) i a u = s.putAsk i (some (a.waitFor r.lo r.hi)) := by
  rw [evaluateAskRounds, found]
  dsimp only
  rw [nobody]
  exact if_pos covered

theorem evaluate_abandons (nobody : s.responderFor a.skip a.origin r.lo = none)
    (uncovered : ((s.unskipped a.skip).any fun p => s.rowCovers p a.origin r.lo) = false) (n : Nat) :
    s.evaluateAskRounds (n + 1) i a u
      = match s.abandon a.origin r.lo (s.abandonEnd a.skip a.origin r.lo r.hi) with
        | some t => t.evaluateAskRounds n i a (s.abandonEnd a.skip a.origin r.lo r.hi + 1)
        | none => s.putAsk i (some (a.waitFor r.lo r.hi)) := by
  rw [evaluateAskRounds, found]
  dsimp only
  rw [nobody, uncovered]
  rfl

/-- A round that finds its lowest number covered is the last. -/
theorem evaluate_covered (covered : ((s.unskipped a.skip).any fun p => s.rowCovers p a.origin r.lo) = true) (n m : Nat) :
    s.evaluateAskRounds (n + 1) i a u = s.evaluateAskRounds (m + 1) i a u := by
  cases responder : s.responderFor a.skip a.origin r.lo with
  | some p => rw [evaluate_asks found responder, evaluate_asks found responder]
  | none => rw [evaluate_waits found responder covered, evaluate_waits found responder covered]

end

/-! ## What an abandonment leaves missing -/

/-- What an abandonment of [a, b] leaves of the origin's entry and of the rows. -/
structure Abandons (s t : State) (o b : Nat) : Prop where
  repairs : Repairs s t
  wellFormed : entryOk (t.entry o) = true
  above : ∀ n, b < n → ((t.entry o).inGap n = true ↔ (s.entry o).inGap n = true) ∧ ((t.entry o).top < n ↔ (s.entry o).top < n)

theorem abandon_abandons {a b : Nat} (low : 1 ≤ o) (high : o ≤ 24) (w : entryOk (s.entry o) = true) (h : s.abandon o a b = some t) :
    Abandons s t o b := by
  have repairs := abandon_repairs h fun _ => ⟨low, high⟩
  obtain ⟨⟨-, run, unsettled, -, few⟩, rfl⟩ := abandon_eq_some_iff.mp h
  have entry : ((s.putEntry o ((s.entry o).settle (max a (s.entry o).floor) b)).notify (.lost o (max a (s.entry o).floor) b)).entry o
      = (s.entry o).settle (max a (s.entry o).floor) b := by
    rw [notify_eq]
    show (s.putEntry o _).entry o = _
    rw [entry_putEntry, if_pos ⟨rfl, low, high⟩]
  refine ⟨repairs, ?_, fun n h => ?_⟩
  · rw [entry]
    exact entryOk_settle w run unsettled few
  · rw [entry]
    exact Entry.settle_above run h

theorem Abandons.missing {b : Nat} (h : Abandons s t o b) (low : 1 ≤ o) (high : o ≤ s.groupSize) (peer : o ≠ s.own)
    (w : entryOk (s.entry o) = true) {n : Nat} (above : b < n) : inRuns (t.missingRuns o) n ↔ inRuns (s.missingRuns o) n := by
  have own := h.repairs.ownNumber
  have size := h.repairs.groupSize
  have cell (p : Nat) : t.cell p o = s.cell p o := by
    unfold State.cell State.row
    rw [h.repairs.hu]
  have peers : t.peers = s.peers := by rw [State.peers, own, size, State.peers]
  rw [inRuns_missingRuns low (size ▸ high) (own ▸ peer) h.wellFormed, inRuns_missingRuns low high peer w, (h.above n above).1,
    (h.above n above).2, State.isPending, h.repairs.pendingOf, State.isPending, peers]
  simp only [cell]

theorem Abandons.any_covers {b : Nat} (h : Abandons s t o b) (skip : List Nat) (n : Nat) :
    ((t.unskipped skip).any fun p => t.rowCovers p o n) = (s.unskipped skip).any fun p => s.rowCovers p o n := by
  have cell (p : Nat) : t.cell p o = s.cell p o := by
    unfold State.cell State.row
    rw [h.repairs.hu]
  have peers : t.peers = s.peers := by rw [State.peers, h.repairs.ownNumber, h.repairs.groupSize, State.peers]
  unfold unskipped rowCovers
  rw [peers]
  simp only [cell]

/-! ## How many rounds are enough -/

/-- R169, log 25: one round more than there are runs from `u` on is enough. -/
theorem evaluateAskRounds_enough {a : AskEntry} {i : Nat} : (n m : Nat) → {s : State} → {u : Nat} → 1 ≤ a.origin →
    a.origin ≤ s.groupSize → a.origin ≠ s.own → s.groupSize ≤ 24 → entryOk (s.entry a.origin) = true →
    (endsFrom u (s.missingRuns a.origin)).length < n → (endsFrom u (s.missingRuns a.origin)).length < m →
    s.evaluateAskRounds n i a u = s.evaluateAskRounds m i a u
  | 0, _, _, _, _, _, _, _, _, h, _ => absurd h (Nat.not_lt_zero _)
  | _, 0, _, _, _, _, _, _, _, _, h => absurd h (Nat.not_lt_zero _)
  | n + 1, m + 1, s, u, low, high, peer, small, w, hn, hm => by
    have apart := missingRuns_apart low high peer w
    cases found : lowestFrom u (s.missingRuns a.origin) with
    | none => rw [evaluate_nothing found, evaluate_nothing found]
    | some r =>
    cases responder : s.responderFor a.skip a.origin r.lo with
    | some p => rw [evaluate_asks found responder, evaluate_asks found responder]
    | none =>
    cases covered : (s.unskipped a.skip).any fun p => s.rowCovers p a.origin r.lo with
    | true => rw [evaluate_waits found responder covered, evaluate_waits found responder covered]
    | false =>
    rw [evaluate_abandons found responder covered, evaluate_abandons found responder covered]
    have run := lowestFrom_eq_some apart found
    obtain ⟨number, within, stops⟩ := abandonEnd_spec (s := s) (o := a.origin) (skip := a.skip) run.some_number
    generalize s.abandonEnd a.skip a.origin r.lo r.hi = b at number within stops
    cases abandoned : s.abandon a.origin r.lo b with
    | none => rfl
    | some t =>
    have abandons := abandon_abandons low (Nat.le_trans high small) w abandoned
    have own := abandons.repairs.ownNumber
    have size := abandons.repairs.groupSize
    have apart' := missingRuns_apart low (size ▸ high) (own ▸ peer) abandons.wellFormed
    have missing {x : Nat} (above : b < x) := abandons.missing low high peer w above
    dsimp only
    -- below the end of the run the next round finds a row that covers its number
    rcases Nat.lt_or_eq_of_le within with short | rfl
    · have next : inRuns (t.missingRuns a.origin) (b + 1) := (missing (Nat.lt_succ_self b)).mpr (run.runs _ (by omega) (by omega))
      obtain ⟨e, found'⟩ := lowestFrom_of_run apart' (Nat.le_refl (b + 1)) (fun x low below => absurd below (by omega)) next
      have some_run : 0 < (endsFrom u (s.missingRuns a.origin)).length :=
        List.length_pos_of_mem ((mem_endsFrom apart).mpr ⟨Nat.le_trans run.above run.some_number, run.runs _ run.some_number (Nat.le_refl _), run.ends⟩)
      obtain ⟨n, rfl⟩ := Nat.exists_eq_add_one_of_ne_zero (show n ≠ 0 by omega)
      obtain ⟨m, rfl⟩ := Nat.exists_eq_add_one_of_ne_zero (show m ≠ 0 by omega)
      refine evaluate_covered found' ?_ n m
      rw [abandons.any_covers]
      exact stops.resolve_left (by omega)
    · have fewer := length_endsFrom_lt apart apart' (fun x above => missing above) (Nat.le_trans run.above run.some_number)
        (run.runs _ run.some_number (Nat.le_refl _)) run.ends
      exact evaluateAskRounds_enough n m low (size ▸ high) (own ▸ peer) (size ▸ small) abandons.wellFormed (by omega) (by omega)

end State

end Sys2Proof.Machine

/-! The evaluation of the ask list, and the re-run of a command (R166 to R171). -/

namespace Sys2Proof.Machine

open Sys2Proof.Safety

namespace State

variable {s : State}

/-! ## One entry (R166, R171) -/

/-- The ask list of `t` holds `x` in place `i` and is otherwise that of `s`. -/
def Puts (s : State) (i : Nat) (x : Option AskEntry) (t : State) : Prop := t.ask i = x ∧ ∀ j, j ≠ i → t.ask j = s.ask j

theorem putAsk_puts {i : Nat} (h : i < 4) (x : Option AskEntry) :
    Puts s i x (s.putAsk i x) ∧ s.putAsk i x = { s with rp := { s.rp with asks := (s.putAsk i x).rp.asks } } := by
  refine ⟨⟨?_, fun j other => ?_⟩, rfl⟩
  · rw [ask_putAsk s h, if_pos rfl]
  · rw [ask_putAsk s h, if_neg other]

theorem removeAsk_puts {i o : Nat} (h : i < 4) (high : o ≤ s.groupSize) : Puts s i none (s.removeAsk i o)
    ∧ s.removeAsk i o = { s with rp := { s.rp with
        asks := (s.removeAsk i o).rp.asks, rerunDue := true, rotation := if o = s.groupSize then 1 else o + 1 } } := by
  refine ⟨(putAsk_puts h none).1, ?_⟩
  have rotation : s.originAfter o = if o = s.groupSize then 1 else o + 1 := by
    unfold originAfter
    split <;> split <;> omega
  rw [← rotation]
  rfl

/-- R171: an ASKED entry with a number of its range missing. -/
theorem advanceAsk_of_missing {i q lo : Nat} {a : AskEntry} (w : runsApart lo (s.missingRuns a.origin)) (first : a.first ≤ q)
    (last : q ≤ a.first + a.count - 1) (missing : inRuns (s.missingRuns a.origin) q)
    (lowest : ∀ n, a.first ≤ n → n < q → ¬ inRuns (s.missingRuns a.origin) n) :
    s.advanceAsk i a = s.putAsk i (some { a with first := q, count := a.first + a.count - 1 + 1 - q }) := by
  obtain ⟨e, found⟩ := lowestFrom_of_run w first lowest missing
  rw [advanceAsk, found]
  exact if_pos last

/-- R171: an ASKED entry with none left. -/
theorem advanceAsk_of_none {i lo : Nat} {a : AskEntry} (w : runsApart lo (s.missingRuns a.origin))
    (clear : ∀ n, a.first ≤ n → n ≤ a.first + a.count - 1 → ¬ inRuns (s.missingRuns a.origin) n) :
    s.advanceAsk i a = s.removeAsk i a.origin := by
  unfold advanceAsk
  dsimp only
  split
  · next r found =>
    have run := lowestFrom_eq_some w found
    exact if_neg fun last => clear r.lo run.above last (run.runs _ (Nat.le_refl _) run.some_number)
  · rfl

theorem rerunPlace_of_none {i : Nat} (h : s.ask i = none) : s.rerunPlace i = s := by rw [rerunPlace, h]

theorem rerunPlace_of_waiting {i : Nat} {a : AskEntry} (h : s.ask i = some a) (waiting : a.state = .waiting) :
    s.rerunPlace i = s.evaluateAsk i a (s.entry a.origin).floor := by
  rw [rerunPlace, h]
  dsimp only
  rw [waiting]

theorem rerunPlace_of_asked {i p : Nat} {due timer : Bool} {a : AskEntry} (h : s.ask i = some a) (asked : a.state = .asked p due timer) :
    s.rerunPlace i = s.advanceAsk i a := by
  rw [rerunPlace, h]
  dsimp only
  rw [asked]

/-! ## The creation pass (R168) -/

/-- The ask list holds an entry for origin `o`. -/
def Listed (s : State) (o : Nat) : Prop := ∃ i a, i < 4 ∧ s.ask i = some a ∧ a.origin = o

theorem hasAsk_iff {o : Nat} : s.hasAsk o = true ↔ s.Listed o := by
  unfold hasAsk Listed
  rw [List.any_eq_true]
  constructor
  · rintro ⟨x, mem, here⟩
    obtain ⟨i, hi, rfl⟩ := Vector.getElem_of_mem (Vector.mem_toList_iff.mp mem)
    rw [beq_iff_eq, Option.map_eq_some_iff] at here
    obtain ⟨a, ha, origin⟩ := here
    refine ⟨i, a, hi, ?_, origin⟩
    rw [ask, place, Vector.getElem?_eq_getElem hi]
    exact ha
  · rintro ⟨i, a, hi, ha, rfl⟩
    refine ⟨some a, Vector.mem_toList_iff.mpr ?_, beq_self_eq_true _⟩
    rw [ask, place, Vector.getElem?_eq_getElem hi] at ha
    exact ha ▸ Vector.getElem_mem hi

theorem createAt_of_full {o : Nat} (full : ∀ i, i < 4 → s.ask i ≠ none) : s.createAt o = s := by
  have none_free : firstPlace s.rp.asks Option.isNone = none := (firstPlace_eq_none_iff none).mpr fun i hi => by
    rw [Option.isNone_eq_false_iff, Option.isSome_iff_ne_none]
    exact full i hi
  rw [createAt, none_free]

theorem createAt_of_place {o i : Nat} (hi : i < 4) (free : s.ask i = none) (first : ∀ j, j < i → s.ask j ≠ none) : s.createAt o
    = if o != s.own && !(s.missingRuns o).isEmpty && !s.hasAsk o then
        s.evaluateAsk i { origin := o, first := 0, count := 0, tries := 0, skip := [], state := .waiting } (s.entry o).floor
      else s := by
  have place : firstPlace s.rp.asks Option.isNone = some i := by
    refine (firstPlace_eq_some_iff none).mpr ⟨hi, Option.isNone_iff_eq_none.mpr free, fun j before => ?_⟩
    rw [Option.isNone_eq_false_iff, Option.isSome_iff_ne_none]
    exact first j before
  rw [createAt, place]

/-- R168: an origin for which nothing is created. -/
theorem createAt_of_excluded {o : Nat} (h : o = s.own ∨ s.missingRuns o = [] ∨ s.Listed o) : s.createAt o = s := by
  have excluded : (o != s.own && !(s.missingRuns o).isEmpty && !s.hasAsk o) = false := by
    rcases h with rfl | empty | listed
    · rw [bne_self_eq_false, Bool.false_and, Bool.false_and]
    · rw [empty, List.isEmpty_nil, Bool.not_true, Bool.and_false, Bool.false_and]
    · rw [hasAsk_iff.mpr listed, Bool.not_true, Bool.and_false]
  unfold createAt
  split
  · rfl
  · rw [excluded]
    rfl

theorem createAt_creates {o i : Nat} (peer : o ≠ s.own) (missing : s.missingRuns o ≠ []) (unlisted : ¬ s.Listed o) (hi : i < 4)
    (free : s.ask i = none) (first : ∀ j, j < i → s.ask j ≠ none) : s.createAt o
      = s.evaluateAsk i { origin := o, first := 0, count := 0, tries := 0, skip := [], state := .waiting } (s.entry o).floor := by
  rw [createAt_of_place hi free first, if_pos]
  rw [Bool.and_eq_true, Bool.and_eq_true, bne_iff_ne, Bool.not_eq_true', Bool.not_eq_true', ← Bool.not_eq_true, ← Bool.not_eq_true,
    List.isEmpty_iff, hasAsk_iff]
  exact ⟨⟨peer, missing⟩, unlisted⟩

/-! ## The re-run of a command (R167) -/

/-- R167 step 1: the entries in place order. -/
def rerunPlaces (s : State) : State := (((s.rerunPlace 0).rerunPlace 1).rerunPlace 2).rerunPlace 3

theorem rerunPlaces_repairs (s : State) : Repairs s s.rerunPlaces :=
  (((rerunPlace_repairs s 0).trans (rerunPlace_repairs _ 1)).trans (rerunPlace_repairs _ 2)).trans (rerunPlace_repairs _ 3)

theorem rerun_eq (s : State) : s.rerun
    = ((List.range s.groupSize).map fun k => (s.rerunPlaces.rp.rotation - 1 + k) % s.groupSize + 1).foldl createAt s.rerunPlaces := by
  have order : s.rerun = s.rerunPlaces.creationOrder.foldl createAt s.rerunPlaces := rfl
  rw [order, creationOrder, (rerunPlaces_repairs s).groupSize]

theorem settleRepair_of_active (due : s.rp.rerunDue = true) (active : s.station = some .active) :
    s.settleRepair = { s.rerun with rp := { s.rerun.rp with rerunDue := false } } := by
  have on : (s.station == some .active) = true := beq_iff_eq.mpr active
  rw [settleRepair, if_pos due, on]
  rfl

theorem settleRepair_of_idle (due : s.rp.rerunDue = true) (idle : s.station ≠ some .active) :
    s.settleRepair = s.setRp { s.rp with rerunDue := false } := by
  have off : (s.station == some .active) = false := beq_eq_false_iff_ne.mpr idle
  rw [settleRepair, if_pos due, off]
  rfl

/-! ## One evaluation -/

/-- R169, R170: a run that no responder can be asked for. -/
theorem evaluate_unasked {i u k q e : Nat} {a : AskEntry} (hi : i < 4) (olow : 1 ≤ a.origin) (ohigh : a.origin ≤ s.groupSize)
    (found : lowestFrom u (s.missingRuns a.origin) = some { lo := q, hi := e })
    (nobody : ∀ p, ¬ s.Candidate a.skip a.origin p q) :
    let t := s.evaluateAskRounds (k + 1) i a u
    let waits := Puts s i (some (a.waitFor q e)) t ∧ t = { s with rp := { s.rp with asks := t.rp.asks } }
    ((∃ p, s.Unskipped a.skip a.origin p q) → waits)
      ∧ ((∀ p, ¬ s.Unskipped a.skip a.origin p q) → ∀ b, q ≤ b → b ≤ e →
          (∀ p n, q < n → n ≤ b → ¬ s.Unskipped a.skip a.origin p n) → b = e ∨ (∃ p, s.Unskipped a.skip a.origin p (b + 1)) →
          (s.abandon a.origin q b = none → waits)
            ∧ ∀ s', s.abandon a.origin q b = some s' → t = s'.evaluateAskRounds k i a (b + 1)) := by
  have nobody := responderFor_of_none olow ohigh nobody
  refine ⟨fun covered => ?_, fun uncovered b low high clear stops => ?_⟩
  · rw [evaluate_waits found nobody (covered_iff.mpr covered)]
    exact putAsk_puts hi _
  · have none_covers : ((s.unskipped a.skip).any fun p => s.rowCovers p a.origin q) = false := by
      rw [← Bool.not_eq_true, covered_iff]
      exact fun ⟨p, h⟩ => uncovered p h
    rw [evaluate_abandons found nobody none_covers, abandonEnd_of_run low high uncovered clear stops]
    refine ⟨fun declined => ?_, fun t abandoned => ?_⟩
    · rw [declined]
      exact putAsk_puts hi _
    · rw [abandoned]

end State

end Sys2Proof.Machine

namespace Sys2Proof.Proofs

open Sys2Proof.Machine Sys2Proof.Safety

/-- Settles O40. -/
theorem askEntryEvaluated : Obligations.AskEntryEvaluated := by
  refine ⟨fun s i u k a hi olow ohigh peer low high small w => ?_, fun s i a hi olow ohigh peer w => ?_, fun s o => ?_, fun s i => ?_,
    fun s => ?_⟩
  · have apart := State.missingRuns_apart olow ohigh peer w
    refine ⟨fun clear => ?_, fun q e above lowest number missing ends => ⟨fun p c row fits first => ?_, fun nobody => ?_⟩, fun enough => ?_⟩
    · rw [State.evaluate_nothing (lowestFrom_of_none apart clear)]
      exact State.removeAsk_puts hi ohigh
    · have found := lowestFrom_of_ends apart above lowest number missing ends
      rw [State.evaluate_asks found (State.responderFor_of_first low high olow ohigh fits first), row]
      exact State.putAsk_puts hi _
    · have found := lowestFrom_of_ends apart above lowest number missing ends
      exact State.evaluate_unasked hi olow ohigh found nobody
    · have few := length_endsFrom_le u (s.missingRuns a.origin)
      exact State.evaluateAskRounds_enough _ _ olow ohigh peer small w (by omega) (by omega)
  · have apart := State.missingRuns_apart olow ohigh peer w
    exact ⟨fun q first last missing lowest => State.advanceAsk_of_missing apart first last missing lowest,
      fun clear => State.advanceAsk_of_none apart clear⟩
  · refine ⟨fun excluded => ?_, fun peer missing unlisted i hi free first => State.createAt_creates peer missing unlisted hi free first⟩
    rcases excluded with full | excluded
    · exact State.createAt_of_full full
    · exact State.createAt_of_excluded excluded
  · exact ⟨State.rerunPlace_of_none, fun a here => ⟨State.rerunPlace_of_waiting here, fun p due timer => State.rerunPlace_of_asked here⟩⟩
  · refine ⟨settleRepair_of_settled, fun due active => ?_,
      fun due idle => State.settleRepair_of_idle due idle⟩
    rw [State.settleRepair_of_active due active, State.rerun_eq]
    rfl

end Sys2Proof.Proofs

/-! What RP does with the body of an ASK and of a REFUSE (R175, R177 to R179, R211). -/

namespace Sys2Proof.Machine

open Sys2Proof.Safety

namespace State

variable {s : State}

/-! ## The head job's number tested (R179) -/

/-- R35: a serve lookup of (o, n) begins. -/
theorem startServe_of_candidate {o n st b : Nat} (found : s.sm.candidate o n none = some (st, b)) : s.startLookup .serve o n = { s with
    sm := { s.sm with serveLookup := some { origin := o, seq := n, block := some b, page := (s.sm.block b).pages - 1, offset := 0,
                                            bound := some (st, b), damaged := false, step := .waiting } },
    fc := { s.fc with serveClaim := some { kind := .spare, page := { block := b, page := (s.sm.block b).pages - 1 } } } } := by
  rw [startLookup, choose, found]
  rfl

theorem startServe_of_none {o n : Nat} (nothing : s.sm.candidate o n none = none) : s.startLookup .serve o n = { s with
    sm := { s.sm with serveLookup := none },
    rp := { s.rp with notHeld := some { number := n, older := s.rp.busy.length } } } := by
  rw [startLookup, choose, nothing]
  rfl

/-- What the test of the head job `j` leaves. -/
structure TestsHead (s t : State) (j : ServeJob) : Prop where
  same : t = { s with rp := { s.rp with notHeld := t.rp.notHeld }, sm := { s.sm with serveLookup := t.sm.serveLookup },
                      fc := { s.fc with serveClaim := t.fc.serveClaim } }
  unsettled : (s.entry j.origin).settled j.next = false →
    t.rp.notHeld = some { number := j.next, older := s.rp.busy.length } ∧ t.sm.serveLookup = s.sm.serveLookup
      ∧ t.fc.serveClaim = s.fc.serveClaim
  absent : (s.entry j.origin).settled j.next = true → s.sm.candidate j.origin j.next none = none →
    t.rp.notHeld = some { number := j.next, older := s.rp.busy.length } ∧ t.sm.serveLookup = none ∧ t.fc.serveClaim = s.fc.serveClaim
  found : (s.entry j.origin).settled j.next = true → ∀ st b, s.sm.candidate j.origin j.next none = some (st, b) →
    t.rp.notHeld = s.rp.notHeld
      ∧ t.sm.serveLookup = some { origin := j.origin, seq := j.next, block := some b, page := (s.sm.block b).pages - 1, offset := 0,
                                  bound := some (st, b), damaged := false, step := .waiting }
      ∧ t.fc.serveClaim = some { kind := .spare, page := { block := b, page := (s.sm.block b).pages - 1 } }

theorem testHead_tests {j : ServeJob} {js : List ServeJob} (h : s.rp.jobs = j :: js) : TestsHead s s.testHead j := by
  cases settled : (s.entry j.origin).settled j.next with
  | false =>
    have test : s.testHead = s.makeNotHeld j.next := by
      rw [testHead, h]
      dsimp only
      rw [settled]
      rfl
    rw [test]
    exact ⟨rfl, fun _ => ⟨rfl, rfl, rfl⟩, fun e => absurd (settled.symm.trans e) nofun, fun e => absurd (settled.symm.trans e) nofun⟩
  | true =>
    have test : s.testHead = s.startLookup .serve j.origin j.next := by
      rw [testHead, h]
      exact if_pos settled
    rw [test]
    cases candidate : s.sm.candidate j.origin j.next none with
    | none =>
      rw [startServe_of_none candidate]
      exact ⟨rfl, fun e => absurd (settled.symm.trans e) nofun, fun _ _ => ⟨rfl, rfl, rfl⟩,
        fun _ st b e => absurd (candidate.symm.trans e) nofun⟩
    | some x =>
      obtain ⟨st, b⟩ := x
      rw [startServe_of_candidate candidate]
      refine ⟨rfl, fun e => absurd (settled.symm.trans e) nofun, fun _ e => absurd (candidate.symm.trans e) nofun, fun _ st b e => ?_⟩
      cases candidate.symm.trans e
      exact ⟨rfl, rfl, rfl⟩

/-- R179: the test of the head job of the queue `jobs`. -/
theorem TestsHead.headTested {t : State} {j : ServeJob} (h : TestsHead s t j) (js : List ServeJob) : HeadTested s t (j :: js) := by
  rintro k ks ⟨⟩
  refine ⟨fun unsettled => (h.unsettled unsettled).1, fun settled => ⟨fun absent => (h.absent settled absent).1, fun st b found => ?_⟩⟩
  exact ⟨_, (h.found settled st b found).2.1, rfl, rfl, rfl, rfl, rfl, rfl⟩

/-! ## An ASK (R177, R178) -/

theorem overlaps_iff {j : ServeJob} {asker origin first last : Nat} : j.overlaps asker origin first last = true
    ↔ j.asker = asker ∧ j.origin = origin ∧ j.next ≤ last ∧ first ≤ j.first + j.count - 1 := by
  simp only [ServeJob.overlaps, Bool.and_eq_true, beq_iff_eq, decide_eq_true_eq, and_assoc]

section

variable {asker target : Nat} {body : List Byte}

theorem takeAsk_elsewhere (other : target ≠ s.own) : s.takeAsk asker target body = s := if_pos (bne_iff_ne.mpr other)

/-- R211: a body that no ASK has. -/
def MalformedAsk (s : State) (a : AskBody) : Prop :=
  a.origin = 0 ∨ s.groupSize < a.origin ∨ a.count = 0 ∨ 8 < a.count ∨ a.first = 0 ∨ 4294967295 < a.first + a.count - 1

/-- R177: the job that an ASK asks for. -/
def jobOf (asker : Nat) (a : AskBody) : ServeJob := { asker := asker, origin := a.origin, first := a.first, count := a.count, next := a.first }

variable (here : target = s.own)
include here

theorem takeAsk_malformed (h : s.MalformedAsk (askOf body)) : s.takeAsk asker target body = s.bump .badBursts := by
  rw [takeAsk, if_neg (by rw [bne_iff_ne]; exact not_not_intro here)]
  exact if_pos h

variable (formed : ¬ s.MalformedAsk (askOf body))
include formed

theorem takeAsk_formed : s.takeAsk asker target body =
    if s.rp.jobs.any fun j => j.overlaps asker (askOf body).origin (askOf body).first ((askOf body).first + (askOf body).count - 1) then s
    else if 4 ≤ s.rp.jobs.length then
      s.makeBusy { asker := asker, origin := (askOf body).origin, number := (askOf body).first }
    else if s.rp.jobs.isEmpty then
      (s.setRp { s.rp with jobs := s.rp.jobs ++ [jobOf asker (askOf body)] }).testHead
    else s.setRp { s.rp with jobs := s.rp.jobs ++ [jobOf asker (askOf body)] } := by
  rw [takeAsk, if_neg (by rw [bne_iff_ne]; exact not_not_intro here)]
  exact if_neg formed

/-- R177 test 3: a job of the queue still has to serve a number of the ASK. -/
def Overlaps (s : State) (asker : Nat) (a : AskBody) : Prop :=
  ∃ j, j ∈ s.rp.jobs ∧ j.asker = asker ∧ j.origin = a.origin ∧ j.next ≤ a.first + a.count - 1 ∧ a.first ≤ j.first + j.count - 1

omit here formed in
theorem any_overlaps {a : AskBody} :
    (s.rp.jobs.any fun j => j.overlaps asker a.origin a.first (a.first + a.count - 1)) = true ↔ s.Overlaps asker a := by
  simp only [List.any_eq_true, overlaps_iff]
  rfl

theorem takeAsk_overlapping (h : s.Overlaps asker (askOf body)) : s.takeAsk asker target body = s := by
  rw [takeAsk_formed here formed, if_pos (any_overlaps.mpr h)]

variable (apart : ¬ s.Overlaps asker (askOf body))
include apart

theorem takeAsk_busy (full : 4 ≤ s.rp.jobs.length) : s.takeAsk asker target body
    = s.makeBusy { asker := asker, origin := (askOf body).origin, number := (askOf body).first } := by
  rw [takeAsk_formed here formed, if_neg fun h => apart (any_overlaps.mp h), if_pos full]

theorem takeAsk_behind (room : s.rp.jobs.length < 4) (some_job : s.rp.jobs ≠ []) : s.takeAsk asker target body
    = s.setRp { s.rp with jobs := s.rp.jobs ++ [jobOf asker (askOf body)] } := by
  rw [takeAsk_formed here formed, if_neg fun h => apart (any_overlaps.mp h), if_neg (by omega),
    if_neg (by rwa [List.isEmpty_iff])]

theorem takeAsk_head (no_job : s.rp.jobs = []) : s.takeAsk asker target body
    = (s.setRp { s.rp with jobs := [jobOf asker (askOf body)] }).testHead := by
  rw [takeAsk_formed here formed, if_neg fun h => apart (any_overlaps.mp h), no_job]
  rfl

end

/-! ## A REFUSE (R175) -/

section

variable {sender target : Nat} {body : List Byte}

theorem takeRefuse_elsewhere (other : target ≠ s.own) : s.takeRefuse sender target body = s := if_pos (bne_iff_ne.mpr other)

variable (here : target = s.own)
include here

theorem takeRefuse_unreadable (bad : (refuseOf body).reason = none) : s.takeRefuse sender target body = s.bump .badBursts := by
  rw [takeRefuse]
  dsimp only
  rw [if_neg (by rw [bne_iff_ne]; exact not_not_intro here), bad]

theorem takeRefuse_busy (busy : (refuseOf body).reason = some .busy) :
    s.takeRefuse sender target body = s.bump .refusalsReceived := by
  rw [takeRefuse]
  dsimp only
  rw [if_neg (by rw [bne_iff_ne]; exact not_not_intro here), busy]
  dsimp only
  split
  · rfl
  · split
    · next notHeld => cases notHeld
    · rfl

/-- R175: the entry that a NOT-HELD of `sender` concerns. -/
def RefusedBy (s : State) (sender o i : Nat) (a : AskEntry) : Prop :=
  s.askPlace o = some i ∧ s.ask i = some a ∧ ∃ due timer, a.state = .asked sender due timer

variable (notHeld : (refuseOf body).reason = some .notHeld)
include notHeld

theorem takeRefuse_apart (h : ∀ i a, ¬ s.RefusedBy sender (refuseOf body).origin i a) :
    s.takeRefuse sender target body = s.bump .refusalsReceived := by
  rw [takeRefuse]
  dsimp only
  rw [if_neg (by rw [bne_iff_ne]; exact not_not_intro here), notHeld]
  dsimp only
  split
  · rfl
  · next i place =>
    split
    · next a found _ =>
      split
      · next p due timer asked =>
        refine if_neg fun same => h i a ⟨place, found, due, timer, ?_⟩
        rw [asked, beq_iff_eq.mp same]
      · rfl
    · rfl

theorem takeRefuse_concerns {i : Nat} {a : AskEntry} (h : s.RefusedBy sender (refuseOf body).origin i a) :
    s.takeRefuse sender target body = (s.bump .refusalsReceived).skipResponder i a sender
      (min (max a.first (refuseOf body).number) (a.first + a.count - 1)) := by
  obtain ⟨place, found, due, timer, asked⟩ := h
  have place : (s.bump .refusalsReceived).askPlace (refuseOf body).origin = some i := place
  have found : (s.bump .refusalsReceived).ask i = some a := found
  rw [takeRefuse]
  dsimp only
  rw [if_neg (by rw [bne_iff_ne]; exact not_not_intro here), notHeld]
  dsimp only
  rw [place]
  dsimp only
  rw [found]
  dsimp only
  rw [asked]
  dsimp only
  rw [if_pos (beq_self_eq_true sender)]

end

end State

end Sys2Proof.Machine

/-! What the repair unit sees of a command of the store: the ask list stays, and it is told of what takes a number out of the missing
set (R166, R167). -/

namespace Sys2Proof.Machine

open Sys2Proof.Safety

/-- The ask list of `s` stands in `t`; and RP has been told, or peer origin `o` has the entry it had and awaits no further number. -/
structure Spares (o : Nat) (s t : State) : Prop where
  sc : t.sc = s.sc
  matrix : t.hu.matrix = s.hu.matrix
  asks : t.rp.asks = s.rp.asks
  told : s.rp.rerunDue = true → t.rp.rerunDue = true
  wellFormed : entryOk (s.entry o) = true → entryOk (t.entry o) = true
  spared : t.rp.rerunDue = true ∨ (t.entry o = s.entry o ∧ ∀ n, t.awaits o n → s.awaits o n)

namespace Spares

variable {o : Nat} {s t u : State}

theorem own (h : Spares o s t) : t.own = s.own := congrArg Sc.number h.sc
theorem groupSize (h : Spares o s t) : t.groupSize = s.groupSize :=
  congrArg (fun x : Sc => (x.settings.map Settings.groupSize).getD 0) h.sc
theorem ask (h : Spares o s t) (i : Nat) : t.ask i = s.ask i := by rw [State.ask, h.asks, State.ask]

theorem refl (o : Nat) (s : State) : Spares o s s := ⟨rfl, rfl, rfl, id, id, .inr ⟨rfl, fun _ => id⟩⟩

theorem trans (h : Spares o s t) (k : Spares o t u) : Spares o s u where
  sc := k.sc.trans h.sc
  matrix := k.matrix.trans h.matrix
  asks := k.asks.trans h.asks
  told := k.told ∘ h.told
  wellFormed := k.wellFormed ∘ h.wellFormed
  spared := by
    rcases k.spared with told | ⟨entry, awaits⟩
    · exact .inl told
    · rcases h.spared with told | ⟨entry', awaits'⟩
      · exact .inl (k.told told)
      · exact .inr ⟨entry.trans entry', fun n w => awaits' n (awaits n w)⟩

/-- A change outside the holdings and the ask list. -/
theorem of_still (sc : t.sc = s.sc) (hu : t.hu = s.hu) (asks : t.rp.asks = s.rp.asks) (told : t.rp.rerunDue = s.rp.rerunDue)
    (awaits : ∀ n, t.awaits o n → s.awaits o n) : Spares o s t := by
  have entry : t.entry o = s.entry o := by rw [State.entry, hu, State.entry]
  exact ⟨sc, by rw [hu], asks, fun h => told ▸ h, fun w => entry ▸ w, .inr ⟨entry, awaits⟩⟩

/-- A change outside the holdings, the path and the ask list. -/
theorem of_apart (sc : t.sc = s.sc) (hu : t.hu = s.hu) (rp : t.rp = s.rp) (ra : t.ra = s.ra) (fill : t.fc.fill = s.fc.fill)
    (image : t.fc.array.image = s.fc.array.image) : Spares o s t := by
  refine of_still sc hu (by rw [rp]) (by rw [rp]) fun n => ?_
  unfold State.awaits Fc.imageList
  rw [ra, fill, image]
  exact id

/-- A change of which RP has been told. -/
theorem of_told (sc : t.sc = s.sc) (hu : t.hu = s.hu) (asks : t.rp.asks = s.rp.asks) (told : t.rp.rerunDue = true) : Spares o s t := by
  have entry : t.entry o = s.entry o := by rw [State.entry, hu, State.entry]
  exact ⟨sc, by rw [hu], asks, fun _ => told, fun w => entry ▸ w, .inl told⟩

end Spares

theorem Looks.spares {o : Nat} {s t : State} (h : Looks s t) : Spares o s t := by
  have rp : t.rp.asks = s.rp.asks ∧ t.rp.rerunDue = s.rp.rerunDue := by
    rw [h.same]
    exact ⟨rfl, rfl⟩
  refine .of_still h.sc h.hu rp.1 rp.2 fun n => ?_
  rw [h.same]
  exact id

theorem Grants.spares {o : Nat} {s t : State} (h : Grants s t) : Spares o s t := .of_apart h.sc h.hu h.rp h.ra h.fill h.image

namespace State

variable {o : Nat}

/-! ## Floors raised and blocks selected -/

/-- R83: RP is told where the entry of an origin of the group changes. -/
theorem putEntry_spares {s : State} (low : 1 ≤ o) (high : o ≤ s.groupSize) (p : Nat) {e : Entry}
    (w : p = o → entryOk (s.entry o) = true → entryOk e = true) : Spares o s (s.putEntry p e) := by
  have rest := putEntry_same s p e
  have path := putEntry_keepsPath s p e
  have told : (s.rp.rerunDue = true → (s.putEntry p e).rp.rerunDue = true)
      ∧ (p = o → e ≠ s.entry o → (s.putEntry p e).rp.rerunDue = true) := by
    have due : (s.putEntry p e).rp.rerunDue
        = (if s.reported p && e != s.entry p then (s.writeEntry p e).tellRp else s.writeEntry p e).rp.rerunDue := by
      unfold putEntry
      dsimp only
      split
      · rw [evaluateDurable_same]
        rfl
      · rfl
    rw [due]
    refine ⟨fun h => ?_, fun here changed => ?_⟩
    · split
      · rfl
      · exact h
    · subst here
      have reported : (s.reported p && e != s.entry p) = true := by
        rw [Bool.and_eq_true, bne_iff_ne, reported, Bool.and_eq_true, decide_eq_true_eq, decide_eq_true_eq]
        exact ⟨⟨low, high⟩, changed⟩
      rw [reported]
      rfl
  have awaits (n : Nat) : (s.putEntry p e).awaits o n → s.awaits o n := by
    unfold awaits Fc.imageList
    rw [path.ra, path.fill, path.array]
    exact id
  have entry := entry_putEntry s p e o
  refine ⟨by rw [rest], by rw [rest]; rfl, by rw [rest], told.1, fun ok => ?_, ?_⟩
  · rw [entry]
    split
    · next here => exact w here.1 ok
    · exact ok
  · by_cases same : p = o ∧ e ≠ s.entry o
    · exact .inl (told.2 same.1 same.2)
    · refine .inr ⟨?_, awaits⟩
      rw [entry]
      split
      · next here => exact Classical.not_not.mp fun changed => same ⟨here.1, changed⟩
      · rfl

theorem floorRaise_spares {s : State} (low : 1 ≤ o) (high : o ≤ s.groupSize) (p f : Nat) : Spares o s (s.floorRaise p f) := by
  unfold floorRaise
  split
  · exact .refl o s
  · exact putEntry_spares low high p fun here w => by subst here; exact entryOk_raiseFloor w f

theorem raiseFloors_spares (low : 1 ≤ o) : (m : List SummaryLine) → {s : State} → o ≤ s.groupSize → Spares o s (s.raiseFloors m)
  | [], s, _ => .refl o s
  | l :: m, s, high => by
    have first := floorRaise_spares low high l.origin (l.highest + 1)
    exact first.trans (raiseFloors_spares low m (first.groupSize ▸ high))

theorem select_spares {s : State} (low : 1 ≤ o) (high : o ≤ s.groupSize) (b : Nat) : Spares o s (s.select b) := by
  have floors := raiseFloors_spares low (s.sm.block b).summary high
  have leaves (e : BlockEntry) : Spares o s
      (((((s.raiseFloors (s.sm.block b).summary).putBlock b e).leaveBlock b .fetch).leaveBlock b .serve)) :=
    have put : Spares o s ((s.raiseFloors (s.sm.block b).summary).putBlock b e) := floors.trans (.of_apart rfl rfl rfl rfl rfl rfl)
    (put.trans (leaveBlock_looks _ b .fetch).spares).trans (leaveBlock_looks _ b .serve).spares
  unfold select
  dsimp only
  split
  · exact (leaves _).trans (.of_apart rfl rfl rfl rfl rfl rfl)
  · exact (leaves _).trans (.of_apart rfl rfl rfl rfl rfl rfl)

theorem reclaimRounds_spares (low : 1 ≤ o) : (n : Nat) → {s : State} → o ≤ s.groupSize → Spares o s (s.reclaimRounds n)
  | 0, s, _ => .refl o s
  | n + 1, s, high => by
    unfold reclaimRounds
    split
    · next b _ =>
      have first := select_spares low high b
      exact first.trans (reclaimRounds_spares low n (first.groupSize ▸ high))
    · exact .refl o s

theorem evaluateReclaim_spares {s : State} (low : 1 ≤ o) (high : o ≤ s.groupSize) : Spares o s s.evaluateReclaim := by
  unfold evaluateReclaim
  split
  · dsimp only
    split
    · exact (reclaimRounds_spares low _ high).trans (.of_apart rfl rfl rfl rfl rfl rfl)
    · exact .of_apart rfl rfl rfl rfl rfl rfl
  · exact .refl o s

/-! ## Placement and claims -/

/-- R143: a placed record of a peer was awaited in its slot. -/
theorem placeHead_spares {s : State} {ref : Ref} {r : PathRecord} (peer : o ≠ s.own)
    (hr : s.refRecord ref = some r) : Spares o s (s.placeHead ref r) := by
  rw [placeHead_eq]
  refine .of_still rfl rfl rfl rfl fun n => ?_
  rintro (⟨i, d, held, origin, seq⟩ | placed | image)
  · refine .inl ⟨i, d, ?_, origin, seq⟩
    have held : (place (ref.released s.ra.slots) .free i).data = some d := held
    rw [Ref.place_released] at held
    split at held
    · cases held
    · exact held
  · have placed : n ∈ listedOf o (s.fc.fill.list ++ [{ origin := r.origin, seq := r.seq, offset := s.fc.fill.data.length }]) := placed
    rw [listedOf_append, List.mem_append] at placed
    rcases placed with before | added
    · exact .inr (.inl before)
    · rw [listedOf_singleton] at added
      split at added
      · next origin =>
        rw [List.mem_singleton] at added
        cases ref with
        | slot i =>
          obtain ⟨d, held, rfl⟩ := refRecord_slot hr
          exact .inl ⟨i, d, by rw [held]; rfl, origin, added.symm⟩
        | entry i => exact absurd (origin.symm.trans (refRecord_entry hr).1) peer
      · cases added
  · exact .inr (.inr image)

theorem closeFill_spares (s : State) : Spares o s s.closeFill :=
  .of_still rfl rfl rfl rfl fun _ => id

theorem placeRounds_spares : (n : Nat) → {s : State} → o ≠ s.own → Spares o s (s.placeRounds n)
  | 0, s, _ => .refl o s
  | n + 1, s, peer => by
    unfold placeRounds
    split
    · exact .refl o s
    · split
      · exact .refl o s
      · split
        · exact .refl o s
        · next ref refs hq _ r hr =>
          split
          · have first := placeHead_spares peer hr
            exact first.trans (placeRounds_spares n (first.own ▸ peer))
          · exact closeFill_spares s

theorem claimIfNeeded_spares (s : State) : Spares o s s.claimIfNeeded := by
  rw [claimIfNeeded_same]
  exact .of_apart rfl rfl rfl rfl rfl rfl

theorem runCommit_spares {s : State} (peer : o ≠ s.own) : Spares o s s.runCommit :=
  (placeRounds_spares 9 peer).trans (claimIfNeeded_spares _)

theorem notify_spares (s : State) (n : Notice) : Spares o s (s.notify n) := by
  rw [notify_eq]
  exact .of_apart rfl rfl rfl rfl rfl rfl

theorem programFailed_spares {s : State} (low : 1 ≤ o) (high : o ≤ s.groupSize) (peer : o ≠ s.own) (p : PageAddr) :
    Spares o s (s.programFailed p) := by
  have failed : Spares o s (s.smProgramFailed p) := by
    unfold smProgramFailed
    have put (e : BlockEntry) : Spares o s (s.putBlock p.block e) := .of_apart rfl rfl rfl rfl rfl rfl
    exact (put _).trans (notify_spares _ _)
  have ran := failed.trans (runCommit_spares (failed.own ▸ peer))
  exact ran.trans (evaluateReclaim_spares low (ran.groupSize ▸ high))

theorem grantRounds_spares (low : 1 ≤ o) : (n : Nat) → {s : State} → o ≤ s.groupSize → o ≠ s.own → Spares o s (s.grantRounds n)
  | 0, s, _, _ => .refl o s
  | n + 1, s, high, peer => by
    by_cases w : NoRefusal s
    · exact (grantRounds_grants (n + 1) s w).spares
    · cases running : s.storeRuns with
      | false =>
        rw [grantRounds_of_busy (.inl running)]
        exact .refl o s
      | true =>
      cases free : s.fc.op with
      | some op =>
        rw [grantRounds_of_busy (.inr (by rw [free]; rfl))]
        exact .refl o s
      | none =>
        obtain ⟨c, claim, kept, set⟩ := refusal_of_not_noRefusal w
        rw [grantRounds_refused running free claim kept set]
        have fails : Spares o s ((s.setFc { s.fc with programClaim := none }).fcProgramFails) := .of_apart rfl rfl rfl rfl rfl rfl
        have failed := fails.trans (programFailed_spares low (fails.groupSize ▸ high) (fails.own ▸ peer) c.target)
        exact failed.trans (grantRounds_spares low n (failed.groupSize ▸ high) (failed.own ▸ peer))

theorem grant_spares {s : State} (low : 1 ≤ o) (high : o ≤ s.groupSize) (peer : o ≠ s.own) : Spares o s s.grant :=
  grantRounds_spares low _ high peer

/-! ## A segment (R125 to R134) -/

theorem tellRp_spares (s : State) : Spares o s s.tellRp := .of_told rfl rfl rfl rfl

theorem bump_spares (s : State) (k : Counter) : Spares o s (s.bump k) := .of_apart rfl rfl rfl rfl rfl rfl

/-- A slot's content replaced by content of the same record, or with RP told. -/
theorem putSlot_spares {s : State} {i : Nat} (inside : i < 8) {x : Slot} (h : s.rp.rerunDue = true
    ∨ ∀ d, x.data = some d → ∃ c, (place s.ra.slots .free i).data = some c ∧ c.origin = d.origin ∧ c.seq = d.seq) :
    Spares o s (s.putSlot i x) := by
  rcases h with told | same
  · exact .of_told rfl rfl rfl told
  · refine .of_still rfl rfl rfl rfl fun n => ?_
    rintro (⟨j, d, held, origin, seq⟩ | placed)
    · rw [place_putSlot s inside] at held
      split at held
      · next here =>
        obtain ⟨c, hc, origin', seq'⟩ := same d held
        exact .inl ⟨i, c, hc, origin'.trans origin, seq'.trans seq⟩
      · exact .inl ⟨j, d, held, origin, seq⟩
    · exact .inr placed

theorem enqueueSlot_spares {s : State} (peer : o ≠ s.own) (i : Nat) : Spares o s (s.enqueueSlot i) := by
  unfold enqueueSlot
  split
  · have queued : Spares o s (s.setCe { s.ce with queue := s.ce.queue ++ [.slot i] }) := .of_apart rfl rfl rfl rfl rfl rfl
    exact queued.trans (runCommit_spares peer)
  · exact .of_still rfl rfl rfl rfl fun _ => id

theorem storeSegment_spares {s : State} (peer : o ≠ s.own) {i : Nat} (inside : i < 8) {d : SlotData} (h : s.rp.rerunDue = true
    ∨ ∃ c, (place s.ra.slots .free i).data = some c ∧ c.origin = d.origin ∧ c.seq = d.seq) (g : Segment) :
    Spares o s (s.storeSegment i d g) := by
  unfold storeSegment
  dsimp only
  split
  · unfold finishSlot
    split
    · have put : Spares o s (s.putSlot i (.complete { d with parts := insertPart g.index g.payload d.parts })) :=
        putSlot_spares inside (h.imp_right fun same _ e => by cases e; exact same)
      exact put.trans (enqueueSlot_spares (put.own ▸ peer) i)
    · exact .of_told rfl rfl rfl rfl
  · exact putSlot_spares inside (h.imp_right fun same _ e => by cases e; exact same)

theorem matchSegment_spares {s : State} (peer : o ≠ s.own) (g : Segment) : Spares o s (s.matchSegment g) := by
  unfold matchSegment
  split
  · next i slotted =>
    obtain ⟨inside, -⟩ := slotOf_spec slotted
    split
    · next d held =>
      split
      · exact bump_spares ..
      · split
        · exact .refl o s
        · exact storeSegment_spares peer inside (.inr ⟨d, held, rfl, rfl⟩) g
    · exact .refl o s
  · split
    · unfold allocateSlot
      split
      · exact bump_spares ..
      · next i free =>
        obtain ⟨inside, -⟩ := (firstPlace_eq_some_iff .free).mp free
        exact (tellRp_spares s).trans (storeSegment_spares (s := s.tellRp) peer inside (.inl rfl) g)
    · exact bump_spares ..
    · exact bump_spares ..
    · exact bump_spares ..
    · exact .refl o s
    · exact .refl o s

end State

end Sys2Proof.Machine

/-! What a re-run does to the missing set of an origin and to its entry of the ask list (R167, R171). -/

namespace Sys2Proof.Machine

open Sys2Proof.Safety

/-- R171: the entry from number `q` on; its last number stays. -/
def AskEntry.startAt (a : AskEntry) (q : Nat) : AskEntry := { a with first := q, count := a.first + a.count - 1 + 1 - q }

/-- An activity of the repair unit that makes no number of origin `o` missing. -/
structure Narrows (o : Nat) (s t : State) : Prop where
  repairs : Repairs s t
  wellFormed : entryOk (t.entry o) = true
  missing : ∀ n, inRuns (t.missingRuns o) n → inRuns (s.missingRuns o) n

theorem Narrows.trans {o : Nat} {s t u : State} (h : Narrows o s t) (k : Narrows o t u) : Narrows o s u :=
  ⟨h.repairs.trans k.repairs, k.wellFormed, fun n w => h.missing n (k.missing n w)⟩

theorem Repairs.missingRuns {o : Nat} {s t : State} (h : Repairs s t) (entry : t.entry o = s.entry o) :
    t.missingRuns o = s.missingRuns o := by
  have cell (p : Nat) : t.cell p o = s.cell p o := by
    unfold State.cell State.row
    rw [h.hu]
  have peers : t.peers = s.peers := by rw [State.peers, h.ownNumber, h.groupSize, State.peers]
  unfold State.missingRuns State.unsettledRanges State.bestFrontier
  rw [h.ownNumber, h.groupSize, h.pendingOf, entry, peers]
  simp only [cell]

theorem Repairs.narrows {o : Nat} {s t : State} (h : Repairs s t) (entry : t.entry o = s.entry o) (w : entryOk (s.entry o) = true) :
    Narrows o s t := ⟨h, entry ▸ w, fun _ k => h.missingRuns entry ▸ k⟩

/-- An activity of the repair unit that leaves origin `o` and the entry in place `i` alone. -/
structure Minds (o i : Nat) (s t : State) : Prop where
  repairs : Repairs s t
  entry : t.entry o = s.entry o
  ask : t.ask i = s.ask i
  others : (∀ j, j ≠ i → ∀ x, s.ask j = some x → x.origin ≠ o) → ∀ j, j ≠ i → ∀ x, t.ask j = some x → x.origin ≠ o

namespace Minds

variable {o i : Nat} {s t u : State}

theorem refl (o i : Nat) (s : State) : Minds o i s s := ⟨.refl s, rfl, rfl, id⟩

theorem trans (h : Minds o i s t) (k : Minds o i t u) : Minds o i s u :=
  ⟨h.repairs.trans k.repairs, k.entry.trans h.entry, k.ask.trans h.ask, k.others ∘ h.others⟩

end Minds

namespace State

variable {s t : State} {o : Nat}

theorem entry_abandon {p a b : Nat} (h : s.abandon p a b = some t) (apart : p ≠ o) : t.entry o = s.entry o := by
  obtain ⟨-, rfl⟩ := abandon_eq_some_iff.mp h
  rw [notify_eq]
  show (s.putEntry p _).entry o = _
  rw [entry_putEntry, if_neg fun here => apart here.1]

theorem unsettled_of_missing (low : 1 ≤ o) (high : o ≤ s.groupSize) (peer : o ≠ s.own) (w : entryOk (s.entry o) = true) {n : Nat}
    (h : inRuns (s.missingRuns o) n) : ¬ (s.entry o).settled n = true := by
  intro settled
  obtain ⟨-, inside, clear⟩ := Entry.settled_iff.mp settled
  rcases ((inRuns_missingRuns low high peer w).mp h).1 with gap | ⟨above, -⟩
  · exact absurd (gap.symm.trans clear) nofun
  · omega

/-- An abandoned run [a, b] that was missing: the numbers missing after it were missing before. -/
theorem Abandons.missing_le {a b : Nat} (h : Abandons s t o b) (low : 1 ≤ o) (high : o ≤ s.groupSize) (peer : o ≠ s.own)
    (w : entryOk (s.entry o) = true) (run : ∀ n, a ≤ n → n ≤ b → inRuns (s.missingRuns o) n) (some_number : a ≤ b) {n : Nat}
    (missing : inRuns (t.missingRuns o) n) : inRuns (s.missingRuns o) n := by
  have low' : o ≤ t.groupSize := h.repairs.groupSize ▸ high
  have peer' : o ≠ t.own := h.repairs.ownNumber ▸ peer
  by_cases above : b < n
  · exact (h.missing low high peer w above).mp missing
  by_cases inside : a ≤ n
  · exact run n inside (by omega)
  have floor : (s.entry o).floor ≤ n := by
    rw [← h.repairs.floor]
    exact (missingRuns_apart low low' peer' h.wellFormed).le_of_inRuns missing
  have unsettled : ¬ (s.entry o).settled n = true := fun settled =>
    unsettled_of_missing low low' peer' h.wellFormed missing (h.repairs.settled o n settled)
  have pending : s.isPending o n = false := by
    have := ((inRuns_missingRuns low low' peer' h.wellFormed).mp missing).2
    rwa [isPending, h.repairs.pendingOf] at this
  refine (inRuns_missingRuns low high peer w).mpr ⟨?_, pending⟩
  cases gap : (s.entry o).inGap n with
  | true => exact .inl rfl
  | false =>
    have past : (s.entry o).top < n := by
      refine Classical.byContradiction fun under => ?_
      exact unsettled (Entry.settled_iff.mpr ⟨floor, by omega, gap⟩)
    rcases ((inRuns_missingRuns low high peer w).mp (run a (Nat.le_refl a) some_number)).1 with gap' | ⟨-, c, known, far⟩
    · have := inGap_of_gapsOk (entryOk_iff.mp w).2.2.1 rfl gap'
      omega
    · exact .inr ⟨past, c, known, by omega⟩

section
variable (low : 1 ≤ o)
include low

theorem abandon_narrows {p q b : Nat} (high : o ≤ s.groupSize) (peer : o ≠ s.own) (small : s.groupSize ≤ 24)
    (w : entryOk (s.entry o) = true) (run : p = o → q ≤ b ∧ ∀ n, q ≤ n → n ≤ b → inRuns (s.missingRuns o) n)
    (h : s.abandon p q b = some t) (repairs : Repairs s t) : Narrows o s t := by
  by_cases here : p = o
  · subst here
    have abandons := abandon_abandons low (Nat.le_trans high small) w h
    exact ⟨repairs, abandons.wellFormed, fun n => abandons.missing_le low high peer w (run rfl).2 (run rfl).1⟩
  · exact repairs.narrows (entry_abandon h here) w

theorem evaluateAskRounds_narrows {i : Nat} {a : AskEntry} : (n : Nat) → {s : State} → {u : Nat} → o ≤ s.groupSize → o ≠ s.own →
    s.groupSize ≤ 24 → entryOk (s.entry o) = true → Narrows o s (s.evaluateAskRounds n i a u)
  | 0, s, _, _, _, _, w => (Repairs.refl s).narrows rfl w
  | n + 1, s, u, high, peer, small, w => by
    cases found : lowestFrom u (s.missingRuns a.origin) with
    | none =>
      rw [evaluate_nothing found]
      exact (removeAsk_repairs ..).narrows rfl w
    | some r =>
    cases responder : s.responderFor a.skip a.origin r.lo with
    | some p =>
      rw [evaluate_asks found responder]
      exact (putAsk_repairs ..).narrows rfl w
    | none =>
    cases covered : (s.unskipped a.skip).any fun p => s.rowCovers p a.origin r.lo with
    | true =>
      rw [evaluate_waits found responder covered]
      exact (putAsk_repairs ..).narrows rfl w
    | false =>
    rw [evaluate_abandons found responder covered]
    obtain ⟨-, plow, phigh⟩ := origin_of_missingRuns found
    cases abandoned : s.abandon a.origin r.lo (s.abandonEnd a.skip a.origin r.lo r.hi) with
    | none => exact (putAsk_repairs ..).narrows rfl w
    | some t =>
    have repairs := abandon_repairs abandoned fun few => ⟨plow, Nat.le_trans phigh few⟩
    have narrows : Narrows o s t := abandon_narrows low high peer small w (fun here => by
      have run := lowestFrom_eq_some (missingRuns_apart low high peer w) (here ▸ found)
      obtain ⟨least, most, -⟩ := abandonEnd_spec (s := s) (o := a.origin) (skip := a.skip) run.some_number
      exact ⟨least, fun n lo hi => run.runs n lo (Nat.le_trans hi most)⟩) abandoned repairs
    have size := repairs.groupSize
    exact narrows.trans (evaluateAskRounds_narrows n (size ▸ high) (repairs.ownNumber ▸ peer) (size ▸ small) narrows.wellFormed)

theorem evaluateAsk_narrows (high : o ≤ s.groupSize) (peer : o ≠ s.own) (small : s.groupSize ≤ 24) (w : entryOk (s.entry o) = true)
    (i : Nat) (a : AskEntry) (u : Nat) : Narrows o s (s.evaluateAsk i a u) := evaluateAskRounds_narrows low _ high peer small w

theorem rerunPlace_narrows (high : o ≤ s.groupSize) (peer : o ≠ s.own) (small : s.groupSize ≤ 24) (w : entryOk (s.entry o) = true)
    (i : Nat) : Narrows o s (s.rerunPlace i) := by
  unfold rerunPlace
  split
  · exact (Repairs.refl s).narrows rfl w
  · split
    · refine (advanceAsk_repairs ..).narrows ?_ w
      unfold advanceAsk
      dsimp only
      split
      · split
        · rfl
        · rfl
      · rfl
    · exact evaluateAsk_narrows low high peer small w ..

theorem createAt_narrows (high : o ≤ s.groupSize) (peer : o ≠ s.own) (small : s.groupSize ≤ 24) (w : entryOk (s.entry o) = true)
    (p : Nat) : Narrows o s (s.createAt p) := by
  unfold createAt
  split
  · exact (Repairs.refl s).narrows rfl w
  · split
    · exact evaluateAsk_narrows low high peer small w ..
    · exact (Repairs.refl s).narrows rfl w

omit low in
theorem foldl_narrows {α : Type} {f : State → α → State}
    (h : ∀ (s : State) (x : α), o ≤ s.groupSize → o ≠ s.own → s.groupSize ≤ 24 → entryOk (s.entry o) = true → Narrows o s (f s x)) :
    (xs : List α) → {s : State} → o ≤ s.groupSize → o ≠ s.own → s.groupSize ≤ 24 → entryOk (s.entry o) = true → Narrows o s (xs.foldl f s)
  | [], s, _, _, _, w => (Repairs.refl s).narrows rfl w
  | x :: xs, s, high, peer, small, w => by
    have first := h s x high peer small w
    have size := first.repairs.groupSize
    exact first.trans (foldl_narrows h xs (size ▸ high) (first.repairs.ownNumber ▸ peer) (size ▸ small) first.wellFormed)

end

/-! ## The entry of another origin in another place -/

section
variable {i j : Nat} (inside : j < 4) (apart : i ≠ j)
include inside apart

theorem putAsk_minds {x : Option AskEntry} (other : ∀ a, x = some a → a.origin ≠ o) : Minds o i s (s.putAsk j x) := by
  refine ⟨putAsk_repairs .., rfl, by rw [ask_putAsk s inside, if_neg apart], fun others k hk a h => ?_⟩
  rw [ask_putAsk s inside] at h
  split at h
  · exact other a h
  · exact others k hk a h

theorem removeAsk_minds (p : Nat) : Minds o i s (s.removeAsk j p) := by
  have put := putAsk_minds (s := s) (o := o) (x := none) inside apart nofun
  exact ⟨removeAsk_repairs .., rfl, put.ask, put.others⟩

theorem evaluateAskRounds_minds {a : AskEntry} (other : a.origin ≠ o) : (n : Nat) → {s : State} → {u : Nat} →
    Minds o i s (s.evaluateAskRounds n j a u)
  | 0, s, _ => .refl o i s
  | n + 1, s, u => by
    cases found : lowestFrom u (s.missingRuns a.origin) with
    | none =>
      rw [evaluate_nothing found]
      exact removeAsk_minds inside apart _
    | some r =>
    cases responder : s.responderFor a.skip a.origin r.lo with
    | some p =>
      rw [evaluate_asks found responder]
      exact putAsk_minds inside apart fun _ h => by cases h; exact other
    | none =>
    cases covered : (s.unskipped a.skip).any fun p => s.rowCovers p a.origin r.lo with
    | true =>
      rw [evaluate_waits found responder covered]
      exact putAsk_minds inside apart fun _ h => by cases h; exact other
    | false =>
    rw [evaluate_abandons found responder covered]
    obtain ⟨-, low, high⟩ := origin_of_missingRuns found
    cases abandoned : s.abandon a.origin r.lo (s.abandonEnd a.skip a.origin r.lo r.hi) with
    | none => exact putAsk_minds inside apart fun _ h => by cases h; exact other
    | some t =>
    have repairs := abandon_repairs abandoned fun few => ⟨low, Nat.le_trans high few⟩
    have first : Minds o i s t := by
      have asks : t.rp.asks = s.rp.asks := by
        obtain ⟨-, rfl⟩ := abandon_eq_some_iff.mp abandoned
        rw [notify_eq]
        show (s.putEntry _ _).rp.asks = s.rp.asks
        rw [putEntry_same]
      refine ⟨repairs, entry_abandon abandoned other, by rw [ask, asks, ask], fun others k hk x h => others k hk x ?_⟩
      rwa [ask, asks] at h
    exact first.trans (evaluateAskRounds_minds other n)

theorem rerunPlace_minds (others : ∀ j, j ≠ i → ∀ x, s.ask j = some x → x.origin ≠ o) : Minds o i s (s.rerunPlace j) := by
  unfold rerunPlace
  split
  · exact .refl o i s
  · next a held =>
    have other := others j apart.symm a held
    split
    · unfold advanceAsk
      dsimp only
      split
      · split
        · exact putAsk_minds inside apart fun _ h => by cases h; exact other
        · exact removeAsk_minds inside apart _
      · exact removeAsk_minds inside apart _
    · exact evaluateAskRounds_minds inside apart other _

end

theorem rerunPlaces_minds {i : Nat} : (js : List Nat) → {s : State} → (∀ j ∈ js, j < 4 ∧ i ≠ j) →
    (∀ j, j ≠ i → ∀ x, s.ask j = some x → x.origin ≠ o) → Minds o i s (js.foldl rerunPlace s)
  | [], s, _, _ => .refl o i s
  | j :: js, s, places, others => by
    obtain ⟨inside, apart⟩ := places j List.mem_cons_self
    have first := rerunPlace_minds inside apart others
    exact first.trans (rerunPlaces_minds js (fun k mem => places k (List.mem_cons_of_mem j mem)) (first.others others))

/-- R168: an origin that the ask list holds gets no second entry. -/
theorem createAt_minds {i : Nat} {e : AskEntry} (hi : i < 4) (held : s.ask i = some e) (here : e.origin = o) (p : Nat) :
    Minds o i s (s.createAt p) := by
  by_cases same : p = o
  · rw [createAt_of_excluded (.inr (.inr ⟨i, e, hi, held, here.trans same.symm⟩))]
    exact .refl o i s
  · unfold createAt
    split
    · exact .refl o i s
    · next j free =>
      obtain ⟨inside, empty, -⟩ := (firstPlace_eq_some_iff none).mp free
      have apart : i ≠ j := by
        rintro rfl
        rw [← ask, held] at empty
        cases empty
      split
      · exact evaluateAskRounds_minds inside apart same _
      · exact .refl o i s

theorem createPass_minds {i : Nat} {e : AskEntry} (hi : i < 4) (here : e.origin = o) : (ps : List Nat) → {s : State} →
    s.ask i = some e → Minds o i s (ps.foldl createAt s)
  | [], s, _ => .refl o i s
  | p :: ps, s, held => by
    have first := createAt_minds hi held here p
    exact first.trans (createPass_minds hi here ps (first.ask.trans held))

/-! ## The entry of the origin (R171) -/

/-- What becomes of entry `a` in place `i`: with a number of its range missing, it starts at the lowest such number. -/
def AdvancedTo (t : State) (i : Nat) (a : AskEntry) : Prop :=
  ∀ q, a.first ≤ q → q ≤ a.first + a.count - 1 → inRuns (t.missingRuns a.origin) q →
    (∀ n, a.first ≤ n → n < q → ¬ inRuns (t.missingRuns a.origin) n) → t.ask i = some (a.startAt q)

/-- What is left of a re-run after a place: the places `js`, and the creation pass. -/
def finishRerun (js : List Nat) (s : State) : State := (js.foldl rerunPlace s).creationOrder.foldl createAt (js.foldl rerunPlace s)

theorem finishRerun_minds {js : List Nat} {i : Nat} {e : AskEntry} (hi : i < 4) (held : s.ask i = some e) (here : e.origin = o)
    (places : ∀ j ∈ js, j < 4 ∧ i ≠ j) (others : ∀ j, j ≠ i → ∀ x, s.ask j = some x → x.origin ≠ o) :
    Minds o i s (s.finishRerun js) := by
  have rest := rerunPlaces_minds js places others
  exact rest.trans (createPass_minds hi here _ (rest.ask.trans held))

theorem finishRerun_narrows (js : List Nat) (low : 1 ≤ o) (high : o ≤ s.groupSize) (peer : o ≠ s.own) (small : s.groupSize ≤ 24)
    (w : entryOk (s.entry o) = true) : Narrows o s (s.finishRerun js) := by
  have rest := foldl_narrows (fun _ j h p k w => rerunPlace_narrows low h p k w j) js high peer small w
  have size := rest.repairs.groupSize
  exact rest.trans (foldl_narrows (fun _ j h p k w => createAt_narrows low h p k w j) _ (size ▸ high) (rest.repairs.ownNumber ▸ peer)
    (size ▸ small) rest.wellFormed)

theorem places_around {i : Nat} (hi : i < 4) :
    ∃ before after, [0, 1, 2, 3] = before ++ i :: after ∧ ∀ j, j ∈ before ∨ j ∈ after → j < 4 ∧ i ≠ j := by
  match i, hi with
  | 0, _ => exact ⟨[], [1, 2, 3], rfl, fun j mem => by simp only [List.mem_cons, List.not_mem_nil, or_false, false_or] at mem; omega⟩
  | 1, _ => exact ⟨[0], [2, 3], rfl, fun j mem => by simp only [List.mem_cons, List.not_mem_nil, or_false] at mem; omega⟩
  | 2, _ => exact ⟨[0, 1], [3], rfl, fun j mem => by simp only [List.mem_cons, List.not_mem_nil, or_false] at mem; omega⟩
  | 3, _ => exact ⟨[0, 1, 2], [], rfl, fun j mem => by simp only [List.mem_cons, List.not_mem_nil, or_false] at mem; omega⟩

section
variable {i : Nat} {a : AskEntry} (hi : i < 4) (others : ∀ j, j ≠ i → ∀ x, s.ask j = some x → x.origin ≠ a.origin)
  (low : 1 ≤ a.origin) (high : a.origin ≤ s.groupSize) (peer : a.origin ≠ s.own) (w : entryOk (s.entry a.origin) = true)
include hi others low high peer w

/-- The place of the entry, and the rest of the re-run. -/
theorem advanceAsk_advances {after : List Nat} (small : s.groupSize ≤ 24) (places : ∀ j ∈ after, j < 4 ∧ i ≠ j) :
    ((s.advanceAsk i a).finishRerun after).AdvancedTo i a := by
  have apart := missingRuns_apart low high peer w
  intro q first last missing lowest
  by_cases some_missing : ∃ n, a.first ≤ n ∧ n ≤ a.first + a.count - 1 ∧ inRuns (s.missingRuns a.origin) n
  · obtain ⟨m, ⟨from_first, to_last, still⟩, first_of_them⟩ := exists_least_number some_missing
    have least (n : Nat) (lo : a.first ≤ n) (hi : n < m) : ¬ inRuns (s.missingRuns a.origin) n :=
      fun k => Nat.not_le.mpr hi (first_of_them n ⟨lo, by omega, k⟩)
    have advanced : s.advanceAsk i a = s.putAsk i (some (a.startAt m)) := advanceAsk_of_missing apart from_first to_last still least
    have put := ask_putAsk s hi (some (a.startAt m))
    have here : (s.putAsk i (some (a.startAt m))).ask i = some (a.startAt m) := by rw [put, if_pos rfl]
    have ends := finishRerun_minds hi here rfl places fun j hj x h => others j hj x (by rwa [put, if_neg hj] at h)
    have same_missing : ((s.putAsk i (some (a.startAt m))).finishRerun after).missingRuns a.origin = s.missingRuns a.origin :=
      (ends.repairs.missingRuns ends.entry).trans ((putAsk_repairs ..).missingRuns rfl)
    rw [advanced] at missing lowest ⊢
    rw [same_missing] at missing lowest
    have same : m = q := by
      refine Classical.byContradiction fun differ => ?_
      rcases Nat.lt_or_gt_of_ne differ with below | above
      · exact lowest m from_first below still
      · exact least q first above missing
    rw [ends.ask, here, same]
  · refine absurd ⟨q, first, last, ?_⟩ some_missing
    rw [advanceAsk_of_none apart fun n lo hi k => some_missing ⟨n, lo, hi, k⟩] at missing
    have removed : Narrows a.origin s (s.removeAsk i a.origin) := (removeAsk_repairs ..).narrows rfl w
    exact (removed.trans (finishRerun_narrows after low high peer small removed.wellFormed)).missing q missing

theorem rerun_advances {p : Nat} {due timer : Bool} (small : s.groupSize ≤ 24) (held : s.ask i = some a)
    (asked : a.state = .asked p due timer) : s.rerun.AdvancedTo i a := by
  obtain ⟨before, after, split, places⟩ := places_around hi
  have begins := rerunPlaces_minds before (fun j mem => places j (.inl mem)) others
  have rerun : s.rerun = ((before.foldl rerunPlace s).rerunPlace i).finishRerun after := by
    unfold State.rerun finishRerun
    rw [split, List.foldl_append, List.foldl_cons]
  rw [rerun, rerunPlace_of_asked (begins.ask.trans held) asked]
  have size := begins.repairs.groupSize
  exact advanceAsk_advances hi (begins.others others) low (size ▸ high) (begins.repairs.ownNumber ▸ peer) (begins.entry ▸ w)
    (size ▸ small) fun j mem => places j (.inr mem)

end

end State

end Sys2Proof.Machine


namespace Sys2Proof.Machine

open Sys2Proof.Safety

namespace State

variable {s : State} {o : Nat}

theorem referred_spares (s : State) (p : CarrierPeriod) (l : Nat) : Spares o s (s.referred p l) := .of_apart rfl rfl rfl rfl rfl rfl

theorem heard_spares (s : State) (p : Nat) : Spares o s (s.heard p) := by
  have present : Spares o s (s.setPresence p .present true) := ⟨rfl, rfl, rfl, id, id, .inr ⟨rfl, fun _ => id⟩⟩
  unfold heard
  dsimp only
  split
  · exact present
  · exact (present.trans (notify_spares _ _)).trans (tellRp_spares _)

/-- R125, R126: what RA and the receive counters make of a SEG, before the command's evaluations. -/
def matchBody (s : State) (body : List Byte) : State :=
  if (segmentOf body).origin == s.own then s
  else if !(segmentOf body).consistent s.groupSize then s.bump .mismatch
  else s.matchSegment (segmentOf body)

theorem matchBody_spares (peer : o ≠ s.own) (body : List Byte) : Spares o s (s.matchBody body) := by
  unfold matchBody
  split
  · exact .refl o s
  · split
    · exact bump_spares ..
    · exact matchSegment_spares peer _

theorem ask_resendHeard (s : State) (p n i : Nat) : (s.resendHeard p n).ask i = s.ask i := by
  unfold resendHeard
  split
  · next j found =>
    obtain ⟨inside, -⟩ := (firstPlace_eq_some_iff none).mp found
    split
    · next a held =>
      split
      · next q due state =>
        split
        · rw [ask_putAsk s inside]
          split
          · next here =>
            subst here
            rw [held, ← state]
          · rfl
        · rfl
      · rfl
    · rfl
  · rfl

theorem entry_resendHeard (s : State) (p n : Nat) : (s.resendHeard p n).entry o = s.entry o := by
  unfold resendHeard
  split
  · split
    · split
      · split
        · rfl
        · rfl
      · rfl
    · rfl
  · rfl

/-- R174: a resend report changes neither the ask list's content nor the missing sets. -/
theorem takeSegment_eq (s : State) (body : List Byte) :
    Repairs ((s.matchBody body).settleAll) (s.takeSegment body) ∧ (∀ i, (s.takeSegment body).ask i = ((s.matchBody body).settleAll).ask i)
      ∧ ∀ o, (s.takeSegment body).entry o = ((s.matchBody body).settleAll).entry o := by
  unfold takeSegment matchBody
  dsimp only
  split
  · exact ⟨.refl _, fun _ => rfl, fun _ => rfl⟩
  · split
    · exact ⟨.refl _, fun _ => rfl, fun _ => rfl⟩
    · split
      · exact ⟨resendHeard_repairs .., ask_resendHeard _ _ _, fun o => entry_resendHeard _ _ _⟩
      · exact ⟨.refl _, fun _ => rfl, fun _ => rfl⟩

theorem isPending_iff_awaits {n : Nat} (peer : o ≠ s.own) : s.isPending o n = true ↔ s.awaits o n := by
  rw [isPending_iff, mem_pendingOf_peer peer]

end State

/-- RP not told: what is missing was missing, and stays missing. -/
theorem Spares.missing {o n : Nat} {s t : State} (h : Spares o s t) (quiet : t.rp.rerunDue = false) (low : 1 ≤ o) (high : o ≤ s.groupSize)
    (peer : o ≠ s.own) (w : entryOk (s.entry o) = true) (missing : inRuns (s.missingRuns o) n) : inRuns (t.missingRuns o) n := by
  rcases h.spared with told | ⟨entry, awaits⟩
  · exact absurd (quiet.symm.trans told) nofun
  · have peers : t.peers = s.peers := by rw [State.peers, h.own, h.groupSize, State.peers]
    have cell (p : Nat) : t.cell p o = s.cell p o := by
      unfold State.cell State.row
      rw [h.matrix]
    rw [State.inRuns_missingRuns low (h.groupSize ▸ high) (h.own ▸ peer) (entry ▸ w), entry, peers]
    simp only [cell]
    obtain ⟨unsettled, free⟩ := (State.inRuns_missingRuns low high peer w).mp missing
    refine ⟨unsettled, ?_⟩
    rw [← Bool.not_eq_true, State.isPending_iff_awaits (h.own ▸ peer)]
    rw [← Bool.not_eq_true, State.isPending_iff_awaits peer] at free
    exact fun k => free (awaits n k)

namespace State

variable {s : State}

/-- R167, R171: the evaluations that end a command, for an entry whose first number was missing when it began. -/
theorem settleRepair_advances {g : State} {i p : Nat} {due timer : Bool} {a : AskEntry} (h : Spares a.origin s g)
    (active : s.station = some .active) (hi : i < 4) (held : s.ask i = some a) (asked : a.state = .asked p due timer)
    (others : ∀ j, j ≠ i → ∀ x, s.ask j = some x → x.origin ≠ a.origin) (low : 1 ≤ a.origin) (high : a.origin ≤ s.groupSize)
    (peer : a.origin ≠ s.own) (small : s.groupSize ≤ 24) (w : entryOk (s.entry a.origin) = true)
    (missing : inRuns (s.missingRuns a.origin) a.first) : (g.settleRepair).AdvancedTo i a := by
  have held' : g.ask i = some a := (h.ask i).trans held
  cases told : g.rp.rerunDue with
  | false =>
    have idle : g.settleRepair = g := if_neg (by rw [told]; exact Bool.false_ne_true)
    have still := h.missing told low high peer w missing
    rw [idle]
    intro q first last missing' lowest
    have same : q = a.first := by
      refine Classical.byContradiction fun differ => ?_
      exact lowest a.first (Nat.le_refl _) (by omega) still
    have positive : 1 ≤ a.first :=
      Nat.le_trans (entryOk_iff.mp w).1 ((missingRuns_apart low high peer w).le_of_inRuns missing)
    have start : a.startAt a.first = a := by
      have count : a.first + a.count - 1 + 1 - a.first = a.count := by omega
      unfold AskEntry.startAt
      rw [count]
    rw [same, start, held']
  | true =>
    have own := h.own
    have size := h.groupSize
    have active' : g.station = some .active := by rw [station, h.sc, ← station, active]
    rw [settleRepair_of_active told active']
    have advances := rerun_advances hi (fun j hj x k => others j hj x (h.ask j ▸ k)) low (size ▸ high) (own ▸ peer) (h.wellFormed w)
      (size ▸ small) held' asked
    generalize g.rerun = v at advances ⊢
    exact advances

end State

end Sys2Proof.Machine

namespace Sys2Proof.Proofs

open Sys2Proof.Machine Sys2Proof.Safety

/-- Settles O41. -/
theorem askAndRefuseTaken : Obligations.AskAndRefuseTaken := by
  refine ⟨?_, ?_, ?_⟩
  · intro s asker target body a last t malformed overlaps
    refine ⟨State.takeAsk_elsewhere, State.takeAsk_malformed, State.takeAsk_overlapping, fun here formed apart full => ?_,
      fun here formed apart room => ⟨fun some_job => ?_, fun no_job => ?_⟩⟩
    · have busy := State.takeAsk_busy here formed apart full
      refine ⟨fun room => busy.trans (if_pos room), fun none_room => busy.trans (if_neg fun room => ?_)⟩
      rcases none_room with full | repeated
      · omega
      · exact room.2 repeated
    · exact State.takeAsk_behind here formed apart room some_job
    · have head : t = (s.setRp { s.rp with jobs := [State.jobOf asker a] }).testHead := State.takeAsk_head here formed apart no_job
      have tests := State.testHead_tests (s := s.setRp { s.rp with jobs := [State.jobOf asker a] }) rfl
      rw [← head] at tests
      refine ⟨tests.headTested [], tests.same, fun unsettled => ?_, fun settled => ⟨fun st b found => ?_, fun nothing => ?_⟩⟩
      · exact (tests.unsettled unsettled).2
      · exact ⟨(tests.found settled st b found).1, (tests.found settled st b found).2.2⟩
      · exact (tests.absent settled nothing).2
  · intro s sender target body r t concerns
    refine ⟨State.takeRefuse_elsewhere, State.takeRefuse_unreadable, State.takeRefuse_busy, fun here notHeld => ⟨fun none_concerned => ?_,
      fun i a concerned => ?_⟩⟩
    · exact State.takeRefuse_apart here notHeld none_concerned
    · exact State.takeRefuse_concerns here notHeld concerned
  · intro s p b i responder a active calm listens good seg small hi held asked others low high peer w last missing first
    refine ⟨_, carrierEnd_of_good listens good, ?_⟩
    rw [State.handBody, seg]
    dsimp only
    have hears := (State.referred_spares s p (s.lastSenderOf b)).trans (State.heard_spares (o := a.origin) _ b.sender)
    generalize (s.referred p (s.lastSenderOf b)).heard b.sender = u at hears
    have matched := hears.trans (State.matchBody_spares (hears.own ▸ peer) b.body)
    have reclaimed := matched.trans (State.evaluateReclaim_spares low (matched.groupSize ▸ high))
    have granted := reclaimed.trans (State.grant_spares low (reclaimed.groupSize ▸ high) (reclaimed.own ▸ peer))
    have advanced := State.settleRepair_advances granted active hi held asked others low high peer small w first
    obtain ⟨repairs, asks, entries⟩ := State.takeSegment_eq u b.body
    have kept := repairs.missingRuns (entries a.origin)
    intro q from_first to_last still lowest
    have still : inRuns ((u.takeSegment b.body).missingRuns a.origin) q := still
    have lowest (n : Nat) (lo : a.first ≤ n) (hi : n < q) : ¬ inRuns ((u.takeSegment b.body).missingRuns a.origin) n := lowest n lo hi
    rw [kept] at still
    simp only [kept] at lowest
    rw [asks]
    refine (advanced q from_first to_last still lowest).trans ?_
    rw [AskEntry.startAt, ← asked]

end Sys2Proof.Proofs

/-! The own entry through the evaluations of a command. -/

namespace Sys2Proof.Machine

open Sys2Proof.Safety

/-- The floor stands as high as records of the entry's numbers can raise it. -/
def Entry.spent (e : Entry) : Prop := min (e.top + 1) Config.maxSeq ≤ e.floor

theorem Entry.raiseFloor_of_spent {e : Entry} (h : e.spent) {f : Nat} (low : f ≤ e.top + 1) : e.raiseFloor f = e := by
  have low : f ≤ e.top + 1 := low
  have spent : min (e.top + 1) Config.maxSeq ≤ e.floor := h
  rw [raiseFloor]
  rw [if_pos]
  omega

/-- An activity that takes nothing of the own origin above D, while D stands at or below T_own (R159). -/
structure KeepsOwn (s t : State) : Prop where
  keeps : Keeps s t
  ownTop : DurableOk s → t.ownTop = s.ownTop
  entry : DurableOk s → (s.entry s.own).spent → t.entry s.own = s.entry s.own

namespace KeepsOwn

variable {s t u : State}

theorem of_hu (keeps : Keeps s t) (hu : t.hu = s.hu) : KeepsOwn s t := by
  have entry (o : Nat) : t.entry o = s.entry o := by rw [State.entry, hu, State.entry]
  exact ⟨keeps, fun _ => by rw [State.ownTop, entry, keeps.own, State.ownTop], fun _ _ => entry _⟩

theorem refl (s : State) : KeepsOwn s s := .of_hu (.refl s) rfl

theorem trans (h : KeepsOwn s t) (k : KeepsOwn t u) : KeepsOwn s u where
  keeps := h.keeps.trans k.keeps
  ownTop w := (k.ownTop (h.keeps.durableOk w)).trans (h.ownTop w)
  entry w spent := by
    have first := h.entry w spent
    have second := k.entry (h.keeps.durableOk w)
    rw [h.keeps.own, first] at second
    exact second spent

end KeepsOwn

namespace State

variable {s : State}

theorem raiseFloors_ownEntry : {m : List SummaryLine} → {s : State} → (s.entry s.own).spent →
    (∀ l ∈ m, l.origin = s.own → l.highest ≤ s.ownTop) → (s.raiseFloors m).entry s.own = s.entry s.own
  | [], s, _, _ => rfl
  | l :: m, s, spent, low => by
    have own : (s.floorRaise l.origin (l.highest + 1)).own = s.own := (floorRaise_keeps ..).own
    have first : (s.floorRaise l.origin (l.highest + 1)).entry s.own = s.entry s.own := by
      unfold floorRaise
      split
      · rfl
      · rw [entry_putEntry]
        split
        · next mine =>
          have top := low l List.mem_cons_self mine.1
          rw [mine.1, Entry.raiseFloor_of_spent spent (by rw [entry_own_top]; omega)]
        · rfl
    have ownTop : (s.floorRaise l.origin (l.highest + 1)).ownTop = s.ownTop := by
      rw [State.ownTop, own, first, State.ownTop]
    have rest := raiseFloors_ownEntry (m := m) (s := s.floorRaise l.origin (l.highest + 1)) (by rwa [own, first]) fun x mem mine => by
      rw [ownTop]
      exact low x (List.mem_cons_of_mem _ mem) (own ▸ mine)
    rw [own, first] at rest
    exact rest

theorem select_ownEntry {b : Nat} (w : DurableOk s) (spent : (s.entry s.own).spent) (h : s.selection = some b) :
    (s.select b).entry s.own = s.entry s.own := by
  obtain ⟨-, -, -, eligible⟩ := selection_eq_some_iff.mp h
  rw [State.eligible, Bool.and_eq_true, List.all_eq_true] at eligible
  rw [entry, select_hu, ← entry]
  refine raiseFloors_ownEntry spent fun l mem mine => ?_
  have low := eligible.1 l mem
  rw [Bool.or_eq_true, bne_iff_ne, decide_eq_true_eq] at low
  exact Nat.le_trans (low.resolve_left fun k => k mine) w.1

theorem reclaimRounds_keepsOwn : (n : Nat) → (s : State) → KeepsOwn s (s.reclaimRounds n)
  | 0, s => .refl s
  | n + 1, s => by
    unfold reclaimRounds
    split
    · next b h =>
      have first : KeepsOwn s (s.select b) := ⟨select_keeps s b, fun w => select_ownTop w h, fun w spent => select_ownEntry w spent h⟩
      exact first.trans (reclaimRounds_keepsOwn n _)
    · exact .refl s

theorem evaluateReclaim_keepsOwn (s : State) : KeepsOwn s s.evaluateReclaim := by
  refine ⟨evaluateReclaim_keeps s, fun w => evaluateReclaim_ownTop w, fun w spent => ?_⟩
  unfold evaluateReclaim
  split
  · dsimp only
    split
    · exact (reclaimRounds_keepsOwn _ s).entry w spent
    · rfl
  · rfl

theorem runCommit_hu (s : State) : s.runCommit.hu = s.hu := by rw [runCommit_same]

theorem programFailed_keepsOwn (s : State) (p : PageAddr) : KeepsOwn s (s.programFailed p) := by
  have failed : KeepsOwn s (s.smProgramFailed p) := .of_hu (smProgramFailed_keeps s p) (by
    unfold smProgramFailed
    rw [notify_hu]
    rfl)
  exact (failed.trans (.of_hu (runCommit_keeps _) (runCommit_hu _))).trans (evaluateReclaim_keepsOwn _)

theorem grantRounds_keepsOwn : (n : Nat) → (s : State) → KeepsOwn s (s.grantRounds n)
  | 0, s => .refl s
  | n + 1, s => by
    by_cases w : NoRefusal s
    · exact .of_hu (grantRounds_keeps (n + 1) s) (grantRounds_grants (n + 1) s w).hu
    · cases running : s.storeRuns with
      | false =>
        rw [grantRounds_of_busy (.inl running)]
        exact .refl s
      | true =>
        cases free : s.fc.op with
        | some op =>
          rw [grantRounds_of_busy (.inr (by rw [free]; rfl))]
          exact .refl s
        | none =>
          obtain ⟨c, claim, kept, set⟩ := refusal_of_not_noRefusal w
          rw [grantRounds_refused running free claim kept set]
          have taken : KeepsOwn s (s.setFc { s.fc with programClaim := none }) := .of_hu (.setFc s rfl rfl) rfl
          have fails : KeepsOwn _ (s.setFc { s.fc with programClaim := none }).fcProgramFails := .of_hu (fcProgramFails_keeps _ free) rfl
          exact ((taken.trans fails).trans (programFailed_keepsOwn ..)).trans (grantRounds_keepsOwn n _)

theorem settleRepair_keepsOwn (s : State) : KeepsOwn s s.settleRepair := by
  have own := (settleRepair_repairs s).own
  refine ⟨settleRepair_keeps s, fun _ => ?_, fun _ _ => own⟩
  rw [State.ownTop, (settleRepair_keeps s).own, own, State.ownTop]

theorem settleAll_keepsOwn (s : State) : KeepsOwn s s.settleAll :=
  ((evaluateReclaim_keepsOwn s).trans (grantRounds_keepsOwn _ _)).trans (settleRepair_keepsOwn _)

end State

end Sys2Proof.Machine

/-! A REPORT or a HAIL taken (R92 to R96). -/

namespace Sys2Proof.Machine

open Sys2Proof.Safety

theorem classify_good_sender {own n : Nat} {p : CarrierPeriod} {b : Burst} (h : classify own n p = .good b) :
    1 ≤ b.sender ∧ b.sender ≤ n ∧ b.sender ≠ own := by
  unfold classify at h
  dsimp only at h
  split at h
  · cases h
  · split at h
    · cases h
    · split at h
      · cases h
      · split at h
        · cases h
        · next suits =>
          cases h
          simp only [Bool.or_eq_true, bne_iff_ne, beq_iff_eq, decide_eq_true_eq, not_or] at suits
          obtain ⟨⟨⟨⟨-, some_sender⟩, inside⟩, other⟩, -⟩ := suits
          exact ⟨Nat.pos_of_ne_zero some_sender, Nat.not_lt.mp inside, other⟩

theorem pairsWellFormed_iff {pairs : List Pair} :
    pairsWellFormed pairs = true ↔ ∀ q ∈ pairs, 1 ≤ q.floor ∧ q.floor ≤ q.frontier + 1 := by
  simp only [pairsWellFormed, List.all_eq_true, Bool.and_eq_true, decide_eq_true_eq]

theorem getElem?_pairAt {pairs : List Pair} {o : Nat} (low : 1 ≤ o) (high : o ≤ pairs.length) :
    pairs[o - 1]? = some (pairAt pairs o) := by
  have inside : o - 1 < pairs.length := by omega
  rw [pairAt, List.getElem?_eq_getElem inside]
  rfl

theorem adoptedEntry_eq (c : Nat) : adoptedEntry c = { floor := if c = Config.maxSeq then c else c + 1, top := c, gaps := [] } := by
  unfold adoptedEntry
  split
  · next largest => rw [← largest]
  · rfl

theorem spent_adoptedEntry (c : Nat) : (adoptedEntry c).spent := by
  rw [adoptedEntry_eq]
  show min (c + 1) Config.maxSeq ≤ if c = Config.maxSeq then c else c + 1
  split
  · omega
  · omega

namespace State

variable {s : State}

/-! ## The sender heard (R98) -/

theorem heard_hu (s : State) (p : Nat) :
    (s.heard p).hu = { s.hu with presence := setLine s.hu.presence p .present, silence := setLine s.hu.silence p true } := by
  unfold heard
  dsimp only
  split
  · rfl
  · show ((s.setPresence p .present true).notify (.peerPresent p)).hu = _
    rw [notify_hu]
    rfl

theorem heard_notices (s : State) (p : Nat) : NoticesOn s (s.heard p) := by
  unfold heard
  dsimp only
  split
  · exact .of_eq rfl
  · exact (NoticesOn.of_eq (s := s) (t := s.setPresence p .present true) rfl).trans
      ((NoticesOn.notify _ fun _ _ h => by cases h).trans (.of_eq rfl))

theorem cell_heard (s : State) (p q o : Nat) : (s.heard p).cell q o = s.cell q o := by
  unfold cell row
  rw [heard_hu]

theorem entry_heard (s : State) (p o : Nat) : (s.heard p).entry o = s.entry o := by
  unfold entry
  rw [heard_hu]

/-! ## What a well-formed report does -/

/-- R94 to R96: the own column of a report, before the row is stored: an adoption in JOINING, a conflict noted in ACTIVE. -/
def ownColumn (s : State) (p : Nat) (mine : Pair) : State :=
  if s.station == some .active then s.noteConflict p mine else s.adopt mine

/-- R95: the row as it is stored. -/
def storedRow (s : State) (pairs : List Pair) : List Pair :=
  if s.station == some .active then
    if s.ownTop < (pairAt pairs s.own).frontier then pairs.set (s.own - 1) (clampPair s.ownTop (pairAt pairs s.own)) else pairs
  else pairs

/-- What follows a row stored. -/
def reportTold (s : State) (isHail : Bool) : State := (if isHail then s.setReportPending else s).tellRp.evaluateDurable

theorem takeReport_malformed {isHail : Bool} {p : Nat} {body : List Byte} (bad : pairsWellFormed (pairsOf s.groupSize body) = false) :
    s.takeReport isHail p body = s.bump .badBursts := if_neg (by rw [bad]; exact Bool.false_ne_true)

theorem takeReport_wellFormed {isHail : Bool} {p : Nat} {body : List Byte} (good : pairsWellFormed (pairsOf s.groupSize body) = true) :
    s.takeReport isHail p body = ((s.ownColumn p (pairAt (pairsOf s.groupSize body) s.own)).putRow p
      (s.storedRow (pairsOf s.groupSize body))).reportTold isHail := by
  unfold takeReport ownColumn storedRow reportTold
  dsimp only
  rw [if_pos good]
  by_cases active : (s.station == some .active) = true
  · rw [if_pos active, if_pos active, if_pos active]
  · rw [if_neg active, if_neg active, if_neg active]

theorem length_storedRow (s : State) (pairs : List Pair) : (s.storedRow pairs).length = pairs.length := by
  unfold storedRow
  split
  · split
    · exact List.length_set
    · rfl
  · rfl

/-- R95: a stored row differs from the reported one in the own column alone. -/
theorem storedRow_elsewhere (s : State) (pairs : List Pair) {o : Nat} (low : 1 ≤ o) (own : 1 ≤ s.own) (other : o ≠ s.own) :
    (s.storedRow pairs)[o - 1]? = pairs[o - 1]? := by
  unfold storedRow
  split
  · split
    · exact List.getElem?_set_ne (by omega)
    · rfl
  · rfl

theorem storedRow_of_low {pairs : List Pair} (low : s.station = some .active → (pairAt pairs s.own).frontier ≤ s.ownTop) :
    s.storedRow pairs = pairs := by
  unfold storedRow
  split
  · next active => exact if_neg (Nat.not_lt.mpr (low (eq_of_beq active)))
  · rfl

theorem storedRow_of_high {pairs : List Pair} (active : s.station = some .active) (high : s.ownTop < (pairAt pairs s.own).frontier) :
    s.storedRow pairs = pairs.set (s.own - 1) (clampPair s.ownTop (pairAt pairs s.own)) := by
  rw [storedRow, if_pos (by rw [active]; rfl), if_pos high]

/-- A row whose own column stands at or below T_own. -/
theorem putRow_durableOk (w : DurableOk s) {p : Nat} {pairs : List Pair}
    (low : 1 ≤ s.own → ∀ c, pairs[s.own - 1]? = some c → c.frontier ≤ s.ownTop) : DurableOk (s.putRow p pairs) := by
  obtain ⟨durable, cells⟩ := w
  refine ⟨durable, fun q c h => ?_⟩
  show c.frontier ≤ s.ownTop
  have h : (s.putRow p pairs).cell q s.own = some c := h
  rw [cell_putRow] at h
  split at h
  · cases ho : s.own with
    | zero => rw [ho] at h; cases h
    | succ i =>
      rw [ho] at h
      exact low (by omega) c (by rw [ho]; exact h)
  · exact cells q c h

theorem reportTold_hu (s : State) (isHail : Bool) : (s.reportTold isHail).hu = { s.hu with
    reportPending := (s.reportTold isHail).hu.reportPending, durable := (s.reportTold isHail).hu.durable } := by
  unfold reportTold
  rw [evaluateDurable_same]
  split
  · rfl
  · rfl

theorem reportTold_ap (s : State) (isHail : Bool) : (s.reportTold isHail).ap = s.ap := by
  unfold reportTold
  rw [evaluateDurable_same]
  split
  · rfl
  · rfl

theorem reportPending_of_hail (s : State) : (s.reportTold true).hu.reportPending = true := by
  unfold reportTold
  rw [evaluateDurable_same]
  rfl

theorem reportTold_keeps (s : State) (isHail : Bool) : Keeps s (s.reportTold isHail) := by
  refine Keeps.trans ?_ ((tellRp_keeps _).trans (evaluateDurable_keeps _))
  split
  · exact setReportPending_keeps s
  · exact .refl s

theorem reportTold_notices (s : State) (isHail : Bool) : NoticesOn s (s.reportTold isHail) := by
  refine NoticesOn.trans (.of_eq ?_) (evaluateDurable_notices _).1
  split
  · rfl
  · rfl

/-! ## The own column -/

theorem noteConflict_hu (s : State) (p : Nat) (mine : Pair) : (s.noteConflict p mine).hu = { s.hu with
    conflictNoted := if s.ownTop < mine.frontier ∧ p ∉ s.hu.conflictNoted then s.hu.conflictNoted ++ [p] else s.hu.conflictNoted } := by
  unfold noteConflict
  split
  · rw [notify_hu]
    rfl
  · rfl

theorem adopt_hu (s : State) (mine : Pair) : (s.adopt mine).hu = { s.hu with
    entries := (s.adopt mine).hu.entries, reportPending := (s.adopt mine).hu.reportPending, durable := (s.adopt mine).hu.durable } := by
  unfold adopt
  split
  · rw [putEntry_same]
    rfl
  · rfl

theorem ownColumn_keeps (s : State) (p : Nat) (mine : Pair) : Keeps s (s.ownColumn p mine) := by
  unfold ownColumn
  split
  · exact noteConflict_keeps ..
  · exact adopt_keeps ..

theorem ownColumn_hu (s : State) (p : Nat) (mine : Pair) : (s.ownColumn p mine).hu = { s.hu with
    entries := (s.ownColumn p mine).hu.entries, reportPending := (s.ownColumn p mine).hu.reportPending,
    durable := (s.ownColumn p mine).hu.durable, conflictNoted := (s.ownColumn p mine).hu.conflictNoted } := by
  unfold ownColumn
  split
  · rw [noteConflict_hu]
  · rw [adopt_hu]

theorem ownColumn_ap (s : State) (p : Nat) (mine : Pair) : (s.ownColumn p mine).ap = s.ap := by
  unfold ownColumn
  split
  · unfold noteConflict
    split
    · rw [notify_eq]
      rfl
    · rfl
  · unfold adopt
    split
    · rw [putEntry_same]
    · rfl

end State

end Sys2Proof.Machine


namespace Sys2Proof.Machine

open Sys2Proof.Safety

theorem adoptedEntry_of_field {c : Nat} (h : c ≤ Config.maxSeq) :
    adoptedEntry c = { floor := min (c + 1) 4294967295, top := c, gaps := [] } := by
  have floor : (if c = Config.maxSeq then c else c + 1) = min (c + 1) 4294967295 := by
    rw [show Config.maxSeq = 4294967295 from rfl] at h ⊢
    split
    · omega
    · omega
  rw [adoptedEntry_eq, floor]

theorem ofBytes_lt : (bs : List Byte) → ofBytes bs < 256 ^ bs.length
  | [] => Nat.one_pos
  | b :: bs => by
    have rest := ofBytes_lt bs
    have byte : (b.toNat + 1) * 256 ^ bs.length ≤ 256 * 256 ^ bs.length := Nat.mul_le_mul_right _ b.isLt
    rw [Nat.succ_mul] at byte
    rw [ofBytes_cons, List.length_cons, Nat.pow_succ, Nat.mul_comm _ 256]
    exact Nat.lt_of_lt_of_le (Nat.add_lt_add_left rest _) byte

theorem field_lt (bs : List Byte) (off len : Nat) : field bs off len < 256 ^ len :=
  Nat.lt_of_lt_of_le (ofBytes_lt _) (Nat.pow_le_pow_right (by decide) (List.length_take_le ..))

theorem frontier_le_maxSeq (n : Nat) (body : List Byte) (o : Nat) : (pairAt (pairsOf n body) o).frontier ≤ Config.maxSeq := by
  rw [pairAt, pairsOf, List.getElem?_map]
  cases (List.range n)[o - 1]? with
  | none => exact Nat.zero_le _
  | some i => exact Nat.le_of_lt_succ (field_lt body (8 * i + 4) 4)

theorem Settles.cell {s t : State} (h : Settles s t) (p o : Nat) : t.cell p o = s.cell p o := by
  unfold State.cell State.row
  rw [h.hu]

theorem Settles.conflictNoted {s t : State} (h : Settles s t) : t.hu.conflictNoted = s.hu.conflictNoted := by rw [h.hu]

theorem Settles.same {s t : State} (h : Settles s t) {k : Counter} (other : k ∉ [Counter.damagedReads, .programFailures, .markFailures]) :
    t.counter k = s.counter k := h.counts.same k other

namespace State

variable {s : State}

theorem referred_entry (s : State) (p : CarrierPeriod) (l o : Nat) : (s.referred p l).entry o = s.entry o := rfl

/-- The state in which HU takes a report (R59 to R61, R98). -/
structure ReadyFor (s u : State) : Prop where
  sc : u.sc = s.sc
  entry : ∀ o, u.entry o = s.entry o
  cell : ∀ p o, u.cell p o = s.cell p o
  matrix : u.hu.matrix = s.hu.matrix
  conflictNoted : u.hu.conflictNoted = s.hu.conflictNoted
  durable : u.hu.durable = s.hu.durable
  bad : u.counter .badBursts = s.counter .badBursts
  notices : NoticesOn s u

theorem heard_ready (s : State) (p : CarrierPeriod) (l q : Nat) : ReadyFor s ((s.referred p l).heard q) := by
  have hears := heard_hears (s.referred p l) q
  have hu := heard_hu (s.referred p l) q
  have sc : ((s.referred p l).heard q).sc = s.sc := by rw [hears.same]; rfl
  have ap : ((s.referred p l).heard q).ap = (s.referred p l).ap := by rw [hears.same]
  refine ⟨sc, fun o => entry_heard .., fun r o => cell_heard .., by rw [hu]; rfl, by rw [hu]; rfl, by rw [hu]; rfl, ?_,
    (NoticesOn.of_eq (s := s) (t := s.referred p l) rfl).trans (heard_notices (s.referred p l) q)⟩
  rw [counter, ap]
  exact counter_bump_of_ne (s.setLc (Referenced s p l)) nofun

namespace ReadyFor

variable {u : State} (h : ReadyFor s u)
include h

theorem own : u.own = s.own := congrArg Sc.number h.sc
theorem groupSize : u.groupSize = s.groupSize := congrArg (fun x : Sc => (x.settings.map Settings.groupSize).getD 0) h.sc
theorem station : u.station = s.station := by rw [State.station, h.sc, State.station]
theorem ownTop : u.ownTop = s.ownTop := by rw [State.ownTop, h.own, h.entry, State.ownTop]
theorem durableOk (w : DurableOk s) : DurableOk u :=
  ⟨by rw [h.durable, h.ownTop]; exact w.1, fun p c => by rw [h.cell, h.own, h.ownTop]; exact w.2 p c⟩

end ReadyFor

/-! ## A well-formed report, with the evaluations after it -/

section
variable {isHail : Bool} {p : Nat} {body : List Byte} (good : pairsWellFormed (pairsOf s.groupSize body) = true)
include good

theorem takeReport_cell (q o : Nat) : (s.takeReport isHail p body).cell q o
    = ((s.putRow p (s.storedRow (pairsOf s.groupSize body))).cell q o) := by
  have matrix : (s.takeReport isHail p body).hu.matrix = (s.putRow p (s.storedRow (pairsOf s.groupSize body))).hu.matrix := by
    rw [takeReport_wellFormed good, reportTold_hu]
    show setLine (s.ownColumn p _).hu.matrix p _ = setLine s.hu.matrix p _
    rw [ownColumn_hu]
  unfold cell row
  rw [matrix]

theorem takeReport_conflictNoted : (s.takeReport isHail p body).hu.conflictNoted
    = (s.ownColumn p (pairAt (pairsOf s.groupSize body) s.own)).hu.conflictNoted := by
  rw [takeReport_wellFormed good, reportTold_hu]
  rfl

theorem takeReport_entry (o : Nat) : (s.takeReport isHail p body).entry o
    = (s.ownColumn p (pairAt (pairsOf s.groupSize body) s.own)).entry o := by
  rw [takeReport_wellFormed good, entry, reportTold_hu]
  rfl

theorem takeReport_counter (k : Counter) : (s.takeReport isHail p body).counter k = s.counter k := by
  rw [takeReport_wellFormed good, counter, reportTold_ap]
  show place (s.ownColumn p _).ap.counters 0 _ = _
  rw [ownColumn_ap, counter]

theorem takeReport_notices : NoticesOn (s.ownColumn p (pairAt (pairsOf s.groupSize body) s.own)) (s.takeReport isHail p body) := by
  rw [takeReport_wellFormed good]
  have put (v : State) (row : List Pair) : NoticesOn v (v.putRow p row) := .of_eq rfl
  exact (put _ _).trans (reportTold_notices _ _)

theorem takeReport_hail (hail : isHail = true) : (s.takeReport isHail p body).hu.reportPending = true := by
  rw [takeReport_wellFormed good, hail]
  exact reportPending_of_hail _

omit good in
/-- R94, R95: in JOINING the own column is at or below T_own after the adoption; in ACTIVE it is stored at or below T_own. -/
theorem storedRow_low (low : 1 ≤ s.own) (high : s.own ≤ 24) (inside : s.own ≤ s.groupSize) {c : Pair}
    (h : (s.storedRow (pairsOf s.groupSize body))[s.own - 1]? = some c) :
    c.frontier ≤ (s.ownColumn p (pairAt (pairsOf s.groupSize body) s.own)).ownTop := by
  have length := length_pairsOf s.groupSize body
  have monotone := (ownColumn_keeps s p (pairAt (pairsOf s.groupSize body) s.own)).ownTop
  by_cases clamped : s.station = some .active ∧ s.ownTop < (pairAt (pairsOf s.groupSize body) s.own).frontier
  · rw [storedRow_of_high clamped.1 clamped.2, List.getElem?_set_self (by omega)] at h
    cases h
    exact monotone
  · rw [storedRow_of_low fun active => Nat.not_lt.mp fun above => clamped ⟨active, above⟩, getElem?_pairAt low (by omega)] at h
    cases h
    by_cases active : s.station = some .active
    · exact Nat.le_trans (Nat.not_lt.mp fun above => clamped ⟨active, above⟩) monotone
    · rw [ownColumn, if_neg fun e => active (eq_of_beq e)]
      exact frontier_le_ownTop_adopt s _ low high

theorem takeReport_ownDurable (low : 1 ≤ s.own) (high : s.own ≤ 24) (inside : s.own ≤ s.groupSize) (w : DurableOk s) :
    DurableOk (s.takeReport isHail p body) := by
  have column := ownColumn_keeps s p (pairAt (pairsOf s.groupSize body) s.own)
  rw [takeReport_wellFormed good]
  refine (reportTold_keeps _ _).durableOk (putRow_durableOk (column.durableOk w) fun _ c h => ?_)
  rw [column.own] at h
  exact storedRow_low low high inside h

end

theorem cell_putRow_row {p o : Nat} (low : 1 ≤ p) (high : p ≤ 24) (some_origin : 1 ≤ o) (pairs : List Pair) :
    (s.putRow p pairs).cell p o = pairs[o - 1]? := by
  obtain ⟨i, rfl⟩ := Nat.exists_eq_add_of_le' some_origin
  rw [cell_putRow, if_pos ⟨rfl, low, high⟩]
  rfl

theorem cell_putRow_elsewhere {p q : Nat} (other : q ≠ p) (pairs : List Pair) (o : Nat) : (s.putRow p pairs).cell q o = s.cell q o := by
  rw [cell_putRow, if_neg fun here => other here.1.symm]

theorem ownColumn_active (active : s.station = some .active) (p : Nat) (mine : Pair) : s.ownColumn p mine = s.noteConflict p mine :=
  if_pos (by rw [active]; rfl)

theorem ownColumn_joining (joining : s.station = some .joining) (p : Nat) (mine : Pair) : s.ownColumn p mine = s.adopt mine :=
  if_neg (by rw [joining]; exact Bool.false_ne_true)

theorem entry_adopt (low : 1 ≤ s.own) (high : s.own ≤ 24) {mine : Pair} (above : s.ownTop < mine.frontier) :
    (s.adopt mine).entry s.own = adoptedEntry mine.frontier := by
  rw [adopt, if_pos above, entry_putEntry, if_pos ⟨rfl, low, high⟩]

theorem ownTop_adopt (low : 1 ≤ s.own) (high : s.own ≤ 24) (mine : Pair) : (s.adopt mine).ownTop = max s.ownTop mine.frontier := by
  by_cases above : s.ownTop < mine.frontier
  · rw [ownTop, (adopt_keeps s mine).own, entry_adopt low high above, top_adopted]
    omega
  · rw [adopt, if_neg above]
    omega

/-- R188: an OWN-CONFLICT that joins is in the queue, or the overflow flag is set. -/
theorem noteConflict_queued (runs : s.storeRuns = true) {p : Nat} {mine : Pair} (above : s.ownTop < mine.frontier)
    (fresh : p ∉ s.hu.conflictNoted) :
    .ownConflict p mine.frontier ∈ (s.noteConflict p mine).nu.queue ∨ (s.noteConflict p mine).nu.overflow = true := by
  have runs (hu : Hu) : (s.setHu hu).storeRuns = true := runs
  rw [noteConflict, if_pos ⟨above, fresh⟩, notify_of_running (runs _)]
  exact Nu.mem_take _ _ _ fun x h => by cases x <;> cases h

theorem noteConflict_conflicts {p q v : Nat} {mine : Pair} (h : .ownConflict q v ∈ (s.noteConflict p mine).nu.queue) :
    .ownConflict q v ∈ s.nu.queue ∨ (s.ownTop < mine.frontier ∧ p ∉ s.hu.conflictNoted ∧ q = p ∧ v = mine.frontier) := by
  unfold noteConflict at h
  split at h
  · next joins =>
    cases runs : s.storeRuns with
    | false =>
      have off (hu : Hu) : (s.setHu hu).storeRuns = false := runs
      rw [notify_of_not_running (off _)] at h
      exact .inl h
    | true =>
      have on (hu : Hu) : (s.setHu hu).storeRuns = true := runs
      rw [notify_of_running (on _)] at h
      rcases (NoticesOn.take _ _ _ _).2 _ h with mem | same | ⟨y, partner, same⟩
      · exact .inl mem
      · cases same
        exact .inr ⟨joins.1, joins.2, rfl, rfl⟩
      · cases y <;> cases partner
  · exact .inl h

theorem adopt_conflicts {q v : Nat} {mine : Pair} (h : .ownConflict q v ∈ (s.adopt mine).nu.queue) : .ownConflict q v ∈ s.nu.queue := by
  unfold adopt at h
  split at h
  · exact (putEntry_notices s _ _).1.conflicts q v h
  · exact h

/-- A well-formed report of station `p` taken in state `s`, and the evaluations made. -/
structure RowTaken (s : State) (isHail : Bool) (p : Nat) (pairs : List Pair) (t : State) : Prop where
  bad : t.counter .badBursts = s.counter .badBursts
  row : ∀ o, 1 ≤ o → t.cell p o = (s.storedRow pairs)[o - 1]?
  elsewhere : ∀ q o, q ≠ p → t.cell q o = s.cell q o
  hail : isHail = true → t.hu.reportPending = true
  noted : t.hu.conflictNoted = (s.ownColumn p (pairAt pairs s.own)).hu.conflictNoted
  notices : NoticesOn (s.ownColumn p (pairAt pairs s.own)) t
  reaches : (s.ownColumn p (pairAt pairs s.own)).ownTop ≤ t.ownTop
  ownTop : DurableOk s → t.ownTop = (s.ownColumn p (pairAt pairs s.own)).ownTop
  entry : DurableOk s → ((s.ownColumn p (pairAt pairs s.own)).entry s.own).spent →
    t.entry s.own = (s.ownColumn p (pairAt pairs s.own)).entry s.own

theorem takeReport_rowTaken {isHail : Bool} {p : Nat} {body : List Byte} (good : pairsWellFormed (pairsOf s.groupSize body) = true)
    (slow : 1 ≤ p) (shigh : p ≤ 24) (low : 1 ≤ s.own) (inside : s.own ≤ s.groupSize) (small : s.groupSize ≤ 24) :
    RowTaken s isHail p (pairsOf s.groupSize body) (s.takeReport isHail p body).settleAll := by
  have settles := settleAll_settles (s.takeReport isHail p body)
  have keepsOwn := settleAll_keepsOwn (s.takeReport isHail p body)
  have durable (w : DurableOk s) := takeReport_ownDurable (isHail := isHail) (p := p) good low (Nat.le_trans inside small) inside w
  have entry := takeReport_entry (isHail := isHail) (p := p) good s.own
  have sc := takeReport_sc s isHail p body
  have own : (s.takeReport isHail p body).own = s.own := congrArg Sc.number sc
  have ownTop : (s.takeReport isHail p body).ownTop = (s.ownColumn p (pairAt (pairsOf s.groupSize body) s.own)).ownTop := by
    rw [State.ownTop, own, entry, State.ownTop, (ownColumn_keeps ..).own]
  refine ⟨?_, fun o some_origin => ?_, fun q o other => ?_, fun hail => ?_, ?_, (takeReport_notices good).trans settles.notices, ?_,
    fun w => (keepsOwn.ownTop (durable w)).trans ownTop, fun w spent => ?_⟩
  · rw [settles.same (by decide), takeReport_counter good]
  · rw [settles.cell, takeReport_cell good, cell_putRow_row slow shigh some_origin]
  · rw [settles.cell, takeReport_cell good, cell_putRow_elsewhere other]
  · refine settles.reportKept ?_ (takeReport_hail good hail)
    rwa [groupSize, sc, ← groupSize]
  · rw [settles.conflictNoted, takeReport_conflictNoted good]
  · rw [← ownTop]
    exact keepsOwn.keeps.ownTop
  · have kept := keepsOwn.entry (durable w)
    rw [own, entry] at kept
    exact kept spent

namespace RowTaken

variable {t : State} {isHail : Bool} {p : Nat} {pairs : List Pair} (h : RowTaken s isHail p pairs t)
include h

theorem joined (joining : s.station = some .joining) (low : 1 ≤ s.own) (inside : s.own ≤ pairs.length) (small : s.own ≤ 24) :
    t.cell p s.own = some (pairAt pairs s.own) ∧ (pairAt pairs s.own).frontier ≤ t.ownTop ∧ t.hu.conflictNoted = s.hu.conflictNoted
      ∧ (DurableOk s → t.ownTop = max s.ownTop (pairAt pairs s.own).frontier
          ∧ (s.ownTop < (pairAt pairs s.own).frontier → t.entry s.own = adoptedEntry (pairAt pairs s.own).frontier)) := by
  have column := ownColumn_joining joining p (pairAt pairs s.own)
  have reaches := h.reaches
  have noted := h.noted
  rw [column, ownTop_adopt low small] at reaches
  rw [column, adopt_hu] at noted
  refine ⟨?_, Nat.le_trans (Nat.le_max_right ..) reaches, noted, fun w => ⟨?_, fun above => ?_⟩⟩
  · rw [h.row _ low, storedRow_of_low fun active => absurd (joining.symm.trans active) nofun, getElem?_pairAt low inside]
  · rw [h.ownTop w, column, ownTop_adopt low small]
  · have adopted := entry_adopt (s := s) low small above
    have kept := h.entry w
    rw [column, adopted] at kept
    exact kept (spent_adoptedEntry _)

theorem activeTop (active : s.station = some .active) (w : DurableOk s) : t.ownTop = s.ownTop := by
  rw [h.ownTop w, ownColumn_active active, State.ownTop, (noteConflict_keeps ..).own, State.entry, noteConflict_hu, State.ownTop, State.entry]

theorem reported (active : s.station = some .active) (low : 1 ≤ s.own) (inside : s.own ≤ pairs.length)
    (below : (pairAt pairs s.own).frontier ≤ s.ownTop) :
    t.cell p s.own = some (pairAt pairs s.own) ∧ t.hu.conflictNoted = s.hu.conflictNoted := by
  refine ⟨?_, ?_⟩
  · rw [h.row _ low, storedRow_of_low fun _ => below, getElem?_pairAt low inside]
  · rw [h.noted, ownColumn_active active, noteConflict, if_neg fun k => absurd k.1 (Nat.not_lt.mpr below)]

theorem clamped (active : s.station = some .active) (low : 1 ≤ s.own) (inside : s.own ≤ pairs.length)
    (above : s.ownTop < (pairAt pairs s.own).frontier) :
    t.cell p s.own = some (clampPair s.ownTop (pairAt pairs s.own)) ∧ p ∈ t.hu.conflictNoted
      ∧ (∀ q, q ∈ t.hu.conflictNoted → q = p ∨ q ∈ s.hu.conflictNoted)
      ∧ (p ∉ s.hu.conflictNoted →
          .ownConflict p (pairAt pairs s.own).frontier ∈ t.nu.queue ∨ t.nu.overflow = true) := by
  have noted := h.noted
  rw [ownColumn_active active, noteConflict_hu] at noted
  dsimp only at noted
  rw [h.row _ low, storedRow_of_high active above, List.getElem?_set_self (by omega)]
  refine ⟨rfl, ?_⟩
  rw [noted]
  by_cases before : p ∈ s.hu.conflictNoted
  · rw [if_neg fun k => k.2 before]
    exact ⟨before, fun q mem => .inr mem, fun fresh => absurd before fresh⟩
  · rw [if_pos ⟨above, before⟩]
    refine ⟨List.mem_append_right _ (List.mem_singleton_self p), fun q mem => ?_, fun fresh => ?_⟩
    · rcases List.mem_append.mp mem with mem | mem
      · exact .inr mem
      · exact .inl (List.mem_singleton.mp mem)
    · have queued := noteConflict_queued (by rw [storeRuns, active]) above fresh
      rw [← ownColumn_active active] at queued
      exact h.notices.kept _ (fun y => by cases y <;> rfl) queued

theorem conflicts {q v : Nat} (mem : .ownConflict q v ∈ t.nu.queue) : .ownConflict q v ∈ s.nu.queue
    ∨ (s.station = some .active ∧ s.ownTop < (pairAt pairs s.own).frontier ∧ p ∉ s.hu.conflictNoted ∧ q = p
        ∧ v = (pairAt pairs s.own).frontier) := by
  have mem := h.notices.conflicts q v mem
  unfold ownColumn at mem
  split at mem
  · next active => exact (noteConflict_conflicts mem).imp_right fun k => ⟨eq_of_beq active, k⟩
  · exact .inl (adopt_conflicts mem)

end RowTaken

end State

end Sys2Proof.Machine

namespace Sys2Proof.Proofs

open Sys2Proof.Machine Sys2Proof.Safety

/-- Settles O19. -/
theorem reportReplacesTheRow : Obligations.ReportReplacesTheRow := by
  intro p b s listens good kind small low inside pairs mine
  refine ⟨_, carrierEnd_of_good listens good, ?_⟩
  have ready := State.heard_ready s p (s.lastSenderOf b) b.sender
  obtain ⟨slow, shigh, -⟩ := classify_good_sender good
  have handed : (((s.referred p (s.lastSenderOf b)).heard b.sender).handBody b)
      = (((s.referred p (s.lastSenderOf b)).heard b.sender).takeReport (decide (b.kind = .hail)) b.sender b.body).settleAll := by
    unfold State.handBody
    rcases kind with k | k
    · rw [k]; rfl
    · rw [k]; rfl
  rw [handed]
  generalize (s.referred p (s.lastSenderOf b)).heard b.sender = u at ready
  have own := ready.own
  have size := ready.groupSize
  have upairs : pairsOf u.groupSize b.body = pairs := by rw [size]
  have length : pairs.length = s.groupSize := length_pairsOf ..
  refine ⟨fun ⟨q, mem, broken⟩ => ?_, fun wellFormed => ?_⟩
  · have bad : pairsWellFormed (pairsOf u.groupSize b.body) = false := by
      rw [← Bool.not_eq_true, pairsWellFormed_iff, upairs]
      intro all
      have := all q mem
      omega
    rw [State.takeReport_malformed bad]
    have settles := State.settleAll_settles (u.bump .badBursts)
    refine ⟨by rw [settles.hu]; exact ready.matrix, ?_⟩
    rw [settles.same (by decide), State.counter_bump_self, ready.bad]
  · have good : pairsWellFormed (pairsOf u.groupSize b.body) = true := pairsWellFormed_iff.mpr (upairs ▸ wellFormed)
    have taken := State.takeReport_rowTaken (isHail := decide (b.kind = .hail)) good slow (Nat.le_trans shigh small) (own ▸ low)
      (own ▸ size ▸ inside) (size ▸ small)
    generalize (u.takeReport (decide (b.kind = .hail)) b.sender b.body).settleAll = t at taken
    rw [upairs] at taken
    have ulow : 1 ≤ u.own := own ▸ low
    have ulength : u.own ≤ pairs.length := by omega
    have top := ready.ownTop
    refine ⟨taken.bad.trans ready.bad, fun o some_origin inside' other => ?_, fun q o other => ?_, fun hail => taken.hail (decide_eq_true hail),
      fun joining => ?_, fun active => ⟨fun w => ?_, fun below => ?_, fun above => ?_⟩, fun q v mem => ?_⟩
    · rw [taken.row o some_origin, State.storedRow_elsewhere u pairs some_origin ulow (own ▸ other), getElem?_pairAt some_origin (by omega)]
    · rw [taken.elsewhere q o other, ready.cell]
    · have joined := taken.joined (ready.station.trans joining) ulow ulength (by omega)
      rw [own, top, ready.conflictNoted] at joined
      obtain ⟨cell, reaches, noted, adopts⟩ := joined
      refine ⟨cell, reaches, noted, fun w => ?_⟩
      obtain ⟨ownTop, entry⟩ := adopts (ready.durableOk w)
      exact ⟨ownTop, fun above => (entry above).trans (adoptedEntry_of_field (frontier_le_maxSeq s.groupSize b.body s.own))⟩
    · rw [taken.activeTop (ready.station.trans active) (ready.durableOk w), top]
    · have reported := taken.reported (ready.station.trans active) ulow ulength (by rw [own, top]; exact below)
      rwa [own, ready.conflictNoted] at reported
    · have clamped := taken.clamped (ready.station.trans active) ulow ulength (by rw [own, top]; exact above)
      rw [own, top, ready.conflictNoted] at clamped
      exact clamped
    · have conflicts := taken.conflicts mem
      rw [ready.station, own, top, ready.conflictNoted] at conflicts
      exact conflicts.imp_left (ready.notices.conflicts q v)

end Sys2Proof.Proofs

/-! An ASK or a REFUSE taken after the sender has been heard: what RP makes of it is what it makes of it before the burst. -/

namespace Sys2Proof.Machine

open Sys2Proof.Safety

namespace State

variable {s : State}

/-! ## The evaluation of an entry sees nothing of LC, the silence timers and the attach port -/

/-- The state with LC, the silence timers and the attach port replaced. -/
def relined (s : State) (lc : Lc) (silence : Vector Bool 24) (ap : Ap) : State :=
  { s with lc := lc, hu := { s.hu with silence := silence }, ap := ap }

section
variable {lc : Lc} {silence : Vector Bool 24} {ap : Ap}

theorem relined_notify (n : Notice) : (s.relined lc silence ap).notify n = (s.notify n).relined lc silence ap := by
  rw [notify_eq, notify_eq]
  rfl

theorem relined_putEntry {o : Nat} (peer : o ≠ s.own) (e : Entry) :
    (s.relined lc silence ap).putEntry o e = (s.putEntry o e).relined lc silence ap := by
  have apart : (o == s.own && e.top != (s.entry o).top) = false := by
    rw [beq_false_of_ne peer]
    rfl
  have apart' : (o == (s.relined lc silence ap).own && e.top != ((s.relined lc silence ap).entry o).top) = false := apart
  unfold putEntry
  dsimp only
  rw [apart, apart']
  show (if s.reported o && e != s.entry o then _ else _) = relined (if s.reported o && e != s.entry o then _ else _) lc silence ap
  split
  · rfl
  · rfl

theorem relined_abandon (o a b : Nat) :
    (s.relined lc silence ap).abandon o a b = (s.abandon o a b).map (relined · lc silence ap) := by
  cases taken : s.abandon o a b with
  | some t =>
    obtain ⟨admits, rfl⟩ := abandon_eq_some_iff.mp taken
    refine abandon_eq_some_iff.mpr ⟨admits, ?_⟩
    show relined _ lc silence ap = _
    rw [← relined_notify, ← relined_putEntry admits.1]
    rfl
  | none =>
    refine Option.eq_none_iff_forall_ne_some.mpr fun t again => ?_
    obtain ⟨admits, -⟩ := abandon_eq_some_iff.mp again
    exact absurd (taken.symm.trans (abandon_eq_some_iff.mpr ⟨admits, rfl⟩)) nofun

theorem relined_evaluateAskRounds {i : Nat} {a : AskEntry} : (n : Nat) → {s : State} → {u : Nat} →
    (s.relined lc silence ap).evaluateAskRounds n i a u = (s.evaluateAskRounds n i a u).relined lc silence ap
  | 0, _, _ => rfl
  | n + 1, s, u => by
    cases found : lowestFrom u (s.missingRuns a.origin) with
    | none =>
      have found' : lowestFrom u ((s.relined lc silence ap).missingRuns a.origin) = none := found
      rw [evaluate_nothing found, evaluate_nothing found']
      rfl
    | some r =>
    have found' : lowestFrom u ((s.relined lc silence ap).missingRuns a.origin) = some r := found
    cases responder : s.responderFor a.skip a.origin r.lo with
    | some p =>
      have responder' : (s.relined lc silence ap).responderFor a.skip a.origin r.lo = some p := responder
      rw [evaluate_asks found responder, evaluate_asks found' responder']
      rfl
    | none =>
    have responder' : (s.relined lc silence ap).responderFor a.skip a.origin r.lo = none := responder
    cases covered : (s.unskipped a.skip).any fun p => s.rowCovers p a.origin r.lo with
    | true =>
      have covered' : (((s.relined lc silence ap).unskipped a.skip).any fun p => (s.relined lc silence ap).rowCovers p a.origin r.lo)
          = true := covered
      rw [evaluate_waits found responder covered, evaluate_waits found' responder' covered']
      rfl
    | false =>
    have covered' : (((s.relined lc silence ap).unskipped a.skip).any fun p => (s.relined lc silence ap).rowCovers p a.origin r.lo)
        = false := covered
    rw [evaluate_abandons found responder covered, evaluate_abandons found' responder' covered',
      show (s.relined lc silence ap).abandonEnd a.skip a.origin r.lo r.hi = s.abandonEnd a.skip a.origin r.lo r.hi from rfl,
      relined_abandon]
    cases abandoned : s.abandon a.origin r.lo (s.abandonEnd a.skip a.origin r.lo r.hi) with
    | none => rfl
    | some t => exact relined_evaluateAskRounds n

theorem relined_skipResponder (i : Nat) (a : AskEntry) (p u : Nat) :
    (s.relined lc silence ap).skipResponder i a p u = (s.skipResponder i a p u).relined lc silence ap :=
  relined_evaluateAskRounds _

end

/-! ## A sender that was present -/

theorem setPresence_present {p : Nat} (present : s.presenceOf p = .present) : setLine s.hu.presence p .present = s.hu.presence := by
  refine Vector.ext fun i hi => ?_
  have line (v : Vector Presence 24) : lineOf v .unknown (i + 1) = v[i] := by
    rw [lineOf, place, Vector.getElem?_eq_getElem hi]
    rfl
  rw [← line, ← line, lineOf_setLine]
  split
  · next here =>
    rw [← here.1]
    exact present.symm
  · rfl

theorem heard_present {p : Nat} (present : s.presenceOf p = .present) :
    s.heard p = s.relined s.lc (setLine s.hu.silence p true) s.ap := by
  rw [heard, present]
  show s.setPresence p .present true = _
  rw [setPresence, setPresence_present present]
  rfl

/-- R98: a sender that was PRESENT: LC, its silence timer and the counters move alone. -/
theorem referred_heard_present {q : Nat} (present : s.presenceOf q = .present) (p : CarrierPeriod) (l : Nat) :
    (s.referred p l).heard q = s.relined (Referenced s p l) (setLine s.hu.silence q true) (s.referred p l).ap :=
  heard_present (s := s.referred p l) present

/-! ## A REFUSE (R175) -/

theorem skipResponder_rp_relined {lc : Lc} {silence : Vector Bool 24} {ap : Ap} (k : Counter) (i : Nat) (a : AskEntry) (p u : Nat) :
    (((s.relined lc silence ap).bump k).skipResponder i a p u).rp = ((s.bump k).skipResponder i a p u).rp := by
  have bumped : (s.relined lc silence ap).bump k = (s.bump k).relined lc silence ((s.relined lc silence ap).bump k).ap := rfl
  rw [bumped, relined_skipResponder]
  rfl

theorem takeRefuse_relined {lc : Lc} {silence : Vector Bool 24} {ap : Ap} (sender target : Nat) (body : List Byte) :
    ((s.relined lc silence ap).takeRefuse sender target body).rp = (s.takeRefuse sender target body).rp := by
  by_cases here : target = s.own
  · have here' : target = (s.relined lc silence ap).own := here
    cases reason : (refuseOf body).reason with
    | none =>
      rw [takeRefuse_unreadable here reason, takeRefuse_unreadable here' reason]
      rfl
    | some r =>
    cases r with
    | busy =>
      rw [takeRefuse_busy here reason, takeRefuse_busy here' reason]
      rfl
    | notHeld =>
      by_cases concerns : ∃ i a, s.RefusedBy sender (refuseOf body).origin i a
      · obtain ⟨i, a, concerns⟩ := concerns
        have concerns' : (s.relined lc silence ap).RefusedBy sender (refuseOf body).origin i a := concerns
        rw [takeRefuse_concerns here reason concerns, takeRefuse_concerns here' reason concerns']
        exact skipResponder_rp_relined ..
      · have apart : ∀ i a, ¬ s.RefusedBy sender (refuseOf body).origin i a := fun i a k => concerns ⟨i, a, k⟩
        have apart' : ∀ i a, ¬ (s.relined lc silence ap).RefusedBy sender (refuseOf body).origin i a := apart
        rw [takeRefuse_apart here reason apart, takeRefuse_apart here' reason apart']
        rfl
  · rw [takeRefuse_elsewhere here, takeRefuse_elsewhere (s := s.relined lc silence ap) here]
    rfl

theorem counter_of_ap {t : State} (h : t.ap = s.ap) (k : Counter) : t.counter k = s.counter k := by rw [counter, h, counter]

/-- R211: the counter that a REFUSE for the station raises. -/
def refuseCounter (body : List Byte) : Counter :=
  match (refuseOf body).reason with
  | none => .badBursts
  | some _ => .refusalsReceived

theorem takeRefuse_raises {sender target : Nat} {body : List Byte} (here : target = s.own) :
    Repairs (s.bump (refuseCounter body)) (s.takeRefuse sender target body) := by
  unfold refuseCounter
  cases reason : (refuseOf body).reason with
  | none =>
    rw [takeRefuse_unreadable here reason]
    exact .refl _
  | some r =>
  cases r with
  | busy =>
    rw [takeRefuse_busy here reason]
    exact .refl _
  | notHeld =>
    by_cases concerns : ∃ i a, s.RefusedBy sender (refuseOf body).origin i a
    · obtain ⟨i, a, concerns⟩ := concerns
      rw [takeRefuse_concerns here reason concerns]
      exact skipResponder_repairs ..
    · rw [takeRefuse_apart here reason fun i a k => concerns ⟨i, a, k⟩]
      exact .refl _

theorem takeRefuse_counter (sender target : Nat) (body : List Byte) (k : Counter) : (s.takeRefuse sender target body).counter k
    = if target = s.own ∧ k = refuseCounter body then min 65535 (s.counter k + 1) else s.counter k := by
  by_cases here : target = s.own
  · rw [counter_of_ap (takeRefuse_raises here).ap, counter_bump]
    by_cases raised : k = refuseCounter body
    · rw [if_pos raised, if_pos ⟨here, raised⟩, raised]
    · rw [if_neg raised, if_neg fun h => raised h.2]
  · rw [takeRefuse_elsewhere here, if_neg fun h => here h.1]

/-! ## An ASK (R177 to R179) -/

/-- Two states alike in what RP looks at when it takes an ASK. -/
structure AlikeToAsk (s h : State) : Prop where
  sc : h.sc = s.sc
  sm : h.sm = s.sm
  fc : h.fc = s.fc
  entry : ∀ o, h.entry o = s.entry o
  rp : h.rp = { s.rp with rerunDue := h.rp.rerunDue }

theorem referred_heard_alike (s : State) (p : CarrierPeriod) (l q : Nat) : AlikeToAsk s ((s.referred p l).heard q) := by
  have hears := heard_hears (s.referred p l) q
  refine ⟨by rw [hears.same]; rfl, by rw [hears.same]; rfl, by rw [hears.same]; rfl, fun o => entry_heard .., ?_⟩
  conv => lhs; rw [hears.same]
  rfl

/-- What an ASK taken in `s` and in `h` leaves alike. -/
structure AsksAlike (u v : State) : Prop where
  jobs : v.rp.jobs = u.rp.jobs
  busy : v.rp.busy = u.rp.busy
  notHeld : v.rp.notHeld = u.rp.notHeld
  lookup : v.sm.serveLookup = u.sm.serveLookup

theorem AlikeToAsk.asksAlike {s h : State} (w : AlikeToAsk s h) : AsksAlike s h :=
  ⟨by rw [w.rp], by rw [w.rp], by rw [w.rp], by rw [w.sm]⟩

theorem TestsHead.alike {s h u v : State} {j : ServeJob} (w : AlikeToAsk s h) (hu : TestsHead s u j) (hv : TestsHead h v j)
    (jobs : h.rp.jobs = s.rp.jobs) : AsksAlike u v := by
  obtain ⟨-, sm, fc, entry, rp⟩ := w
  have busy : h.rp.busy = s.rp.busy := by rw [rp]
  have notHeld : h.rp.notHeld = s.rp.notHeld := by rw [rp]
  have same : v.rp.jobs = u.rp.jobs ∧ v.rp.busy = u.rp.busy := by
    rw [hu.same, hv.same]
    exact ⟨jobs, busy⟩
  obtain ⟨-, unsettled, absent, found⟩ := hu
  obtain ⟨-, unsettled', absent', found'⟩ := hv
  rw [entry, sm, busy] at unsettled' absent'
  rw [entry, sm] at found'
  cases settled : (s.entry j.origin).settled j.next with
  | false =>
    obtain ⟨held, lookup, -⟩ := unsettled settled
    obtain ⟨held', lookup', -⟩ := unsettled' settled
    exact ⟨same.1, same.2, held'.trans held.symm, lookup'.trans lookup.symm⟩
  | true =>
    cases candidate : s.sm.candidate j.origin j.next none with
    | none =>
      obtain ⟨held, lookup, -⟩ := absent settled candidate
      obtain ⟨held', lookup', -⟩ := absent' settled candidate
      exact ⟨same.1, same.2, held'.trans held.symm, lookup'.trans lookup.symm⟩
    | some c =>
      obtain ⟨held, lookup, -⟩ := found settled c.1 c.2 candidate
      obtain ⟨held', lookup', -⟩ := found' settled c.1 c.2 candidate
      exact ⟨same.1, same.2, held'.trans (notHeld.trans held.symm), lookup'.trans lookup.symm⟩

section
variable {h : State} (w : AlikeToAsk s h)
include w

theorem AlikeToAsk.own : h.own = s.own := congrArg Sc.number w.sc

theorem AlikeToAsk.groupSize : h.groupSize = s.groupSize :=
  congrArg (fun x : Sc => (x.settings.map Settings.groupSize).getD 0) w.sc

theorem AlikeToAsk.setJobs (jobs : List ServeJob) : AlikeToAsk (s.setRp { s.rp with jobs := jobs }) (h.setRp { h.rp with jobs := jobs }) := by
  refine ⟨w.sc, w.sm, w.fc, w.entry, ?_⟩
  show { h.rp with jobs := jobs } = { s.rp with jobs := jobs, rerunDue := h.rp.rerunDue }
  conv => lhs; rw [w.rp]

/-- R177, R178: what RP makes of an ASK hangs on the numbers, the holdings, the serve queue and the store's table alone. -/
theorem AlikeToAsk.takeAsk (asker target : Nat) (body : List Byte) : AsksAlike (s.takeAsk asker target body) (h.takeAsk asker target body) := by
  have own := w.own
  have jobs : h.rp.jobs = s.rp.jobs := by rw [w.rp]
  have busy : h.rp.busy = s.rp.busy := by rw [w.rp]
  by_cases here : target = s.own
  case neg =>
    rw [takeAsk_elsewhere here, takeAsk_elsewhere (own ▸ here)]
    exact w.asksAlike
  have here' : target = h.own := own.symm ▸ here
  have malformed : h.MalformedAsk (askOf body) ↔ s.MalformedAsk (askOf body) := by rw [MalformedAsk, w.groupSize, MalformedAsk]
  have overlaps : h.Overlaps asker (askOf body) ↔ s.Overlaps asker (askOf body) := by rw [Overlaps, jobs, Overlaps]
  by_cases formed : s.MalformedAsk (askOf body)
  case pos =>
    rw [takeAsk_malformed here formed, takeAsk_malformed here' (malformed.mpr formed)]
    exact ⟨w.asksAlike.jobs, w.asksAlike.busy, w.asksAlike.notHeld, w.asksAlike.lookup⟩
  have formed' := mt malformed.mp formed
  by_cases apart : s.Overlaps asker (askOf body)
  case pos =>
    rw [takeAsk_overlapping here formed apart, takeAsk_overlapping here' formed' (overlaps.mpr apart)]
    exact w.asksAlike
  have apart' := mt overlaps.mp apart
  by_cases room : s.rp.jobs.length < 4
  case neg =>
    rw [takeAsk_busy here formed apart (Nat.not_lt.mp room), takeAsk_busy here' formed' apart' (by rw [jobs]; exact Nat.not_lt.mp room),
      makeBusy, makeBusy, busy]
    split
    · exact ⟨jobs, rfl, w.asksAlike.notHeld, w.asksAlike.lookup⟩
    · exact w.asksAlike
  by_cases empty : s.rp.jobs = []
  · rw [takeAsk_head here formed apart empty, takeAsk_head here' formed' apart' (jobs.trans empty)]
    exact (testHead_tests rfl).alike (w.setJobs _) (testHead_tests rfl) rfl
  · rw [takeAsk_behind here formed apart room empty, takeAsk_behind here' formed' apart' (jobs.symm ▸ room) (jobs.symm ▸ empty)]
    exact ⟨congrArg (· ++ [jobOf asker (askOf body)]) jobs, busy, w.asksAlike.notHeld, w.asksAlike.lookup⟩

end

/-- What an ASK moves: the serve queue, the serving of its head, and, where it is malformed, the bad-bursts counter. -/
structure TakesAsk (s : State) (target : Nat) (a : AskBody) (t : State) : Prop where
  same : t = { s with
    rp := { s.rp with jobs := t.rp.jobs, busy := t.rp.busy, notHeld := t.rp.notHeld },
    sm := { s.sm with serveLookup := t.sm.serveLookup }, fc := { s.fc with serveClaim := t.fc.serveClaim }, ap := t.ap }
  counted : target = s.own ∧ s.MalformedAsk a → t.ap = (s.bump .badBursts).ap
  uncounted : ¬ (target = s.own ∧ s.MalformedAsk a) → t.ap = s.ap

theorem takeAsk_takes (asker target : Nat) (body : List Byte) : TakesAsk s target (askOf body) (s.takeAsk asker target body) := by
  by_cases here : target = s.own
  case neg =>
    rw [takeAsk_elsewhere here]
    exact ⟨rfl, fun k => absurd k.1 here, fun _ => rfl⟩
  by_cases formed : s.MalformedAsk (askOf body)
  case pos =>
    rw [takeAsk_malformed here formed]
    exact ⟨rfl, fun _ => rfl, fun k => absurd ⟨here, formed⟩ k⟩
  have uncounted {t : State} (same : t = { s with
      rp := { s.rp with jobs := t.rp.jobs, busy := t.rp.busy, notHeld := t.rp.notHeld },
      sm := { s.sm with serveLookup := t.sm.serveLookup }, fc := { s.fc with serveClaim := t.fc.serveClaim }, ap := t.ap })
      (ap : t.ap = s.ap) : TakesAsk s target (askOf body) t := ⟨same, fun k => absurd k.2 formed, fun _ => ap⟩
  by_cases apart : s.Overlaps asker (askOf body)
  case pos =>
    rw [takeAsk_overlapping here formed apart]
    exact uncounted rfl rfl
  by_cases room : s.rp.jobs.length < 4
  case neg =>
    rw [takeAsk_busy here formed apart (Nat.not_lt.mp room), makeBusy]
    split
    · exact uncounted rfl rfl
    · exact uncounted rfl rfl
  by_cases empty : s.rp.jobs = []
  · rw [takeAsk_head here formed apart empty]
    have tests := testHead_tests (s := s.setRp { s.rp with jobs := [jobOf asker (askOf body)] }) rfl
    refine uncounted ?_ (by rw [tests.same]; rfl)
    conv => lhs; rw [tests.same]
    rw [tests.same]
    rfl
  · rw [takeAsk_behind here formed apart room empty]
    exact uncounted rfl rfl

/-- The counters of an ASK taken in two states hang on their own counters alone. -/
theorem AlikeToAsk.takeAsk_counter {h : State} (w : AlikeToAsk s h) (asker target : Nat) (body : List Byte) {k : Counter}
    (counter : h.counter k = s.counter k) : (h.takeAsk asker target body).counter k = (s.takeAsk asker target body).counter k := by
  have takes := takeAsk_takes (s := s) asker target body
  have takes' := takeAsk_takes (s := h) asker target body
  have malformed : (target = h.own ∧ h.MalformedAsk (askOf body)) ↔ (target = s.own ∧ s.MalformedAsk (askOf body)) := by
    rw [w.own, MalformedAsk, w.groupSize, MalformedAsk]
  by_cases bad : target = s.own ∧ s.MalformedAsk (askOf body)
  · rw [counter_of_ap (takes.counted bad), counter_of_ap (takes'.counted (malformed.mpr bad)), counter_bump, counter_bump]
    split
    · next here => rw [← here, counter]
    · exact counter
  · rw [counter_of_ap (takes.uncounted bad), counter_of_ap (takes'.uncounted (mt malformed.mp bad)), counter]

end State

end Sys2Proof.Machine


namespace Sys2Proof.Machine

open Sys2Proof.Safety

namespace State

variable {s : State}

/-! ## The end of a command in which nothing is owed -/

theorem evaluateReclaim_of_idle (idle : s.sm.reclaimDue = false) : s.evaluateReclaim = s :=
  if_neg (by rw [idle]; exact Bool.false_ne_true)

theorem settleRepair_of_untold (idle : s.rp.rerunDue = false) : s.settleRepair = s :=
  if_neg (by rw [idle]; exact Bool.false_ne_true)

/-- With no reclaim owed and no re-drive to refuse, a command ends with the grant and the re-run. -/
theorem settleAll_of_idle (idle : s.sm.reclaimDue = false) (claim : NoClaim s) :
    Grants s s.grant ∧ s.settleAll = s.grant.settleRepair := by
  refine ⟨grant_of_unrefused (.inr (.inl claim)), ?_⟩
  rw [settleAll, evaluateReclaim_of_idle idle]

/-! ## The good-bursts counter -/

theorem storeSegment_counter {k : Counter} (h : k ∉ endCounters) (h' : k ≠ .checkFailures) (i : Nat) (d : SlotData) (g : Segment) :
    (s.storeSegment i d g).counter k = s.counter k := by
  unfold storeSegment
  dsimp only
  split
  · exact finishSlot_counter h h'
  · rfl

theorem matchSegment_goodBursts (g : Segment) : (s.matchSegment g).counter .goodBursts = s.counter .goodBursts := by
  unfold matchSegment
  split
  · split
    · split
      · exact counter_bump_of_ne s nofun
      · split
        · rfl
        · exact storeSegment_counter (k := .goodBursts) (by decide) (by decide) ..
    · rfl
  · split
    · unfold allocateSlot
      split
      · exact counter_bump_of_ne s nofun
      · exact storeSegment_counter (s := s.tellRp) (k := .goodBursts) (by decide) (by decide) ..
    · exact counter_bump_of_ne s nofun
    · exact counter_bump_of_ne s nofun
    · exact counter_bump_of_ne s nofun
    · rfl
    · rfl

theorem matchBody_goodBursts (body : List Byte) : (s.matchBody body).counter .goodBursts = s.counter .goodBursts := by
  unfold matchBody
  split
  · rfl
  · split
    · exact counter_bump_of_ne s nofun
    · exact matchSegment_goodBursts _

theorem takeReport_goodBursts (isHail : Bool) (p : Nat) (body : List Byte) :
    (s.takeReport isHail p body).counter .goodBursts = s.counter .goodBursts := by
  cases good : pairsWellFormed (pairsOf s.groupSize body) with
  | true => exact takeReport_counter good _
  | false =>
    rw [takeReport_malformed good]
    exact counter_bump_of_ne s nofun

theorem takeAsk_goodBursts (asker target : Nat) (body : List Byte) :
    (s.takeAsk asker target body).counter .goodBursts = s.counter .goodBursts := by
  have takes := takeAsk_takes (s := s) asker target body
  by_cases bad : target = s.own ∧ s.MalformedAsk (askOf body)
  · rw [counter_of_ap (takes.counted bad)]
    exact counter_bump_of_ne s nofun
  · exact counter_of_ap (takes.uncounted bad) _

theorem takeRefuse_goodBursts (sender target : Nat) (body : List Byte) :
    (s.takeRefuse sender target body).counter .goodBursts = s.counter .goodBursts := by
  rw [takeRefuse_counter, if_neg]
  rintro ⟨-, raised⟩
  unfold refuseCounter at raised
  split at raised
  · cases raised
  · cases raised

/-! ## What the body of a burst leaves as it is (R60) -/

/-- What no body touches: LC, the station's settings, the response slot, what waits, presence, and the good-bursts counter. -/
structure HandedOn (s t : State) : Prop where
  lc : t.lc = s.lc
  sc : t.sc = s.sc
  pending : t.pending = s.pending
  slot : t.ap.slot = s.ap.slot
  presence : t.hu.presence = s.hu.presence
  silence : t.hu.silence = s.hu.silence
  good : t.counter .goodBursts = s.counter .goodBursts

theorem HandedOn.of_keeps {t : State} (h : Keeps s t) (good : t.counter .goodBursts = s.counter .goodBursts) : HandedOn s t :=
  ⟨h.lc, h.sc, h.pending, h.slot, h.presence, h.silence, good⟩

theorem HandedOn.trans {t u : State} (h : HandedOn s t) (k : HandedOn t u) : HandedOn s u :=
  ⟨k.lc.trans h.lc, k.sc.trans h.sc, k.pending.trans h.pending, k.slot.trans h.slot, k.presence.trans h.presence,
    k.silence.trans h.silence, k.good.trans h.good⟩

theorem settleAll_goodBursts : s.settleAll.counter .goodBursts = s.counter .goodBursts := (settleAll_settles s).same (by decide)

theorem takeReport_handedOn (isHail : Bool) (p : Nat) (body : List Byte) :
    HandedOn s (s.takeReport isHail p body) ∧ ∀ q o, q ≠ p → (s.takeReport isHail p body).cell q o = s.cell q o := by
  have cell {v w : State} (matrix : w.hu.matrix = v.hu.matrix) (q o : Nat) : w.cell q o = v.cell q o := by
    unfold State.cell State.row
    rw [matrix]
  have good := takeReport_goodBursts (s := s) isHail p body
  rcases takeReport_taken s isHail p body with kept | ⟨u, pairs, before, after, -⟩
  · exact ⟨.of_keeps kept good, fun q o _ => cell kept.matrix q o⟩
  · refine ⟨⟨after.lc.trans before.lc, after.sc.trans before.sc, after.pending.trans before.pending, after.slot.trans before.slot,
      after.presence.trans before.presence, after.silence.trans before.silence, good⟩, fun q o other => ?_⟩
    rw [cell after.matrix, cell_putRow_elsewhere other, cell before.matrix]

theorem handBody_handedOn (b : Burst) : HandedOn s (s.handBody b)
    ∧ ∀ q o, q ≠ b.sender ∨ (b.kind ≠ .hail ∧ b.kind ≠ .report) → (s.handBody b).cell q o = s.cell q o := by
  have settled {v : State} (h : HandedOn s v) : HandedOn s v.settleAll :=
    h.trans (.of_keeps (settleAll_keeps v) settleAll_goodBursts)
  have quiet {t : State} (h : Keeps s t) (q o : Nat) : t.cell q o = s.cell q o := by
    unfold State.cell State.row
    rw [h.matrix]
  have report (isHail : Bool) (kind : b.kind = .hail ∨ b.kind = .report) :
      HandedOn s (s.takeReport isHail b.sender b.body).settleAll
        ∧ ∀ q o, q ≠ b.sender ∨ (b.kind ≠ .hail ∧ b.kind ≠ .report) → (s.takeReport isHail b.sender b.body).settleAll.cell q o = s.cell q o := by
    obtain ⟨hands, elsewhere⟩ := takeReport_handedOn (s := s) isHail b.sender b.body
    refine ⟨settled hands, fun q o other => ?_⟩
    rw [(settleAll_settles _).cell]
    refine elsewhere q o (other.resolve_right fun neither => ?_)
    exact kind.elim neither.1 neither.2
  have ask := takeAsk_keeps s b.sender b.target b.body
  have refuse := takeRefuse_keeps s b.sender b.target b.body
  unfold handBody
  split
  · next kind => exact report true (.inl kind)
  · next kind => exact report false (.inr kind)
  · refine ⟨.of_keeps (takeSegment_keeps s b.body) ?_, fun q o _ => quiet (takeSegment_keeps s b.body) q o⟩
    rw [counter_of_ap (takeSegment_eq s b.body).1.ap, settleAll_goodBursts, matchBody_goodBursts]
  · exact ⟨settled (.of_keeps ask (takeAsk_goodBursts ..)), fun q o _ => quiet (ask.trans (settleAll_keeps _)) q o⟩
  · exact ⟨settled (.of_keeps refuse (takeRefuse_goodBursts ..)), fun q o _ => quiet (refuse.trans (settleAll_keeps _)) q o⟩

/-! ## The ask and the refuse against the state before the burst -/

/-- A lookup as it stands before its read begins. -/
def waiting (l : Option Lookup) : Option Lookup := l.map fun x => { x with step := .waiting }

/-- R60, R177: an ASK taken after the sender has been heard, and the evaluations made, with nothing owed before. -/
theorem ask_calm {h : State} (alike : AlikeToAsk s h) (calm : Calm s) (asker target : Nat) (body : List Byte) :
    (h.takeAsk asker target body).settleAll.rp.notHeld = (s.takeAsk asker target body).rp.notHeld
      ∧ waiting (h.takeAsk asker target body).settleAll.sm.serveLookup = waiting (s.takeAsk asker target body).sm.serveLookup := by
  obtain ⟨⟨reclaim, -⟩, claim⟩ := calm
  have asks := alike.takeAsk asker target body
  have takes := (takeAsk_takes (s := h) asker target body).same
  generalize h.takeAsk asker target body = f at asks takes
  have idle : f.sm.reclaimDue = false := by
    rw [takes]
    exact (congrArg Sm.reclaimDue alike.sm).trans reclaim
  have unclaimed : NoClaim f := by
    unfold NoClaim
    rw [takes]
    show h.fc.op.isSome ∨ h.fc.programClaim = none
    rw [alike.fc]
    exact claim
  obtain ⟨grants, ends⟩ := settleAll_of_idle idle unclaimed
  have repairs := settleRepair_repairs f.grant
  rw [ends, repairs.sm, repairs.rp, ← asks.notHeld, ← asks.lookup]
  refine ⟨by rw [grants.rp], ?_⟩
  rcases grants.lookups .serve with ⟨lookup, -⟩ | ⟨c, -, -, -, lookup⟩
  · exact congrArg waiting lookup
  · refine (congrArg waiting lookup).trans ?_
    show waiting (f.sm.serveLookup.map _) = _
    cases f.sm.serveLookup with
    | none => rfl
    | some l => rfl

/-- R60, R175: a REFUSE of a sender that was PRESENT, with nothing owed before and no re-run after. -/
theorem refuse_calm {lc : Lc} {silence : Vector Bool 24} {ap : Ap} (calm : Calm s) (sender target : Nat) (body : List Byte)
    (quiet : (s.takeRefuse sender target body).rp.rerunDue = false) :
    ((s.relined lc silence ap).takeRefuse sender target body).settleAll.rp = (s.takeRefuse sender target body).rp := by
  obtain ⟨⟨reclaim, -⟩, claim⟩ := calm
  have same := takeRefuse_relined (s := s) (lc := lc) (silence := silence) (ap := ap) sender target body
  have kept : ((s.relined lc silence ap).takeRefuse sender target body).sm = s.sm
      ∧ ((s.relined lc silence ap).takeRefuse sender target body).fc = s.fc := by
    by_cases here : target = s.own
    · have repairs := takeRefuse_raises (s := s.relined lc silence ap) (sender := sender) (body := body) here
      exact ⟨repairs.sm, repairs.fc⟩
    · rw [takeRefuse_elsewhere (s := s.relined lc silence ap) here]
      exact ⟨rfl, rfl⟩
  generalize (s.relined lc silence ap).takeRefuse sender target body = f at same kept
  obtain ⟨grants, ends⟩ := settleAll_of_idle (s := f) (by rw [kept.1]; exact reclaim) (by unfold NoClaim; rw [kept.2]; exact claim)
  rw [ends, settleRepair_of_untold (by rw [grants.rp, same, quiet]), grants.rp, same]

/-- The state in which a good burst of station `q` is handed on (R59 to R61, R98). -/
structure HeardFrom (s : State) (lc : Lc) (q : Nat) (h : State) : Prop where
  alike : AlikeToAsk s h
  lc : h.lc = lc
  pending : h.pending = s.pending
  slot : h.ap.slot = s.ap.slot
  presence : h.hu.presence = setLine s.hu.presence q .present
  silence : h.hu.silence = setLine s.hu.silence q true
  cell : ∀ p o, h.cell p o = s.cell p o
  counted : h.counter .goodBursts = min 65535 (s.counter .goodBursts + 1)
  uncounted : ∀ k, k ≠ .goodBursts → h.counter k = s.counter k
  still : s.presenceOf q = .present → ∃ lc silence ap, h = s.relined lc silence ap

theorem heardFrom (s : State) (p : CarrierPeriod) (l q : Nat) : HeardFrom s (Referenced s p l) q ((s.referred p l).heard q) := by
  have hears := heard_hears (s.referred p l) q
  have hu := heard_hu (s.referred p l) q
  have ap : ((s.referred p l).heard q).ap = (s.referred p l).ap := by rw [hears.same]
  refine ⟨referred_heard_alike s p l q, by rw [hears.same]; rfl, by rw [hears.same]; rfl, by rw [ap]; rfl, by rw [hu]; rfl, by rw [hu]; rfl,
    fun p o => cell_heard .., ?_, fun k other => ?_, fun present => ⟨_, _, _, referred_heard_present present p l⟩⟩
  · rw [counter_of_ap ap]
    exact counter_bump_self (s.setLc (Referenced s p l)) .goodBursts
  · rw [counter_of_ap ap]
    exact counter_bump_of_ne (s.setLc (Referenced s p l)) other

end State

end Sys2Proof.Machine

namespace Sys2Proof.Proofs

open Sys2Proof.Machine Sys2Proof.Safety

/-- Settles O13. -/
theorem goodBurstIsHandedOn : Obligations.GoodBurstIsHandedOn := by
  intro p b s good small listens
  have done := carrierEnd_of_good listens good
  obtain ⟨slow, shigh, -⟩ := classify_good_sender good
  have shigh := Nat.le_trans shigh small
  have heard := State.heardFrom s p (s.lastSenderOf b) b.sender
  have heardEq : ((s.setLc (Referenced s p (s.lastSenderOf b))).bump .goodBursts).heard b.sender
      = (s.referred p (s.lastSenderOf b)).heard b.sender := rfl
  obtain ⟨hands, elsewhere⟩ := State.handBody_handedOn (s := (s.referred p (s.lastSenderOf b)).heard b.sender) b
  have lc := hands.lc.trans heard.lc
  refine ⟨_, done, lc, ?_, fun kind => ?_, fun kind => ?_, hands.good.trans heard.counted, ?_, ?_, fun q other => ?_, fun q o other => ?_,
    hands.sc.trans heard.alike.sc, hands.pending.trans heard.pending, hands.slot.trans heard.slot, (exec_course done).arrayKept id⟩
  · rw [lc, heardEq]
    rfl
  · rw [State.handBody, kind]
    dsimp only
    generalize (s.referred p (s.lastSenderOf b)).heard b.sender = h at heard
    have asks := heard.alike.takeAsk b.sender b.target b.body
    have settles := State.settleAll_settles (h.takeAsk b.sender b.target b.body)
    obtain ⟨jobs, busy, buffer⟩ := settles.serving
    refine ⟨jobs.trans asks.jobs, busy.trans asks.busy, ?_, ?_, fun calm => State.ask_calm heard.alike calm ..⟩
    · rw [buffer, (State.takeAsk_takes (s := h) ..).same, heard.alike.rp]
    · rw [settles.same (by decide), heard.alike.takeAsk_counter _ _ _ (heard.uncounted _ (by decide))]
  · rw [State.handBody, kind]
    dsimp only
    generalize (s.referred p (s.lastSenderOf b)).heard b.sender = h at heard
    have settles := State.settleAll_settles (h.takeRefuse b.sender b.target b.body)
    have counter (k : Counter) (other : k ≠ .goodBursts) :
        (h.takeRefuse b.sender b.target b.body).counter k = (s.takeRefuse b.sender b.target b.body).counter k := by
      rw [State.takeRefuse_counter, State.takeRefuse_counter, heard.uncounted k other, heard.alike.own]
    refine ⟨?_, ?_, fun calm present quiet => ?_⟩
    · rw [settles.same (by decide), counter _ (by decide)]
    · rw [settles.same (by decide), counter _ (by decide)]
    · obtain ⟨lc, silence, ap, rfl⟩ := heard.still present
      exact State.refuse_calm calm _ _ _ quiet
  · rw [State.presenceOf, hands.presence, heard.presence, lineOf_setLine, if_pos ⟨rfl, slow, shigh⟩]
  · rw [hands.silence, heard.silence, lineOf_setLine, if_pos ⟨rfl, slow, shigh⟩]
  · refine ⟨?_, ?_⟩
    · rw [State.presenceOf, hands.presence, heard.presence, lineOf_setLine, if_neg fun k => other k.1.symm, State.presenceOf]
    · rw [hands.silence, heard.silence, lineOf_setLine, if_neg fun k => other k.1.symm]
  · rw [elsewhere q o other, heard.cell]

end Sys2Proof.Proofs

/-! The transmit selector's choice and its owner's next offer (R71, R72, R101, R104, R116, R172, R178 to R181). -/

namespace Sys2Proof.Machine

open Sys2Proof.Safety

/-- R115: the offer of line 5 is a SENDING entry. -/
theorem Su.offer_held {su : Su} {i next : Nat} {r : OwnRecord} (h : su.offer = some (i, r, next)) :
    ∃ count, place su.entries .free i = .sending r count next := by
  have walk : (l : List (SubmitEntry × Nat)) → (best : Option (Nat × OwnRecord × Nat)) →
      l.foldl (fun best x =>
        match x.1 with
        | .sending r count next => if next < count then olderEntry best (x.2, r, next) else best
        | _ => best) best = some (i, r, next) →
      best = some (i, r, next) ∨ ∃ count, (.sending r count next, i) ∈ l := by
    intro l
    induction l with
    | nil => exact fun best h => .inl h
    | cons x l ih =>
      intro best h
      rw [List.foldl_cons] at h
      rcases ih _ h with now | ⟨count, mem⟩
      · obtain ⟨e, j⟩ := x
        cases e with
        | sending r' count' next' =>
          dsimp only at now
          split at now
          · unfold olderEntry at now
            split at now
            · cases now
              exact .inr ⟨count', List.mem_cons_self⟩
            · split at now
              · cases now
                exact .inr ⟨count', List.mem_cons_self⟩
              · exact .inl now
          · exact .inl now
        | _ => exact .inl now
      · exact .inr ⟨count, List.mem_cons_of_mem x mem⟩
  rcases walk _ _ h with none_yet | ⟨count, mem⟩
  · cases none_yet
  · refine ⟨count, ?_⟩
    have at_place := List.mem_zipIdx_iff_getElem?.mp mem
    rw [Vector.getElem?_toList] at at_place
    rw [place, at_place]
    rfl

/-- R116: the entry of the offer moves on to its next segment. -/
theorem Su.segmentChosen_moves {su : Su} {i count next : Nat} {r : OwnRecord} (h : place su.entries .free i = .sending r count next) :
    place (su.segmentChosen i).entries .free i = .sending r count (next + 1)
      ∧ ∀ j, j ≠ i → place (su.segmentChosen i).entries .free j = place su.entries .free j := by
  have inside : i < 8 := by
    refine Classical.byContradiction fun outside => ?_
    rw [place, Vector.getElem?_eq_none (Nat.not_lt.mp outside)] at h
    cases h
  have moved : su.segmentChosen i = { entries := setPlace su.entries i (.sending r count (next + 1)) } := by
    rw [segmentChosen, h]
  rw [moved]
  refine ⟨?_, fun j other => ?_⟩
  · rw [place_setPlace, if_pos ⟨rfl, inside⟩]
  · rw [place_setPlace, if_neg fun k => other k.1.symm]

namespace State

variable {s : State}

/-- R172: the ask that is due is an entry of the ask list. -/
theorem dueAsk_held {i p : Nat} {a : AskEntry} (h : s.dueAsk = some (i, a, p)) : i < 4 ∧ s.ask i = some a := by
  obtain ⟨k, mem, found⟩ := List.exists_of_findSome?_eq_some h
  have inside : k < 4 := by
    simp only [List.mem_cons, List.not_mem_nil, or_false] at mem
    omega
  split at found
  · next b held =>
    split at found
    · cases found
      exact ⟨inside, held⟩
    · cases found
  · cases found

/-! ## The order of the lines (R71, R72) -/

/-- No line offers. -/
def NoOffer (s : State) : Prop :=
  s.su.offer = none ∧ s.dueRefusal = none ∧ s.hu.line2 = false ∧ s.hu.line3 = false ∧ s.resendOffer = none ∧ s.dueAsk = none
    ∧ s.hu.line7 = false

theorem chooseBurst_of_noOffer (h : s.NoOffer) : s.chooseBurst = none := by
  obtain ⟨offer, refusal, line2, line3, resend, ask, line7⟩ := h
  have line : s.chooseByLine = none := by
    rw [chooseByLine, chooseRefuse, chooseResend, chooseOwnSeg, chooseAsk, offer, refusal, line2, line3, resend, ask, line7]
    rfl
  rw [chooseBurst, line, chooseOwnSeg, offer]
  split
  · rfl
  · rfl

theorem chooseBurst_of_fair {x : Nat × OwnRecord × Nat} (fair : s.lc.fairness = 4) (offer : s.su.offer = some x) :
    s.chooseBurst = s.chooseOwnSeg := by
  rw [chooseBurst, if_pos fair, chooseOwnSeg, offer]
  rfl

theorem chooseBurst_of_line (h : s.lc.fairness = 4 → s.su.offer = none) : s.chooseBurst = s.chooseByLine := by
  rw [chooseBurst]
  split
  · next fair =>
    rw [chooseOwnSeg, h fair]
    rfl
  · rfl

section
variable (line : s.lc.fairness = 4 → s.su.offer = none)
include line

theorem chooses_refuse {asker origin number : Nat} {reason : RefuseReason} (refusal : s.dueRefusal = some (asker, origin, number, reason)) :
    s.chooseBurst = some
      ({ item := .refuse, bytes := s.burst .refuse asker (refuseBytes origin reason number), contested := s.su.offer.isSome },
        s.refusalChosen reason) := by
  rw [chooseBurst_of_line line, chooseByLine, chooseRefuse, refusal]
  rfl

variable (refusal : s.dueRefusal = none)
include refusal

theorem chooses_report (line2 : s.hu.line2 = true) : s.chooseBurst = some s.chooseReport := by
  rw [chooseBurst_of_line line, chooseByLine, chooseRefuse, refusal, line2]
  rfl

variable (line2 : s.hu.line2 = false)
include line2

theorem chooses_hail (line3 : s.hu.line3 = true) : s.chooseBurst = some s.chooseHail := by
  rw [chooseBurst_of_line line, chooseByLine, chooseRefuse, refusal, line2, line3]
  rfl

variable (line3 : s.hu.line3 = false)
include line3

theorem chooses_resend {r : ServeRecord} (resend : s.resendOffer = some r) : s.chooseBurst = some
    ({ item := .resend, bytes := s.burst .seg 0 (segmentBytes (cutSegment r.origin r.seq r.check r.payload true r.next)),
       contested := s.su.offer.isSome }, s.resendChosen r) := by
  rw [chooseBurst_of_line line, chooseByLine, chooseRefuse, chooseResend, refusal, line2, line3, resend]
  rfl

variable (resend : s.resendOffer = none)
include resend

theorem chooses_ownSeg {x : Nat × OwnRecord × Nat} (offer : s.su.offer = some x) : s.chooseBurst = s.chooseOwnSeg := by
  rw [chooseBurst_of_line line, chooseByLine, chooseRefuse, chooseResend, chooseOwnSeg, refusal, line2, line3, resend, offer]
  rfl

variable (offer : s.su.offer = none)
include offer

theorem chooses_ask {i p : Nat} {a : AskEntry} (ask : s.dueAsk = some (i, a, p)) : s.chooseBurst = some
    ({ item := .ask a.origin p, bytes := s.burst .ask p (askBytes { origin := a.origin, count := a.count, first := a.first }),
       contested := s.su.offer.isSome }, s.putAsk i (some { a with state := .asked p false false })) := by
  rw [chooseBurst_of_line line, chooseByLine, chooseRefuse, chooseResend, chooseOwnSeg, chooseAsk, refusal, line2, line3, resend, offer, ask]
  rfl

theorem chooses_line7 (ask : s.dueAsk = none) (line7 : s.hu.line7 = true) : s.chooseBurst = some s.chooseReport := by
  rw [chooseBurst_of_line line, chooseByLine, chooseRefuse, chooseResend, chooseOwnSeg, chooseAsk, refusal, line2, line3, resend, offer,
    ask, line7]
  rfl

end

theorem chooseOwnSeg_of_offer {i next : Nat} {r : OwnRecord} (offer : s.su.offer = some (i, r, next)) : s.chooseOwnSeg = some
    ({ item := .ownSeg r.seq (next + 1 == segmentCount r.payload.length),
       bytes := s.burst .seg 0 (segmentBytes (cutSegment s.own r.seq r.check r.payload false next)), contested := true },
      s.setSu (s.su.segmentChosen i)) := by
  rw [chooseOwnSeg, offer]
  rfl

/-! ## The serve queue moved on (R178, R179, R181) -/

/-- The serve queue is `jobs`, and its head, if any, has been tested. -/
structure ServesNext (s v : State) (jobs : List ServeJob) : Prop where
  same : v = { s with
    rp := { s.rp with jobs := jobs, notHeld := v.rp.notHeld }, sm := { s.sm with serveLookup := v.sm.serveLookup },
    fc := { s.fc with serveClaim := v.fc.serveClaim } }
  tested : HeadTested s v jobs
  ended : jobs = [] → v.rp.notHeld = s.rp.notHeld

theorem testHead_servesNext (s : State) (jobs : List ServeJob) :
    ServesNext s (s.setRp { s.rp with jobs := jobs }).testHead jobs := by
  cases jobs with
  | nil => exact ⟨rfl, nofun, fun _ => rfl⟩
  | cons j js =>
    have tests := testHead_tests (s := s.setRp { s.rp with jobs := j :: js }) rfl
    refine ⟨?_, tests.headTested js, nofun⟩
    conv => lhs; rw [tests.same]
    rfl

theorem endHead_servesNext (s : State) :
    ServesNext (s.setRp { s.rp with notHeld := none }) s.endHead (s.rp.jobs.drop 1) :=
  testHead_servesNext (s.setRp { s.rp with notHeld := none }) (s.rp.jobs.drop 1)

/-! ## The end of the own slot -/

theorem settleAll_calm (calm : Calm s) :
    s.settleAll.rp = s.rp ∧ s.settleAll.hu = s.hu ∧ waiting s.settleAll.sm.serveLookup = waiting s.sm.serveLookup := by
  obtain ⟨⟨reclaim, rerun⟩, claim⟩ := calm
  obtain ⟨grants, ends⟩ := settleAll_of_idle reclaim claim
  rw [ends, settleRepair_of_untold (by rw [grants.rp, rerun])]
  refine ⟨grants.rp, grants.hu, ?_⟩
  rcases grants.lookups .serve with ⟨lookup, -⟩ | ⟨c, -, -, -, lookup⟩
  · exact congrArg waiting lookup
  · refine (congrArg waiting lookup).trans ?_
    show waiting (s.sm.serveLookup.map _) = _
    cases s.sm.serveLookup with
    | none => rfl
    | some l => rfl

theorem headTested_of_waiting {v t : State} {jobs : List ServeJob} (h : HeadTested s v jobs) (notHeld : t.rp.notHeld = v.rp.notHeld)
    (lookup : waiting t.sm.serveLookup = waiting v.sm.serveLookup) : HeadTested s t jobs := by
  intro j js e
  obtain ⟨unsettled, settled⟩ := h j js e
  refine ⟨fun k => notHeld.trans (unsettled k), fun k => ⟨fun absent => notHeld.trans ((settled k).1 absent), fun st b found => ?_⟩⟩
  obtain ⟨l, held, origin, seq, block, page, bound, damaged⟩ := (settled k).2 st b found
  rw [held] at lookup
  obtain ⟨m, held', same⟩ := Option.map_eq_some_iff.mp lookup
  refine ⟨m, held', ?_⟩
  injection same with origin' seq' block' page' offset' bound' damaged' step'
  exact ⟨origin'.trans origin, seq'.trans seq, block'.trans block, page'.trans page, bound'.trans bound, damaged'.trans damaged⟩

end State

end Sys2Proof.Machine


namespace Sys2Proof.Machine

open Sys2Proof.Safety

namespace State

variable {s : State}

theorem noOffer_of_chooseBurst (h : s.chooseBurst = none) : s.NoOffer := by
  have line : s.chooseByLine = none := by
    unfold chooseBurst at h
    split at h
    · rw [Option.orElse_eq_or, Option.or_eq_none_iff] at h
      exact h.2
    · exact h
  simp only [chooseByLine, Option.orElse_eq_or, Option.or_eq_none_iff, chooseRefuse, chooseResend, chooseOwnSeg, chooseAsk,
    Option.map_eq_none_iff, ite_eq_right_iff, reduceCtorEq, imp_false, Bool.not_eq_true] at line
  obtain ⟨⟨⟨⟨⟨⟨refusal, line2⟩, line3⟩, resend⟩, offer⟩, ask⟩, line7⟩ := line
  exact ⟨offer, refusal, line2, line3, resend, ask, line7⟩

/-- R64: the own slot counted. -/
def counted (s : State) : State := s.setLc { s.lc with slotCount := some s.nextSlot }

/-- What an own slot does in DEFERRING (R64, R70). -/
def ownSlot (s : State) : Option ChosenBurst → Host.Outcome State Fault Refusal
  | some _ => .next (s.counted.setLc { s.counted.lc with state := .sending })
  | none =>
    match s.counted.chooseBurst with
    | some (c, v) => .next (v.setLc { v.lc with chosen := some c, state := .sending }).settleAll
    | none => .next s.counted

theorem exec_ownSlotStart (deferring : s.lc.state = .deferring) : exec .ownSlotStart s = s.ownSlot s.lc.chosen := by
  show execOwnSlotStart s = _
  unfold execOwnSlotStart
  rw [deferring]
  cases s.lc.chosen with
  | none => rfl
  | some c => rfl

/-- R70: an own slot begins with choice `c`, whose owner has moved on in `v`. -/
structure SlotBegins (s : State) (c : ChosenBurst) (v t : State) : Prop where
  done : exec .ownSlotStart s = .next t
  lc : t.lc = { s.lc with slotCount := some s.nextSlot, state := .sending, chosen := some c }
  su : t.su = v.su
  jobs : t.rp.jobs = v.rp.jobs
  busy : t.rp.busy = v.rp.busy
  buffer : t.rp.buffer = v.rp.buffer
  completed : t.counter .jobsCompleted = v.counter .jobsCompleted
  lines : t.hu.line2 = v.hu.line2 ∧ t.hu.line3 = v.hu.line3 ∧ t.hu.reportTimer = v.hu.reportTimer
  calm : Calm v → t.rp = v.rp ∧ t.hu = v.hu ∧ waiting t.sm.serveLookup = waiting v.sm.serveLookup
  rest : t.sc = s.sc ∧ t.hu.matrix = s.hu.matrix ∧ t.hu.presence = s.hu.presence ∧ t.ap.slot = s.ap.slot ∧ t.pending = s.pending
    ∧ ArrayKept s t

theorem slotBegins {c : ChosenBurst} {v : State} (deferring : s.lc.state = .deferring) (unchosen : s.lc.chosen = none)
    (choose : s.counted.chooseBurst = some (c, v)) : ∃ t, SlotBegins s c v t := by
  have done : exec .ownSlotStart s = .next (v.setLc { v.lc with chosen := some c, state := .sending }).settleAll := by
    rw [exec_ownSlotStart deferring, unchosen, ownSlot, choose]
  have keeps := chooseBurst_keeps choose
  have settles := settleAll_settles (v.setLc { v.lc with chosen := some c, state := .sending })
  have ends := settleAll_keeps (v.setLc { v.lc with chosen := some c, state := .sending })
  obtain ⟨jobs, busy, buffer⟩ := settles.serving
  refine ⟨_, done, ?_, settles.su, jobs, busy, buffer, settles.same (by decide), ?_, fun calm => settleAll_calm calm,
    ends.sc.trans keeps.sc, ends.matrix.trans keeps.matrix, ends.presence.trans keeps.presence, ends.slot.trans keeps.slot,
    ends.pending.trans keeps.pending, (exec_course done).arrayKept id⟩
  · have lc : v.lc = { s.lc with slotCount := some s.nextSlot } := keeps.lc
    rw [ends.lc]
    show { v.lc with chosen := some c, state := .sending } = _
    rw [lc]
  · rw [settles.hu]
    exact ⟨rfl, rfl, rfl⟩

namespace SlotBegins

variable {c : ChosenBurst} {v t : State} (h : SlotBegins s c v t)
include h

theorem unmoved (rp : v.rp = s.rp) (ap : v.ap = s.ap) : t.rp.jobs = s.rp.jobs ∧ t.rp.busy = s.rp.busy ∧ t.rp.buffer = s.rp.buffer
    ∧ t.counter .jobsCompleted = s.counter .jobsCompleted :=
  ⟨by rw [h.jobs, rp], by rw [h.busy, rp], by rw [h.buffer, rp], by rw [h.completed, counter, ap, counter]⟩

theorem tested (calm : Calm v) {jobs : List ServeJob} (w : HeadTested s v jobs) : HeadTested s t jobs := by
  obtain ⟨rp, -, lookup⟩ := h.calm calm
  exact headTested_of_waiting w (by rw [rp]) lookup

end SlotBegins

theorem ServesNext.calm {v : State} {jobs : List ServeJob} (h : ServesNext s v jobs) (calm : Calm s) : Calm v := by
  rw [h.same]
  exact calm

/-- R73: a choice is contested where an own SEG was offered. -/
theorem contested_of_chooseBurst {c : Choice} (h : s.chooseBurst = some c) : c.1.contested = s.su.offer.isSome := by
  rcases chooseBurst_source h with h | rfl | rfl | h | h | h
  · obtain ⟨x, -, rfl⟩ := Option.map_eq_some_iff.mp h
    rfl
  · rfl
  · rfl
  · obtain ⟨x, -, rfl⟩ := Option.map_eq_some_iff.mp h
    rfl
  · obtain ⟨x, offer, rfl⟩ := Option.map_eq_some_iff.mp h
    rw [offer]
    rfl
  · obtain ⟨x, -, rfl⟩ := Option.map_eq_some_iff.mp h
    rfl

/-- R116: the offer of line 5 moves to its next segment, and nothing else. -/
theorem SlotBegins.segmentMoved {c : ChosenBurst} {t : State} {i next : Nat} {r : OwnRecord}
    (h : SlotBegins s c (s.counted.setSu (s.counted.su.segmentChosen i)) t) (offer : s.su.offer = some (i, r, next)) :
    (∃ count, place s.su.entries .free i = .sending r count next ∧ place t.su.entries .free i = .sending r count (next + 1))
      ∧ (∀ j, j ≠ i → place t.su.entries .free j = place s.su.entries .free j)
      ∧ (t.rp.jobs = s.rp.jobs ∧ t.rp.busy = s.rp.busy ∧ t.rp.buffer = s.rp.buffer
        ∧ t.counter .jobsCompleted = s.counter .jobsCompleted)
      ∧ (Calm s → t.hu = s.hu ∧ t.rp = s.rp) := by
  obtain ⟨count, held⟩ := Su.offer_held offer
  obtain ⟨moved, others⟩ := Su.segmentChosen_moves held
  have su : t.su = s.su.segmentChosen i := h.su
  rw [su]
  refine ⟨⟨count, held, moved⟩, others, h.unmoved rfl rfl, fun calm => ?_⟩
  obtain ⟨rp, hu, -⟩ := h.calm calm
  exact ⟨hu, rp⟩

/-- The serve queue moved on from `u` in an own slot. -/
structure SlotServes (s u : State) (jobs : List ServeJob) (t : State) : Prop where
  su : t.su = s.su
  hu : Calm s → t.hu = s.hu
  busy : t.rp.busy = s.rp.busy
  buffer : t.rp.buffer = u.rp.buffer
  queue : t.rp.jobs = jobs
  completed : t.counter .jobsCompleted = u.counter .jobsCompleted
  tested : Calm s → HeadTested s t jobs
  ended : Calm s → jobs = [] → t.rp.notHeld = u.rp.notHeld

theorem SlotBegins.serves {c : ChosenBurst} {u v t : State} {jobs : List ServeJob} (h : SlotBegins s c v t) (next : ServesNext u v jobs)
    (su : u.su = s.su) (hu : u.hu = s.hu) (sm : u.sm = s.sm) (busy : u.rp.busy = s.rp.busy) (calm : Calm s → Calm u) :
    SlotServes s u jobs t := by
  have same := next.same
  have tested : HeadTested s v jobs := by
    have tested := next.tested
    unfold HeadTested State.entry at tested ⊢
    rwa [hu, sm, busy] at tested
  have calm (w : Calm s) : Calm v := next.calm (calm w)
  refine ⟨?_, fun w => ?_, ?_, ?_, ?_, ?_, fun w => h.tested (calm w) tested, fun w ended => ?_⟩
  · rw [h.su, same, ← su]
  · rw [(h.calm (calm w)).2.1, same, ← hu]
  · rw [h.busy, same, ← busy]
  · rw [h.buffer, same]
  · rw [h.jobs, same]
  · rw [h.completed, same]
    rfl
  · rw [(h.calm (calm w)).1, next.ended ended]

/-- R178: the refusal of line 1 leaves, a NOT-HELD with its job. -/
theorem SlotBegins.refusalMoved {c : ChosenBurst} {t : State} {reason : RefuseReason}
    (h : SlotBegins s c (s.counted.refusalChosen reason) t) :
    t.su = s.su ∧ (Calm s → t.hu = s.hu) ∧ t.rp.buffer = s.rp.buffer ∧ t.counter .jobsCompleted = s.counter .jobsCompleted
      ∧ (reason = .busy → t.rp.busy = s.rp.busy.drop 1 ∧ t.rp.jobs = s.rp.jobs
          ∧ (Calm s → t.rp.notHeld = s.rp.notHeld.map fun r => { r with older := r.older - 1 }))
      ∧ (reason = .notHeld → t.rp.jobs = s.rp.jobs.drop 1 ∧ t.rp.busy = s.rp.busy
          ∧ (Calm s → HeadTested s t (s.rp.jobs.drop 1) ∧ (s.rp.jobs.drop 1 = [] → t.rp.notHeld = none))) := by
  cases reason with
  | busy =>
    refine ⟨h.su, fun calm => (h.calm calm).2.1, h.buffer, h.completed, fun _ => ⟨h.busy, h.jobs, fun calm => ?_⟩, nofun⟩
    rw [(h.calm calm).1]
    rfl
  | notHeld =>
    have serves := SlotBegins.serves h (endHead_servesNext s.counted) rfl rfl rfl rfl id
    exact ⟨serves.su, serves.hu, serves.buffer, serves.completed, nofun, fun _ => ⟨serves.queue, serves.busy,
      fun calm => ⟨serves.tested calm, serves.ended calm⟩⟩⟩

section
variable {r : ServeRecord}

theorem resendChosen_segment (more : r.next + 1 < segmentCount r.payload.length) :
    s.resendChosen r = s.setRp { s.rp with buffer := some { r with next := r.next + 1 } } := if_pos more

variable (last : ¬ r.next + 1 < segmentCount r.payload.length)
include last

theorem resendChosen_idle (jobs : s.rp.jobs = []) :
    s.resendChosen r = s.setRp { s.rp with buffer := some { r with next := r.next + 1 } } := by
  rw [resendChosen]
  dsimp only
  rw [if_neg last]
  show (match s.rp.jobs with | [] => _ | j :: js => _) = _
  rw [jobs]

variable {j : ServeJob} {js : List ServeJob} (jobs : s.rp.jobs = j :: js)
include jobs

theorem resendChosen_number (more : j.next + 1 ≤ j.first + j.count - 1) : s.resendChosen r
    = (s.setRp { s.rp with buffer := some { r with next := r.next + 1 }, jobs := { j with next := j.next + 1 } :: js }).testHead := by
  rw [resendChosen]
  dsimp only
  rw [if_neg last]
  show (match s.rp.jobs with | [] => _ | j :: js => _) = _
  rw [jobs]
  exact if_pos more

theorem resendChosen_job (ends : j.first + j.count - 1 < j.next + 1) : s.resendChosen r
    = ((s.setRp { s.rp with buffer := some { r with next := r.next + 1 } }).bump .jobsCompleted).endHead := by
  rw [resendChosen]
  dsimp only
  rw [if_neg last]
  show (match s.rp.jobs with | [] => _ | j :: js => _) = _
  rw [jobs]
  exact if_neg (Nat.not_le.mpr ends)

end

/-- R179, R181: the resend of line 4 moves to its next segment, after the last to the next number of the job, and after that the job
is completed. -/
theorem SlotBegins.resendMoved {c : ChosenBurst} {t : State} {r : ServeRecord} (h : SlotBegins s c (s.counted.resendChosen r) t) :
    t.su = s.su ∧ (Calm s → t.hu = s.hu) ∧ t.rp.busy = s.rp.busy ∧ t.rp.buffer = some { r with next := r.next + 1 }
      ∧ (r.next + 1 < segmentCount r.payload.length →
          t.rp.jobs = s.rp.jobs ∧ t.counter .jobsCompleted = s.counter .jobsCompleted)
      ∧ (segmentCount r.payload.length ≤ r.next + 1 → ∀ j js, s.rp.jobs = j :: js →
          (j.next + 1 ≤ j.first + j.count - 1 →
            t.rp.jobs = { j with next := j.next + 1 } :: js ∧ t.counter .jobsCompleted = s.counter .jobsCompleted
              ∧ (Calm s → HeadTested s t ({ j with next := j.next + 1 } :: js)))
          ∧ (j.first + j.count - 1 < j.next + 1 →
              t.rp.jobs = js ∧ t.counter .jobsCompleted = min 65535 (s.counter .jobsCompleted + 1)
                ∧ (Calm s → HeadTested s t js ∧ (js = [] → t.rp.notHeld = none)))) := by
  by_cases more : r.next + 1 < segmentCount r.payload.length
  · rw [resendChosen_segment more] at h
    exact ⟨h.su, fun calm => (h.calm calm).2.1, h.busy, h.buffer, fun _ => ⟨h.jobs, h.completed⟩, fun last => absurd more (Nat.not_lt.mpr last)⟩
  cases jobs : s.rp.jobs with
  | nil =>
    rw [resendChosen_idle (s := s.counted) more jobs] at h
    exact ⟨h.su, fun calm => (h.calm calm).2.1, h.busy, h.buffer, fun k => absurd k more, fun _ _ _ => nofun⟩
  | cons j js =>
  by_cases numbers : j.next + 1 ≤ j.first + j.count - 1
  · rw [resendChosen_number (s := s.counted) more jobs numbers] at h
    have serves := h.serves (testHead_servesNext (s.counted.setRp { s.rp with buffer := some { r with next := r.next + 1 } })
      ({ j with next := j.next + 1 } :: js)) rfl rfl rfl rfl id
    refine ⟨serves.su, serves.hu, serves.busy, serves.buffer, fun k => absurd k more, ?_⟩
    rintro - _ _ ⟨⟩
    exact ⟨fun _ => ⟨serves.queue, serves.completed, serves.tested⟩, fun ends => absurd numbers (Nat.not_le.mpr ends)⟩
  · rw [resendChosen_job (s := s.counted) more jobs (Nat.not_le.mp numbers)] at h
    have serves := h.serves (endHead_servesNext _) rfl rfl rfl rfl id
    refine ⟨serves.su, serves.hu, serves.busy, serves.buffer, fun k => absurd k more, ?_⟩
    rintro - _ _ ⟨⟩
    refine ⟨fun k => absurd k numbers, fun _ => ⟨?_, ?_, fun calm => ?_⟩⟩
    · rw [serves.queue]
      exact congrArg (List.drop 1) jobs
    · rw [serves.completed]
      exact counter_bump_self (s.counted.setRp _) .jobsCompleted
    · have same : js = (s.rp.jobs.drop 1) := by rw [jobs]; rfl
      rw [same]
      exact ⟨serves.tested calm, serves.ended calm⟩

end State

end Sys2Proof.Machine

namespace Sys2Proof.Proofs

open Sys2Proof.Machine Sys2Proof.Safety

/-- Settles O16. -/
theorem ownSlotSendsByTheOrder : Obligations.OwnSlotSendsByTheOrder := by
  intro s deferring
  refine ⟨fun c chosen => ?_, fun unchosen offer refusal line2 line3 resend ask line7 => ?_, ?_⟩
  · rw [State.exec_ownSlotStart deferring, chosen]
    rfl
  · have nothing : s.counted.chooseBurst = none := State.chooseBurst_of_noOffer ⟨offer, refusal, line2, line3, resend, ask, line7⟩
    rw [State.exec_ownSlotStart deferring, unchosen, State.ownSlot, nothing]
    rfl
  · intro unchosen offers unmoved segmentMoved
    cases choose : s.counted.chooseBurst with
    | none =>
      obtain ⟨offer, refusal, line2, line3, resend, ask, line7⟩ := State.noOffer_of_chooseBurst choose
      have offer : s.su.offer = none := offer
      have refusal : s.dueRefusal = none := refusal
      have line2 : s.hu.line2 = false := line2
      have line3 : s.hu.line3 = false := line3
      have resend : s.resendOffer = none := resend
      have ask : s.dueAsk = none := ask
      have line7 : s.hu.line7 = false := line7
      rw [offer, refusal, line2, line3, resend, ask, line7] at offers
      simp at offers
    | some choice =>
    obtain ⟨c, v⟩ := choice
    obtain ⟨t, begins⟩ := State.slotBegins deferring unchosen choose
    refine ⟨t, c, begins.done, begins.lc, State.contested_of_chooseBurst choose, ?_, begins.rest⟩
    have ordered (above : ∀ i r next, (s.lc.fairness == 4) = true → s.su.offer = some (i, r, next) → False) :
        s.counted.lc.fairness = 4 → s.counted.su.offer = none := by
      intro fair
      cases offer : s.su.offer with
      | none => exact offer
      | some x => exact (above x.1 x.2.1 x.2.2 (beq_iff_eq.mpr fair) offer).elim
    split
    · next i r next _ _ _ _ _ fair offer =>
      have chosen := (State.chooseBurst_of_fair (s := s.counted) (beq_iff_eq.mp fair) offer).trans (State.chooseOwnSeg_of_offer offer)
      cases choose.symm.trans chosen
      exact ⟨rfl, rfl, begins.segmentMoved offer⟩
    · rename_i refusal above
      cases choose.symm.trans (State.chooses_refuse (ordered above) refusal)
      exact ⟨rfl, rfl, begins.refusalMoved⟩
    · rename_i refusal line2 above
      cases choose.symm.trans (State.chooses_report (ordered above) refusal line2)
      obtain ⟨two, three, timer⟩ := begins.lines
      exact ⟨rfl, rfl, two, timer, begins.su, begins.unmoved rfl rfl, fun calm => ⟨(begins.calm calm).1, (begins.calm calm).2.1⟩⟩
    · rename_i refusal line2 line3 above
      cases choose.symm.trans (State.chooses_hail (ordered above) refusal line2 line3)
      obtain ⟨two, three, timer⟩ := begins.lines
      exact ⟨rfl, rfl, three, timer, begins.su, begins.unmoved rfl rfl, fun calm => ⟨(begins.calm calm).1, (begins.calm calm).2.1⟩⟩
    · rename_i refusal line2 line3 resend above
      cases choose.symm.trans (State.chooses_resend (ordered above) refusal line2 line3 resend)
      exact ⟨rfl, rfl, begins.resendMoved⟩
    · rename_i offer refusal line2 line3 resend above
      have chosen := (State.chooses_ownSeg (ordered fun _ _ _ fair _ => above fair) refusal line2 line3 resend offer).trans (State.chooseOwnSeg_of_offer offer)
      cases choose.symm.trans chosen
      exact ⟨rfl, rfl, begins.segmentMoved offer⟩
    · rename_i offer refusal line2 line3 resend ask
      cases choose.symm.trans (State.chooses_ask (s := s.counted) (fun _ => offer) refusal line2 line3 resend offer ask)
      obtain ⟨inside, held⟩ := State.dueAsk_held ask
      refine ⟨rfl, rfl, begins.su, ⟨begins.jobs, begins.busy, begins.buffer, begins.completed⟩, fun calm => ?_⟩
      obtain ⟨rp, hu, -⟩ := begins.calm calm
      refine ⟨hu, ?_, fun j other => ?_⟩
      · rw [State.ask, rp, ← State.ask, State.ask_putAsk s.counted inside, if_pos rfl]
      · rw [State.ask, rp, ← State.ask, State.ask_putAsk s.counted inside, if_neg other]
        rfl
    · rename_i offer refusal line2 line3 resend ask
      have line7 : s.hu.line7 = true := by
        rw [offer, refusal, line2, line3, resend, ask] at offers
        simpa using offers
      cases choose.symm.trans (State.chooses_line7 (s := s.counted) (fun _ => offer) refusal line2 line3 resend offer ask line7)
      obtain ⟨two, three, timer⟩ := begins.lines
      exact ⟨rfl, rfl, timer, begins.su, begins.unmoved rfl rfl, fun calm => ⟨(begins.calm calm).1, (begins.calm calm).2.1⟩⟩

end Sys2Proof.Proofs


namespace Sys2Proof.Machine

open Sys2Proof.Safety

namespace State

variable {s : State}

/-! ## FETCH (R202) -/

theorem startFetch_of_candidate {o n st b : Nat} (found : s.sm.candidate o n none = some (st, b)) : s.startLookup .fetch o n = { s with
    sm := { s.sm with fetchLookup := some { origin := o, seq := n, block := some b, page := (s.sm.block b).pages - 1, offset := 0,
                                            bound := some (st, b), damaged := false, step := .waiting } },
    fc := { s.fc with fetchClaim := some { kind := .spare, page := { block := b, page := (s.sm.block b).pages - 1 } } } } := by
  rw [startLookup, choose, found]
  rfl

theorem startFetch_of_none {o n : Nat} (nothing : s.sm.candidate o n none = none) (settled : (s.entry o).settled n = true) :
    s.startLookup .fetch o n = { s with
      sm := { s.sm with fetchLookup := none }, ap := { s.ap with fetch := .done o n .lost } } := by
  rw [startLookup, choose, nothing]
  have settled : ((s.setSm (s.sm.setLookup .fetch none)).entry o).settled n = true := settled
  show fetchEnds _ o n .notFound = _
  rw [fetchEnds, settled]
  rfl

/-- R16: over a free array with no program claim the fetch step begins. -/
theorem grant_fetchStep {c : StepClaim} (runs : s.storeRuns = true) (free : s.fc.op = none) (unclaimed : s.fc.programClaim = none)
    (claim : s.fc.fetchClaim = some c) : s.grant = s.grantStep .fetch c :=
  grantRounds_fetch runs free unclaimed claim (s.fc.markClaims.length + 1919)

theorem settleAll_of_calm (calm : Calm s) : s.settleAll = s.grant := by
  obtain ⟨⟨reclaim, rerun⟩, claim⟩ := calm
  obtain ⟨grants, ends⟩ := settleAll_of_idle reclaim claim
  rw [ends, settleRepair_of_untold (by rw [grants.rp, rerun])]

theorem takeFetch_badOrigin {o n : Nat} (bad : o = 0 ∨ s.originLimit < o) : s.takeFetch o n = s.respond .badOrigin [] := by
  rw [takeFetch, if_pos]
  rw [badOrigin, Bool.or_eq_true, beq_iff_eq, decide_eq_true_eq]
  exact bad

section
variable {o n : Nat} (low : 1 ≤ o) (high : o ≤ s.originLimit)
include low high

theorem badOrigin_eq_false : s.badOrigin o = false := by
  rw [badOrigin, Bool.or_eq_false_iff, beq_eq_false_iff_ne, decide_eq_false_iff_not]
  omega

theorem takeFetch_notHeld (unsettled : (s.entry o).settled n = false) : s.takeFetch o n = s.respond .notHeld [] := by
  rw [takeFetch, badOrigin_eq_false low high, unsettled]
  rfl

variable (settled : (s.entry o).settled n = true)
include settled

theorem takeFetch_busy (busy : s.ap.fetch ≠ .idle) : s.takeFetch o n = s.respond .busy [] := by
  rw [takeFetch, badOrigin_eq_false low high, settled]
  cases job : s.ap.fetch with
  | idle => exact absurd job busy
  | looking => rfl
  | done => rfl

theorem takeFetch_idle (idle : s.ap.fetch = .idle) : s.takeFetch o n
    = (((s.setAp { s.ap with fetch := .looking o n }).startLookup .fetch o n).settleAll).respond .accepted [] := by
  rw [takeFetch, badOrigin_eq_false low high, settled, idle]
  rfl

end

/-- R202: what an accepted FETCH leaves of the state that the frame has been taken in. -/
structure FetchBegins (s t : State) (o n : Nat) : Prop where
  slot : t.ap.slot = .ready { status := .accepted, data := [], armsReset := false }
  dataOut : t.ap.dataOut = s.ap.dataOut
  units : t.sc = s.sc ∧ t.lc = s.lc ∧ t.hu = s.hu ∧ t.su = s.su ∧ t.ra = s.ra ∧ t.ce = s.ce ∧ t.rp = s.rp
  nu : t.nu = s.nu
  pending : t.pending = s.pending
  looks : ∀ st b, s.sm.candidate o n none = some (st, b) →
    let page : PageAddr := { block := b, page := (s.sm.block b).pages - 1 }
    let lookup := fun (step : LookupStep) =>
      some ({ origin := o, seq := n, block := some b, page := page.page, offset := 0, bound := some (st, b), damaged := false,
              step := step } : Lookup)
    t.ap.fetch = .looking o n
      ∧ (s.fc.op.isSome →
          t.sm.fetchLookup = lookup .waiting ∧ t.fc.op = s.fc.op ∧ t.fc.fetchClaim = some { kind := .spare, page := page })
      ∧ (s.fc.op = none →
          t.sm.fetchLookup = lookup .running ∧ t.fc.op = some (.lookupRead .fetch .spare page) ∧ t.fc.fetchClaim = none)
  lost : s.sm.candidate o n none = none → t.ap.fetch = .done o n .lost ∧ t.sm.fetchLookup = none

theorem fetchBegins {o n : Nat} (runs : s.storeRuns = true) (calm : Calm s) (settled : (s.entry o).settled n = true) :
    FetchBegins s ((((s.setAp { s.ap with fetch := .looking o n }).startLookup .fetch o n).settleAll).respond .accepted []) o n := by
  cases candidate : s.sm.candidate o n none with
  | some c =>
    obtain ⟨st, b⟩ := c
    have found : (s.setAp { s.ap with fetch := .looking o n }).sm.candidate o n none = some (st, b) := candidate
    have started := startFetch_of_candidate found
    generalize (s.setAp { s.ap with fetch := .looking o n }).startLookup .fetch o n = m at started
    have calm' : Calm m := by rw [started]; exact calm
    have op' : m.fc.op = s.fc.op := by rw [started]; rfl
    rw [settleAll_of_calm calm']
    cases op : s.fc.op with
    | some x =>
      rw [grant_of_busy (by rw [op', op]; rfl), started]
      refine ⟨rfl, rfl, ⟨rfl, rfl, rfl, rfl, rfl, rfl, rfl⟩, rfl, rfl, fun st' b' found => ?_, fun nothing => ?_⟩
      · cases candidate.symm.trans found
        exact ⟨rfl, fun _ => ⟨rfl, rfl, rfl⟩, fun free => absurd (op.symm.trans free) nofun⟩
      · exact absurd (candidate.symm.trans nothing) nofun
    | none =>
      have unclaimed : s.fc.programClaim = none := calm.2.resolve_left (by rw [op]; exact Bool.false_ne_true)
      have runs' : m.storeRuns = true := by rw [started]; exact runs
      have unclaimed' : m.fc.programClaim = none := by rw [started]; exact unclaimed
      rw [grant_fetchStep runs' (op'.trans op) unclaimed' (by rw [started]), started]
      refine ⟨rfl, rfl, ⟨rfl, rfl, rfl, rfl, rfl, rfl, rfl⟩, rfl, rfl, fun st' b' found => ?_, fun nothing => ?_⟩
      · cases candidate.symm.trans found
        exact ⟨rfl, fun busy => absurd busy (by rw [op]; exact Bool.false_ne_true), fun _ => ⟨rfl, rfl, rfl⟩⟩
      · exact absurd (candidate.symm.trans nothing) nofun
  | none =>
    have nothing : (s.setAp { s.ap with fetch := .looking o n }).sm.candidate o n none = none := candidate
    have started := startFetch_of_none nothing settled
    generalize (s.setAp { s.ap with fetch := .looking o n }).startLookup .fetch o n = m at started
    have calm' : Calm m := by rw [started]; exact calm
    rw [settleAll_of_calm calm']
    have grants := grant_of_unrefused (.inr (.inl calm'.2))
    generalize m.grant = t at grants
    have lookup : t.sm.fetchLookup = none := by
      have before : m.sm.lookup .fetch = none := by rw [started]; rfl
      rcases grants.lookups .fetch with ⟨same, -⟩ | ⟨c, -, -, -, mapped⟩
      · exact same.trans before
      · exact mapped.trans (by rw [before]; rfl)
    have ap : t.ap = { m.ap with counters := t.ap.counters } := by
      conv => lhs; rw [grants.same]
    refine ⟨rfl, ?_, ?_, ?_, ?_, fun st b found => absurd (candidate.symm.trans found) nofun, fun _ => ⟨?_, lookup⟩⟩
    · show t.ap.dataOut = _
      rw [ap, started]
      rfl
    · show t.sc = s.sc ∧ t.lc = s.lc ∧ t.hu = s.hu ∧ t.su = s.su ∧ t.ra = s.ra ∧ t.ce = s.ce ∧ t.rp = s.rp
      rw [grants.same, started]
      exact ⟨rfl, rfl, rfl, rfl, rfl, rfl, rfl⟩
    · show t.nu = s.nu
      rw [grants.same, started]
      rfl
    · show t.pending = s.pending
      rw [grants.same, started]
      rfl
    · show t.ap.fetch = _
      rw [ap, started]

end State

end Sys2Proof.Machine

namespace Sys2Proof.Proofs

open Sys2Proof.Machine Sys2Proof.Safety

/-- Settles O49. -/
theorem fetchAndItsResult : Obligations.FetchAndItsResult := by
  refine ⟨fun s params runs length quiet claim => ?_, fun s runs => ?_⟩
  · intro o n
    have taken : exec (.fetch (frame params)) s = .next ((s.frameTaken (frame params)).takeFetch o n) := by
      have short : params.length < 2 ^ 16 := by omega
      exact congrArg Host.Outcome.next
        (takeFrame_running runs short (fits := fun params => params.length == 5) (beq_iff_eq.mpr length) fun params t => t.takeFetch (field params 0 1) (field params 1 4))
    rw [taken]
    refine ⟨fun bad => ?_, fun low high => ⟨fun unsettled => ?_, fun settled => ⟨fun busy => ?_, fun idle => ?_⟩⟩⟩
    · rw [State.takeFetch_badOrigin (s := s.frameTaken (frame params)) bad]
      rfl
    · rw [State.takeFetch_notHeld (s := s.frameTaken (frame params)) low high unsettled]
      rfl
    · rw [State.takeFetch_busy (s := s.frameTaken (frame params)) low high settled busy]
      rfl
    · have idleTaken := State.takeFetch_idle (s := s.frameTaken (frame params)) low high settled idle
      have begins := State.fetchBegins (s := s.frameTaken (frame params)) (o := o) (n := n) runs ⟨quiet, claim⟩ settled
      rw [← idleTaken] at begins
      obtain ⟨sc, lc, hu, su, ra, ce, rp⟩ := begins.units
      refine ⟨_, rfl, begins.slot, begins.dataOut.trans ?_, sc, lc, hu, su, ra, ce, rp, begins.nu, begins.pending,
        (exec_course taken).arrayKept id, begins.looks, begins.lost⟩
      show erasedBytes (frame params).length = erasedBytes 7
      rw [length_frame, length]
  · have taken : exec (.fetchResult (frame [])) s = .next (s.frameTaken (frame [])).takeFetchResult :=
      congrArg Host.Outcome.next (takeFrame_running runs (by decide) rfl fun _ t => t.takeFetchResult)
    rw [taken, State.takeFetchResult]
    have job : (s.frameTaken (frame [])).ap.fetch = s.ap.fetch := rfl
    rw [job]
    refine ⟨fun idle => ?_, fun o n looking => ?_, fun o n r done => ?_⟩
    · rw [idle]
      rfl
    · rw [looking]
      rfl
    · rw [done]
      cases r with
      | ok payload => rfl
      | lost => rfl
      | damaged => rfl
      | notHeld => rfl

end Sys2Proof.Proofs

/-! The entry to JOINING (R52 to R55): the orphans counted, and what reclaim moves after it. -/

namespace Sys2Proof.Machine

open Sys2Proof.Safety

/-! ## The settled numbers of an entry, counted -/

theorem upFrom_add (a m n : Nat) : upFrom a (m + n) = upFrom a m ++ upFrom (a + m) n := by
  rw [upFrom, List.range_add, List.map_append, List.map_map, upFrom, upFrom]
  congr 1
  refine List.map_congr_left fun i _ => ?_
  show a + (m + i) = a + m + i
  omega

theorem countP_upFrom_all {p : Nat → Bool} {a n : Nat} (h : ∀ x, a ≤ x → x < a + n → p x = true) : (upFrom a n).countP p = n := by
  rw [List.countP_eq_length.mpr fun x mem => h x (mem_upFrom.mp mem).1 (mem_upFrom.mp mem).2, upFrom, List.length_map, List.length_range]

theorem countP_upFrom_none {p : Nat → Bool} {a n : Nat} (h : ∀ x, a ≤ x → x < a + n → p x = false) : (upFrom a n).countP p = 0 :=
  List.countP_eq_zero.mpr fun x mem => by rw [h x (mem_upFrom.mp mem).1 (mem_upFrom.mp mem).2]; exact Bool.false_ne_true

/-- The numbers in the gaps, counted. -/
theorem countP_gaps {top : Nat} : (gs : List Range) → {lo : Nat} → gapsOk lo top gs = true →
    (upFrom lo (top + 1 - lo)).countP (fun n => gs.any fun g => decide (g.lo ≤ n) && decide (n ≤ g.hi))
      = (gs.map fun g => g.hi + 1 - g.lo).sum
  | [], lo, _ => countP_upFrom_none fun _ _ _ => rfl
  | g :: gs, lo, ok => by
    obtain ⟨low, some_number, high, rest⟩ := gapsOk_cons.mp ok
    have later {x : Nat} (below : x < g.hi + 2) : (gs.any fun g => decide (g.lo ≤ x) && decide (x ≤ g.hi)) = false := by
      refine Classical.byContradiction fun inside => ?_
      have := (inGap_of_gapsOk rest (e := { floor := 0, top := top, gaps := gs }) rfl (eq_true_of_ne_false inside)).1
      omega
    have split : upFrom lo (top + 1 - lo)
        = (upFrom lo (g.lo - lo) ++ upFrom g.lo (g.hi + 1 - g.lo)) ++ (upFrom (g.hi + 1) 1 ++ upFrom (g.hi + 2) (top + 1 - (g.hi + 2))) := by
      have first : upFrom lo (g.hi + 1 - lo) = upFrom lo (g.lo - lo) ++ upFrom g.lo (g.hi + 1 - g.lo) := by
        rw [show g.hi + 1 - lo = (g.lo - lo) + (g.hi + 1 - g.lo) by omega, upFrom_add, Nat.add_sub_cancel' low]
      have second : upFrom (g.hi + 1) (top + 1 - (g.hi + 1)) = upFrom (g.hi + 1) 1 ++ upFrom (g.hi + 2) (top + 1 - (g.hi + 2)) := by
        rw [show top + 1 - (g.hi + 1) = 1 + (top + 1 - (g.hi + 2)) by omega, upFrom_add]
      rw [← first, ← second, show top + 1 - lo = (g.hi + 1 - lo) + (top + 1 - (g.hi + 1)) by omega, upFrom_add,
        Nat.add_sub_cancel' (show lo ≤ g.hi + 1 by omega)]
    have before : (upFrom lo (g.lo - lo)).countP (fun n => (g :: gs).any fun g => decide (g.lo ≤ n) && decide (n ≤ g.hi)) = 0 :=
      countP_upFrom_none fun x hx below => by
        rw [List.any_cons, later (by omega), decide_eq_false (show ¬ g.lo ≤ x by omega)]
        rfl
    have inside : (upFrom g.lo (g.hi + 1 - g.lo)).countP (fun n => (g :: gs).any fun g => decide (g.lo ≤ n) && decide (n ≤ g.hi))
        = g.hi + 1 - g.lo :=
      countP_upFrom_all fun x hx below => by
        rw [List.any_cons, decide_eq_true hx, decide_eq_true (show x ≤ g.hi by omega)]
        rfl
    have between : (upFrom (g.hi + 1) 1).countP (fun n => (g :: gs).any fun g => decide (g.lo ≤ n) && decide (n ≤ g.hi)) = 0 :=
      countP_upFrom_none fun x hx below => by
        rw [List.any_cons, later (by omega), decide_eq_false (show ¬ x ≤ g.hi by omega), Bool.and_false]
        rfl
    have after : (upFrom (g.hi + 2) (top + 1 - (g.hi + 2))).countP
        (fun n => (g :: gs).any fun g => decide (g.lo ≤ n) && decide (n ≤ g.hi)) = (gs.map fun g => g.hi + 1 - g.lo).sum := by
      rw [← countP_gaps gs rest]
      refine List.countP_congr fun x mem => ?_
      have := (mem_upFrom.mp mem).1
      rw [List.any_cons, decide_eq_false (show ¬ x ≤ g.hi by omega), Bool.and_false, Bool.false_or]
    rw [split, List.countP_append, List.countP_append, List.countP_append, before, inside, between, after, List.map_cons, List.sum_cons]
    omega

/-- The settled numbers of a well-formed entry. -/
theorem Entry.settledCount_eq {e : Entry} (w : entryOk e = true) :
    e.settledCount = (upFrom e.floor (e.top + 1 - e.floor)).countP fun n => e.settled n := by
  obtain ⟨-, -, gaps, -⟩ := entryOk_iff.mp w
  have settled : (upFrom e.floor (e.top + 1 - e.floor)).countP (fun n => e.settled n)
      = (upFrom e.floor (e.top + 1 - e.floor)).countP fun n => !e.inGap n := by
    refine List.countP_congr fun n mem => ?_
    obtain ⟨low, high⟩ := mem_upFrom.mp mem
    rw [Entry.settled_iff, Bool.not_eq_true']
    exact ⟨fun k => k.2.2, fun k => ⟨low, by omega, k⟩⟩
  have total := List.length_eq_countP_add_countP (l := upFrom e.floor (e.top + 1 - e.floor)) (p := fun n => e.inGap n)
  have length : (upFrom e.floor (e.top + 1 - e.floor)).length = e.top + 1 - e.floor := by rw [upFrom, List.length_map, List.length_range]
  have inside : (upFrom e.floor (e.top + 1 - e.floor)).countP (fun n => e.inGap n) = (e.gaps.map fun g => g.hi + 1 - g.lo).sum :=
    countP_gaps e.gaps gaps
  have not_gap : (upFrom e.floor (e.top + 1 - e.floor)).countP (fun n => decide ¬ e.inGap n = true)
      = (upFrom e.floor (e.top + 1 - e.floor)).countP fun n => !e.inGap n :=
    List.countP_congr fun n _ => by rw [decide_eq_true_eq, Bool.not_eq_true, Bool.not_eq_true']
  rw [Entry.settledCount, ← List.sum_eq_foldl, settled]
  omega

end Sys2Proof.Machine


namespace Sys2Proof.Machine

open Sys2Proof.Safety

/-- What reclaim does to the holdings, alone or behind refused re-drives: floors rise in the entries of the group, and the
report-pending flag tells (R83, R88, R160). -/
structure FloorsMove (s t : State) : Prop where
  sc : t.sc = s.sc
  floor : ∀ o, (s.entry o).floor ≤ (t.entry o).floor
  settled : ∀ o n, (t.entry o).settled n = true ↔ (t.entry o).floor ≤ n ∧ (s.entry o).settled n = true
  reported : s.groupSize ≤ 24 → (t.hu.reportPending = true ↔
    s.hu.reportPending = true ∨ ∃ o, 1 ≤ o ∧ o ≤ s.groupSize ∧ (t.entry o).floor ≠ (s.entry o).floor)
  beyond : ∀ o, s.originLimit < o → t.entry o = s.entry o

namespace FloorsMove

variable {s t u : State}

theorem groupSize (h : FloorsMove s t) : t.groupSize = s.groupSize :=
  congrArg (fun x : Sc => (x.settings.map Settings.groupSize).getD 0) h.sc

theorem originLimit (h : FloorsMove s t) : t.originLimit = s.originLimit := by rw [State.originLimit, h.sc, State.originLimit]

theorem trans (h : FloorsMove s t) (k : FloorsMove t u) : FloorsMove s u where
  sc := k.sc.trans h.sc
  floor o := Nat.le_trans (h.floor o) (k.floor o)
  settled o n := by
    rw [k.settled, h.settled]
    exact ⟨fun x => ⟨x.1, x.2.2⟩, fun x => ⟨x.1, Nat.le_trans (k.floor o) x.1, x.2⟩⟩
  reported small := by
    have moved (o : Nat) : (u.entry o).floor ≠ (s.entry o).floor
        ↔ (t.entry o).floor ≠ (s.entry o).floor ∨ (u.entry o).floor ≠ (t.entry o).floor := by
      have := h.floor o
      have := k.floor o
      omega
    simp only [k.reported (h.groupSize ▸ small), h.reported small, h.groupSize, or_assoc, moved, and_or_left, exists_or]
  beyond o high := (k.beyond o (h.originLimit.symm ▸ high)).trans (h.beyond o high)

theorem of_hu (sc : t.sc = s.sc) (hu : t.hu = s.hu) : FloorsMove s t := by
  have entry (o : Nat) : t.entry o = s.entry o := by rw [State.entry, hu, State.entry]
  refine ⟨sc, fun o => Nat.le_of_eq (by rw [entry]), fun o n => ?_, fun _ => ?_, fun o _ => entry o⟩
  · rw [entry]
    exact ⟨fun k => ⟨(Entry.settled_iff.mp k).1, k⟩, fun k => k.2⟩
  · rw [hu]
    exact ⟨.inl, fun k => k.elim id fun ⟨o, _, _, moved⟩ => absurd (by rw [entry]) moved⟩

end FloorsMove

namespace State

variable {s : State}

theorem select_beyond {o : Nat} (h : s.originLimit < o) (b : Nat) : (s.select b).entry o = s.entry o := by
  rw [select_entry]
  exact raiseFloors_entry_other _ _ (.inl h)

theorem reclaimRounds_beyond {o : Nat} : (n : Nat) → {s : State} → s.originLimit < o → (s.reclaimRounds n).entry o = s.entry o
  | 0, _, _ => rfl
  | n + 1, s, h => by
    unfold reclaimRounds
    split
    · next b _ =>
      have limit : (s.select b).originLimit = s.originLimit := by rw [originLimit, (select_keeps s b).sc, originLimit]
      exact (reclaimRounds_beyond n (limit ▸ h)).trans (select_beyond h b)
    · rfl

theorem evaluateReclaim_floorsMove (s : State) : FloorsMove s s.evaluateReclaim := by
  have reclaims := evaluateReclaim_reclaims s
  refine ⟨reclaims.sc, reclaims.floor, reclaims.settled, reclaims.reported, fun o h => ?_⟩
  unfold evaluateReclaim
  split
  · dsimp only
    split
    · exact reclaimRounds_beyond _ h
    · rfl
  · rfl

theorem programFailed_floorsMove (s : State) (p : PageAddr) : FloorsMove s (s.programFailed p) := by
  have failed : FloorsMove s (s.smProgramFailed p) := .of_hu (smProgramFailed_keeps s p).sc (by
    unfold smProgramFailed
    rw [notify_hu]
    rfl)
  exact (failed.trans (.of_hu (runCommit_keeps _).sc (runCommit_hu _))).trans (evaluateReclaim_floorsMove _)

theorem grantRounds_floorsMove : (n : Nat) → (s : State) → FloorsMove s (s.grantRounds n)
  | 0, s => .of_hu rfl rfl
  | n + 1, s => by
    by_cases w : NoRefusal s
    · exact .of_hu (grantRounds_keeps (n + 1) s).sc (grantRounds_grants (n + 1) s w).hu
    · cases running : s.storeRuns with
      | false =>
        rw [grantRounds_of_busy (.inl running)]
        exact .of_hu rfl rfl
      | true =>
        cases free : s.fc.op with
        | some op =>
          rw [grantRounds_of_busy (.inr (by rw [free]; rfl))]
          exact .of_hu rfl rfl
        | none =>
          obtain ⟨c, claim, kept, set⟩ := refusal_of_not_noRefusal w
          rw [grantRounds_refused running free claim kept set]
          have fails : FloorsMove s (s.setFc { s.fc with programClaim := none }).fcProgramFails := .of_hu rfl rfl
          exact (fails.trans (programFailed_floorsMove ..)).trans (grantRounds_floorsMove n _)

/-- Out of ACTIVE a command's end moves floors and nothing else of the holdings. -/
theorem settleAll_floorsMove (idle : s.station ≠ some .active) : FloorsMove s s.settleAll := by
  have first : FloorsMove s s.evaluateReclaim.grant := (evaluateReclaim_floorsMove s).trans (grantRounds_floorsMove _ _)
  refine first.trans (.of_hu (settleRepair_keeps _).sc (settleRepair_idle ?_))
  rwa [station, first.sc, ← station]

/-! ## CONFIGURE_TAKEN (R52 to R55) -/

/-- R159: a higher D makes no block less eligible. -/
theorem selection_of_durable {d : Nat} (low : s.hu.durable ≤ d)
    (rest : ({ s with hu := { s.hu with durable := d } } : State).selection = none) : s.selection = none := by
  cases chosen : s.selection with
  | none => rfl
  | some b =>
    obtain ⟨level, erasing, candidate, eligible⟩ := selection_eq_some_iff.mp chosen
    have wider : ({ s with hu := { s.hu with durable := d } } : State).eligible b = true := by
      rw [State.eligible, Bool.and_eq_true, List.all_eq_true] at eligible ⊢
      refine ⟨fun l mem => ?_, eligible.2⟩
      have := eligible.1 l mem
      rw [Bool.or_eq_true, decide_eq_true_eq] at this ⊢
      exact this.imp_right fun k => Nat.le_trans k low
    exact absurd (rest.symm.trans (selection_eq_some_iff.mpr ⟨level, erasing, candidate, wider⟩)) nofun

theorem evaluateReclaim_of_rest (rest : s.selection = none) : s.evaluateReclaim = s.setSm { s.sm with reclaimDue := false }
    ∨ s.evaluateReclaim = s := by
  unfold evaluateReclaim
  split
  · refine .inl ?_
    dsimp only
    rw [reclaimRounds_of_none rest]
    split
    · rfl
    · rfl
  · exact .inr rfl

/-- With no block to select, no re-drive to refuse and the station not ACTIVE, a command's end leaves the holdings. -/
theorem settleAll_hu_of_rest (rest : s.selection = none) (refusal : NoRefusal s) (idle : s.station ≠ some .active) :
    s.settleAll.hu = s.hu := by
  have reclaimed : s.evaluateReclaim.hu = s.hu ∧ NoRefusal s.evaluateReclaim ∧ s.evaluateReclaim.station = s.station := by
    rcases evaluateReclaim_of_rest rest with e | e
    · rw [e]
      exact ⟨rfl, refusal, rfl⟩
    · rw [e]
      exact ⟨rfl, refusal, rfl⟩
  obtain ⟨hu, refusal, station⟩ := reclaimed
  have grants := grant_grants refusal
  rw [settleAll, settleRepair_idle, grants.hu, hu]
  rw [State.station, grants.sc, ← State.station, station]
  exact idle

theorem selection_congr {t : State} {due : Bool} (own : t.own = s.own) (durable : t.hu.durable = s.hu.durable)
    (sm : t.sm = { s.sm with reclaimDue := due }) : t.selection = s.selection := by
  unfold selection eligible
  rw [own, durable, sm]
  rfl

/-- The settings of R53 applied, and D evaluated. -/
structure Entered (s : State) (c : Settings) (carrier : Bool) (e : State) : Prop where
  sc : e.sc = { s.sc with settings := some c, phase := .running .joining .none }
  fc : e.fc = s.fc
  sm : e.sm = { s.sm with reclaimDue := e.sm.reclaimDue }
  entry : ∀ o, e.entry o = if c.groupSize < o ∧ o ≤ 24 then Entry.reset else s.entry o
  pending : e.hu.reportPending = false
  timers : e.hu.reportTimer = true ∧ e.hu.line3 = true
  ap : e.ap = (s.orphans (s.settledAbove c.groupSize)).ap

theorem joined_entered (s : State) (c : Settings) (carrier : Bool) : Entered s c carrier (s.joined c carrier).evaluateDurable := by
  have same := evaluateDurable_same (s.joined c carrier)
  refine ⟨?_, ?_, ?_, fun o => (entry_evaluateDurable ..).trans (entry_joined s c carrier o), ?_, ?_, ?_⟩
  · rw [same]; rfl
  · rw [same]; rfl
  · rw [same]; rfl
  · rw [same]; rfl
  · rw [same]; exact ⟨rfl, rfl⟩
  · rw [same]; rfl

namespace Entered

variable {c : Settings} {carrier : Bool} {e : State} (h : Entered s c carrier e)
include h

theorem own : e.own = s.own := by rw [State.own, h.sc, State.own]
theorem groupSize : e.groupSize = c.groupSize := by rw [State.groupSize, h.sc]; rfl
theorem originLimit : e.originLimit = c.groupSize := by rw [State.originLimit, h.sc]; rfl
theorem idle : e.station ≠ some .active := by rw [State.station, h.sc]; exact fun k => by cases k

end Entered

/-- R55: what was settled above N is counted, entry by entry. -/
theorem settledAbove_eq {n : Nat} (w : ∀ o, n < o → o ≤ 24 → entryOk (s.entry o) = true) : s.settledAbove n
    = ((upFrom (n + 1) (24 - n)).map fun o => (upFrom (s.entry o).floor ((s.entry o).top + 1 - (s.entry o).floor)).countP
        fun m => (s.entry o).settled m).foldl (· + ·) 0 := by
  have counts : (upFrom (n + 1) (24 - n)).map (fun o => (s.entry o).settledCount) = (upFrom (n + 1) (24 - n)).map fun o =>
      (upFrom (s.entry o).floor ((s.entry o).top + 1 - (s.entry o).floor)).countP fun m => (s.entry o).settled m := by
    refine List.map_congr_left fun o mem => ?_
    obtain ⟨low, high⟩ := mem_upFrom.mp mem
    exact Entry.settledCount_eq (w o (by omega) (by omega))
  rw [settledAbove, show Config.maxStations = 24 from rfl, counts]

theorem Entered.orphaned {c : Settings} {carrier : Bool} {e : State} (h : Entered s c carrier e) :
    e.counter .orphaned = min 65535 (s.counter .orphaned + s.settledAbove c.groupSize) := by
  rw [counter_of_ap h.ap, orphans, counter_raise, if_pos rfl]

theorem validSettings_eq_none {own : Nat} {params : List Byte} (h : ∀ c, settingsOf params = some c → c.inRange own = false) :
    validSettings own params = none := by
  rw [validSettings, Option.filter_eq_none_iff]
  intro c settings
  rw [h c settings]
  exact Bool.false_ne_true

theorem validSettings_eq_some {own : Nat} {params : List Byte} {c : Settings} (settings : settingsOf params = some c)
    (range : c.inRange own = true) : validSettings own params = some c := by
  rw [validSettings, settings, Option.filter_some, if_pos range]

/-- What the entry to JOINING makes of the holdings and of the presence of the stations. -/
structure Configures (s : State) (c : Settings) (t : State) : Prop where
  above : ∀ o, c.groupSize < o → o ≤ 24 → t.entry o = Entry.reset
  orphaned : t.counter .orphaned = min 65535 (s.counter .orphaned + s.settledAbove c.groupSize)
  still : NoRefusal s → ({ s with hu := { s.hu with durable := t.hu.durable } } : State).selection = none →
    ∀ o, o ≤ c.groupSize → t.entry o = s.entry o
  floor : ∀ o, o ≤ c.groupSize → (s.entry o).floor ≤ (t.entry o).floor
  settled : ∀ o, o ≤ c.groupSize → ∀ n, (t.entry o).floor ≤ n → (t.entry o).settled n = (s.entry o).settled n
  reported : t.hu.reportPending = true ↔ ∃ o, 1 ≤ o ∧ o ≤ c.groupSize ∧ (t.entry o).floor ≠ (s.entry o).floor
  cells : ∀ p o, t.cell p o = none
  present : t.presenceOf s.own = .present
  unknown : ∀ p, p ≠ s.own → t.presenceOf p = .unknown
  silent : ∀ p, lineOf t.hu.silence false p = false
  timers : t.hu.reportTimer = true ∧ t.hu.line3 = true
  ownTop : s.ownTop ≤ t.ownTop
  attnOk : AttnOk t

theorem accept_configures {c : Settings} (carrier : Bool) (range : c.inRange s.own = true) (low : 1 ≤ s.own) :
    Configures s c (s.accept c carrier) := by
  have entered := joined_entered s c carrier
  have keeps := accept_keeps s c carrier
  have top : (s.joined c carrier).ownTop = s.ownTop := ownTop_joined carrier range
  have attn : AttnOk (s.joined c carrier) := rfl
  have ends : s.accept c carrier = (s.joined c carrier).evaluateDurable.settleAll := rfl
  generalize s.accept c carrier = t at keeps ends
  generalize (s.joined c carrier).evaluateDurable = e at entered ends
  have moves := settleAll_floorsMove entered.idle
  have settles := settleAll_settles e
  rw [← ends] at moves settles
  have own := own_le_groupSize range
  have small : c.groupSize ≤ 24 := by
    simp only [Settings.inRange, Bool.and_eq_true, decide_eq_true_eq] at range
    omega
  have within {o : Nat} (inside : o ≤ c.groupSize) : e.entry o = s.entry o := (entered.entry o).trans (if_neg (by omega))
  have presence : t.hu.presence = setLine (Vector.replicate 24 .unknown) s.own .present := keeps.presence
  refine ⟨fun o high top => ?_, (settles.same (by decide)).trans entered.orphaned, fun refusal selects o inside => ?_,
    fun o inside => within inside ▸ moves.floor o, fun o inside n above => ?_, ?_, fun p o => ?_, ?_, fun p other => ?_, fun p => ?_, ?_,
    top ▸ keeps.ownTop, keeps.attnOk attn⟩
  · exact (moves.beyond o (by rw [entered.originLimit]; exact high)).trans ((entered.entry o).trans (if_pos ⟨high, top⟩))
  · have nothing : e.selection = none := by
      refine selection_of_durable settles.keeps.durable ?_
      rw [← selects]
      exact selection_congr entered.own rfl entered.sm
    have refusal : NoRefusal e := by
      unfold NoRefusal
      rw [entered.fc]
      exact refusal
    rw [← within inside, entry, ends, settleAll_hu_of_rest nothing refusal entered.idle, ← entry]
  · have settled := moves.settled o n
    rw [within inside, and_iff_right above] at settled
    exact Bool.eq_iff_iff.mpr settled
  · rw [moves.reported (entered.groupSize.symm ▸ small), entered.pending, entered.groupSize]
    refine (or_iff_right Bool.false_ne_true).trans (exists_congr fun o => and_congr_right fun _ => and_congr_right fun inside => ?_)
    rw [within inside]
  · unfold cell row
    rw [keeps.matrix]
    exact cell_joined s c carrier p o
  · rw [presenceOf, presence, lineOf_setLine, if_pos ⟨rfl, low, Nat.le_trans own small⟩]
  · rw [presenceOf, presence, lineOf_setLine, if_neg fun k => other k.1.symm, lineOf_replicate]
  · rw [keeps.silence]
    exact lineOf_replicate 24 false p
  · rw [settles.hu]
    exact entered.timers

end State

end Sys2Proof.Machine

namespace Sys2Proof.Proofs

open Sys2Proof.Machine Sys2Proof.Safety

/-- Settles O47. -/
theorem configureTaken : Obligations.ConfigureTaken := by
  intro s carrier h rest oldest answered
  have answer (v : State) (st : Status) : v.answer h.owed st [] = { v with ap := { v.ap with
      slot := if h.owed then .ready { status := st, data := [], armsReset := false } else v.ap.slot } } := by
    unfold State.answer
    split
    · rfl
    · rfl
  refine ⟨fun waits bad => ?_, fun other => ?_, fun c waits settings range low => ?_⟩
  · show execConfigureTaken carrier s = _
    have awaits : (s.station == some .awaitConfig) = true := beq_iff_eq.mpr waits
    rw [execConfigureTaken, oldest]
    dsimp only
    rw [awaits, if_pos rfl, State.validSettings_eq_none bad]
    exact congrArg Host.Outcome.next (answer ..)
  · show execConfigureTaken carrier s = _
    have elsewhere : (s.station == some .awaitConfig) = false := beq_eq_false_iff_ne.mpr other
    rw [execConfigureTaken, oldest]
    dsimp only
    rw [elsewhere]
    exact congrArg Host.Outcome.next (answer ..)
  · have done : exec (.configureTaken carrier) s = .next (((s.setAp { s.ap with configures := rest }).accept c carrier).answer h.owed .ok []) := by
      show execConfigureTaken carrier s = _
      have awaits : (s.station == some .awaitConfig) = true := beq_iff_eq.mpr waits
      rw [execConfigureTaken, oldest]
      dsimp only
      rw [awaits, if_pos rfl, State.validSettings_eq_some settings range]
    rw [answer] at done
    have kept := (exec_course done).arrayKept id
    have keeps := State.accept_keeps (s.setAp { s.ap with configures := rest }) c carrier
    have configures := State.accept_configures (s := s.setAp { s.ap with configures := rest }) carrier range low
    generalize (s.setAp { s.ap with configures := rest }).accept c carrier = t at done kept keeps configures
    refine ⟨_, done, keeps.sc, configures.above, ?_, configures.still, fun o inside => ⟨configures.floor o inside, configures.settled o inside⟩,
      configures.reported, configures.cells, configures.present, configures.unknown, configures.silent, configures.timers.1,
      configures.timers.2, keeps.lc, ?_, keeps.configures, configures.ownTop, keeps.durable, configures.attnOk, kept, keeps.pending⟩
    · intro wellFormed settledIn
      have counted : t.counter .orphaned = min 65535 (s.counter .orphaned + s.settledAbove c.groupSize) := configures.orphaned
      rw [State.settledAbove_eq wellFormed] at counted
      exact counted
    · have slot : t.ap.slot = s.ap.slot := keeps.slot
      show (if h.owed then _ else t.ap.slot) = _
      rw [slot]

end Sys2Proof.Proofs
